-- ==== Sys2Proof/Word.lean ====
section
/-! DEFINITION. The words, numbers and node sets of the part (spec 00 Table 0-1, 01 R1, 12 R181). -/

namespace Sys2Proof

/-- A byte of a message or of an SPI frame. -/
abbrev Byte := BitVec 8

/-- A management register (12.1: 32 bits). -/
abbrev Word32 := BitVec 32

/-- A line number, 34 bits (R1). -/
abbrev Line := BitVec 34

/-- A way key, 23 bits (R1). -/
abbrev Key := BitVec 23

/-- A caching node, N0 to N7 (0.2). -/
abbrev Node := Fin 8

/-- A way of a set, W0 to W15 (1.1). -/
abbrev WayIx := Fin 16

/-- A set index (R1). -/
abbrev SetIx := Fin 2048

/-- A transaction slot, T0 to T47 (R22). -/
abbrev SlotIx := Fin 48

/-- A home window, window 0 to window 7 (6.1). -/
abbrev WinIx := Fin 8

/-- A set of nodes as the part reports it: bit n for Nn (12.4). -/
abbrev NodeSet := BitVec 8

/-- A counter register that holds at its maximum (R187). -/
def satInc {w : Nat} (c : BitVec w) : BitVec w :=
  if c = BitVec.allOnes w then c else c + 1#w

/-- The node set naming one node. -/
def NodeSet.single (n : Node) : NodeSet := 1#8 <<< n.val

/-- Whether the set names the node. -/
def NodeSet.has (m : NodeSet) (n : Node) : Bool := m.getLsbD n.val

/-- The set with the node added. -/
def NodeSet.add (m : NodeSet) (n : Node) : NodeSet := m ||| NodeSet.single n

/-- The set with the node removed. -/
def NodeSet.remove (m : NodeSet) (n : Node) : NodeSet := m &&& ~~~ NodeSet.single n

/-- The nodes of the set in ascending order of node number. -/
def NodeSet.toList (m : NodeSet) : List Node := (List.finRange 8).filter (fun n => NodeSet.has m n)

/-- The nodes a test picks out. -/
def NodeSet.ofTest (p : Node → Bool) : NodeSet :=
  (List.finRange 8).foldl (fun m n => if p n then NodeSet.add m n else m) 0#8

end Sys2Proof
end

