-- ==== Sys2Proof/Config.lean ====
section
/-! DEFINITION. The figures an implementation of the part fixes (spec 00 Table 0-1, 12 Table 12-2) and the values
the spec leaves open (notes/assumptions/18.md). -/

namespace Sys2Proof.Config

/-- Messages an intake holds (R176). -/
def intakeCapacity : Nat := 16

/-- Messages an outbound queue holds (R177). -/
def queueCapacity : Nat := 64

/-- Store notices the table holds (R70). -/
def noticeCapacity : Nat := 16

/-- Request credits of a LIVE node (R33). -/
def creditLimit : Nat := 6

/-- Free slots an admission needs (R32). -/
def admissionSlots : Nat := 5

/-- Free slots an opening by the Walk Engine needs (R31). -/
def walkSlots : Nat := 3

/-- Sets of the Line Directory (R1). -/
def setCount : Nat := 2048

/-- Power-on values of the limits (Table 12-2). -/
def orderTimeoutDefault : Word32 := 100#32
def retryLimitDefault : Word32 := 3#32
def noticeLifetimeDefault : Word32 := 1000#32
def scrubIntervalDefault : Word32 := 50000#32
def correctedLimitDefault : Word32 := 16#32

/-- DESIGN CHOICE, safe (log 4): how many closes, activations and settlings of one event the model carries out before
it stops with `cascadeUnfinished`. -/
def cascadeBound : Nat := 20000

/-- Free value (log 18): which of several candidates the part takes where the spec does not say (the damaged way a
finding names when a set has several). Nothing is known of it. -/
opaque freePick : Nat → Nat

/-- Free value (log 18): the kind INSPECT_SLOT reports for a pending round that holds REVOKEs and a FETCH. -/
opaque freeRoundKind : Nat → Word32

/-- Free value (log 18): bits 7 to 0 of parameter byte k of an outbound message where Table 11-3 gives them no
meaning. -/
opaque freeParameter : Nat → Nat → Byte

end Sys2Proof.Config
end

