-- ==== Sys2Proof/Syntax.lean ====
section
/-! DEFINITION. The commands of the block: one constructor per row of spec/opcode_table.json, in the table's order.
A command that delivers an intake's head has no operand of its own: what it acts on are the fields of that message
(notes/assumptions/1.md). A mailbox command takes its arguments from ARG0 to ARG3 (R183). -/

namespace Sys2Proof

/-- The level of a pin. -/
inductive Level where
  | low
  | high
deriving DecidableEq, Repr

/-- The two inbound channels (Table 11-1). -/
inductive InChannel where
  | request
  | reply
deriving DecidableEq, Repr

/-- The two outbound queues (Table 11-1). -/
inductive OutQueue where
  | order
  | answer
deriving DecidableEq, Repr

/-- The five limit registers, in the order of their register numbers (Table 12-1, Table 12-2). -/
inductive LimitName where
  | orderTimeout
  | retryLimit
  | noticeLifetime
  | scrubInterval
  | correctedLimit
deriving DecidableEq, Repr

/-- The commands. Slot operands are slot numbers, register operands register numbers. -/
inductive Instr where
  | linkMessageReceived (ch : InChannel) (bytes : List Byte)
  | readShared
  | readOwn
  | upgrade
  | writeback
  | drop
  | hello
  | helloFromMemoryAgent
  | leave
  | revokeAck
  | forwardDone
  | recallDone
  | surrenderDone
  | complete
  | fetchSent
  | fetchFailed
  | absorbDone
  | orderTimerExpiry (slot : Nat)
  | grantTimerExpiry (slot : Nat)
  | storeWaitExpiry (slot : Nat)
  | observingWaitExpiry (slot : Nat)
  | collectingExpiry (slot : Nat)
  | noticeAgeExpiry (line : Line) (node : Node)
  | purgeSetStep
  | retireSetStep
  | flushSetStep
  | scrubIntervalExpiry
  | clearPoisonSetPass
  | outboundSend (queue : OutQueue)
  | signalDetected
  | trainingComplete
  | trainingFailed
  | lossOfTraining
  | resetn (level : Level)
  | limitWrite (limit : LimitName) (value : Word32)
  | eventFlagsWrite (value : Word32)
  | eventEnableWrite (value : Word32)
  | viewSnapshotRead (register : BitVec 16)
  | registerWrite (frame : List Byte)
  | badCommand (code : Word32)
  | setWindow
  | openWindow
  | retireWindow
  | flushAll
  | pauseMaint
  | resumeMaint
  | abortMaint
  | inspectLine
  | inspectWay
  | inspectSlot
  | nodeEvict
  | clearPoison
  | clearPoisonAll
  | clearCapture
  | clearCounters
  | linkSet
  | portReset
  | dirReset
deriving DecidableEq, Repr

end Sys2Proof
end

