-- ==== Sys2Proof/WellFormed.lean ====
section
/-! DEFINITION. Which commands the part can be given: a link message has 12 bytes (11.4), a slot number is 0 to 47
(R22), a snapshot is taken by a read of a first word (R189), a bad command's code is not in Table 12-3 (R183), a write
frame says write (R181). The meanings are total all the same: an ill-formed command is taken as the rule it falls
under says (notes/assumptions/20.md). -/

namespace Sys2Proof

/-- A slot number of Table 2-1. -/
def slotInRange (t : Nat) : Bool := decide (t < 48)

/-- The registers whose read takes a snapshot: the first word of a view of more than one word, and CAPTURE0 (R189). -/
def isSnapshotRegister (r : BitVec 16) : Bool :=
  r == 0x0050#16 || r == 0x00B0#16 ||
  (decide (0x60 ≤ r.toNat ∧ r.toNat < 0x70) && decide (r.toNat % 2 = 0)) ||
  (decide (0x80 ≤ r.toNat ∧ r.toNat < 0xA0) && decide (r.toNat % 4 = 0))

/-- The codes of Table 12-3. -/
def isCommandCode (c : Word32) : Bool := decide (1 ≤ c.toNat ∧ c.toNat ≤ 0x11)

/-- A whole SPI frame that writes (R181). -/
def isWriteFrame (f : List Byte) : Bool := decide (7 ≤ f.length) && f.head? == some 0x01#8

/-- A command as the spec admits it. -/
def Instr.wellFormed : Instr → Bool
  | .linkMessageReceived _ bytes => decide (bytes.length = 12)
  | .orderTimerExpiry t => slotInRange t
  | .grantTimerExpiry t => slotInRange t
  | .storeWaitExpiry t => slotInRange t
  | .observingWaitExpiry t => slotInRange t
  | .collectingExpiry t => slotInRange t
  | .viewSnapshotRead r => isSnapshotRegister r
  | .registerWrite f => isWriteFrame f
  | .badCommand c => !isCommandCode c
  | .readShared => true
  | .readOwn => true
  | .upgrade => true
  | .writeback => true
  | .drop => true
  | .hello => true
  | .helloFromMemoryAgent => true
  | .leave => true
  | .revokeAck => true
  | .forwardDone => true
  | .recallDone => true
  | .surrenderDone => true
  | .complete => true
  | .fetchSent => true
  | .fetchFailed => true
  | .absorbDone => true
  | .noticeAgeExpiry _ _ => true
  | .purgeSetStep => true
  | .retireSetStep => true
  | .flushSetStep => true
  | .scrubIntervalExpiry => true
  | .clearPoisonSetPass => true
  | .outboundSend _ => true
  | .signalDetected => true
  | .trainingComplete => true
  | .trainingFailed => true
  | .lossOfTraining => true
  | .resetn _ => true
  | .limitWrite _ _ => true
  | .eventFlagsWrite _ => true
  | .eventEnableWrite _ => true
  | .setWindow => true
  | .openWindow => true
  | .retireWindow => true
  | .flushAll => true
  | .pauseMaint => true
  | .resumeMaint => true
  | .abortMaint => true
  | .inspectLine => true
  | .inspectWay => true
  | .inspectSlot => true
  | .nodeEvict => true
  | .clearPoison => true
  | .clearPoisonAll => true
  | .clearCapture => true
  | .clearCounters => true
  | .linkSet => true
  | .portReset => true
  | .dirReset => true

end Sys2Proof
end

