-- ==== Sys2Proof/Decode.lean ====
section
/-! DEFINITION. The decoder the host asks for. No row of spec/opcode_table.json gives bits, so no word spells a
command. The formats the spec does give (the 12-byte link messages of 11.4, the SPI frames of 12.1, the mailbox codes of
Table 12-3) are operands of commands, read in Machine/Operands.lean and Machine/Registers.lean. -/

namespace Sys2Proof

/-- The command a word of the opcode table spells: none, because the table gives no row any bits. -/
def decodeTableWord (_nbits _w : Nat) : Option Instr := none

end Sys2Proof
end

