-- ==== Sys2Proof/Machine/State.lean ====
section
/-! DEFINITION. Everything the spec gives the part to hold, as plain data, and its values after power-on reset.
Table and rule numbers name the place in spec/ each type follows; INVENTORY.md lists every piece. -/

namespace Sys2Proof.Machine

/-! ## The Line Directory (chapter 1) -/

/-- What a check code says of the field it covers (R143). A CORRECTABLE field is read as the value the code puts
right; how the code finds it is not specified (log 6). -/
inductive Check (α : Type) where
  | good
  | correctable (fixed : α)
  | uncorrectable
deriving DecidableEq, Repr

/-- A field stored with its check code (R2, R143). -/
structure Coded (α : Type) where
  stored : α
  check : Check α
deriving DecidableEq, Repr

/-- Occupancy, state, sharers and owner of an entry together, so that only the fields of Table 1-3 are present. -/
inductive Content where
  | free
  | reserved
  | shared (sharers : NodeSet)
  | owned (owner : Node)
  | poisoned
deriving DecidableEq, Repr

/-- The fields the body check covers (Table 1-2). -/
structure Body where
  content : Content
  heldBy : Option SlotIx
  release : Bool
deriving DecidableEq, Repr

/-- A way record (Table 1-2). A FREE way has no key (R2). -/
structure Way where
  key : Coded (Option Key)
  body : Coded Body
deriving DecidableEq, Repr

/-- A set: its 16 ways, its recency order front first (R16) and its freeze mark (R18). -/
structure SetRec where
  ways : Vector Way 16
  order : List WayIx
  frozen : Bool
deriving DecidableEq, Repr

/-- A FREE way with matching codes (R21). -/
def freeWay : Way :=
  ⟨⟨none, .good⟩, ⟨⟨.free, none, false⟩, .good⟩⟩

/-- A set after power-on reset: 16 FREE ways, order W0 to W15, mark clear (R21). -/
def blankSet : SetRec := ⟨Vector.replicate 16 freeWay, List.finRange 16, false⟩

/-! ## Messages (chapter 11) -/

/-- A partner on the fabric (0.2). -/
inductive Peer where
  | node (n : Node)
  | memory
deriving DecidableEq, Repr

/-- The five node request kinds. -/
inductive ReqKind where
  | readShared
  | readOwn
  | upgrade
  | writeback
  | drop
deriving DecidableEq, Repr

/-- A message of the REQUEST intake, past both checks (R176, R179). -/
inductive ReqMsg where
  | request (kind : ReqKind) (source : Node) (line : Line)
  | hello (source : Peer)
  | leave (source : Node)
deriving DecidableEq, Repr

/-- The result of a FORWARD or RECALL (Table 11-4). -/
inductive Result where
  | clean
  | dirty
  | notHeld
deriving DecidableEq, Repr

/-- A message of the REPLY intake, past both checks. -/
inductive ReplyMsg where
  | revokeAck (source : Node) (line : Line)
  | forwardDone (source : Node) (line : Line) (result : Result)
  | recallDone (source : Node) (line : Line) (result : Result)
  | surrenderDone (source : Node) (set : SetIx) (dirty : Nat)
  | complete (source : Node) (line : Line)
  | fetchSent (line : Line)
  | fetchFailed (line : Line)
  | absorbDone (line : Line) (stored : Node)
deriving DecidableEq, Repr

/-- The mode of a FORWARD (Table 11-4). -/
inductive Mode where
  | share
  | move
deriving DecidableEq, Repr

/-- A permission (Table 11-4). -/
inductive Permission where
  | shared
  | owned
deriving DecidableEq, Repr

/-- Where the data of a GRANT comes from (R50). -/
inductive Source where
  | memory
  | node (n : Node)
  | noSource
deriving DecidableEq, Repr

/-- A refusal reason (Table 2-5). -/
inductive Reason where
  | tableFull
  | setFull
  | setFrozen
  | noHome
  | denied
  | readOnly
  | retiring
  | notLive
  | poisoned
  | memoryFault
  | violation
deriving DecidableEq, Repr

/-- The request kind a REFUSE names: a node request kind, or LEAVE (Table 11-3). -/
inductive RefusedKind where
  | request (k : ReqKind)
  | leave
deriving DecidableEq, Repr

/-- A message of the ORDER queue; `rep` is the repeat flag. -/
inductive Order where
  | revoke (dest : Node) (line : Line) (rep : Bool)
  | forward (dest : Node) (line : Line) (target : Node) (mode : Mode) (rep : Bool)
  | recall (dest : Node) (line : Line) (rep : Bool)
  | surrender (dest : Node) (set : SetIx) (rep : Bool)
  | fetch (line : Line) (target : Node) (rep : Bool)
deriving DecidableEq, Repr

/-- A message of the ANSWER queue. -/
inductive Answer where
  | grant (dest : Node) (line : Line) (perm : Permission) (source : Source) (untracked : Bool) (rep : Bool)
  | refuse (dest : Node) (line : Line) (kind : RefusedKind) (reason : Reason)
  | wbDone (dest : Node) (line : Line) (stale : Bool)
  | dropped (dest : Node) (line : Line) (stale : Bool)
  | welcome (dest : Peer)
  | farewell (dest : Node)
deriving DecidableEq, Repr

/-! ## The Transaction Table (chapter 2) -/

/-- A transaction's kind (Table 2-1). -/
inductive Kind where
  | readShared
  | readOwn
  | upgrade
  | writeback
  | drop
  | victimRecall
  | leaveRecall
  | retireRecall
  | flushRecall
  | setRebuild
deriving DecidableEq, Repr

/-- A transaction's phase (Table 2-2). -/
inductive Phase where
  | parked
  | awaitVictim
  | awaitReplies
  | awaitStore
  | awaitComplete
  | rebuild
deriving DecidableEq, Repr

/-- The memory wait of an active transaction (R25, Table 4-2). -/
inductive MemWait where
  | noWait
  | fetchSent
  | consuming (n : Node)
  | observing (n : Node)
  | counted
deriving DecidableEq, Repr

/-- What the awaited nodes owe an answer to (Table 4-4), as far as a re-send needs it (R131, R135). -/
inductive Outstanding where
  | nothing
  | revoke
  | forward (mode : Mode)
  | recall
  | surrender
  | grant (perm : Permission) (source : Source) (untracked : Bool)
deriving DecidableEq, Repr

/-- A message decided and not yet placed (R40): an order round, `fresh` unless it is a re-send (R132), or an answer. A
round stays here while its transaction awaits what it asks for; see `OrderHolder` for one that has gone on. -/
inductive Pending where
  | round (orders : List Order) (fresh : Bool)
  | answer (a : Answer)
deriving DecidableEq, Repr

/-- The working copy of a held entry and the way it belongs to (R11). -/
structure Working where
  way : WayIx
  content : Content
deriving DecidableEq, Repr

/-- The stage of a set rebuild (Table 9-2). -/
inductive Stage where
  | waitingHolders
  | surrendering
  | collecting
deriving DecidableEq, Repr

/-- Where a transaction that took the set rebuild role goes on (R157). -/
inductive Resume where
  | lookup
  | allocation
  | close
deriving DecidableEq, Repr

/-- A node's stores in a set rebuild (R153, R155): due is unset until the node has answered. -/
structure Tally where
  due : Option Nat
  taken : Nat
deriving DecidableEq, Repr

/-- What a slot in phase REBUILD keeps (R148, R153). -/
inductive Rebuild where
  /-- a line rebuild, and whether a DIRTY answer has been taken (R148) -/
  | line (dirty : Bool)
  /-- a set rebuild: stage, whether the SURRENDER round has been placed (R155), where it resumes, stores per node -/
  | set (stage : Stage) (placed : Bool) (resume : Resume) (stores : Vector Tally 8)
deriving DecidableEq, Repr

/-- A slot record (Table 2-1), with the fields chapters 8 to 10 add. -/
structure Slot where
  kind : Kind
  requester : Option Node
  line : Option Line
  set : Option SetIx
  window : Option WinIx
  phase : Phase
  awaited : NodeSet
  memWait : MemWait
  outstanding : Outstanding
  working : Option Working
  victimLink : Option SlotIx
  converted : Bool
  retriesLeft : Nat
  timer : Option Nat
  pending : Option Pending
  rank : Option Nat
  rebuild : Option Rebuild
  target : Option Node
  repair : Bool
  counted : Bool
deriving DecidableEq, Repr

/-! ## Notices, nodes, windows (chapters 4, 6, 7) -/

/-- A store notice (Table 4-1). -/
structure Notice where
  line : Line
  node : Node
  claimed : Bool
  age : Nat
deriving DecidableEq, Repr

/-- A node's membership state (Table 7-1). -/
inductive NodeState where
  | absent
  | live
  | leaving
  | purging
  | lost
deriving DecidableEq, Repr

/-- A purge reason (Table 7-1). -/
inductive PurgeReason where
  | leave
  | lost
  | evicted
  | restart
deriving DecidableEq, Repr

/-- A node record (Table 7-1). -/
structure NodeRec where
  state : NodeState
  reason : Option PurgeReason
  credits : Nat
  timeouts : BitVec 8
  violations : BitVec 8
  stale : BitVec 8
deriving DecidableEq, Repr

/-- The memory agent's state (R112). -/
inductive MemState where
  | absent
  | live
  | failed
deriving DecidableEq, Repr

/-- A window's state (Table 6-1). -/
inductive WinState where
  | closed
  | live
  | retiring
deriving DecidableEq, Repr

/-- A window's kind (Table 6-1). -/
inductive WinKind where
  | tracked
  | direct
  | sharedOnly
deriving DecidableEq, Repr

/-- How far a retirement has come (Table 6-1). -/
inductive Progress where
  | walking
  | draining
  | aborting
deriving DecidableEq, Repr

/-- A window record (Table 6-1). -/
structure Window where
  state : WinState
  start : Line
  limit : Line
  kind : WinKind
  allowed : NodeSet
  openCount : Nat
  progress : Option Progress
deriving DecidableEq, Repr

/-! ## The Walk Engine (chapter 10) -/

/-- A purge job's mode (Table 10-1). -/
inductive PurgeMode where
  | messaging
  | silent
deriving DecidableEq, Repr

/-- A purge job (Table 10-1); its node is its place in the table. -/
structure PurgeJob where
  mode : PurgeMode
  setsLeft : Nat
  openRecalls : Nat
deriving DecidableEq, Repr

/-- The purge cursor's step in hand: the nodes whose jobs take part, and the ways still to be looked at for each
MESSAGING job, in the order of the openings (R161, R163). -/
structure PurgeStep where
  nodes : NodeSet
  todo : List (WayIx × Node)
deriving DecidableEq, Repr

/-- A maintenance job's kind (Table 10-2). -/
inductive MaintKind where
  | retire
  | flush
  | scrub
deriving DecidableEq, Repr

/-- A maintenance job's run state (Table 10-2). -/
inductive RunState where
  | running
  | pausing
  | paused
  | finishing
  | aborting
deriving DecidableEq, Repr

/-- A maintenance job (Table 10-2). For a SCRUB the next set is the scrub position. `walked` records that a FLUSH walk is
finished, which it stays whatever set freezes later (R165). -/
structure MaintJob where
  kind : MaintKind
  window : Option WinIx
  run : RunState
  nextSet : Nat
  owed : Bool
  openCount : Nat
  interval : Option Nat
  walked : Bool
deriving DecidableEq, Repr

/-! ## The Fabric Port (chapter 11) -/

/-- The link state (R172). -/
inductive LinkState where
  | down
  | training
  | up
deriving DecidableEq, Repr

/-- A width setting (R172). -/
inductive Width where
  | four
  | eight
deriving DecidableEq, Repr

/-- A rate step (R172). -/
inductive Rate where
  | one
  | two
  | three
deriving DecidableEq, Repr

/-- A width and rate setting (R172). -/
structure Setting where
  width : Width
  rate : Rate
deriving DecidableEq, Repr

/-- What is held for the ORDER queue: the pending round of a slot, or a round whose transaction has gone on before there was
room for it (R40, R132; log 12), with the slot as long as that transaction is in use. -/
inductive OrderHolder where
  | slot (t : SlotIx)
  | left (t : Option SlotIx) (orders : List Order)
deriving DecidableEq, Repr

/-- Who holds a message for the ANSWER queue: a slot, the Request Intake, the Node Table for a node (R174). -/
inductive AnswerHolder where
  | slot (t : SlotIx)
  | intake
  | membership (n : Node)
deriving DecidableEq, Repr

/-! ## The Management Port (chapter 12) -/

/-- The limit registers (Table 12-2). -/
structure Limits where
  orderTimeout : Word32
  retryLimit : Word32
  noticeLifetime : Word32
  scrubInterval : Word32
  correctedLimit : Word32
deriving DecidableEq, Repr

/-- The mailbox state (R183). -/
inductive MailboxState where
  | idle
  | busy
  | done
  | failed
deriving DecidableEq, Repr

/-- A result code (Table 12-4). -/
inductive ResultCode where
  | ok
  | badCommand
  | badArgument
  | busy
  | windowBusy
  | badRange
  | overlap
  | notOpen
  | maintBusy
  | notRunning
  | notPaused
  | nodeState
  | notPoisoned
  | damaged
deriving DecidableEq, Repr

/-- The counters of Table 12-7 that no node record holds. -/
structure Counters where
  corrected : BitVec 16
  uncorrected : BitVec 16
  linkCheck : BitVec 16
  refusedTableFull : BitVec 16
  refusedSetFull : BitVec 16
  refusedSetFrozen : BitVec 16
  noticesDropped : BitVec 8
deriving DecidableEq, Repr

/-- The 16 event flags (Table 12-6). -/
inductive Event where
  | joined
  | left
  | restarted
  | nodeLost
  | linePoisoned
  | memoryFailed
  | correctedLimit
  | entryDamaged
  | setDamaged
  | protocolViolation
  | noticeDropped
  | maintDone
  | maintAborted
  | linkDown
  | linkUp
  | commandDone
deriving DecidableEq, Repr

/-- A capture cause (Table 12-8). -/
inductive Cause where
  | nodeLost
  | linePoisoned
  | memoryFailed
  | entryDamaged
  | setDamaged
  | violation
deriving DecidableEq, Repr

/-- The five optional fields of the fault capture record (R188). -/
structure FaultFields where
  line : Option Line
  node : Option Peer
  set : Option SetIx
  way : Option WayIx
  slot : Option SlotIx
deriving DecidableEq, Repr

/-- A valid fault capture record (R188). -/
structure Capture where
  cause : Cause
  fields : FaultFields
  further : BitVec 4
deriving DecidableEq, Repr

/-- The running pass of CLEAR_POISON naming ALL (R141). -/
structure PoisonPass where
  next : Nat
  freed : Nat
  marked : Nat
  skipped : Nat
deriving DecidableEq, Repr

/-! ## The state -/

/-- Everything the part holds. -/
structure State where
  /-- LD: the sets that differ from `blankSet`, by rising set index (log 7) -/
  dir : List (SetIx × SetRec)
  /-- TT: the 48 slots -/
  slots : Vector (Option Slot) 48
  /-- SN: the store notices -/
  notices : List Notice
  /-- NT: the node records -/
  nodes : Vector NodeRec 8
  /-- NT: the memory agent's state -/
  mem : MemState
  /-- NT: the memory agent's TIMEOUTS -/
  memTimeouts : BitVec 8
  /-- NT: a WELCOME or FAREWELL held for room (R123) -/
  ntHeld : Vector (Option Answer) 8
  /-- WT: the window records -/
  windows : Vector Window 8
  /-- WE: the purge cursor's position -/
  purgePos : SetIx
  /-- WE: the purge jobs; the purge set is the nodes that have one -/
  purgeJobs : Vector (Option PurgeJob) 8
  /-- WE: the purge step in hand -/
  purgeStep : Option PurgeStep
  /-- WE: the maintenance job -/
  maint : Option MaintJob
  /-- WE: the ways the maintenance step in hand has still to take -/
  maintStep : Option (List WayIx)
  /-- WE: the scrub position -/
  scrubPos : SetIx
  /-- RI: a REFUSE or membership answer held for room (R35, R37) -/
  riHeld : Option Answer
  /-- FP: the link state -/
  link : LinkState
  /-- FP: the setting training uses -/
  curSetting : Setting
  /-- FP: the setting LINK_SET writes -/
  nextSetting : Setting
  /-- FP: the REQUEST intake, head first -/
  reqIntake : List ReqMsg
  /-- FP: the REPLY intake, head first -/
  replyIntake : List ReplyMsg
  /-- FP: the ORDER queue, head first -/
  orderQ : List Order
  /-- FP: the ANSWER queue, head first -/
  answerQ : List Answer
  /-- the rounds held for the ORDER queue, longest held first (R40) -/
  orderHeld : List OrderHolder
  /-- the holders of answers, longest held first (R40) -/
  answerHeld : List AnswerHolder
  /-- FP: the frame last driven on the TX lanes -/
  txFrame : List Byte
  /-- MP: the limit registers -/
  limits : Limits
  /-- MP: LIMIT_REJECTED -/
  limitRejected : Bool
  /-- MP: the mailbox state -/
  mbState : MailboxState
  /-- MP: the result code of the last command that ended -/
  mbResult : ResultCode
  /-- MP: OVERRUN -/
  overrun : Bool
  /-- MP: ARG0 to ARG3 -/
  args : Vector Word32 4
  /-- MP: RESULT0 to RESULT3 -/
  results : Vector Word32 4
  /-- MP: the pass of CLEAR_POISON naming ALL that keeps the mailbox BUSY -/
  poisonPass : Option PoisonPass
  /-- MP: EVENT_FLAGS -/
  flags : BitVec 16
  /-- MP: EVENT_ENABLE -/
  enables : BitVec 16
  /-- MP: the counters -/
  counters : Counters
  /-- MP: the fault capture record, absent when not valid -/
  capture : Option Capture
  /-- MP: the node views' second words as last copied (R189) -/
  snapNode : Vector Word32 8
  /-- MP: words 1 to 3 of the window views as last copied -/
  snapWindow : Vector (Vector Word32 3) 8
  /-- MP: words 1 to 11 of the walk views as last copied -/
  snapWalk : Vector Word32 11
  /-- MP: CAPTURE1 to CAPTURE3 as last copied -/
  snapCapture : Vector Word32 3
  /-- MP: the INSPECT buffer -/
  inspect : Vector Word32 64
  /-- pin EVENTn -/
  eventN : Level
  /-- pin SDO: the word the last read returned -/
  sdo : Word32
  /-- pin SDO: what it gave for the bytes clocked after byte 6, in the last frame that had any (R181) -/
  sdoTail : List Byte
  /-- pin RESETn -/
  resetN : Level
  /-- the model's own: how many free values have been drawn (log 18) -/
  freeCount : Nat
  /-- the model's own: the commands waiting, first in, first out -/
  pending : List Instr
deriving DecidableEq, Repr

/-- Why a step stops with a fault. -/
inductive Fault where
  /-- Raised by the end of an event (Machine/Engine.lean) when the closes, activations and settlings of that event have
  not ended within `Config.cascadeBound`. The spec knows no such stop; SAFE, because the model stops where the part goes
  on (log 4). -/
  | cascadeUnfinished
deriving DecidableEq, Repr

/-- Why a step is refused. -/
inductive Refusal where
  /-- A command of the table without a meaning yet. No arm answers it. SAFE. -/
  | notModelled (mnemonic : String)
deriving DecidableEq, Repr

/-- A node record at power-on (R111). -/
def blankNode : NodeRec := ⟨.absent, none, 0, 0, 0, 0⟩

/-- A window record at power-on (R99). -/
def blankWindow : Window := ⟨.closed, 0, 0, .tracked, 0, 0, none⟩

/-- The limits at power-on (Table 12-2). -/
def defaultLimits : Limits :=
  ⟨Config.orderTimeoutDefault, Config.retryLimitDefault, Config.noticeLifetimeDefault,
   Config.scrubIntervalDefault, Config.correctedLimitDefault⟩

/-- The part right after RESETn went high. Every field has the value its owning rule gives; the fields the spec gives no
reset value are those of log 5. The default SCRUB_INTERVAL is not 0, so a SCRUB job exists (R171). -/
def State.reset : State where
  dir := []
  slots := Vector.replicate 48 none
  notices := []
  nodes := Vector.replicate 8 blankNode
  mem := .absent
  memTimeouts := 0
  ntHeld := Vector.replicate 8 none
  windows := Vector.replicate 8 blankWindow
  purgePos := 0
  purgeJobs := Vector.replicate 8 none
  purgeStep := none
  maint := some ⟨.scrub, none, .running, 0, false, 0, some Config.scrubIntervalDefault.toNat, false⟩
  maintStep := none
  scrubPos := 0
  riHeld := none
  link := .down
  curSetting := ⟨.four, .one⟩
  nextSetting := ⟨.four, .one⟩
  reqIntake := []
  replyIntake := []
  orderQ := []
  answerQ := []
  orderHeld := []
  answerHeld := []
  txFrame := []
  limits := defaultLimits
  limitRejected := false
  mbState := .idle
  mbResult := .ok
  overrun := false
  args := Vector.replicate 4 0
  results := Vector.replicate 4 0
  poisonPass := none
  flags := 0
  enables := 0
  counters := ⟨0, 0, 0, 0, 0, 0, 0⟩
  capture := none
  snapNode := Vector.replicate 8 0
  snapWindow := Vector.replicate 8 (Vector.replicate 3 0)
  snapWalk := Vector.replicate 11 0
  snapCapture := Vector.replicate 3 0
  inspect := Vector.replicate 64 0
  eventN := .high
  sdo := 0
  sdoTail := []
  resetN := .high
  freeCount := 0
  pending := []

end Sys2Proof.Machine
end

