-- ==== Sys2Proof/Machine/Ops.lean ====
section
/-! DEFINITION. The named operations over the part's tables: the directory's sparse store, slots, node and window
records, limits, and the free values. -/

namespace Sys2Proof.Machine

/-! ## Line numbers (R1) -/

/-- The set index of a line: line number mod 2048. -/
def setOf (l : Line) : SetIx := ⟨l.toNat % 2048, Nat.mod_lt _ (by decide)⟩

/-- The key of a line: line number div 2048. -/
def keyOf (l : Line) : Key := BitVec.ofNat 23 (l.toNat / 2048)

/-- The line a key names in a set: key × 2048 + set index. -/
def lineOf (k : Key) (i : SetIx) : Line := BitVec.ofNat 34 (k.toNat * 2048 + i.val)

/-! ## The directory's store (log 7) -/

/-- The record of a set; an unlisted set is as after power-on reset. -/
def dirGet : List (SetIx × SetRec) → SetIx → SetRec
  | [], _ => blankSet
  | (j, r) :: rest, i => if j = i then r else dirGet rest i

/-- The store with one set's record replaced, kept sorted and without blank sets. -/
def dirPut (i : SetIx) (r : SetRec) : List (SetIx × SetRec) → List (SetIx × SetRec)
  | [] => if r = blankSet then [] else [(i, r)]
  | (j, q) :: rest =>
    if i < j then (if r = blankSet then (j, q) :: rest else (i, r) :: (j, q) :: rest)
    else if i = j then (if r = blankSet then rest else (i, r) :: rest)
    else (j, q) :: dirPut i r rest

/-- The canonical form of the store: set indices strictly rising, no set listed that is blank. -/
def dirWf : List (SetIx × SetRec) → Bool
  | [] => true
  | [(_, r)] => decide (r ≠ blankSet)
  | (i, r) :: (j, q) :: rest => decide (r ≠ blankSet) && decide (i < j) && dirWf ((j, q) :: rest)

/-- A set's record. -/
def State.getSet (s : State) (i : SetIx) : SetRec := dirGet s.dir i

/-- The state with a set's record replaced. -/
def State.putSet (s : State) (i : SetIx) (r : SetRec) : State := { s with dir := dirPut i r s.dir }

/-- A way of a set. -/
def State.getWay (s : State) (i : SetIx) (w : WayIx) : Way := (s.getSet i).ways[w]

/-- The state with a way replaced. -/
def State.putWay (s : State) (i : SetIx) (w : WayIx) (v : Way) : State :=
  s.putSet i { s.getSet i with ways := (s.getSet i).ways.set w.val v w.isLt }

/-- Whether the set's freeze mark is set (R18). -/
def State.frozen (s : State) (i : SetIx) : Bool := (s.getSet i).frozen

/-! ## Slots (R22) -/

/-- The record of a slot, absent when the slot is free. -/
def State.getSlot (s : State) (t : SlotIx) : Option Slot := s.slots[t]

/-- The state with a slot's record replaced. -/
def State.putSlot (s : State) (t : SlotIx) (v : Option Slot) : State :=
  { s with slots := s.slots.set t.val v t.isLt }

/-- The state with the record of a slot in use changed. -/
def State.modSlot (s : State) (t : SlotIx) (f : Slot → Slot) : State :=
  match s.getSlot t with
  | none => s
  | some x => s.putSlot t (some (f x))

/-- All slots in ascending order of slot number. -/
@[irreducible] def allSlots : List SlotIx := List.finRange 48

/-- The slots in use whose record passes a test, in ascending order. -/
def State.slotsWith (s : State) (p : Slot → Bool) : List SlotIx :=
  allSlots.filter (fun t => match s.getSlot t with
    | none => false
    | some x => p x)

/-- The number of free slots (R22). -/
def State.freeSlots (s : State) : Nat := allSlots.countP (fun t => (s.getSlot t).isNone)

/-- The lowest-numbered free slot (R23). -/
def State.lowestFree (s : State) : Option SlotIx := allSlots.find? (fun t => (s.getSlot t).isNone)

/-- The transactions of a line's order (R26); a SET_REBUILD has no line. -/
def State.onLine (s : State) (l : Line) : List SlotIx := s.slotsWith (fun x => x.line == some l)

/-- The active transaction of a line (R25, R26). -/
def State.activeOn (s : State) (l : Line) : Option SlotIx :=
  (s.slotsWith (fun x => x.line == some l && x.phase != .parked)).head?

/-- The set a transaction works in: its line's set, or a SET_REBUILD's own. -/
def Slot.setIx (x : Slot) : Option SetIx :=
  match x.line with
  | some l => some (setOf l)
  | none => x.set

/-- Whether a request of a kind from a node for a line is present in the Transaction Table (R72, R77). -/
def State.requestPresent (s : State) (k : Kind) (n : Node) (l : Line) : Bool :=
  !(s.slotsWith (fun x => x.kind == k && x.requester == some n && x.line == some l)).isEmpty

/-- Whether a kind is an internal one (R28). -/
def Kind.internal : Kind → Bool
  | .victimRecall => true
  | .leaveRecall => true
  | .retireRecall => true
  | .flushRecall => true
  | .setRebuild => true
  | _ => false

/-- Whether a kind is an internal recall. -/
def Kind.recall : Kind → Bool
  | .victimRecall => true
  | .leaveRecall => true
  | .retireRecall => true
  | .flushRecall => true
  | _ => false

/-- The slot kind of a node request. -/
def ReqKind.toKind : ReqKind → Kind
  | .readShared => .readShared
  | .readOwn => .readOwn
  | .upgrade => .upgrade
  | .writeback => .writeback
  | .drop => .drop

/-- The request kind a refusal of a transaction names; a converted UPGRADE stays UPGRADE (R61). -/
def Kind.toReqKind : Kind → ReqKind
  | .readOwn => .readOwn
  | .upgrade => .upgrade
  | .writeback => .writeback
  | .drop => .drop
  | _ => .readShared

/-- Whether a transaction is a read request: READ_SHARED, READ_OWN or a converted UPGRADE (R78, Table 4-3). -/
def Slot.reads (x : Slot) : Bool :=
  x.kind == .readShared || x.kind == .readOwn || (x.kind == .upgrade && x.converted)

/-- Whether a transaction asks for a grant: a read request or an UPGRADE. -/
def Slot.grants (x : Slot) : Bool := x.kind == .readShared || x.kind == .readOwn || x.kind == .upgrade

/-! ## Node and memory agent records (R111, R112) -/

/-- A node's record. -/
def State.getNode (s : State) (n : Node) : NodeRec := s.nodes[n]

/-- The state with a node's record changed. -/
def State.modNode (s : State) (n : Node) (f : NodeRec → NodeRec) : State :=
  { s with nodes := s.nodes.set n.val (f (s.getNode n)) n.isLt }

/-- A node's membership state. -/
def State.nodeState (s : State) (n : Node) : NodeState := (s.getNode n).state

/-- The nodes that are LIVE or LEAVING: those orders may be sent to (Table 7-2). -/
def State.liveNodes (s : State) : NodeSet :=
  NodeSet.ofTest (fun n => s.nodeState n == .live || s.nodeState n == .leaving)

/-- The nodes in PURGING. -/
def State.purgingNodes (s : State) : NodeSet := NodeSet.ofTest (fun n => s.nodeState n == .purging)

/-! ## Windows (R100) -/

/-- A window's record. -/
def State.getWindow (s : State) (w : WinIx) : Window := s.windows[w]

/-- The state with a window's record changed. -/
def State.modWindow (s : State) (w : WinIx) (f : Window → Window) : State :=
  { s with windows := s.windows.set w.val (f (s.getWindow w)) w.isLt }

/-- Whether a line lies from the start line to the limit line, both included. -/
def Window.spans (w : Window) (l : Line) : Bool := decide (w.start ≤ l ∧ l ≤ w.limit)

/-- Whether a window contains a line: LIVE or RETIRING, and the line in its range. -/
def Window.contains (w : Window) (l : Line) : Bool := w.state != .closed && w.spans l

/-- The window that contains a line. -/
def State.windowOf (s : State) (l : Line) : Option WinIx :=
  (List.finRange 8).find? (fun w => (s.getWindow w).contains l)

/-- Whether a transaction's window is of kind DIRECT. -/
def State.isDirect (s : State) (x : Slot) : Bool :=
  match x.window with
  | some w => (s.getWindow w).kind == .direct
  | none => false

/-! ## Jobs (R160) -/

/-- The state with a node's purge job replaced. -/
def State.putJob (s : State) (n : Node) (j : Option PurgeJob) : State :=
  { s with purgeJobs := s.purgeJobs.set n.val j n.isLt }

/-- A node's purge job. -/
def State.getJob (s : State) (n : Node) : Option PurgeJob := s.purgeJobs[n]

/-! ## Limits -/

/-- ORDER_TIMEOUT in microseconds. -/
def State.orderTimeout (s : State) : Nat := s.limits.orderTimeout.toNat

/-- RETRY_LIMIT. -/
def State.retryLimit (s : State) : Nat := s.limits.retryLimit.toNat

/-! ## Free values (log 18) -/

/-- One of several candidates, where the spec does not say which; a sole candidate is that one. -/
def State.pickFrom {α : Type} (s : State) (d : α) (l : List α) : State × α :=
  match l with
  | [] => (s, d)
  | [x] => (s, x)
  | x :: y :: rest =>
    ({ s with freeCount := s.freeCount + 1 },
     (x :: y :: rest).getD (Config.freePick s.freeCount % (rest.length + 2)) d)

end Sys2Proof.Machine
end

