-- ==== Sys2Proof/Machine/Flags.lean ====
section
/-! DEFINITION. Event flags and EVENTn (R186), counters (R187), the fault capture record (R188). -/

namespace Sys2Proof.Machine

/-! ## Event flags -/

/-- The bit of an event in EVENT_FLAGS and EVENT_ENABLE (Table 12-6). -/
def Event.bit : Event → Nat
  | .joined => 0
  | .left => 1
  | .restarted => 2
  | .nodeLost => 3
  | .linePoisoned => 4
  | .memoryFailed => 5
  | .correctedLimit => 6
  | .entryDamaged => 7
  | .setDamaged => 8
  | .protocolViolation => 9
  | .noticeDropped => 10
  | .maintDone => 11
  | .maintAborted => 12
  | .linkDown => 13
  | .linkUp => 14
  | .commandDone => 15

/-- An event flag becomes pending; one already pending stays so. -/
def State.raise (s : State) (e : Event) : State := { s with flags := s.flags ||| (1#16 <<< e.bit) }

/-- The level EVENTn is driven to: low while a flag is both pending and enabled. -/
def State.eventLevel (s : State) : Level := if s.flags &&& s.enables = 0#16 then .high else .low

/-- EVENTn at the end of an event. -/
def State.driveEventN (s : State) : State := { s with eventN := s.eventLevel }

/-! ## The capture record -/

/-- No field of the capture record present. -/
def noFields : FaultFields := ⟨none, none, none, none, none⟩

/-- A fault directed to the capture record: the first fills it, a further one counts, holding at 15. -/
def State.fault (s : State) (c : Cause) (f : FaultFields) : State :=
  match s.capture with
  | none => { s with capture := some ⟨c, f, 0⟩ }
  | some r => { s with capture := some { r with further := satInc r.further } }

/-! ## Counters -/

def State.countUncorrected (s : State) : State :=
  { s with counters := { s.counters with uncorrected := satInc s.counters.uncorrected } }

def State.countLinkCheck (s : State) : State :=
  { s with counters := { s.counters with linkCheck := satInc s.counters.linkCheck } }

def State.countTableFull (s : State) : State :=
  { s with counters := { s.counters with refusedTableFull := satInc s.counters.refusedTableFull } }

def State.countSetFull (s : State) : State :=
  { s with counters := { s.counters with refusedSetFull := satInc s.counters.refusedSetFull } }

def State.countSetFrozen (s : State) : State :=
  { s with counters := { s.counters with refusedSetFrozen := satInc s.counters.refusedSetFrozen } }

def State.countNoticeDropped (s : State) : State :=
  { s with counters := { s.counters with noticesDropped := satInc s.counters.noticesDropped } }

def State.countMemTimeout (s : State) : State := { s with memTimeouts := satInc s.memTimeouts }

def State.countTimeout (s : State) (n : Node) : State :=
  s.modNode n (fun r => { r with timeouts := satInc r.timeouts })

def State.countViolation (s : State) (n : Node) : State :=
  s.modNode n (fun r => { r with violations := satInc r.violations })

def State.countStale (s : State) (n : Node) : State :=
  s.modNode n (fun r => { r with stale := satInc r.stale })

/-- One correction: CORRECTED counts one, and the CORRECTED_LIMIT event is raised when the addition takes it from below
the limit to the limit or above (R144). -/
def State.countCorrected (s : State) : State :=
  let before := s.counters.corrected
  let after := satInc before
  let s' := { s with counters := { s.counters with corrected := after } }
  if before.toNat < s.limits.correctedLimit.toNat ∧ s.limits.correctedLimit.toNat ≤ after.toNat then
    s'.raise .correctedLimit
  else s'

/-- Several corrections of one event. -/
def State.countCorrections (s : State) : Nat → State
  | 0 => s
  | k + 1 => (s.countCorrected).countCorrections k

/-! ## The faults several rules direct to the record in the same words -/

/-- A violation charged to a node (R38, R84): its VIOLATIONS, PROTOCOL_VIOLATION, and the capture record. -/
def State.chargeViolation (s : State) (n : Node) (l : Option Line) (t : Option SlotIx) : State :=
  ((s.countViolation n).raise .protocolViolation).fault .violation
    { noFields with line := l, node := some (.node n), slot := t }

/-- A line made POISONED: LINE_POISONED, and the capture record (R120, R138, R148). -/
def State.notePoisoned (s : State) (l : Option Line) (n : Option Node) (i : Option SetIx) (w : Option WayIx)
    (t : Option SlotIx) : State :=
  (s.raise .linePoisoned).fault .linePoisoned ⟨l, n.map Peer.node, i, w, t⟩

/-- A damaged body acted on (R146, R147, R150): UNCORRECTED, ENTRY_DAMAGED, and the capture record. -/
def State.noteDamaged (s : State) (l : Option Line) (i : SetIx) (w : WayIx) (t : Option SlotIx) : State :=
  ((s.countUncorrected).raise .entryDamaged).fault .entryDamaged ⟨l, none, some i, some w, t⟩

end Sys2Proof.Machine
end

