-- ==== Sys2Proof/Machine/Directory.lean ====
section
/-! DEFINITION. The Line Directory: reads through the check logic and correction (R143, R144), lookup (R7, R145),
allocation (R8), victim choice (R9), recency order (R16, R17), holds (R11), the purge edit (R122), write-back (R14,
R15, R146). -/

namespace Sys2Proof.Machine

/-! ## The check logic (R143, R144) -/

/-- A field written with a matching code (R2). -/
def coded {α : Type} (v : α) : Coded α := ⟨v, .good⟩

/-- What a read through the check logic yields: the field, put right if CORRECTABLE; nothing if UNCORRECTABLE. -/
def Coded.view {α : Type} (c : Coded α) : Option α :=
  match c.check with
  | .good => some c.stored
  | .correctable v => some v
  | .uncorrectable => none

/-- A way's body as readers see it. -/
def State.bodyView (s : State) (i : SetIx) (w : WayIx) : Option Body := (s.getWay i w).body.view

/-- A way's key as readers see it: nothing if UNCORRECTABLE, an absent key if the way has none. -/
def State.keyView (s : State) (i : SetIx) (w : WayIx) : Option (Option Key) := (s.getWay i w).key.view

/-- The line a way's readable key names. -/
def State.wayLine (s : State) (i : SetIx) (w : WayIx) : Option Line :=
  match s.keyView i w with
  | some (some k) => some (lineOf k i)
  | _ => none

/-- A read of a way's body: a CORRECTABLE body is written back corrected and counted (R144). -/
def State.correctBody (i : SetIx) (s : State) (w : WayIx) : State :=
  match (s.getWay i w).body.check with
  | .correctable b => (s.putWay i w { s.getWay i w with body := coded b }).countCorrected
  | _ => s

/-- A read of a way's key: a CORRECTABLE key is written back corrected and counted (R144). -/
def State.correctKey (i : SetIx) (s : State) (w : WayIx) : State :=
  match (s.getWay i w).key.check with
  | .correctable k => (s.putWay i w { s.getWay i w with key := coded k }).countCorrected
  | _ => s

/-- Reads of several bodies of a set. -/
def State.correctBodies (s : State) (i : SetIx) (ws : List WayIx) : State := ws.foldl (State.correctBody i) s

/-- Reads of several keys of a set. -/
def State.correctKeys (s : State) (i : SetIx) (ws : List WayIx) : State := ws.foldl (State.correctKey i) s

/-- The ways of a set, W0 first. -/
@[irreducible] def allWays : List WayIx := List.finRange 16

/-- Every key and body of a set read (R161, R166, R167). -/
def State.readWholeSet (s : State) (i : SetIx) : State := (s.correctBodies i allWays).correctKeys i allWays

/-- The ways among some whose key reads UNCORRECTABLE. -/
def State.damagedKeys (s : State) (i : SetIx) (ws : List WayIx) : List WayIx :=
  ws.filter (fun w => (s.keyView i w).isNone)

/-- An UNCORRECTABLE key found: unless the set's mark is already set, it is set, UNCORRECTED counts one, SET_DAMAGED is
raised and the capture record takes the set, the way and the finder's slot (R151). -/
def State.foundDamagedKey (s : State) (i : SetIx) (w : WayIx) (t : Option SlotIx) : State :=
  if s.frozen i then s
  else ((s.putSet i { s.getSet i with frozen := true }).countUncorrected.raise .setDamaged).fault .setDamaged
    { noFields with set := some i, way := some w, slot := t }

/-- A walk or the scrub finds damaged keys among the ways it read. -/
def State.noteDamagedKeys (s : State) (i : SetIx) (ws : List WayIx) : State :=
  match s.damagedKeys i ws with
  | [] => s
  | w :: rest =>
    if s.frozen i then s
    else
      let (s', v) := s.pickFrom w (w :: rest)
      s'.foundDamagedKey i v none

/-! ## Recency order (R16, R17) -/

/-- The order with one way moved to the front. -/
def toFront (w : WayIx) (l : List WayIx) : List WayIx := w :: l.erase w

/-- The order with one way moved to the back. -/
def toBack (w : WayIx) (l : List WayIx) : List WayIx := l.erase w ++ [w]

/-- A first GRANT moves its way to the front (R16). -/
def State.moveFront (s : State) (i : SetIx) (w : WayIx) : State :=
  s.putSet i { s.getSet i with order := toFront w (s.getSet i).order }

/-- A way becomes FREE, with matching codes, and moves to the back (R14, R17). -/
def State.makeFree (s : State) (i : SetIx) (w : WayIx) : State :=
  s.putSet i { s.getSet i with
    ways := (s.getSet i).ways.set w.val freeWay w.isLt
    order := toBack w (s.getSet i).order }

/-! ## Lookup (R7, R145) -/

/-- What a lookup finds. -/
inductive LookupResult where
  | miss
  | hit (w : WayIx)
  | damagedBody (w : WayIx)
  | damagedKey (w : WayIx)
deriving DecidableEq, Repr

/-- Whether a lookup compares a way's key: its occupancy reads RESERVED or VALID, or its body cannot be read (R145). -/
def State.keyed (s : State) (i : SetIx) (w : WayIx) : Bool :=
  match s.bodyView i w with
  | none => true
  | some b => b.content != .free

/-- The way of a set a line's key hits, among ways whose keys were read: one with a readable body before one without
(R145). DESIGN CHOICE (log 37): of several without a readable body, the lowest-numbered. -/
def State.matchKey (s : State) (l : Line) (ws : List WayIx) : LookupResult :=
  let i := setOf l
  let hits := ws.filter (fun w => s.keyView i w == some (some (keyOf l)))
  match hits.find? (fun w => (s.bodyView i w).isSome) with
  | some w => .hit w
  | none =>
    match hits with
    | w :: _ => .damagedBody w
    | [] => .miss

/-- A lookup: the bodies of the set are read for their occupancy, then the keys of the ways in use (R143). A damaged key
leaves it without an answer, unless damaged keys are passed by, as in a frozen set (R151, log 11). -/
def State.lookup (s : State) (l : Line) (passDamaged : Bool) : State × LookupResult :=
  let i := setOf l
  let s1 := s.correctBodies i allWays
  let ws := allWays.filter (fun w => s1.keyed i w)
  let s2 := s1.correctKeys i ws
  match s2.damagedKeys i ws with
  | [] => (s2, s2.matchKey l ws)
  | w :: rest =>
    if passDamaged then (s2, s2.matchKey l ws)
    else
      let (s3, v) := s2.pickFrom w (w :: rest)
      (s3, .damagedKey v)

/-! ## Allocation (R8) and victim choice (R9) -/

/-- The rearmost FREE way of a set; a way whose body cannot be read is not taken as FREE (R145). DESIGN CHOICE (log 59): a
CORRECTABLE body is taken as it would read, without a correction or a count. -/
def State.rearmostFree (s : State) (i : SetIx) : Option WayIx :=
  (s.getSet i).order.reverse.find? (fun w => (s.bodyView i w).map Body.content == some .free)

/-- A way made RESERVED with a line's key, held by a transaction, which takes a RESERVED working copy (R8, R10). -/
def State.reserve (s : State) (i : SetIx) (w : WayIx) (t : SlotIx) (l : Line) : State :=
  (s.putWay i w ⟨coded (some (keyOf l)), coded ⟨.reserved, some t, false⟩⟩).modSlot t
    (fun x => { x with working := some ⟨w, .reserved⟩ })

/-- Allocation for a transaction's line, or nothing where the set has no FREE way. -/
def State.allocate (s : State) (t : SlotIx) (l : Line) : Option State :=
  match s.rearmostFree (setOf l) with
  | some w => some (s.reserve (setOf l) w t l)
  | none => none

/-- What victim choice names. -/
inductive VictimResult where
  | noVictim
  | victim (w : WayIx)
  | damagedKey (w : WayIx)
deriving DecidableEq, Repr

/-- Whether a way's body, as read, rules it out as a victim before its key is read: FREE, RESERVED, POISONED or held. -/
def ruledOut (b : Body) : Bool :=
  b.heldBy.isSome || (match b.content with
    | .shared _ => false
    | .owned _ => false
    | _ => true)

/-- Whether another way of the set names a line with a readable POISONED body. -/
def State.poisonedElsewhere (s : State) (i : SetIx) (w : WayIx) (l : Line) : Bool :=
  allWays.any (fun v => v != w && (s.bodyView i v).map Body.content == some .poisoned && s.wayLine i v == some l)

/-- Victim choice over the ways from the back of the order: the first that is VALID SHARED or OWNED, unheld and on a line
with no transaction in use. Each way's body is read, and the key of each way its body does not rule out; an unreadable
body does not rule a way out (R145). A damaged key ends the choice, except in a frozen set (R151, R152). DESIGN CHOICE
(log 42): an unreadable body is passed by where another way of the set has the line POISONED, which ends the choices. -/
def State.victimScan (i : SetIx) : List WayIx → State → State × VictimResult
  | [], s => (s, .noVictim)
  | w :: ws, s =>
    let s1 := s.correctBody i w
    if ((s1.bodyView i w).map ruledOut) == some true then State.victimScan i ws s1
    else
      let s2 := s1.correctKey i w
      match s2.keyView i w with
      | none => if s2.frozen i then State.victimScan i ws s2 else (s2, .damagedKey w)
      | some none => State.victimScan i ws s2
      | some (some k) =>
        let l := lineOf k i
        if (s2.onLine l).isEmpty ∧ ((s2.bodyView i w).isNone = true → s2.poisonedElsewhere i w l = false) then
          (s2, .victim w)
        else State.victimScan i ws s2

/-- Victim choice for a set. -/
def State.victimChoice (s : State) (i : SetIx) : State × VictimResult :=
  State.victimScan i (s.getSet i).order.reverse s

/-! ## Holds (R11) -/

/-- A transaction takes the hold on a way whose body reads well, with a working copy of its content. -/
def State.takeHold (s : State) (i : SetIx) (w : WayIx) (t : SlotIx) (b : Body) : State :=
  (s.putWay i w { s.getWay i w with body := coded { b with heldBy := some t } }).modSlot t
    (fun x => { x with working := some ⟨w, b.content⟩ })

/-- The transaction a reader takes to hold a way: the one its body names, or, where the body cannot be read, the one in
use that holds a way for the line its key names (R145). -/
def State.wayHolder (s : State) (i : SetIx) (w : WayIx) : Option SlotIx :=
  match s.bodyView i w with
  | some b => b.heldBy
  | none =>
    match s.wayLine i w with
    | some l => (s.slotsWith (fun x => x.line == some l && x.working.isSome)).head?
    | none => none

/-- Whether a way is held. -/
def State.wayHeld (s : State) (i : SetIx) (w : WayIx) : Bool := (s.wayHolder i w).isSome

/-- The content of a way's entry: the holder's working copy where it is held, the stored body where it is not (R12). -/
def State.wayContent (s : State) (i : SetIx) (w : WayIx) : Option Content :=
  match s.wayHolder i w with
  | some t => (s.getSlot t).bind (fun x => x.working.map Working.content)
  | none => (s.bodyView i w).map Body.content

/-- The line a way's record names: its holder's line where it is held, else the line its readable key names. -/
def State.recordLine (s : State) (i : SetIx) (w : WayIx) : Option Line :=
  match s.wayHolder i w with
  | some t => (s.getSlot t).bind Slot.line
  | none => s.wayLine i w

/-- The release mark of a held way set (R15). DESIGN CHOICE (log 35): a mark on a body that cannot be read is written with
the whole body, from the holder's copy and with a matching code, counted and captured as the overwriting of R146. -/
def State.setRelease (s : State) (i : SetIx) (w : WayIx) : State :=
  match (s.getWay i w).body.check with
  | .good => s.putWay i w { s.getWay i w with body := coded { (s.getWay i w).body.stored with release := true } }
  | .correctable b => s.putWay i w { s.getWay i w with body := coded { b with release := true } }
  | .uncorrectable =>
    match s.wayHolder i w, s.wayContent i w with
    | some t, some c =>
      let s1 := s.noteDamaged (s.recordLine i w) i w (some t)
      s1.putWay i w { s1.getWay i w with body := coded ⟨c, some t, true⟩ }
    | _, _ => s

/-! ## The purge edit (R122) -/

/-- A record with the nodes of a set removed: a SHARED record left without a sharer becomes FREE, an OWNED record whose
owner is removed becomes POISONED, a record that names none of them is unchanged. -/
def editContent (p : NodeSet) : Content → Content
  | .shared m => if m &&& p = 0#8 then .shared m else if m &&& ~~~ p = 0#8 then .free else .shared (m &&& ~~~ p)
  | .owned o => if NodeSet.has p o then .poisoned else .owned o
  | c => c

/-- The owner a record names. -/
def Content.owner? : Content → Option Node
  | .owned o => some o
  | _ => none

/-- The sharers a record names. -/
def Content.sharers : Content → NodeSet
  | .shared m => m
  | _ => 0#8

/-- The purge edit on a transaction's working copy, removing the given nodes. A copy it makes POISONED raises
LINE_POISONED and reaches the capture record (R120, R122). It writes nothing back. -/
def State.editWorking (s : State) (t : SlotIx) (p : NodeSet) : State :=
  match s.getSlot t with
  | none => s
  | some x =>
    match x.working with
    | none => s
    | some k =>
      let c := editContent p k.content
      let s1 := s.modSlot t (fun y => { y with working := some { k with content := c } })
      if c = .poisoned ∧ k.content ≠ .poisoned then
        s1.notePoisoned x.line k.content.owner? x.setIx (some k.way) (some t)
      else s1

/-- The purge edit on an unheld stored way, as a direct edit of R13: a freed way moves to the back, a poisoned one raises
LINE_POISONED (R162). DESIGN CHOICE (log 46): where the key cannot be read, the capture record takes no line. -/
def State.editStored (s : State) (i : SetIx) (w : WayIx) (p : NodeSet) : State :=
  match s.bodyView i w with
  | none => s
  | some b =>
    let c := editContent p b.content
    if c = b.content then s
    else if c = .free then s.makeFree i w
    else
      let s1 := s.putWay i w { s.getWay i w with body := coded { b with content := c } }
      if c = .poisoned then s1.notePoisoned (s.wayLine i w) b.content.owner? (some i) (some w) none else s1

/-! ## Write-back (R14, R15, R146) -/

/-- The transaction next behind another in its line's order. -/
def State.nextBehind (s : State) (x : Slot) : Option SlotIx :=
  match x.line, x.rank with
  | some l, some r => (s.slotsWith (fun y => y.line == some l && y.rank == some (r + 1))).head?
  | _, _ => none

/-- A freeing write-back: the way a transaction holds becomes FREE and moves to the back, and the transaction goes on
without a hold (R14). A damaged stored body is overwritten and counted (R146). -/
def State.freeHeld (s : State) (t : SlotIx) : State :=
  match s.getSlot t with
  | none => s
  | some x =>
    match x.working, x.setIx with
    | some k, some i =>
      let s1 := if (s.bodyView i k.way).isNone then s.noteDamaged x.line i k.way (some t) else s
      (s1.makeFree i k.way).modSlot t (fun y => { y with working := none })
    | _, _ => s

/-- The write-back at close (Table 1-6), after the purge edit of R122 has been applied to the copy. A RESERVED copy, a
POISONED copy under a release mark and the POISONED copy of a RETIRE_RECALL (R166) free the way; otherwise the way takes
the copy's content, and its hold passes to the next transaction on the line unless the set is frozen (R14, R18) or the copy
is a VICTIM_RECALL's, whose way is left unheld (R10, R93). -/
def State.writeBack (s : State) (t : SlotIx) : State :=
  let s0 := s.editWorking t s.purgingNodes
  match s0.getSlot t with
  | none => s0
  | some x =>
    match x.working, x.setIx with
    | some k, some i =>
      let s1 := s0.correctBody i k.way
      let view := s1.bodyView i k.way
      let s2 := if view.isNone then s1.noteDamaged x.line i k.way (some t) else s1
      let mark := (view.map Body.release).getD false
      let frees := k.content = .free ∨ k.content = .reserved ∨
        (k.content = .poisoned ∧ (mark = true ∨ x.kind = .retireRecall))
      let s3 :=
        if frees then s2.makeFree i k.way
        else
          let holder := if s2.frozen i = true ∨ x.kind = .victimRecall then none else s2.nextBehind x
          s2.putWay i k.way { s2.getWay i k.way with body := coded ⟨k.content, holder, false⟩ }
      s3.modSlot t (fun y => { y with working := none })
    | _, _ => s0

end Sys2Proof.Machine
end

