-- ==== Sys2Proof/Machine/Notices.lean ====
section
/-! DEFINITION. The Store Notice Table (R70 to R76). -/

namespace Sys2Proof.Machine

/-- Whether a notice is for a line and node. -/
def Notice.isFor (v : Notice) (l : Line) (n : Node) : Bool := v.line == l && v.node == n

/-- The notice present for a line and node (R70: at most one). -/
def State.noticeFor (s : State) (l : Line) (n : Node) : Option Notice := s.notices.find? (fun v => v.isFor l n)

/-- A notice removed from the table (R75, R76). -/
def State.removeNotice (s : State) (l : Line) (n : Node) : State :=
  { s with notices := s.notices.filter (fun v => !(v.isFor l n)) }

/-- A notice changed in place. -/
def State.modNotice (s : State) (l : Line) (n : Node) (f : Notice → Notice) : State :=
  { s with notices := s.notices.map (fun v => if v.isFor l n then f v else v) }

/-- A notice claimed: its age timer stops (R73). -/
def State.claimNotice (s : State) (l : Line) (n : Node) : State :=
  s.modNotice l n (fun v => { v with claimed := true })

/-- NOTICE_LIFETIME in microseconds. -/
def State.noticeLifetime (s : State) : Nat := s.limits.noticeLifetime.toNat

/-- A claimed notice loses its claim when its WRITEBACK has left the table without consuming it and no other WRITEBACK
from the node for the line remains: its age restarts at NOTICE_LIFETIME (R74). -/
def State.releaseClaim (s : State) (l : Line) (n : Node) : State :=
  if s.requestPresent .writeback n l then s
  else s.modNotice l n (fun v =>
    if v.claimed then { v with claimed := false, age := s.noticeLifetime } else v)

/-- A store no transaction consumes is offered to the table (R72): a duplicate is a violation by the memory agent, a full
table drops it, otherwise it is inserted, claimed if its WRITEBACK is present. -/
def State.offerNotice (s : State) (l : Line) (n : Node) : State :=
  if (s.noticeFor l n).isSome then
    (s.raise .protocolViolation).fault .violation { noFields with line := some l, node := some .memory }
  else if Config.noticeCapacity ≤ s.notices.length then
    (s.raise .noticeDropped).countNoticeDropped
  else
    { s with notices := s.notices ++ [⟨l, n, s.requestPresent .writeback n l, s.noticeLifetime⟩] }

/-- The notice a transaction entering a consuming wait takes: a WRITEBACK takes it claimed or not, another transaction
only unclaimed (R75). -/
def State.takesNotice (s : State) (x : Slot) (l : Line) (n : Node) : Bool :=
  match s.noticeFor l n with
  | some v => x.kind == .writeback || !v.claimed
  | none => false

end Sys2Proof.Machine
end

