-- ==== Sys2Proof/Machine/Transactions.lean ====
section
/-! DEFINITION. The Transaction Table: opening (R23, R26), sending and holding messages (R40, R177), the GRANT (R50),
refusals (R38), and the close (R39).

One event can close several transactions and activate others. What an operation leaves for later in the same event it
returns as tasks; the engine (Machine/Engine.lean) carries them out, each whole before the next (R39, R118). -/

namespace Sys2Proof.Machine

/-- What is still to be done inside the event in hand. -/
inductive Task where
  /-- a transaction activates, from step 1 (R29, R30) -/
  | activate (t : SlotIx)
  /-- a transaction goes on from step 3 of its activation (R29, R148) -/
  | goOn (t : SlotIx)
  /-- a transaction that took the set rebuild role at victim choice goes on at its allocation (R157) -/
  | resumeAllocation (t : SlotIx)
  /-- a transaction closes (R39) -/
  | close (t : SlotIx)
  /-- steps 2 to 5 of the close, after the write-back and any hand-over (R39, R91) -/
  | finishClose (t : SlotIx)
  /-- the head of a line activates if it is parked and its set is not frozen (R27) -/
  | advance (l : Line)
  /-- a waiter goes on with the way handed to it (R92) -/
  | handedOver (t : SlotIx)
  /-- a waiter allocates again (R93) -/
  | reallocate (t : SlotIx)
  /-- an observing store wait is met (R78) -/
  | meetObserving (t : SlotIx)
  /-- step 2 of R118 for one slot -/
  | purgeEdit (t : SlotIx) (n : Node)
  /-- step 3 of R118 for one active slot -/
  | purgeEnd (t : SlotIx) (n : Node)
  /-- steps 4 and 5 of R118 -/
  | purgeFinish (n : Node)
  /-- a node is declared lost (R134), with the fields its capture takes -/
  | declareLost (n : Node) (f : FaultFields)
  /-- the memory agent is declared failed (R137), with the fields its capture takes -/
  | declareFailed (f : FaultFields)
  /-- a transaction awaiting FETCH_SENT is refused MEMORY_FAULT by the agent's failure (R137) -/
  | refuseFetch (t : SlotIx)
  /-- a set rebuild ends (R157) -/
  | endSetRebuild (t : SlotIx)
  /-- the purge cursor goes on with its step in hand (R163) -/
  | purgeCursor
  /-- the maintenance cursor goes on with its step in hand (R165, R168) -/
  | maintCursor
  /-- what the spec has happen "in the first event in which" a condition holds (log 13) -/
  | settle
deriving DecidableEq, Repr

/-- A state and what is still to be done in its event. -/
abbrev Work := State × List Task

/-! ## Opening (R23, R26) -/

/-- A record just opened: converted clear, no link, retries left 0, timer stopped, no pending message (R23). -/
def newSlot (k : Kind) : Slot where
  kind := k
  requester := none
  line := none
  set := none
  window := none
  phase := .parked
  awaited := 0
  memWait := .noWait
  outstanding := .nothing
  working := none
  victimLink := none
  converted := false
  retriesLeft := 0
  timer := none
  pending := none
  rank := none
  rebuild := none
  target := none
  repair := false
  counted := false

/-- The open-transaction count of a window raised (R105). -/
def State.countOpened (s : State) (w : Option WinIx) : State :=
  match w with
  | some i => s.modWindow i (fun v => { v with openCount := v.openCount + 1 })
  | none => s

/-- A transaction opened on a line in a free slot: it joins the tail of the line's order, PARKED (R26). -/
def State.openOnLine (s : State) (t : SlotIx) (x : Slot) (l : Line) (w : Option WinIx) : State :=
  (s.putSlot t (some { x with line := some l, window := w, rank := some (s.onLine l).length })).countOpened w

/-- The head of a line activates in the event of its opening, unless its set is frozen (R27, R152); a VICTIM_RECALL
activates in a frozen set too (R152). -/
def State.startIfHead (s : State) (t : SlotIx) : List Task :=
  match s.getSlot t with
  | none => []
  | some x =>
    match x.line with
    | none => []
    | some l => if x.rank = some 0 ∧ (x.kind = .victimRecall ∨ s.frozen (setOf l) = false) then [.activate t] else []

/-! ## Orders (R48, R40) -/

/-- Whether a held round is of a slot's transaction. -/
def OrderHolder.isOf (h : OrderHolder) (t : SlotIx) : Bool :=
  match h with
  | .slot u => u == t
  | .left (some u) _ => u == t
  | .left none _ => false

/-- Whether the ORDER queue has yet to take a round of a slot's transaction (R40). -/
def State.roundHeld (s : State) (t : SlotIx) : Bool := s.orderHeld.any (fun h => h.isOf t)

/-- Every message a slot's transaction holds discarded (R40, R121, R137). -/
def State.dropPending (s : State) (t : SlotIx) : State :=
  { s.modSlot t (fun x => { x with pending := none }) with
    orderHeld := s.orderHeld.filter (fun h => !h.isOf t)
    answerHeld := s.answerHeld.filter (fun h => h != .slot t) }

/-- The orders of a slot's pending round. -/
def Slot.pendingOrders (x : Slot) : List Order :=
  match x.pending with
  | some (.round os _) => os
  | _ => []

/-- A transaction goes on from what it had pending: a pending round keeps its place among those held and goes out when
there is room (R40, R132; log 12), a pending GRANT is discarded (Table 7-3). -/
def State.setAside (s : State) (t : SlotIx) : State :=
  let os := ((s.getSlot t).map Slot.pendingOrders).getD []
  { s.modSlot t (fun x => { x with pending := none }) with
    orderHeld := s.orderHeld.map (fun h => if h = .slot t then .left (some t) os else h)
    answerHeld := s.answerHeld.filter (fun h => h != .slot t) }

/-- A slot leaves use: the rounds its transaction set aside are nobody's. -/
def State.disownRounds (s : State) (t : SlotIx) : State :=
  { s with orderHeld := s.orderHeld.map (fun h => match h with
    | .left (some u) os => if u = t then .left none os else .left (some u) os
    | h => h) }

/-- What the placing of a round changes in its slot: the timer starts, and a new round has all its retries (R128). DESIGN
CHOICE (log 12): so too a SURRENDER round placed when its rebuild is COLLECTING already, whose running timer starts anew. -/
def State.roundPlaced (s : State) (t : SlotIx) (fresh : Bool) : State :=
  s.modSlot t (fun x => { x with
    pending := none
    timer := some s.orderTimeout
    retriesLeft := if fresh then s.retryLimit else x.retriesLeft
    rebuild := match x.rebuild with
      | some (.set g _ r v) => some (.set g true r v)
      | o => o })

/-- Whether the ORDER queue has room for a round. -/
def State.orderRoom (s : State) (os : List Order) : Bool :=
  decide (s.orderQ.length + os.length ≤ Config.queueCapacity)

/-- An order round sent: placed whole if the queue has room and holds no earlier message back, else held as the slot's
pending message with the timer stopped (R40, R177). -/
def State.sendRound (s : State) (t : SlotIx) (os : List Order) (fresh : Bool) : State :=
  if s.orderHeld.isEmpty && s.orderRoom os then
    ({ s with orderQ := s.orderQ ++ os }).roundPlaced t fresh
  else
    { s.modSlot t (fun x => { x with pending := some (.round os fresh), timer := none }) with
      orderHeld := s.orderHeld ++ [.slot t] }

/-- A decision's round: the transaction enters AWAIT_REPLIES with the nodes ordered awaited and the memory wait given
(R25, R47, R48). -/
def State.startRound (s : State) (t : SlotIx) (os : List Order) (await : NodeSet) (m : MemWait) (o : Outstanding) : State :=
  ((s.setAside t).modSlot t (fun x => { x with
    phase := .awaitReplies, awaited := await, memWait := m, outstanding := o })).sendRound t os true

/-- A FETCH sent for a transaction's line to its requester, with nothing else (R47). -/
def State.sendFetch (s : State) (t : SlotIx) (l : Line) (n : Node) : State :=
  s.startRound t [.fetch l n false] 0#8 .fetchSent .nothing

/-- The node an order goes to; a FETCH goes to the memory agent. -/
def Order.addressee : Order → Option Node
  | .revoke n _ _ => some n
  | .forward n _ _ _ _ => some n
  | .recall n _ _ => some n
  | .surrender n _ _ => some n
  | .fetch _ _ _ => none

/-- A REVOKE to each node of a set, in ascending order of node number (log 38). -/
def revokes (l : Line) (m : NodeSet) (rep : Bool) : List Order := (NodeSet.toList m).map (fun n => .revoke n l rep)

/-- A RECALL to each node of a set, in ascending order (log 38). -/
def recalls (l : Line) (m : NodeSet) (rep : Bool) : List Order := (NodeSet.toList m).map (fun n => .recall n l rep)

/-- A SURRENDER to each node of a set, in ascending order (log 38). -/
def surrenders (i : SetIx) (m : NodeSet) (rep : Bool) : List Order := (NodeSet.toList m).map (fun n => .surrender n i rep)

/-! ## Answers (R40, R50) -/

/-- The working copy after a GRANT (Table 3-2). -/
def grantContent (p : Permission) (n : Node) : Content → Content
  | .shared m => match p with
    | .shared => .shared (NodeSet.add m n)
    | .owned => .owned n
  | .owned o => match p with
    | .shared => .shared (NodeSet.add (NodeSet.single o) n)
    | .owned => .owned n
  | _ => match p with
    | .shared => .shared (NodeSet.single n)
    | .owned => .owned n

/-- A first GRANT placed: the copy takes its content, the way moves to the front, and the transaction enters
AWAIT_COMPLETE awaiting its requester, with a new round's timer and retries (R50, R16, R128). -/
def State.grantPlaced (s : State) (t : SlotIx) (n : Node) (p : Permission) (src : Source) (u : Bool) : State :=
  match s.getSlot t with
  | none => s
  | some x =>
    let s1 := match x.working, x.setIx with
      | some k, some i => s.moveFront i k.way
      | _, _ => s
    s1.modSlot t (fun y => { y with
      phase := .awaitComplete
      awaited := NodeSet.single n
      memWait := .noWait
      outstanding := .grant p src u
      working := y.working.map (fun k => { k with content := grantContent p n k.content })
      pending := none
      timer := some s.orderTimeout
      retriesLeft := s.retryLimit })

/-- What follows from the placing of a slot's answer: a first GRANT takes effect, a repeated GRANT restarts the timer
(R135), a closing answer closes the transaction (R39). -/
def State.answerPlaced (s : State) (t : SlotIx) (a : Answer) : Work :=
  match a with
  | .grant n _ p src u false => (s.grantPlaced t n p src u, [])
  | .grant _ _ _ _ _ true => (s.modSlot t (fun x => { x with pending := none, timer := some s.orderTimeout }), [])
  | _ => (s.modSlot t (fun x => { x with pending := none }), [.close t])

/-- Whether the ANSWER queue takes a message now: it has room and no earlier message is held for it (R177). -/
def State.answerRoom (s : State) : Bool :=
  s.answerHeld.isEmpty && decide (s.answerQ.length < Config.queueCapacity)

/-- Whether an answer closes its transaction. -/
def Answer.closing : Answer → Bool
  | .grant _ _ _ _ _ _ => false
  | _ => true

/-- A slot's answer sent, or held as its pending message with the timer stopped; it does not go before a round the
transaction still holds (R40, log 12). A closing answer that becomes pending empties the awaited set and clears the waits
(R40). -/
def State.sendAnswer (s : State) (t : SlotIx) (a : Answer) : Work :=
  let s := s.setAside t
  if s.answerRoom && !s.roundHeld t then ({ s with answerQ := s.answerQ ++ [a] }).answerPlaced t a
  else
    ({ s.modSlot t (fun x =>
        if a.closing then
          { x with pending := some (.answer a), timer := none, awaited := 0#8, memWait := .noWait, outstanding := .nothing }
        else { x with pending := some (.answer a), timer := none }) with
      answerHeld := s.answerHeld ++ [.slot t] }, [])

/-- An answer of the Request Intake (a REFUSE at arrival, a WELCOME): sent, or kept with the intake held (R35, R37). -/
def State.intakeAnswer (s : State) (a : Answer) : State :=
  if s.answerRoom then { s with answerQ := s.answerQ ++ [a] }
  else { s with riHeld := some a, answerHeld := s.answerHeld ++ [.intake] }

/-- A WELCOME or FAREWELL of the Node Table at a purge's end: sent, or held in NT (R123). -/
def State.membershipAnswer (s : State) (n : Node) (a : Answer) : State :=
  if s.answerRoom then { s with answerQ := s.answerQ ++ [a] }
  else { s with ntHeld := s.ntHeld.set n.val (some a) n.isLt, answerHeld := s.answerHeld ++ [.membership n] }

/-- What NT holds for a node discarded, when the node leaves the state it belongs to (R123). DESIGN CHOICE (log 27): a WELCOME
the Request Intake holds for the node is not NT's and stays. -/
def State.dropMembership (s : State) (n : Node) : State :=
  { s with
    ntHeld := s.ntHeld.set n.val none n.isLt
    answerHeld := s.answerHeld.filter (fun h => h != .membership n) }

/-- The longest-held message of the ORDER queue placed, if the room suffices for it (R177). -/
def State.placeHeldOrder (s : State) : Option State :=
  match s.orderHeld with
  | [] => none
  | .left _ os :: rest =>
    if s.orderRoom os then some { s with orderQ := s.orderQ ++ os, orderHeld := rest } else none
  | .slot t :: rest =>
    match (s.getSlot t).bind Slot.pending with
    | some (.round os fresh) =>
      if s.orderRoom os then
        some (({ s with orderQ := s.orderQ ++ os, orderHeld := rest }).roundPlaced t fresh)
      else none
    | _ => some { s with orderHeld := rest }

/-- The longest-held message of the ANSWER queue placed, if there is room (R177) and no round of its own transaction goes
before it (R40). -/
def State.placeHeldAnswer (s : State) : Option Work :=
  match s.answerHeld with
  | [] => none
  | h :: rest =>
    if s.answerQ.length < Config.queueCapacity then
      let s1 := { s with answerHeld := rest }
      match h with
      | .slot t =>
        if s.roundHeld t then none
        else
        match (s.getSlot t).bind Slot.pending with
        | some (.answer a) => some (({ s1 with answerQ := s.answerQ ++ [a] }).answerPlaced t a)
        | _ => some (s1, [])
      | .intake =>
        match s.riHeld with
        | some a => some ({ s1 with answerQ := s.answerQ ++ [a], riHeld := none }, [])
        | none => some (s1, [])
      | .membership n =>
        match s.ntHeld[n] with
        | some a => some ({ s1 with answerQ := s.answerQ ++ [a], ntHeld := s.ntHeld.set n.val none n.isLt }, [])
        | none => some (s1, [])
    else none

/-! ## Refusals (R38) -/

/-- What a refusal after admission counts: TABLE_FULL and SET_FULL their counters, VIOLATION the requester (R38). -/
def State.countRefusal (s : State) (r : Reason) (n : Node) (l : Line) (t : SlotIx) : State :=
  match r with
  | .tableFull => s.countTableFull
  | .setFull => s.countSetFull
  | .violation => s.chargeViolation n (some l) (some t)
  | _ => s

/-- A request refused after its admission: REFUSE to the requester, then the close. A transaction whose requester has
been purged sends no refusal (R38). -/
def State.refuse (s : State) (t : SlotIx) (r : Reason) : Work :=
  match s.getSlot t with
  | none => (s, [])
  | some x =>
    match x.requester, x.line with
    | some n, some l =>
      if s.nodeState n = .purging then (s.dropPending t, [.close t])
      else (s.countRefusal r n l t).sendAnswer t (.refuse n l (.request x.kind.toReqKind) r)
    | _, _ => (s.dropPending t, [.close t])

/-! ## The close (R39) -/

/-- A window's open-transaction count lowered; a DRAINING window whose count falls to 0 becomes CLOSED (R105, R107). -/
def State.countClosed (s : State) (w : Option WinIx) : State :=
  match w with
  | none => s
  | some i => s.modWindow i (fun v =>
      let c := v.openCount - 1
      if v.state = .retiring ∧ v.progress = some .draining ∧ c = 0 then
        { v with openCount := c, state := .closed, progress := none }
      else { v with openCount := c })

/-- A requester's credit returned (R33). -/
def State.returnCredit (s : State) (n : Option Node) : State :=
  match n with
  | some k => s.modNode k (fun r => { r with credits := r.credits - 1 })
  | none => s

/-- The open count of the job that opened a recall lowered (R163, R166, R168). -/
def State.countRecallClosed (s : State) (x : Slot) : State :=
  if x.counted then
    match x.kind, x.target with
    | .leaveRecall, some n =>
      s.putJob n ((s.getJob n).map (fun j => { j with openRecalls := j.openRecalls - 1 }))
    | _, _ => { s with maint := s.maint.map (fun j => { j with openCount := j.openCount - 1 }) }
  else s

/-- Every slot in use changed by a function of its record. -/
def State.modSlots (s : State) (f : Slot → Slot) : State := allSlots.foldl (fun s t => s.modSlot t f) s

/-- The ranks behind a transaction that leaves its line order fall by one (R39). -/
def State.closeRanks (s : State) (x : Slot) : State :=
  match x.line, x.rank with
  | some l, some r => s.modSlots (fun y =>
      if y.line = some l then { y with rank := y.rank.map (fun q => if r < q then q - 1 else q) } else y)
  | _, _ => s

/-- A slot freed: its record cleared, its timer stopped, and the victim link that names it cleared (R39, R95). A round it
still holds goes out all the same (R132). -/
def State.freeSlot (s : State) (t : SlotIx) (x : Slot) : State :=
  let s1 := ((s.setAside t).disownRounds t).putSlot t none
  match x.victimLink with
  | some u => s1.modSlot u (fun y => if y.victimLink = some t then { y with victimLink := none } else y)
  | none => s1

/-- Steps 2 to 4 of the close in their order (R39). DESIGN CHOICE (log 39): the claim a WRITEBACK leaves behind at any close
ends, one made at the notice's insertion while its WB_DONE was pending too. -/
def State.leaveTable (s : State) (t : SlotIx) (x : Slot) : State :=
  let s1 := (((s.countClosed x.window).returnCredit x.requester).countRecallClosed x).closeRanks x
  let s2 := s1.freeSlot t x
  match x.kind, x.requester, x.line with
  | .writeback, some n, some l => s2.releaseClaim l n
  | _, _, _ => s2

/-- Steps 2 to 5 of the close. The waiter of a recall that made no hand-over allocates again once the slot is free (R93),
and then the next transaction of the line activates (R27). -/
def State.finishClose (s : State) (t : SlotIx) : Work :=
  match s.getSlot t with
  | none => (s, [])
  | some x =>
    let waiter := match x.kind, x.victimLink with
      | .victimRecall, some w => [Task.reallocate w]
      | _, _ => []
    let next := match x.line with
      | some l => [Task.advance l]
      | none => []
    (s.leaveTable t x, waiter ++ next)

/-- The close: the write-back of a held way, then the rest. -/
def State.close (s : State) (t : SlotIx) : Work := (s.writeBack t, [.finishClose t])

/-- A WB_DONE or DROPPED sent to the requester, after which the transaction closes. -/
def State.closeWith (s : State) (t : SlotIx) (a : Node → Line → Answer) : Work :=
  match s.getSlot t with
  | none => (s, [])
  | some x =>
    match x.requester, x.line with
    | some n, some l => s.sendAnswer t (a n l)
    | _, _ => (s, [.close t])

/-! ## A recall that ends with its way freed (R90, R91) -/

/-- The hand-over of a freed victim way: RESERVED for the waiter's line, held by the waiter; the links are cleared
(R10, R91). -/
def State.handOver (s : State) (r waiter : SlotIx) (i : SetIx) (w : WayIx) (l : Line) : State :=
  ((s.reserve i w waiter l).modSlot waiter (fun y => { y with victimLink := none })).modSlot r
    (fun y => { y with victimLink := none })

/-- A recall ends with its way freed: the freeing, then the hand-over if a waiter is still in AWAIT_VICTIM, then the rest
of the close (R91). -/
def State.recallFreed (s : State) (t : SlotIx) : Work :=
  match s.getSlot t with
  | none => (s, [])
  | some x =>
    let s1 := s.freeHeld t
    match x.working, x.setIx, x.victimLink with
    | some k, some i, some w =>
      match s1.getSlot w with
      | some y =>
        match y.line with
        | some l =>
          if x.kind = .victimRecall ∧ y.phase = .awaitVictim then
            (s1.handOver t w i k.way l, [.handedOver w, .finishClose t])
          else (s1, [.finishClose t])
        | none => (s1, [.finishClose t])
      | none => (s1, [.finishClose t])
    | _, _, _ => (s1, [.finishClose t])

/-- A transaction's copy made POISONED: its stated owner or sharers go, LINE_POISONED is raised and the capture record
takes the line, the node given, the set, the way and the slot (R120, R138). -/
def State.poisonCopy (s : State) (t : SlotIx) (n : Option Node) : State :=
  match s.getSlot t with
  | none => s
  | some x =>
    match x.working with
    | none => s
    | some k =>
      (s.modSlot t (fun y => { y with working := some { k with content := .poisoned } })).notePoisoned
        x.line n x.setIx (some k.way) (some t)

end Sys2Proof.Machine
end

