-- ==== Sys2Proof/Machine/Rebuild.lean ====
section
/-! DEFINITION. Line rebuild (R147 to R149) and set rebuild (R151 to R157). -/

namespace Sys2Proof.Machine

/-! ## Line rebuild -/

/-- The rebuild state of a slot cleared and its timer stopped, before it goes on (R148). -/
def State.leaveRebuild (s : State) (t : SlotIx) : State :=
  (s.setAside t).modSlot t (fun x => { x with
    phase := .awaitReplies, rebuild := none, awaited := 0#8, memWait := .noWait, outstanding := .nothing, timer := none })

/-- A line rebuild ends with the line untracked: the copy becomes FREE and is written back; a VICTIM_RECALL ends with its
way freed, another finder goes on at step 3 of its activation (R148). -/
def State.lineUntracked (s : State) (t : SlotIx) : Work :=
  let s1 := s.leaveRebuild t
  if (s1.getSlot t).map Slot.kind = some .victimRecall then s1.recallFreed t else (s1.freeHeld t, [.goOn t])

/-- A line rebuild ends with the line POISONED: LINE_POISONED once, the capture record with line, set, way and slot, and
the finder goes on at step 3 (R148, R149). -/
def State.lineLost (s : State) (t : SlotIx) : Work :=
  ((s.leaveRebuild t).poisonCopy t none, [.goOn t])

/-- What a line rebuild does once a reply or a store has been taken: it ends when nothing is awaited; when the last reply
leaves a store wait in place, the timer restarts for that wait (R148, R149). -/
def State.lineProgress (s : State) (t : SlotIx) : Work :=
  match s.getSlot t with
  | none => (s, [])
  | some x =>
    if x.awaited ≠ 0#8 then (s, [])
    else if x.memWait = .noWait then s.lineUntracked t
    else ((s.setAside t).modSlot t (fun y => { y with timer := some s.orderTimeout }), [])

/-- A transaction's lookup hits a way with a readable key and an UNCORRECTABLE body: the body is rewritten POISONED under
the finder's hold and every LIVE or LEAVING node is sent a RECALL for the line (R147). -/
def State.startLineRebuild (s : State) (t : SlotIx) (i : SetIx) (w : WayIx) (l : Line) : Work :=
  let s1 := s.noteDamaged (some l) i w (some t)
  let s2 := s1.putWay i w { s1.getWay i w with body := coded ⟨.poisoned, some t, false⟩ }
  let m := s2.liveNodes
  let s3 := (s2.setAside t).modSlot t (fun x => { x with
    phase := .rebuild, rebuild := some (.line false), working := some ⟨w, .poisoned⟩
    awaited := m, memWait := .noWait, outstanding := .recall })
  if m = 0#8 then s3.lineUntracked t else (s3.sendRound t (recalls l m false) true, [])

/-- A RECALL_DONE taken by a line rebuild: the first DIRTY takes an unclaimed notice or waits for its store, a second ends
the rebuild in poison (R148). DESIGN CHOICE (log 40): so too where the finder is the WRITEBACK that claims the notice. -/
def State.lineAnswer (s : State) (t : SlotIx) (x : Slot) (l : Line) (n : Node) (r : Result) : Work :=
  let s1 := s.modSlot t (fun y => { y with awaited := NodeSet.remove y.awaited n })
  match r with
  | .dirty =>
    if x.rebuild = some (.line true) then s1.lineLost t
    else
      let s2 := s1.modSlot t (fun y => { y with rebuild := some (.line true) })
      if (s2.noticeFor l n).map Notice.claimed = some false then (s2.removeNotice l n).lineProgress t
      else (s2.modSlot t (fun y => { y with memWait := .consuming n })).lineProgress t
  | _ => s1.lineProgress t

/-! ## Set rebuild -/

/-- The stores of eight nodes, none counted yet (R153). -/
def blankTallies : Vector Tally 8 := Vector.replicate 8 ⟨none, 0⟩

/-- The holds of a set that name a transaction released: one that takes the set rebuild role holds nothing (R153,
log 17). -/
def State.dropHolds (s : State) (i : SetIx) (t : SlotIx) : State :=
  allWays.foldl (fun s w => match s.bodyView i w with
    | some b =>
      if b.heldBy = some t then s.putWay i w { s.getWay i w with body := coded { b with heldBy := none } } else s
    | none => s) s

/-- An activating transaction takes the set rebuild role: it keeps its slot, kind, requester, line and rank and enters
REBUILD in WAITING_HOLDERS (R28, R151, R153). -/
def State.takeSetRole (s : State) (t : SlotIx) (i : SetIx) (r : Resume) : State :=
  ((s.dropHolds i t).setAside t).modSlot t (fun x => { x with
    phase := .rebuild, rebuild := some (.set .waitingHolders false r blankTallies), awaited := 0#8
    memWait := .noWait, outstanding := .nothing, timer := none, working := none })

/-- A SET_REBUILD opened for a set, in a slot: it names no window and joins no line order (R28, R151). -/
def State.openSetRebuild (s : State) (t : SlotIx) (i : SetIx) : State :=
  s.putSlot t (some { newSlot .setRebuild with
    set := some i, phase := .rebuild, rebuild := some (.set .waitingHolders false .close blankTallies) })

/-- Whether a slot rebuilds its set. -/
def Slot.rebuildsSet (x : Slot) : Bool :=
  match x.rebuild with
  | some (.set _ _ _ _) => true
  | _ => false

/-- Whether a set has a rebuild in use: a SET_REBUILD, or a transaction that took the role. -/
def State.rebuildInUse (s : State) (i : SetIx) : Bool :=
  !(s.slotsWith (fun x => x.rebuildsSet && x.setIx == some i)).isEmpty

/-- The sets whose rebuild is due: frozen with no rebuild in use, by ascending set index (R151). -/
def State.dueSets (s : State) : List SetIx :=
  (s.dir.filter (fun p => p.2.frozen && !(s.rebuildInUse p.1))).map Prod.fst

/-- Whether a transaction other than the rebuilding one holds a way of the set (R153). -/
def State.setHeld (s : State) (i : SetIx) (t : SlotIx) : Bool :=
  !((s.slotsWith (fun x => x.working.isSome && x.setIx == some i)).filter (fun u => u != t)).isEmpty

/-- A set rebuild leaves WAITING_HOLDERS: SURRENDER to every LIVE or LEAVING node; with none, it ends at once (R153). -/
def State.beginSurrender (s : State) (t : SlotIx) : Work :=
  match s.getSlot t with
  | none => (s, [])
  | some x =>
    match x.rebuild, x.setIx with
    | some (.set _ _ r _), some i =>
      let m := s.liveNodes
      if m = 0#8 then (s, [.endSetRebuild t])
      else
        ((s.modSlot t (fun y => { y with
            rebuild := some (.set .surrendering false r blankTallies), awaited := m, memWait := .counted
            outstanding := .surrender })).sendRound t (surrenders i m false) true, [])
    | _, _ => (s, [])

/-- Whether any node has stores due (R156). -/
def storesDue (v : Vector Tally 8) : Bool :=
  (List.finRange 8).any (fun n => match v[n].due with
    | some d => decide (0 < d)
    | none => false)

/-- What a set rebuild does once a reply, a store or a removal has been taken (R156): it ends when nothing is awaited and
nothing due; with stores still due it enters COLLECTING, with a full timer and full retries. DESIGN CHOICE (log 12): a
SURRENDER round not placed yet stays pending; its placing starts the taking of stores (R155) and the timer anew. -/
def State.setProgress (s : State) (t : SlotIx) : Work :=
  match s.getSlot t with
  | none => (s, [])
  | some x =>
    match x.rebuild with
    | some (.set g p r v) =>
      if x.awaited ≠ 0#8 then (s, [])
      else if storesDue v then
        match g with
        | .surrendering =>
          (s.modSlot t (fun y => { y with
            rebuild := some (.set .collecting p r v), timer := some s.orderTimeout, retriesLeft := s.retryLimit }), [])
        | _ => (s, [])
      else (s, [.endSetRebuild t])
    | _ => (s, [])

/-- A node's tally replaced. -/
def State.putTally (s : State) (t : SlotIx) (n : Node) (f : Tally → Tally) : State :=
  s.modSlot t (fun y => { y with rebuild := match y.rebuild with
    | some (.set g p r v) => some (.set g p r (v.set n.val (f v[n]) n.isLt))
    | o => o })

/-- A SURRENDER_DONE from an awaited node: its stores due become its dirty count less the stores already taken (R155). -/
def State.surrenderAnswer (s : State) (t : SlotIx) (n : Node) (dirty : Nat) : Work :=
  ((s.modSlot t (fun y => { y with awaited := NodeSet.remove y.awaited n })).putTally t n
    (fun a => { a with due := some (dirty - a.taken) })).setProgress t

/-- A store counted by a set rebuild (R155). -/
def State.countStore (s : State) (t : SlotIx) (n : Node) : Work :=
  (s.putTally t n (fun a => ⟨a.due.map (fun d => d - 1), a.taken + 1⟩)).setProgress t

/-- The count of a node that enters PURGING abandoned: nothing is due from it (R119, R156; log 29). -/
def State.abandonStores (s : State) (t : SlotIx) (n : Node) : State :=
  (s.modSlot t (fun y => { y with awaited := NodeSet.remove y.awaited n })).putTally t n
    (fun a => { a with due := some 0 })

/-- Whether a set rebuild awaits a node or has stores due from it (R155, R156). -/
def Slot.owedBy (x : Slot) (n : Node) : Bool :=
  match x.rebuild with
  | some (.set _ _ _ v) =>
    NodeSet.has x.awaited n || (match v[n].due with
      | some d => decide (0 < d)
      | none => false)
  | _ => false

/-- Whether a set rebuild takes stores from a node: its round has been placed, and it awaits the node or has stores due from
it (R155). -/
def Slot.takesStores (x : Slot) (n : Node) : Bool :=
  match x.rebuild with
  | some (.set _ p _ _) => p && x.owedBy n
  | _ => false

/-- The set rebuild that takes a store for a line from a node (R155): none where the node's WRITEBACK for the line is
present. -/
def State.storeTaker (s : State) (l : Line) (n : Node) : Option SlotIx :=
  if s.requestPresent .writeback n l then none
  else (s.slotsWith (fun x => x.setIx == some (setOf l) && x.takesStores n)).head?

/-- What the own slot of an ended set rebuild does, if this is the slot (R157, step 4). -/
def resumeTask (t : SlotIx) (r : Resume) : Task :=
  match r with
  | .lookup => .activate t
  | .allocation => .resumeAllocation t
  | .close => .close t

/-- The parked heads of a set's lines (R27). -/
def State.parkedHeads (s : State) (i : SetIx) : List SlotIx :=
  s.slotsWith (fun x => x.phase == .parked && x.rank == some 0 && x.setIx == some i)

/-- A set rebuild ends: every way FREE, the order reset, the mark cleared; a SET_REBUILD closes, and so, before any head
activates, does a slot whose requester was purged; a transaction that took the role resumes; its slot and the parked heads
activate in ascending order of slot number (R157). DESIGN CHOICE (log 52): the successor of a slot that closes so activates
within that close. -/
def State.endSetRebuild (s : State) (t : SlotIx) : Work :=
  match s.getSlot t with
  | none => (s, [])
  | some x =>
    match x.rebuild, x.setIx with
    | some (.set _ _ r _), some i =>
      let s1 := s.putSet i blankSet
      let heads := s1.parkedHeads i
      if x.kind = .setRebuild then (s1.leaveTable t x, heads.map Task.activate)
      else if r = .close then (s1.leaveRebuild t, .close t :: heads.map Task.activate)
      else
        (s1.leaveRebuild t,
          (allSlots.filter (fun u => u == t || heads.contains u)).map
            (fun u => if u = t then resumeTask t r else .activate u))
    | _, _ => (s, [])

end Sys2Proof.Machine
end

