-- ==== Sys2Proof/Machine/Flows.lean ====
section
/-! DEFINITION. What a transaction decides: activation (R27, R29, R30), the request flows (chapter 3), store waits
(R71, R75, R77, R78), the victim path (R86, R92, R93) and the internal recalls (R89, R163, R166, R167). -/

namespace Sys2Proof.Machine

/-! ## The steps a flow takes once nothing is awaited -/

/-- The permission a request asks for. -/
def Kind.permission : Kind → Permission
  | .readShared => .shared
  | _ => .owned

/-- Where the data of a GRANT comes from: the owner that passed the line on, nowhere for an UPGRADE from a sharer, else
memory (Table 3-2). -/
def Slot.grantSource (x : Slot) : Source :=
  match x.working.map Working.content with
  | some (.owned o) => .node o
  | _ => if x.kind = .upgrade ∧ x.converted = false then .noSource else .memory

/-- Whether an answer of the slot is already decided and waits for room. -/
def Slot.answerPending (x : Slot) : Bool :=
  match x.pending with
  | some (.answer _) => true
  | _ => false

/-- Whether the answer that waits for room closes the transaction. -/
def Slot.closingPending (x : Slot) : Bool :=
  match x.pending with
  | some (.answer a) => a.closing
  | _ => false

/-- The next step of a transaction's kind: taken when the awaited set is empty and no wait remains, a GRANT for a
request (R50), the close for a recall (R163). -/
def State.nextStep (s : State) (t : SlotIx) : Work :=
  match s.getSlot t with
  | none => (s, [])
  | some x =>
    if x.awaited ≠ 0#8 ∨ x.memWait ≠ .noWait ∨ x.answerPending = true then (s, [])
    else
      let s1 := (s.setAside t).modSlot t (fun y => { y with timer := none })
      if x.kind.recall then s1.close t
      else
        match x.requester, x.line with
        | some n, some l => s1.sendAnswer t (.grant n l x.kind.permission x.grantSource (s.isDirect x) false)
        | _, _ => s1.close t

/-! ## Lines read from memory (R46, R52, R56, R86) -/

/-- The memory check of R46. -/
def State.memLive (s : State) : Bool := s.mem == .live

/-- Victim choice and what follows from it (R86). DESIGN CHOICE (log 55): the recall's window is absent where no window contains
the victim line. -/
def State.chooseVictim (s : State) (t : SlotIx) (l : Line) : Work :=
  let i := setOf l
  match s.victimChoice i with
  | (s1, .noVictim) => s1.refuse t .setFull
  | (s1, .damagedKey w) => ((s1.foundDamagedKey i w (some t)).takeSetRole t i .allocation, [])
  | (s1, .victim w) =>
    match s1.wayLine i w with
    | none => s1.refuse t .setFull
    | some v =>
      match s1.lowestFree with
      | none => s1.refuse t .tableFull
      | some u =>
        let s2 := s1.openOnLine u { newSlot .victimRecall with victimLink := some t } v (s1.windowOf v)
        let s3 := s2.modSlot t (fun y => { y with
          phase := .awaitVictim, victimLink := some u, awaited := 0#8, memWait := .noWait, timer := none })
        (s3, s3.startIfHead u)

/-- A read request on an untracked line: the memory check, allocation, FETCH; with no FREE way, victim choice (R52, R56,
R78). -/
def State.untrackedRead (s : State) (t : SlotIx) (n : Node) (l : Line) : Work :=
  if s.memLive then
    match s.allocate t l with
    | some s1 => (s1.sendFetch t l n, [])
    | none => s.chooseVictim t l
  else s.refuse t .memoryFault

/-- Whether a transaction's window is RETIRING, as the check of R104 reads it. -/
def State.windowRetiring (s : State) (x : Slot) : Bool :=
  match x.window with
  | some w => (s.getWindow w).state == .retiring
  | none => false

/-- A waiter goes on with the way handed to it: the window check, the memory check, then its FETCH (R92, R104). DESIGN CHOICE
(log 56): refused, it stays in AWAIT_VICTIM, with the RESERVED copy, while its REFUSE waits for room. -/
def State.handedOver (s : State) (t : SlotIx) : Work :=
  match s.getSlot t with
  | none => (s, [])
  | some x =>
    match x.requester, x.line with
    | some n, some l =>
      if s.windowRetiring x then s.refuse t .retiring
      else if s.memLive then (s.sendFetch t l n, [])
      else s.refuse t .memoryFault
    | _, _ => (s, [.close t])

/-- A waiter whose recall made no hand-over allocates again: the window check, then a FREE way and its memory check, or a
new victim choice (R93, R104). DESIGN CHOICE (log 56): refused, it stays in AWAIT_VICTIM while its REFUSE waits for room. -/
def State.reallocate (s : State) (t : SlotIx) : Work :=
  match s.getSlot t with
  | none => (s, [])
  | some x =>
    if x.phase ≠ .awaitVictim then (s, [])
    else
      match x.requester, x.line with
      | some n, some l =>
        if s.windowRetiring x then s.refuse t .retiring
        else
          match s.allocate t l with
          | some s1 => if s1.memLive then (s1.sendFetch t l n, []) else s1.refuse t .memoryFault
          | none => s.chooseVictim t l
      | _, _ => (s, [.close t])

/-- A transaction that took the set rebuild role at victim choice resumes at its allocation, after the window check
(R157, R104; the memory check comes before it, log 30). -/
def State.resumeAllocation (s : State) (t : SlotIx) : Work :=
  match s.getSlot t with
  | none => (s, [])
  | some x =>
    match x.requester, x.line with
    | some n, some l => if s.windowRetiring x then s.refuse t .retiring else s.untrackedRead t n l
    | _, _ => (s, [.close t])

/-! ## Store waits (Table 4-2) -/

/-- A consuming store wait has its store, and the transaction takes the next step of its kind (R71, R75). -/
def State.storeConsumed (s : State) (t : SlotIx) : Work :=
  let s1 := s.modSlot t (fun y => { y with memWait := .noWait, timer := none })
  match s1.getSlot t with
  | none => (s1, [])
  | some x =>
    match x.rebuild with
    | some (.line _) =>
      (s.modSlot t (fun y => { y with memWait := .noWait })).lineProgress t
    | _ =>
      if x.kind.recall then s1.recallFreed t
      else if x.kind = .writeback then (s1.freeHeld t).closeWith t (fun n l => .wbDone n l false)
      else s1.nextStep t

/-- Entry into a consuming store wait for the line from a node; a notice it may take is consumed at once (R75), else the
timer starts and the retries stay (R128). DESIGN CHOICE (log 44): a WRITEBACK that takes its notice at activation and finds
the ANSWER queue full waits for room in AWAIT_STORE. -/
def State.enterConsuming (s : State) (t : SlotIx) (n : Node) : Work :=
  match s.getSlot t with
  | none => (s, [])
  | some x =>
    match x.line with
    | none => (s, [])
    | some l =>
      let s1 := (s.setAside t).modSlot t (fun y => { y with
        phase := .awaitStore, awaited := 0#8, memWait := .consuming n, outstanding := .nothing
        timer := some s.orderTimeout })
      if s.takesNotice x l n then (s1.removeNotice l n).storeConsumed t else (s1, [])

/-- An observing store wait is met: the copy becomes FREE and is written back; a recall ends with its way freed, a read
request goes on as on an untracked line (R78, Table 4-3). -/
def State.meetObserving (s : State) (t : SlotIx) : Work :=
  let s1 := (s.setAside t).modSlot t (fun y => { y with
    awaited := 0#8, memWait := .noWait, outstanding := .nothing, timer := none })
  match s1.getSlot t with
  | none => (s1, [])
  | some x =>
    if x.kind.recall then s1.recallFreed t
    else
      match x.requester, x.line with
      | some n, some l => (s1.freeHeld t).untrackedRead t n l
      | _, _ => (s1, [.close t])

/-- NOT_HELD from the recorded owner: at once as the met wait where a notice or the owner's DROP is present, else an
observing store wait (R77). -/
def State.notHeld (s : State) (t : SlotIx) (l : Line) (n : Node) : Work :=
  if (s.noticeFor l n).isSome || s.requestPresent .drop n l then s.meetObserving t
  else
    ((s.setAside t).modSlot t (fun y => { y with
      phase := .awaitStore, awaited := 0#8, memWait := .observing n, outstanding := .nothing
      timer := some s.orderTimeout }), [])

/-! ## REVOKE_ACK (R49, R57, R90) -/

/-- A content without a sharer; the last one leaves it FREE (R3). -/
def dropSharer (n : Node) : Content → Content
  | .shared m => if NodeSet.remove m n = 0#8 then .free else .shared (NodeSet.remove m n)
  | c => c

/-- A node removed from a transaction's working copy as a sharer. -/
def State.dropSharerOf (s : State) (t : SlotIx) (n : Node) : State :=
  s.modSlot t (fun y => { y with working := y.working.map (fun k => { k with content := dropSharer n k.content }) })

/-- Whether a transaction's copy has become FREE and waits for its freeing write-back. -/
def State.copyEmptied (s : State) (t : SlotIx) : Bool :=
  ((s.getSlot t).bind (fun x => x.working.map Working.content)) == some .free

/-- The freeing write-back of a read request's emptied copy, and its allocation in the same event, which finds the way
just freed (R57). -/
def State.freeAndReallocate (s : State) (t : SlotIx) : State :=
  let s1 := s.freeHeld t
  match (s1.getSlot t).bind Slot.line with
  | some l => (s1.allocate t l).getD s1
  | none => s1

/-- A node outstanding for a REVOKE has given up its copy, by its REVOKE_ACK or by its purge (R49, R90, R119). -/
def State.revokeAcked (s : State) (t : SlotIx) (n : Node) : Work :=
  let s1 := (s.modSlot t (fun y => { y with awaited := NodeSet.remove y.awaited n })).dropSharerOf t n
  match s1.getSlot t with
  | none => (s1, [])
  | some x =>
    if s1.copyEmptied t then
      if x.kind.recall then s1.recallFreed t else (s1.freeAndReallocate t).nextStep t
    else s1.nextStep t

/-! ## Decisions of node requests (Table 3-1, 3.9) -/

/-- READ_OWN on its line's condition (R56 to R59); a converted UPGRADE takes it too (R61). DESIGN CHOICE (log 38): the round's
REVOKEs go in ascending order of node number, the FETCH behind them. -/
def State.decideReadOwn (s : State) (t : SlotIx) (c : Option Content) (n : Node) (l : Line) : Work :=
  match c with
  | some (.shared m) =>
    if s.memLive then
      (s.startRound t (revokes l (NodeSet.remove m n) false ++ [.fetch l n false]) (NodeSet.remove m n) .fetchSent
        .revoke, [])
    else s.refuse t .memoryFault
  | some (.owned o) =>
    if o = n then s.refuse t .violation
    else (s.startRound t [.forward o l n .move false] (NodeSet.single o) .noWait (.forward .move), [])
  | some .poisoned => s.refuse t .poisoned
  | _ => s.untrackedRead t n l

/-- READ_SHARED on its line's condition (R52 to R55). -/
def State.decideReadShared (s : State) (t : SlotIx) (c : Option Content) (n : Node) (l : Line) : Work :=
  match c with
  | some (.shared _) => if s.memLive then (s.sendFetch t l n, []) else s.refuse t .memoryFault
  | some (.owned o) =>
    if o = n then s.refuse t .violation
    else (s.startRound t [.forward o l n .share false] (NodeSet.single o) .noWait (.forward .share), [])
  | some .poisoned => s.refuse t .poisoned
  | _ => s.untrackedRead t n l

/-- An UPGRADE converted, acting as READ_OWN (R61). -/
def State.convert (s : State) (t : SlotIx) (c : Option Content) (n : Node) (l : Line) : Work :=
  (s.modSlot t (fun y => { y with converted := true })).decideReadOwn t c n l

/-- UPGRADE on its line's condition (R60 to R62). -/
def State.decideUpgrade (s : State) (t : SlotIx) (c : Option Content) (n : Node) (l : Line) : Work :=
  match c with
  | some (.shared m) =>
    if NodeSet.has m n then
      if NodeSet.remove m n = 0#8 then s.nextStep t
      else (s.startRound t (revokes l (NodeSet.remove m n) false) (NodeSet.remove m n) .noWait .revoke, [])
    else s.convert t c n l
  | some (.owned o) => if o = n then s.refuse t .violation else s.convert t c n l
  | some .poisoned => s.refuse t .poisoned
  | _ => s.convert t c n l

/-- A stale WRITEBACK: it consumes a notice for its line and requester, claimed or not, is counted, and is answered
WB_DONE stale (R64, R80). -/
def State.staleWriteback (s : State) (t : SlotIx) (n : Node) (l : Line) : Work :=
  ((s.removeNotice l n).countStale n).sendAnswer t (.wbDone n l true)

/-- WRITEBACK on its line's condition (R63, R64). -/
def State.decideWriteback (s : State) (t : SlotIx) (c : Option Content) (n : Node) (l : Line) : Work :=
  match c with
  | some (.owned o) => if o = n then s.enterConsuming t n else s.staleWriteback t n l
  | _ => s.staleWriteback t n l

/-- A stale DROP is counted and answered DROPPED stale (R66, R81). -/
def State.staleDrop (s : State) (t : SlotIx) (n : Node) (l : Line) : Work :=
  (s.countStale n).sendAnswer t (.dropped n l true)

/-- DROP on its line's condition (R65, R66). -/
def State.decideDrop (s : State) (t : SlotIx) (c : Option Content) (n : Node) (l : Line) : Work :=
  match c with
  | some (.shared m) =>
    if NodeSet.has m n then
      let s1 := s.dropSharerOf t n
      let s2 := if s1.copyEmptied t then s1.freeHeld t else s1
      s2.sendAnswer t (.dropped n l false)
    else s.staleDrop t n l
  | some (.owned o) =>
    if o = n then (s.freeHeld t).sendAnswer t (.dropped n l false) else s.staleDrop t n l
  | _ => s.staleDrop t n l

/-- A request in a DIRECT window (R67, R68). -/
def State.decideDirect (s : State) (t : SlotIx) (k : Kind) (n : Node) (l : Line) : Work :=
  match k with
  | .upgrade => s.refuse t .violation
  | .writeback => s.enterConsuming t n
  | .drop => s.sendAnswer t (.dropped n l false)
  | _ => if s.memLive then (s.sendFetch t l n, []) else s.refuse t .memoryFault

/-- Step 5 of a node request's activation (R43). -/
def State.decideNode (s : State) (t : SlotIx) (x : Slot) (n : Node) (l : Line) : Work :=
  if s.isDirect x then s.decideDirect t x.kind n l
  else
    let c := x.working.map Working.content
    match x.kind with
    | .readShared => s.decideReadShared t c n l
    | .readOwn => s.decideReadOwn t c n l
    | .upgrade => s.decideUpgrade t c n l
    | .writeback => s.decideWriteback t c n l
    | .drop => s.decideDrop t c n l
    | _ => (s, [.close t])

/-! ## Decisions of internal recalls (R30, R89, R150, R163, R166, R167) -/

/-- The nodes a recall withdraws the line from: its LEAVING target alone for a LEAVE_RECALL, every node named for the
others, none where there is nothing to do. -/
def State.recallFrom (s : State) (x : Slot) : NodeSet :=
  let named := match x.working.map Working.content with
    | some (.shared m) => m
    | some (.owned o) => NodeSet.single o
    | _ => 0#8
  if x.repair then 0#8
  else
    match x.kind with
    | .leaveRecall =>
      match x.target with
      | some n => if s.nodeState n = .leaving ∧ NodeSet.has named n = true then NodeSet.single n else 0#8
      | none => 0#8
    | _ => named

/-- An internal recall acts on its kind: REVOKE to the sharers it withdraws from or RECALL to the owner; with none of them
it closes. -/
def State.decideRecall (s : State) (t : SlotIx) (x : Slot) (l : Line) : Work :=
  let m := s.recallFrom x
  if m = 0#8 then s.close t
  else
    match x.working.map Working.content with
    | some (.owned _) => (s.startRound t (recalls l m false) m .noWait .recall, [])
    | _ => (s.startRound t (revokes l m false) m .noWait .revoke, [])

/-! ## Activation (R29, R30) -/

/-- Steps 4 and 5 of an activation: a recall acts on its kind; a request whose requester has been purged closes (R121);
another takes the window check and its decision. -/
def State.decision (s : State) (t : SlotIx) : Work :=
  match s.getSlot t with
  | none => (s, [])
  | some x =>
    match x.line with
    | none => (s, [])
    | some l =>
      if x.kind.recall then s.decideRecall t x l
      else
        match x.requester with
        | none => s.close t
        | some n => if s.windowRetiring x then s.refuse t .retiring else s.decideNode t x n l

/-- An activation from step 3: the lazy purge edit, the freeing write-back of an emptied copy, then the decision; a recall
whose copy the edit empties ends with its way freed (R88, R122). -/
def State.goOn (s : State) (t : SlotIx) : Work :=
  let s1 := s.editWorking t s.purgingNodes
  if s1.copyEmptied t then
    if ((s1.getSlot t).map (fun x => x.kind.recall)).getD false then s1.recallFreed t else (s1.freeHeld t).decision t
  else s1.decision t

/-- An activation from step 1: in a DIRECT window no lookup is made, and a recall closes there with the line untracked (R29,
R30, R67); else the lookup and the hold. A damaged body starts a line rebuild (R147), a damaged key the set rebuild role
(R151). DESIGN CHOICE (log 54): a VICTIM_RECALL looks up its line in a DIRECT window too, as R145 says. -/
def State.activate (s : State) (t : SlotIx) : Work :=
  let s0 := s.modSlot t (fun y => { y with phase := .awaitReplies })
  match s0.getSlot t with
  | none => (s0, [])
  | some x =>
    match x.line with
    | none => (s0, [])
    | some l =>
      let i := setOf l
      if s0.isDirect x = true ∧ x.kind ≠ .victimRecall then (s0, [.goOn t])
      else
        match s0.lookup l (s0.frozen i) with
        | (s1, .miss) => (s1, [.goOn t])
        | (s1, .hit w) =>
          match s1.bodyView i w with
          | some b => (s1.takeHold i w t b, [.goOn t])
          | none => (s1, [.goOn t])
        | (s1, .damagedBody w) => s1.startLineRebuild t i w l
        | (s1, .damagedKey w) => ((s1.foundDamagedKey i w (some t)).takeSetRole t i .lookup, [])

/-- The head of a line activates if it is parked and its set is not frozen (R27). -/
def State.advance (s : State) (l : Line) : Work :=
  match (s.slotsWith (fun x => x.line == some l && x.rank == some 0 && x.phase == .parked)).head? with
  | some t => if s.frozen (setOf l) then (s, []) else (s, [.activate t])
  | none => (s, [])

end Sys2Proof.Machine
end

