-- ==== Sys2Proof/Machine/Purge.lean ====
section
/-! DEFINITION. Entering PURGING (R118 to R122), the end of a purge (R123), and the declarations that a node is lost
(R134) or the memory agent failed (R137). -/

namespace Sys2Proof.Machine

/-! ## Entry (R118) -/

/-- The messages to a node taken out of the rounds whose transactions have gone on; one left with none is discarded (R40,
R119). -/
def State.dropOrdersTo (s : State) (n : Node) : State :=
  { s with orderHeld := s.orderHeld.filterMap (fun h => match h with
    | .slot t => some (.slot t)
    | .left t os =>
      let rest := os.filter (fun o => o.addressee != some n)
      if rest.isEmpty then none else some (.left t rest)) }

/-- The messages to a node taken out of a slot's pending round; a round left with none is discarded (R40, R119). -/
def State.dropPendingTo (s : State) (t : SlotIx) (n : Node) : State :=
  match (s.getSlot t).bind Slot.pending with
  | some (.round os fresh) =>
    let rest := os.filter (fun o => o.addressee != some n)
    if rest.isEmpty then
      { s.modSlot t (fun y => { y with pending := none }) with
        orderHeld := s.orderHeld.filter (fun h => h != .slot t) }
    else s.modSlot t (fun y => { y with pending := some (.round rest fresh) })
  | _ => s

/-- A parked transaction of the node leaves its line order and its slot is freed (R121). -/
def State.endParked (n : Node) (s : State) (t : SlotIx) : State :=
  match s.getSlot t with
  | none => s
  | some x => if x.requester = some n ∧ x.phase = .parked then s.leaveTable t x else s

/-- Entry into PURGING: the state and its reason, the node's parked transactions ended, and the rest left as tasks, one
slot at a time in ascending order: the edits, then the ends of the node's active transactions, then credits and the purge
set (R118). -/
def State.enterPurging (s : State) (n : Node) (r : PurgeReason) : Work :=
  let s1 := ((s.dropMembership n).dropOrdersTo n).modNode n (fun v => { v with state := .purging, reason := some r })
  (allSlots.foldl (State.endParked n) s1,
    allSlots.map (fun t => Task.purgeEdit t n) ++ allSlots.map (fun t => Task.purgeEnd t n) ++ [.purgeFinish n])

/-! ## Edits (R119, R120) -/

/-- A store wait on a node cleared. -/
def clearStoreWait (n : Node) (m : MemWait) : MemWait :=
  if m = .consuming n ∨ m = .observing n then .noWait else m

/-- Whether a read request still awaits its FETCH_SENT or has its GRANT pending: with its copy emptied it allocates at once
(R119). -/
def Slot.regrants (x : Slot) : Bool :=
  x.reads && (x.memWait == .fetchSent || (x.answerPending && !x.closingPending))

/-- The purge's edit of the node's own active transaction, which ends right after the edits: its awaited place and its
waits on itself go, and its copy is edited and freed or allocated again as another's, but no step is taken (R118, R119,
R121, log 14). -/
def State.editOwn (s : State) (t : SlotIx) (n : Node) (x : Slot) : State :=
  let s1 := (s.modSlot t (fun y => { y with
    awaited := NodeSet.remove y.awaited n, memWait := clearStoreWait n y.memWait })).editWorking t (NodeSet.single n)
  if s1.copyEmptied t then (if x.regrants then s1.freeAndReallocate t else s1.freeHeld t) else s1

/-- The node's own transaction in REBUILD: its request is ended and the slot goes on as an internal transaction (R121). -/
def State.disownRebuild (s : State) (t : SlotIx) (n : Node) (x : Slot) : State :=
  let s1 := s.modSlot t (fun y => { y with
    requester := none
    rebuild := match y.rebuild with
      | some (.set g p _ v) => some (.set g p .close v)
      | o => o })
  match x.kind, x.line with
  | .writeback, some l => s1.releaseClaim l n
  | _, _ => s1

/-- The edit of a slot in REBUILD: a line rebuild that awaits the node or its store ends in poison (R149), a set rebuild
abandons its count where it awaits the node or has stores due from it (R156). -/
def State.editRebuild (s : State) (t : SlotIx) (n : Node) (x : Slot) (b : Rebuild) : Work :=
  match b with
  | .line _ =>
    if NodeSet.has x.awaited n ∨ x.memWait = .consuming n then s.lineLost t else (s, [])
  | .set .waitingHolders _ _ _ => (s, [])
  | .set _ _ _ _ => if x.owedBy n then (s.abandonStores t n).setProgress t else (s, [])

/-- The edit of a transaction whose copy names the node as owner (R120, Table 7-3). -/
def State.editOwned (s : State) (t : SlotIx) (n : Node) (x : Slot) : Work :=
  let s1 := (s.poisonCopy t (some n)).modSlot t (fun y => { y with
    awaited := NodeSet.remove y.awaited n, memWait := clearStoreWait n y.memWait })
  if x.closingPending then (s1, [])
  else if x.kind.recall then (s1.setAside t, [.close t])
  else if x.reads then s1.refuse t .poisoned
  else (s1, [])

/-- The edit of a transaction whose copy names the node as a sharer it does not await (R119). -/
def State.editSharer (s : State) (t : SlotIx) (n : Node) (x : Slot) : Work :=
  let s1 := s.dropSharerOf t n
  if s1.copyEmptied t then
    if x.kind.recall then s1.recallFreed t
    else if x.regrants then
      (s1.freeAndReallocate t, [])
    else (s1.freeHeld t, [])
  else (s1, [])

/-- Step 2 of R118 for one slot. -/
def State.purgeEdit (s : State) (t : SlotIx) (n : Node) : Work :=
  let s0 := s.dropPendingTo t n
  match s0.getSlot t with
  | none => (s0, [])
  | some x =>
    if x.phase = .parked then (s0, [])
    else
      match x.rebuild with
      | some b =>
        if x.requester = some n then
          let s1 := s0.disownRebuild t n x
          s1.editRebuild t n x b
        else s0.editRebuild t n x b
      | none =>
        if x.requester = some n then (s0.editOwn t n x, [])
        else
          match x.working.map Working.content with
          | some (.owned o) => if o = n then s0.editOwned t n x else (s0, [])
          | some (.shared m) =>
            if NodeSet.has x.awaited n then s0.revokeAcked t n
            else if NodeSet.has m n then s0.editSharer t n x
            else (s0, [])
          | _ => if NodeSet.has x.awaited n then s0.revokeAcked t n else (s0, [])

/-- Step 3 of R118 for one slot: the node's active transaction closes without an answer; one that took the set rebuild role
within step 2, at its victim choice after a recall's poisoned end, goes on with the rebuild (R121, Table 9-1). -/
def State.purgeEnd (s : State) (t : SlotIx) (n : Node) : Work :=
  match s.getSlot t with
  | none => (s, [])
  | some x =>
    if x.requester = some n ∧ x.phase ≠ .parked then
      if x.rebuild.isSome then (s.disownRebuild t n x, []) else (s.dropPending t).close t
    else (s, [])

/-! ## Credits and the purge set (R118, R160, R161) -/

/-- The silent edit of a set: every unheld way whose stored body names one of some nodes loses every node in PURGING
(R162). DESIGN CHOICE (log 41): the ways are taken from W0 to W15. -/
def State.silentEdit (s : State) (i : SetIx) (p : NodeSet) : State :=
  allWays.foldl (fun s w =>
    if s.wayHeld i w then s
    else
      match s.bodyView i w with
      | none => s
      | some b => if editContent p b.content = b.content then s else s.editStored i w (s.purgingNodes ||| p)) s

/-- Steps 4 and 5 of R118: credits 0, and a SILENT purge job; a MESSAGING job turns SILENT, and a step it takes part in is
edited silently at once (R160, R161). -/
def State.purgeFinish (s : State) (n : Node) : State :=
  let s1 := s.modNode n (fun v => { v with credits := 0 })
  match s1.getJob n with
  | none => s1.putJob n (some ⟨.silent, Config.setCount, 0⟩)
  | some j =>
    let s2 := s1.putJob n (some { j with mode := .silent })
    match s2.purgeStep with
    | some p =>
      if NodeSet.has p.nodes n then
        { s2.silentEdit s2.purgePos (NodeSet.single n) with
          purgeStep := some { p with todo := p.todo.filter (fun q => q.2 != n) } }
      else s2
    | none => s2

/-! ## Loss and failure (R134, R137) -/

/-- A node declared lost: NODE_LOST, the capture record, and the entry into PURGING with reason LOST (R134). -/
def State.declareLost (s : State) (n : Node) (f : FaultFields) : Work :=
  if s.nodeState n = .live ∨ s.nodeState n = .leaving then
    ((s.raise .nodeLost).fault .nodeLost { f with node := some (.node n) }).enterPurging n .lost
  else (s, [])

/-- The memory agent declared failed: MEMORY_FAILED and the capture record if it is LIVE, and the transactions awaiting
FETCH_SENT refused in ascending order (R137). DESIGN CHOICE (log 57): an ABSENT agent stays ABSENT, with no event and no
capture. -/
def State.declareFailed (s : State) (f : FaultFields) : Work :=
  let s1 := if s.mem = .live then
      ({ s with mem := .failed }.raise .memoryFailed).fault .memoryFailed { f with node := some .memory }
    else s
  (s1, (s1.slotsWith (fun x => x.memWait == .fetchSent)).map Task.refuseFetch)

/-- A transaction that awaits FETCH_SENT refused MEMORY_FAULT, what it held for a queue discarded (R137, R69). -/
def State.refuseFetch (s : State) (t : SlotIx) : Work :=
  match s.getSlot t with
  | none => (s, [])
  | some x =>
    if x.memWait = .fetchSent then
      ((s.dropPending t).modSlot t (fun y => { y with memWait := .noWait })).refuse t .memoryFault
    else (s, [])

/-! ## The end of a purge (R123) -/

/-- The recalls a node's purge job has open run on uncounted once it has ended: they were not opened for a later job
(R163). -/
def State.uncountLeaves (s : State) (n : Node) : State :=
  s.modSlots (fun x => if x.kind = .leaveRecall ∧ x.target = some n then { x with counted := false } else x)

/-- The slots that await a node, in ascending order. -/
def State.awaitersOf (s : State) (n : Node) : List SlotIx := s.slotsWith (fun x => NodeSet.has x.awaited n)

/-- A node's purge ends: its job goes and its state changes (R123). One that leaves LEAVING for ABSENT is taken out of every
awaited set in the same event (R25, R119). DESIGN CHOICE (log 43): as at an entry into PURGING, so that a line rebuild that
awaits it ends in poison. -/
def State.endPurge (s : State) (n : Node) : Work :=
  let s1 := (s.uncountLeaves n).putJob n none
  match (s.getNode n).state, (s.getNode n).reason with
  | .leaving, _ =>
    (((s1.modNode n (fun v => { v with state := .absent, reason := none })).membershipAnswer n (.farewell n)).raise .left,
      (s1.awaitersOf n).map (fun t => Task.purgeEdit t n))
  | .purging, some .restart =>
    (((s1.modNode n (fun v => { v with state := .live, reason := none, credits := 0 })).membershipAnswer n
      (.welcome (.node n))).raise .restarted, [])
  | .purging, _ => (s1.modNode n (fun v => { v with state := .lost }), [])
  | _, _ => (s1, [])

end Sys2Proof.Machine
end

