-- ==== Sys2Proof/Machine/Walks.lean ====
section
/-! DEFINITION. The Walk Engine: set steps and openings of the two cursors (R161 to R168), the ends of jobs (R164, R165,
R168, R170). -/

namespace Sys2Proof.Machine

/-- Whether an opening by the Walk Engine may be made: at least 3 slots are free (R31). -/
def State.walkRoom (s : State) : Bool := decide (Config.walkSlots ≤ s.freeSlots)

/-- A recall opened by a walk on a line: it joins the line's order and activates if it is the head of an unfrozen set
(R28, R152). DESIGN CHOICE (log 55): where no window contains the line, its window is absent and none counts it. -/
def State.openRecall (s : State) (x : Slot) (l : Line) : Work :=
  match s.lowestFree with
  | none => (s, [])
  | some t =>
    let s1 := s.openOnLine t x l (s.windowOf l)
    (s1, s1.startIfHead t)

/-! ## The purge cursor -/

/-- The nodes whose jobs have sets left. -/
def State.walkingNodes (s : State) : NodeSet :=
  NodeSet.ofTest (fun n => match s.getJob n with
    | some j => decide (0 < j.setsLeft)
    | none => false)

/-- The nodes of a set whose jobs are in a mode. -/
def State.nodesIn (s : State) (m : PurgeMode) (p : NodeSet) : NodeSet :=
  NodeSet.ofTest (fun n => NodeSet.has p n && ((s.getJob n).map PurgeJob.mode == some m))

/-- The ways of a set for each MESSAGING job, way by way (R163, log 23). -/
def purgeTodo (m : NodeSet) : List (WayIx × Node) :=
  allWays.foldr (fun w acc => (NodeSet.toList m).map (fun n => (w, n)) ++ acc) []

/-- A set step of the purge cursor begins: the set is read through the check logic, the silent edits are applied, and the
openings of the MESSAGING jobs follow (R161), behind a rebuild that the step leaves due (R151, R163). DESIGN CHOICE (logs 47
and 48): CORRECTABLE codes of a frozen set are corrected and counted too, and a damaged key's fault comes before those of
the silent edits. -/
def State.beginPurgeStep (s : State) : Work :=
  let p := s.walkingNodes
  let i := s.purgePos
  let s1 := (s.readWholeSet i).noteDamagedKeys i allWays
  let s2 := s1.silentEdit i (s1.nodesIn .silent p)
  ({ s2 with purgeStep := some ⟨p, purgeTodo (s2.nodesIn .messaging p)⟩ }, [])

/-- Whether a content names a node. -/
def Content.names (c : Content) (n : Node) : Bool := NodeSet.has c.sharers n || c.owner? == some n

/-- The line a MESSAGING job opens a LEAVE_RECALL on for a way: the line whose record names the node, or the line named
by the key of an unheld way whose body cannot be read (R163). -/
def State.leaveLine (s : State) (i : SetIx) (w : WayIx) (n : Node) : Option Line :=
  match s.wayContent i w with
  | some c => if c.names n then s.recordLine i w else none
  | none => if s.wayHeld i w then none else s.wayLine i w

/-- The end of a purge step: the sets left of the jobs that took part fall by one and the position advances (R161). -/
def State.endPurgeStep (s : State) (p : NodeSet) : State :=
  let s1 := (NodeSet.toList p).foldl
    (fun s n => s.putJob n ((s.getJob n).map (fun j => { j with setsLeft := j.setsLeft - 1 }))) s
  { s1 with purgePos := ⟨(s.purgePos.val + 1) % 2048, Nat.mod_lt _ (by decide)⟩, purgeStep := none }

/-- What the purge cursor does with its step in hand: its next opening, if it has one and 3 slots are free; else it waits;
with none left the step ends (R163). -/
def State.purgeCursor (s : State) : Work :=
  match s.purgeStep with
  | none => (s, [])
  | some p =>
    match p.todo.dropWhile (fun q => (s.leaveLine s.purgePos q.1 q.2).isNone) with
    | [] => (s.endPurgeStep p.nodes, [])
    | (w, n) :: rest =>
      match s.leaveLine s.purgePos w n with
      | none => (s, [])
      | some l =>
        if s.walkRoom then
          let s1 := { s with purgeStep := some { p with todo := rest } }
          let s2 := s1.putJob n ((s1.getJob n).map (fun j => { j with openRecalls := j.openRecalls + 1 }))
          let (s3, ts) := s2.openRecall { newSlot .leaveRecall with target := some n, counted := true } l
          (s3, ts ++ [.purgeCursor])
        else ({ s with purgeStep := some { p with todo := (w, n) :: rest } }, [])

/-! ## The maintenance cursor -/

/-- What the maintenance cursor does at a way. -/
inductive WayAction where
  | skip
  | openOn (l : Line)
  | free
  | mark
  | freeDamaged
deriving DecidableEq, Repr

/-- A RETIRE job's action at a way whose line lies in its window (R166). -/
def State.retireAction (s : State) (i : SetIx) (w : WayIx) (v : Window) : WayAction :=
  match s.recordLine i w with
  | none => .skip
  | some l =>
    if v.spans l then
      match s.wayContent i w with
      | some (.shared _) => .openOn l
      | some (.owned _) => .openOn l
      | some .reserved => if s.wayHeld i w then .openOn l else .skip
      | some .poisoned => if s.wayHeld i w then .mark else .free
      | some .free => .skip
      | none => if s.wayHeld i w then .skip else .openOn l
    else .skip

/-- A FLUSH job's action at a way (R167). -/
def State.flushAction (s : State) (i : SetIx) (w : WayIx) : WayAction :=
  match s.recordLine i w with
  | none => .skip
  | some l =>
    match s.wayContent i w with
    | some (.shared _) => .openOn l
    | some (.owned _) => .openOn l
    | some _ => .skip
    | none => if s.wayHeld i w then .skip else .openOn l

/-- Whether a TRACKED or SHARED_ONLY window contains a line (R107). -/
def State.trackedLine (s : State) (l : Line) : Bool :=
  match s.windowOf l with
  | some v => (s.getWindow v).kind != .direct
  | none => false

/-- Whether another way of the set names a line with a readable body (R145, R150). DESIGN CHOICE (log 60): the codes of a held
way are compared as they would read, without a correction or a count. -/
def State.namedElsewhere (s : State) (i : SetIx) (w : WayIx) (l : Line) : Bool :=
  allWays.any (fun v => v != w && (s.bodyView i v).isSome && s.wayLine i v == some l)

/-- A SCRUB job's action at a way: an unheld way whose key is readable and whose body is not was FREE, or is repaired by a
FLUSH_RECALL (R150). -/
def State.scrubAction (s : State) (i : SetIx) (w : WayIx) : WayAction :=
  if s.wayHeld i w ∨ (s.bodyView i w).isSome = true then .skip
  else
    match s.keyView i w with
    | none => .skip
    | some none => .freeDamaged
    | some (some k) =>
      let l := lineOf k i
      if s.trackedLine l ∧ s.namedElsewhere i w l = false then .openOn l else .freeDamaged

/-- The job's action at a way of the set in hand. -/
def State.maintAction (s : State) (j : MaintJob) (i : SetIx) (w : WayIx) : WayAction :=
  match j.kind with
  | .retire =>
    match j.window with
    | some v => s.retireAction i w (s.getWindow v)
    | none => .skip
  | .flush => s.flushAction i w
  | .scrub => s.scrubAction i w

/-- The record of a recall a maintenance job opens. -/
def maintRecall (k : MaintKind) : Slot :=
  match k with
  | .retire => { newSlot .retireRecall with counted := true }
  | .flush => { newSlot .flushRecall with counted := true }
  | .scrub => { newSlot .flushRecall with repair := true, counted := true }

/-- The set the maintenance job has in hand. -/
def State.maintSet (s : State) (j : MaintJob) : SetIx :=
  match j.kind with
  | .scrub => s.scrubPos
  | _ => ⟨j.nextSet % 2048, Nat.mod_lt _ (by decide)⟩

/-- The end of a set step: next set advances; after the last set the job is FINISHING, a PAUSING job is PAUSED; the scrub's
position wraps and its interval starts again (R165, R168, R169). -/
def State.endMaintStep (s : State) (j : MaintJob) : State :=
  match j.kind with
  | .scrub =>
    let q : SetIx := ⟨(s.scrubPos.val + 1) % 2048, Nat.mod_lt _ (by decide)⟩
    { s with
      maintStep := none
      scrubPos := q
      maint := some { j with nextSet := q.val, interval := some s.limits.scrubInterval.toNat } }
  | _ =>
    let k := j.nextSet + 1
    { s with
      maintStep := none
      maint := some { j with
        nextSet := k
        owed := false
        run := if k = Config.setCount then .finishing else if j.run = .pausing then .paused else j.run } }

/-- A set step begins for a RETIRE or FLUSH job: every key and body is read, and a damaged key leaves the set's rebuild due,
which is served before the cursor goes on (R151, R163, R165 to R167). DESIGN CHOICE (log 58): the ways read are all of the
set, held and FREE ones too. -/
def State.beginMaintStep (s : State) (j : MaintJob) : Work :=
  let i := s.maintSet j
  let s1 := (s.readWholeSet i).noteDamagedKeys i allWays
  ({ s1 with maintStep := some allWays }, [])

/-- A set step of the scrub begins: the keys and bodies of the unheld ways are read; a damaged key freezes the set and the
scrub opens its SET_REBUILD if 3 slots are free (R151, R168). DESIGN CHOICE (log 48): this comes before what the step does to
ways with damaged bodies. -/
def State.beginScrubStep (s : State) (j : MaintJob) : Work :=
  let i := s.maintSet j
  let ws := allWays.filter (fun w => !(s.wayHeld i w))
  let s1 := (s.correctBodies i ws).correctKeys i ws
  let found := !(s1.damagedKeys i ws).isEmpty && !(s1.frozen i)
  let s2 := s1.noteDamagedKeys i ws
  let s3 := if found && s2.walkRoom then
      match s2.lowestFree with
      | some t => s2.openSetRebuild t i
      | none => s2
    else s2
  ({ s3 with maintStep := some allWays, maint := some { j with interval := none } }, [])

/-- What the maintenance cursor does with its step in hand, way by way in ascending order (R166; for the ways it frees,
log 41); an opening waits for 3 free slots, and with no way left the step ends (R166, R167, R168). -/
def State.maintCursor (s : State) : Work :=
  match s.maint, s.maintStep with
  | some j, some ws =>
    let i := s.maintSet j
    match ws with
    | [] => (s.endMaintStep j, [])
    | w :: rest =>
      let s1 := { s with maintStep := some rest }
      match s.maintAction j i w with
      | .skip => (s1, [.maintCursor])
      | .free => (s1.makeFree i w, [.maintCursor])
      | .mark => (s1.setRelease i w, [.maintCursor])
      | .freeDamaged => ((s1.noteDamaged (s.wayLine i w) i w none).makeFree i w, [.maintCursor])
      | .openOn l =>
        if s.walkRoom then
          let (s2, ts) := { s1 with maint := some { j with openCount := j.openCount + 1 } }.openRecall
            (maintRecall j.kind) l
          (s2, ts ++ [.maintCursor])
        else (s, [])
  | _, _ => (s, [])

/-! ## Jobs beginning and ending -/

/-- The recalls of the maintenance job run on uncounted once it has ended (R166, R168). -/
def State.uncount (s : State) : State :=
  s.modSlots (fun x => if x.kind = .leaveRecall then x else { x with counted := false })

/-- A SCRUB job starts where SCRUB_INTERVAL is not 0 and no job exists; it resumes at the scrub position with a full
interval (R168). -/
def State.startScrub (s : State) : State :=
  if s.maint.isNone ∧ s.limits.scrubInterval ≠ 0#32 then
    { s with maint := some ⟨.scrub, none, .running, s.scrubPos.val, false, 0, some s.limits.scrubInterval.toNat, false⟩ }
  else s

/-- The maintenance job ends, its set step with it, and a SCRUB may start (R165, R168). -/
def State.endMaint (s : State) : State := ({ s.uncount with maint := none, maintStep := none }).startScrub

/-- A RETIRE or FLUSH job created; a SCRUB in place is ended (R160, R165, R168). -/
def State.createMaint (s : State) (k : MaintKind) (w : Option WinIx) : State :=
  { s.uncount with maint := some ⟨k, w, .running, 0, false, 0, none, false⟩, maintStep := none }

/-- Whether any set's freeze mark is set. -/
def State.anyFrozen (s : State) : Bool := s.dir.any (fun p => p.2.frozen)

/-- The Window Table takes the finish of a RETIRE walk: DRAINING, or CLOSED where the count is 0 (R107). -/
def State.walkFinished (s : State) (w : Option WinIx) : State :=
  match w with
  | none => s
  | some v => s.modWindow v (fun r =>
      if r.openCount = 0 then { r with state := .closed, progress := none } else { r with progress := some .draining })

/-- The Window Table takes the end of an aborted RETIRE job: the window is LIVE again (R109). -/
def State.walkAborted (s : State) (w : Option WinIx) : State :=
  match w with
  | none => s
  | some v => s.modWindow v (fun r => { r with state := .live, progress := none })

/-- What a maintenance job comes to where a condition for its end holds: a walk is finished in the first event with the job
FINISHING and no set frozen, which ends a RETIRE job; a FLUSH job ends once its walk is finished and no recall is open; an
ABORTING job once no recall is open (R165, R170). -/
def State.maintEnding (s : State) : Option State :=
  match s.maint with
  | none => none
  | some j =>
    match j.run with
    | .finishing =>
      if s.anyFrozen = true ∧ j.walked = false then none
      else
        match j.kind with
        | .retire => some ((s.walkFinished j.window).raise .maintDone).endMaint
        | _ =>
          if j.openCount = 0 then some (s.raise .maintDone).endMaint
          else if j.walked then none
          else some { s with maint := some { j with walked := true } }
    | .aborting => if j.openCount = 0 then some ((s.walkAborted j.window).raise .maintAborted).endMaint else none
    | _ => none

/-- Whether a purge job is done (R164). -/
def State.purgeDone (s : State) (n : Node) : Bool :=
  match s.getJob n with
  | none => false
  | some j =>
    j.setsLeft == 0 && (match j.mode with
      | .silent => true
      | .messaging => j.openRecalls == 0 && !s.anyFrozen)

end Sys2Proof.Machine
end

