-- ==== Sys2Proof/Machine/Engine.lean ====
section
/-! DEFINITION. One event of the part: the change a command makes, the tasks it leaves, carried out one whole before the
next (R39, R118, R137), what the spec has happen "in the first event in which" a condition holds (log 13), and EVENTn
(R186). -/

namespace Sys2Proof.Machine

/-- One task carried out; the tasks it returns come before those that were waiting. -/
def Task.perform (k : Task) (s : State) : Work :=
  match k with
  | .activate t => s.activate t
  | .goOn t => s.goOn t
  | .resumeAllocation t => s.resumeAllocation t
  | .close t => s.close t
  | .finishClose t => s.finishClose t
  | .advance l => s.advance l
  | .handedOver t => s.handedOver t
  | .reallocate t => s.reallocate t
  | .meetObserving t => s.meetObserving t
  | .purgeEdit t n => s.purgeEdit t n
  | .purgeEnd t n => s.purgeEnd t n
  | .purgeFinish n => (s.purgeFinish n, [])
  | .declareLost n f => s.declareLost n f
  | .declareFailed f => s.declareFailed f
  | .refuseFetch t => s.refuseFetch t
  | .endSetRebuild t => s.endSetRebuild t
  | .purgeCursor => s.purgeCursor
  | .maintCursor => s.maintCursor
  | .settle => (s, [])

/-! ## Conditions met by an event -/

/-- The set rebuild that may leave WAITING_HOLDERS: no other transaction holds a way of its set (R153). -/
def State.readyRebuild (s : State) : Option SlotIx :=
  (s.slotsWith Slot.rebuildsSet).find? (fun t =>
    match s.getSlot t with
    | none => false
    | some x =>
      match x.rebuild, x.setIx with
      | some (.set .waitingHolders _ _ _), some i => !(s.setHeld i t)
      | _, _ => false)

/-- Whether the purge cursor can go on with its step in hand: its next way takes no opening, or 3 slots are free (R163). -/
def State.purgeReady (s : State) : Bool :=
  match s.purgeStep with
  | none => false
  | some p =>
    match p.todo with
    | [] => true
    | q :: _ => s.walkRoom || (s.leaveLine s.purgePos q.1 q.2).isNone

/-- Whether an action of the maintenance cursor opens a transaction. -/
def WayAction.opens : WayAction → Bool
  | .openOn _ => true
  | _ => false

/-- Whether the maintenance cursor can go on with its step in hand (R166). -/
def State.maintReady (s : State) : Bool :=
  match s.maint, s.maintStep with
  | some _, some [] => true
  | some j, some (w :: _) => s.walkRoom || !(s.maintAction j (s.maintSet j) w).opens
  | _, _ => false

/-- The purge job that is done (R164). DESIGN CHOICE (log 45): of several done in one event, the lowest-numbered node's
first. -/
def State.doneNode (s : State) : Option Node := (List.finRange 8).find? s.purgeDone

/-- The first of the conditions that holds, acted on (log 13): a set rebuild without holders sends its round; a due rebuild
takes a free slot, before either cursor (R151); the purge cursor before the maintenance cursor (R163); held messages are
placed (R177); jobs end (R165, R170, R164). -/
def State.settleStep (s : State) : Option Work :=
  match s.readyRebuild with
  | some t => some (s.beginSurrender t)
  | none =>
  match s.dueSets, s.lowestFree with
  | i :: _, some t => some (s.openSetRebuild t i, [])
  | _, _ =>
  if s.purgeReady then some (s, [.purgeCursor])
  else if s.maintReady then some (s, [.maintCursor])
  else
  match s.placeHeldOrder with
  | some s1 => some (s1, [])
  | none =>
  match s.placeHeldAnswer with
  | some w => some w
  | none =>
  match s.maintEnding with
  | some s1 => some (s1, [])
  | none =>
  match s.doneNode with
  | some n => some (s.endPurge n)
  | none => none

/-- Whether none of the conditions holds. -/
def State.settled (s : State) : Bool := s.settleStep.isNone

/-- One task carried out, settling included: it comes back until no condition holds. -/
def Task.carryOut (k : Task) (s : State) : Work :=
  match k with
  | .settle =>
    match s.settleStep with
    | some (s1, ts) => (s1, ts ++ [.settle])
    | none => (s, [])
  | _ => k.perform s

/-- The tasks of an event carried out in order; nothing where the bound is used up (log 4). -/
def drain : Nat → State → List Task → Option State
  | _, s, [] => some s
  | 0, _, _ :: _ => none
  | k + 1, s, t :: ts => drain k (t.carryOut s).1 ((t.carryOut s).2 ++ ts)

/-- The rest of an event, after the change its command makes: the tasks left, the settling, EVENTn. -/
def State.conclude (w : Work) : Host.Outcome State Fault Refusal :=
  match drain Config.cascadeBound w.1 (w.2 ++ [.settle]) with
  | some s => .next s.driveEventN
  | none => .fault .cascadeUnfinished

/-- An event the part takes unless RESETn is low, when no block takes any (R180). -/
def State.event (s : State) (w : Work) : Host.Outcome State Fault Refusal :=
  match s.resetN with
  | .low => .next s
  | .high => State.conclude w

end Sys2Proof.Machine
end

