-- ==== Sys2Proof/Machine/Operands.lean ====
section
/-! DEFINITION. The formats of 11.4 and 12.1: the check code (R178), inbound messages and what makes them malformed
(R179), outbound messages (Tables 11-2 to 11-4), SPI frames (R181). -/

namespace Sys2Proof.Machine

/-! ## The check code (R178) -/

/-- One bit of the division by 1021H, most significant bit first. -/
def crcBit (c : BitVec 16) : BitVec 16 := if c.msb then (c <<< 1) ^^^ 0x1021#16 else c <<< 1

/-- One byte taken into the code. -/
def crcByte (c : BitVec 16) (b : Byte) : BitVec 16 :=
  crcBit (crcBit (crcBit (crcBit (crcBit (crcBit (crcBit (crcBit (c ^^^ (b.setWidth 16 <<< 8)))))))))

/-- The 16-bit check code over some bytes, starting from FFFFH, with no final inversion. -/
def crc16 (bs : List Byte) : BitVec 16 := bs.foldl crcByte 0xFFFF#16

/-- A 16-bit field as two bytes, most significant first. -/
def bytes16 (v : BitVec 16) : List Byte := [v.extractLsb' 8 8, v.extractLsb' 0 8]

/-- A 12-byte message whose code matches (R178). -/
def crcMatches (m : List Byte) : Bool := decide (m.drop 10 = bytes16 (crc16 (m.take 10)))

/-! ## Fields of a message (Table 11-2) -/

/-- Byte k of a message. -/
def byteAt (m : List Byte) (k : Nat) : Byte := m.getD k 0#8

/-- The channel field: byte 0, bits 7 to 6. -/
def channelField (m : List Byte) : BitVec 2 := (byteAt m 0).extractLsb' 6 2

/-- The kind code: byte 0, bits 5 to 0. -/
def kindField (m : List Byte) : Nat := ((byteAt m 0).extractLsb' 0 6).toNat

/-- The peer identifier: byte 1, bits 7 to 4. -/
def peerField (m : List Byte) : BitVec 4 := (byteAt m 1).extractLsb' 4 4

/-- The line field: bytes 2 to 6, most significant first. -/
def lineField (m : List Byte) : Nat := ((m.drop 2).take 5).foldl (fun a b => a * 256 + b.toNat) 0

/-- The partner a peer identifier names: 0 to 7 the nodes, 15 the memory agent, 8 to 14 none (0.2). -/
def peerOf (p : BitVec 4) : Option Peer :=
  if h : p.toNat < 8 then some (.node ⟨p.toNat, h⟩) else if p = 15#4 then some .memory else none

/-- The line a line field names, where it is within 0H to 3FFFFFFFFH. -/
def lineOfField (v : Nat) : Option Line := if v < 2 ^ 34 then some (BitVec.ofNat 34 v) else none

/-- The node a 4-bit node field names. -/
def nodeOfField (b : Byte) : Option Node :=
  if h : (b.extractLsb' 0 4).toNat < 8 then some ⟨(b.extractLsb' 0 4).toNat, h⟩ else none

/-- The result a parameter byte codes (Table 11-4). -/
def resultOf (b : Byte) : Option Result :=
  if b = 0#8 then some .clean else if b = 1#8 then some .dirty else if b = 2#8 then some .notHeld else none

/-! ## Inbound messages (R179, Table 11-3) -/

/-- The channel code of an inbound channel. -/
def inChannelCode : InChannel → BitVec 2
  | .request => 0#2
  | .reply => 1#2

/-- A well-formed message of the REQUEST channel. -/
def parseRequest (kind : Nat) (p : Peer) (line : Nat) : Option ReqMsg :=
  match p with
  | .memory => if kind = 8 then some (.hello .memory) else none
  | .node n =>
    match kind with
    | 1 => (lineOfField line).map (.request .readShared n)
    | 2 => (lineOfField line).map (.request .readOwn n)
    | 3 => (lineOfField line).map (.request .upgrade n)
    | 4 => (lineOfField line).map (.request .writeback n)
    | 5 => (lineOfField line).map (.request .drop n)
    | 8 => some (.hello (.node n))
    | 9 => some (.leave n)
    | _ => none

/-- A well-formed message of the REPLY channel; `b` is parameter byte 7. -/
def parseReply (kind : Nat) (p : Peer) (line : Nat) (b : Byte) : Option ReplyMsg :=
  match p with
  | .memory =>
    match kind with
    | 6 => (lineOfField line).map .fetchSent
    | 7 => (lineOfField line).map .fetchFailed
    | 8 =>
      match lineOfField line, nodeOfField b with
      | some l, some n => some (.absorbDone l n)
      | _, _ => none
    | _ => none
  | .node n =>
    match kind with
    | 1 => (lineOfField line).map (.revokeAck n)
    | 2 =>
      match lineOfField line, resultOf b with
      | some l, some r => some (.forwardDone n l r)
      | _, _ => none
    | 3 =>
      match lineOfField line, resultOf b with
      | some l, some r => some (.recallDone n l r)
      | _, _ => none
    | 4 =>
      if h : line < 2048 then (if b.toNat ≤ 16 then some (.surrenderDone n ⟨line, h⟩ b.toNat) else none) else none
    | 5 => (lineOfField line).map (.complete n)
    | _ => none

/-- The message of the REQUEST channel that 12 bytes spell, if they are not malformed. -/
def readRequest (m : List Byte) : Option ReqMsg :=
  match peerOf (peerField m) with
  | some p => if channelField m = inChannelCode .request then parseRequest (kindField m) p (lineField m) else none
  | none => none

/-- The message of the REPLY channel that 12 bytes spell, if they are not malformed. -/
def readReply (m : List Byte) : Option ReplyMsg :=
  match peerOf (peerField m) with
  | some p =>
    if channelField m = inChannelCode .reply then parseReply (kindField m) p (lineField m) (byteAt m 7) else none
  | none => none

/-- The line a malformed message gives to the capture record: its line field where it is within range, which for
SURRENDER_DONE ends at 2047 (R179, log 28). -/
def malformedLine (m : List Byte) : Option Line :=
  if channelField m = inChannelCode .reply ∧ kindField m = 4 ∧ 2047 < lineField m then none
  else lineOfField (lineField m)

/-! ## Outbound messages (Tables 11-2 to 11-4) -/

/-- The peer identifier of a partner. -/
def Peer.code : Peer → BitVec 4
  | .node n => BitVec.ofNat 4 n.val
  | .memory => 15#4

/-- The code of a request kind (Table 11-3). -/
def ReqKind.code : ReqKind → Byte
  | .readShared => 1#8
  | .readOwn => 2#8
  | .upgrade => 3#8
  | .writeback => 4#8
  | .drop => 5#8

/-- The request kind code a REFUSE carries. -/
def RefusedKind.code : RefusedKind → Byte
  | .request k => k.code
  | .leave => 9#8

/-- The code of a refusal reason (Table 11-4). -/
def Reason.code : Reason → Byte
  | .tableFull => 1#8
  | .setFull => 2#8
  | .setFrozen => 3#8
  | .noHome => 4#8
  | .denied => 5#8
  | .readOnly => 6#8
  | .retiring => 7#8
  | .notLive => 8#8
  | .poisoned => 9#8
  | .memoryFault => 10#8
  | .violation => 11#8

/-- A parameter byte: the bits the tables give a meaning, and their value. The other bits are free (log 18). -/
structure ParamByte where
  mask : Byte
  value : Byte
deriving DecidableEq, Repr

/-- A parameter byte to which the tables give no meaning. -/
def unusedParam : ParamByte := ⟨0#8, 0#8⟩

/-- A whole parameter byte. -/
def wholeParam (v : Byte) : ParamByte := ⟨0xFF#8, v⟩

/-- A node in bits 3 to 0. -/
def nodeParam (n : Node) : ParamByte := ⟨0x0F#8, BitVec.ofNat 8 n.val⟩

/-- A flag in bit 0. -/
def flagParam (b : Bool) : ParamByte := ⟨0x01#8, if b then 1#8 else 0#8⟩

/-- An outbound message before its free bits and check code are filled in. -/
structure OutMsg where
  channel : BitVec 2
  kind : BitVec 6
  peer : Peer
  rep : Bool
  line : Nat
  p7 : ParamByte
  p8 : ParamByte
  p9 : ParamByte
deriving DecidableEq, Repr

/-- The code of a mode. -/
def Mode.code : Mode → Byte
  | .share => 0#8
  | .move => 1#8

/-- The code of a permission. -/
def Permission.code : Permission → Byte
  | .shared => 0#8
  | .owned => 1#8

/-- The source byte of a GRANT: the source in bits 7 to 6, and for NODE the source node in bits 3 to 0. -/
def Source.param : Source → ParamByte
  | .memory => ⟨0xC0#8, 0x00#8⟩
  | .node n => ⟨0xCF#8, 0x40#8 ||| BitVec.ofNat 8 n.val⟩
  | .noSource => ⟨0xC0#8, 0x80#8⟩

/-- An order's fields. -/
def Order.message : Order → OutMsg
  | .revoke n l r => ⟨2#2, 1#6, .node n, r, l.toNat, unusedParam, unusedParam, unusedParam⟩
  | .forward n l t m r => ⟨2#2, 2#6, .node n, r, l.toNat, nodeParam t, wholeParam m.code, unusedParam⟩
  | .recall n l r => ⟨2#2, 3#6, .node n, r, l.toNat, unusedParam, unusedParam, unusedParam⟩
  | .surrender n i r => ⟨2#2, 4#6, .node n, r, i.val, unusedParam, unusedParam, unusedParam⟩
  | .fetch l t r => ⟨2#2, 5#6, .memory, r, l.toNat, nodeParam t, unusedParam, unusedParam⟩

/-- The credits a WELCOME carries: 6 to a node, 0 to the memory agent. -/
def Peer.credits : Peer → Byte
  | .node _ => 6#8
  | .memory => 0#8

/-- An answer's fields. -/
def Answer.message : Answer → OutMsg
  | .grant n l p src u r => ⟨3#2, 1#6, .node n, r, l.toNat, wholeParam p.code, src.param, flagParam u⟩
  | .refuse n l k r => ⟨3#2, 2#6, .node n, false, l.toNat, wholeParam k.code, wholeParam r.code, unusedParam⟩
  | .wbDone n l st => ⟨3#2, 3#6, .node n, false, l.toNat, flagParam st, unusedParam, unusedParam⟩
  | .dropped n l st => ⟨3#2, 4#6, .node n, false, l.toNat, flagParam st, unusedParam, unusedParam⟩
  | .welcome p => ⟨3#2, 5#6, p, false, 0, wholeParam p.credits, unusedParam, unusedParam⟩
  | .farewell n => ⟨3#2, 6#6, .node n, false, 0, unusedParam, unusedParam, unusedParam⟩

/-- A parameter byte with its free bits filled in. -/
def ParamByte.fill (p : ParamByte) (f : Byte) : Byte := (p.value &&& p.mask) ||| (f &&& ~~~ p.mask)

/-- A line number as five bytes, most significant first. -/
def lineBytes (v : Nat) : List Byte :=
  [BitVec.ofNat 8 (v / 2 ^ 32), BitVec.ofNat 8 (v / 2 ^ 24), BitVec.ofNat 8 (v / 2 ^ 16), BitVec.ofNat 8 (v / 2 ^ 8),
    BitVec.ofNat 8 v]

/-- Bytes 0 to 9 of an outbound message; `k` numbers the draw of its free bits. -/
def OutMsg.body (m : OutMsg) (k : Nat) : List Byte :=
  [m.channel ++ m.kind, m.peer.code ++ (if m.rep then 0x8#4 else 0x0#4)] ++ lineBytes m.line ++
    [m.p7.fill (Config.freeParameter k 7), m.p8.fill (Config.freeParameter k 8), m.p9.fill (Config.freeParameter k 9)]

/-- The 12 bytes of an outbound message, with its check code. -/
def OutMsg.frame (m : OutMsg) (k : Nat) : List Byte := m.body k ++ bytes16 (crc16 (m.body k))

/-! ## SPI frames (R181) -/

/-- The register number of a frame: bytes 1 and 2. -/
def frameRegister (f : List Byte) : BitVec 16 := byteAt f 1 ++ byteAt f 2

/-- The data of a frame: bytes 3 to 6. -/
def frameData (f : List Byte) : Word32 := byteAt f 3 ++ byteAt f 4 ++ byteAt f 5 ++ byteAt f 6

/-- The register number of a limit (Table 12-1). -/
def limitRegister : LimitName → BitVec 16
  | .orderTimeout => 0x10#16
  | .retryLimit => 0x11#16
  | .noticeLifetime => 0x12#16
  | .scrubInterval => 0x13#16
  | .correctedLimit => 0x14#16

end Sys2Proof.Machine
end

