-- ==== Sys2Proof/Machine/Port.lean ====
section
/-! DEFINITION. The Fabric Port's events: messages in and out (R176 to R179), the link (R172, R174), RESETn (R180). -/

namespace Sys2Proof.Machine

/-! ## Messages in -/

/-- A malformed message (R179): PROTOCOL_VIOLATION, the VIOLATIONS of a node it names, the capture record. -/
def State.malformed (s : State) (m : List Byte) : State :=
  let p := peerOf (peerField m)
  let s1 := match p with
    | some (.node n) => s.countViolation n
    | _ => s
  (s1.raise .protocolViolation).fault .violation { noFields with line := malformedLine m, node := p }

/-- A message arrives on the REQUEST channel: the message check, the format check, then the tail of the intake. -/
def State.receiveRequest (s : State) (m : List Byte) : State :=
  if crcMatches m then
    match readRequest m with
    | some q => { s with reqIntake := s.reqIntake ++ [q] }
    | none => s.malformed m
  else s.countLinkCheck

/-- A message arrives on the REPLY channel. -/
def State.receiveReply (s : State) (m : List Byte) : State :=
  if crcMatches m then
    match readReply m with
    | some q => { s with replyIntake := s.replyIntake ++ [q] }
    | none => s.malformed m
  else s.countLinkCheck

/-- LINK_MESSAGE_RECEIVED (R178, R179): while the link is UP and the channel's intake has room, which the far end waits for
(R176). -/
def execLinkMessageReceived (ch : InChannel) (m : List Byte) (s : State) : Host.Outcome State Fault Refusal :=
  s.event (
    if s.link = .up ∧ m.length = 12 then
      match ch with
      | .request => if s.reqIntake.length < Config.intakeCapacity then (s.receiveRequest m, []) else (s, [])
      | .reply => if s.replyIntake.length < Config.intakeCapacity then (s.receiveReply m, []) else (s, [])
    else (s, []))

/-! ## Messages out -/

/-- A message driven on the TX lanes, its free bits drawn (log 18). -/
def State.transmit (s : State) (m : OutMsg) : State :=
  { s with txFrame := m.frame s.freeCount, freeCount := s.freeCount + 1 }

/-- OUTBOUND_SEND (R177): while the link is UP the queue's head crosses the link; the room goes to the longest-held
message. -/
def execOutboundSend (q : OutQueue) (s : State) : Host.Outcome State Fault Refusal :=
  s.event (
    if s.link = .up then
      match q with
      | .order =>
        match s.orderQ with
        | o :: rest => (({ s with orderQ := rest }).transmit o.message, [])
        | [] => (s, [])
      | .answer =>
        match s.answerQ with
        | a :: rest => (({ s with answerQ := rest }).transmit a.message, [])
        | [] => (s, [])
    else (s, []))

/-! ## The link (R172) -/

/-- The link leaves UP: intakes and queues are discarded and LINK_DOWN is raised; what is held outside the queues is placed
in the same event (R174). -/
def State.leaveUp (s : State) : State :=
  { s with link := .training, reqIntake := [], replyIntake := [], orderQ := [], answerQ := [] }.raise .linkDown

/-- SIGNAL_DETECTED (R172). -/
def execSignalDetected (s : State) : Host.Outcome State Fault Refusal :=
  s.event (if s.link = .down then ({ s with link := .training }, []) else (s, []))

/-- TRAINING_COMPLETE (R172). -/
def execTrainingComplete (s : State) : Host.Outcome State Fault Refusal :=
  s.event (if s.link = .training then (({ s with link := .up }).raise .linkUp, []) else (s, []))

/-- TRAINING_FAILED (R172). -/
def execTrainingFailed (s : State) : Host.Outcome State Fault Refusal :=
  s.event (if s.link = .training then ({ s with link := .down }, []) else (s, []))

/-- LOSS_OF_TRAINING (R172, R174). -/
def execLossOfTraining (s : State) : Host.Outcome State Fault Refusal :=
  s.event (if s.link = .up then (s.leaveUp, []) else (s, []))

/-! ## RESETn (R180) -/

/-- RESETN (R180): low puts every block at its power-on values and holds it there; high lets the part run from them. The
waiting commands are not the part's own and stay (log 21). -/
def execResetn (v : Level) (s : State) : Host.Outcome State Fault Refusal :=
  match v with
  | .low => .next { State.reset with resetN := .low, freeCount := s.freeCount, pending := s.pending }
  | .high => .next { s with resetN := .high }

end Sys2Proof.Machine
end

