-- ==== Sys2Proof/Machine/Inspect.lean ====
section
/-! DEFINITION. Inspection (R19, R20, R41, R142, R158) and the layout of its reports (R185, Table 12-5). Inspection corrects
nothing, counts nothing and moves nothing. -/

namespace Sys2Proof.Machine

/-! ## Words -/

/-- An absent field. -/
def absentWord : Word32 := 0xFFFFFFFF#32

/-- A field that may be absent. -/
def optWord {α : Type} (f : α → Word32) : Option α → Word32
  | some a => f a
  | none => absentWord

/-- A number as a word. -/
def natWord (n : Nat) : Word32 := BitVec.ofNat 32 n

/-- A flag as a word. -/
def boolWord (b : Bool) : Word32 := if b then 1#32 else 0#32

/-- A set of nodes as a mask word. -/
def maskWord (m : NodeSet) : Word32 := m.setWidth 32

/-- The low word of a line. -/
def lineLow (l : Line) : Word32 := l.setWidth 32

/-- The high word of a line: bits 33 and 32. -/
def lineHigh (l : Line) : Word32 := (l.extractLsb' 32 2).setWidth 32

/-- The INSPECT buffer holding a report; words past its end are 0. -/
def bufferOf (ws : List Word32) : Vector Word32 64 :=
  (List.finRange 64).foldl (fun v i => v.set i.val (ws.getD i.val 0#32) i.isLt) (Vector.replicate 64 0#32)

/-! ## Way reports -/

/-- The occupancy code of a content (Table 12-5, word 3). -/
def Content.occupancyWord : Content → Word32
  | .free => 0#32
  | .reserved => 1#32
  | _ => 2#32

/-- The state code of a content, present only when VALID (word 6). -/
def Content.stateWord : Content → Word32
  | .shared _ => 0#32
  | .owned _ => 1#32
  | .poisoned => 2#32
  | _ => absentWord

/-- The sharers, present only in SHARED (word 7). -/
def Content.sharersWord : Content → Word32
  | .shared m => maskWord m
  | _ => absentWord

/-- The owner, present only in OWNED (word 8). -/
def Content.ownerWord : Content → Word32
  | .owned o => natWord o.val
  | _ => absentWord

/-- The code of a check verdict (word 13). -/
def Check.word {α : Type} : Check α → Word32
  | .good => 0#32
  | .correctable _ => 1#32
  | .uncorrectable => 2#32

/-- The content an inspection reports for a way: the holder's copy where it is held, else the stored value as it stands
(R20). -/
def State.inspectedContent (s : State) (i : SetIx) (w : WayIx) : Content :=
  match s.wayHolder i w with
  | some t =>
    match (s.getSlot t).bind Slot.working with
    | some k => k.content
    | none => (s.getWay i w).body.stored.content
  | none => (s.getWay i w).body.stored.content

/-- Words 1 to 10 of a way report, for a content: set, way, occupancy, line, state, sharers, owner, held-by, release mark. -/
def entryWords (i : SetIx) (w : WayIx) (c : Content) (l : Option Line) (held : Option SlotIx) (mark : Bool) : List Word32 :=
  let l := if c = .free then none else l
  [natWord i.val, natWord w.val, c.occupancyWord, optWord lineLow l, optWord lineHigh l, c.stateWord, c.sharersWord,
    c.ownerWord, optWord (fun t => natWord t.val) held, boolWord mark]

/-- The way report of a set and way; `found` is word 0 (Table 12-5). -/
def State.wayReport (s : State) (found : Word32) (i : SetIx) (w : WayIx) : List Word32 :=
  let v := s.getWay i w
  let b := v.body.stored
  [found] ++ entryWords i w (s.inspectedContent i w) (v.key.stored.map (fun k => lineOf k i)) b.heldBy b.release ++
    [natWord ((s.getSet i).order.findIdx (fun u => u == w)), boolWord (s.frozen i), v.key.check.word, v.body.check.word]

/-- The report of a line not found: set index and freeze mark, and the damaged way where a key cannot be read (R20,
R158). -/
def State.missReport (s : State) (i : SetIx) (w : Option WayIx) : List Word32 :=
  [0#32, natWord i.val, optWord (fun v => natWord v.val) w] ++ List.replicate 9 absentWord ++
    [boolWord (s.frozen i), absentWord, absentWord]

/-- INSPECT_LINE's report and whether the line was found: a lookup without correction (R20, R158). -/
def State.inspectLineReport (s : State) (l : Line) : State × List Word32 × Bool :=
  let i := setOf l
  let ws := allWays.filter (fun w => s.keyed i w)
  match s.matchKey l ws with
  | .hit w => (s, s.wayReport 1#32 i w, true)
  | .damagedBody w => (s, s.wayReport 1#32 i w, true)
  | _ =>
    match s.damagedKeys i ws with
    | [] => (s, s.missReport i none, false)
    | w :: rest =>
      let (s1, v) := s.pickFrom w (w :: rest)
      (s1, s1.missReport i (some v), false)

/-! ## Slot reports -/

/-- The code of a kind, in the order of Table 2-1. -/
def Kind.word : Kind → Word32
  | .readShared => 0#32
  | .readOwn => 1#32
  | .upgrade => 2#32
  | .writeback => 3#32
  | .drop => 4#32
  | .victimRecall => 5#32
  | .leaveRecall => 6#32
  | .retireRecall => 7#32
  | .flushRecall => 8#32
  | .setRebuild => 9#32

/-- The code of a phase, in the order of Table 2-2. -/
def Phase.word : Phase → Word32
  | .parked => 0#32
  | .awaitVictim => 1#32
  | .awaitReplies => 2#32
  | .awaitStore => 3#32
  | .awaitComplete => 4#32
  | .rebuild => 5#32

/-- The code of a memory wait (word 9). -/
def MemWait.word : MemWait → Word32
  | .noWait => 0#32
  | .fetchSent => 1#32
  | .consuming _ => 2#32
  | .observing _ => 3#32
  | .counted => 4#32

/-- The node a memory wait names (word 10). -/
def MemWait.nodeWord : MemWait → Word32
  | .consuming n => natWord n.val
  | .observing n => natWord n.val
  | _ => absentWord

/-- Byte 0 of an order, the code of its kind. -/
def Order.kindWord (o : Order) : Word32 := (o.message.channel ++ o.message.kind).setWidth 32

/-- Byte 0 of an answer. -/
def Answer.kindWord (a : Answer) : Word32 := (a.message.channel ++ a.message.kind).setWidth 32

/-- The bit of a partner in an addressee mask: bit n for Nn, bit 15 for the memory agent. -/
def Peer.bit : Peer → Word32
  | .node n => 1#32 <<< n.val
  | .memory => 0x8000#32

/-- The kind of a pending message; a round of several kinds has no one code and reads as a free value (log 18). -/
def State.pendingKind (s : State) (p : Option Pending) : State × Word32 :=
  match p with
  | none => (s, absentWord)
  | some (.answer a) => (s, a.kindWord)
  | some (.round [] _) => (s, absentWord)
  | some (.round (o :: os) _) =>
    if os.all (fun q => q.kindWord == o.kindWord) then (s, o.kindWord)
    else ({ s with freeCount := s.freeCount + 1 }, Config.freeRoundKind s.freeCount)

/-- The addressees of a pending message. -/
def addresseeWord : Option Pending → Word32
  | none => absentWord
  | some (.answer a) => a.message.peer.bit
  | some (.round os _) => os.foldl (fun m o => m ||| o.message.peer.bit) 0#32

/-- The rebuild stage (word 19). -/
def stageWord : Option Rebuild → Word32
  | some (.set .waitingHolders _ _ _) => 0#32
  | some (.set .surrendering _ _ _) => 1#32
  | some (.set .collecting _ _ _) => 2#32
  | _ => absentWord

/-- A node's stores in a set rebuild: due in bits 31 to 16, FFFFH while unset; taken in bits 15 to 0 (words 22 to 29). -/
def tallyWord (a : Tally) : Word32 :=
  (match a.due with
    | some d => BitVec.ofNat 16 d
    | none => 0xFFFF#16) ++ BitVec.ofNat 16 a.taken

/-- The words of the eight tallies, absent unless a set rebuild has sent its round. -/
def storeWords : Option Rebuild → List Word32
  | some (.set .waitingHolders _ _ _) => List.replicate 8 absentWord
  | some (.set _ _ _ v) => v.toList.map tallyWord
  | _ => List.replicate 8 absentWord

/-- Whether a timer reads as stopped: it does not run, or the link holds it (R142). -/
def State.timerStopped (s : State) (x : Slot) : Bool := x.timer.isNone || s.link != .up

/-- The working entry in the form of words 1 to 10 of a way report (words 30 to 39). -/
def State.workingWords (s : State) (t : SlotIx) (x : Slot) : List Word32 :=
  match x.working, x.setIx with
  | some k, some i => entryWords i k.way k.content x.line (some t) (s.getWay i k.way).body.stored.release
  | _, _ => List.replicate 10 absentWord

/-- The message a slot's report names as pending: the first round its transaction has set aside, else what is pending in
the slot (log 12). -/
def State.reportedPending (s : State) (t : SlotIx) (x : Slot) : Option Pending :=
  match s.orderHeld.find? (fun h => h.isOf t) with
  | some (.left _ os) => some (.round os false)
  | _ => x.pending

/-- Words 0 to 39 of the report of a slot in use (Table 12-5). -/
def State.slotReport (s : State) (t : SlotIx) (x : Slot) : State × List Word32 :=
  let p := s.reportedPending t x
  let (s1, pk) := s.pendingKind p
  let active := x.phase != .parked
  (s1,
    [1#32, x.kind.word, optWord (fun n => natWord n.val) x.requester, optWord lineLow x.line, optWord lineHigh x.line,
      optWord (fun i => natWord i.val) x.set, optWord (fun w => natWord w.val) x.window, x.phase.word,
      (if active then maskWord x.awaited else absentWord), (if active then x.memWait.word else absentWord),
      (if active then x.memWait.nodeWord else absentWord), optWord (fun u => natWord u.val) x.victimLink,
      (if x.kind = .upgrade then boolWord x.converted else absentWord), natWord x.retriesLeft, optWord natWord x.timer,
      boolWord (s.timerStopped x), pk, addresseeWord p, optWord natWord x.rank, stageWord x.rebuild,
      (if x.kind = .flushRecall then boolWord x.repair else absentWord), optWord (fun n => natWord n.val) x.target] ++
      storeWords x.rebuild ++ s.workingWords t x)

/-- The report of a free slot: word 0 is 0, the other fields are absent (R185). -/
def freeSlotReport : List Word32 := 0#32 :: List.replicate 39 absentWord

end Sys2Proof.Machine
end

