-- ==== Sys2Proof/Machine/WalkSteps.lean ====
section
/-! DEFINITION. The set steps of the walks (R161, R165 to R168) and of CLEAR_POISON naming ALL (R141). A step that cannot
be taken in the state changes nothing (log 1). -/

namespace Sys2Proof.Machine

/-- PURGE_SET_STEP (R161): with no step in hand and a job with sets left. -/
def execPurgeSetStep (s : State) : Host.Outcome State Fault Refusal :=
  s.event (if s.purgeStep.isNone ∧ s.walkingNodes ≠ 0#8 then s.beginPurgeStep else (s, []))

/-- Whether a RETIRE or FLUSH job takes its next set: RUNNING or PAUSING, no set in hand, sets left (R165, R169). -/
def State.takesSet (s : State) (j : MaintJob) : Bool :=
  (j.run == .running || j.run == .pausing) && s.maintStep.isNone && decide (j.nextSet < Config.setCount)

/-- RETIRE_SET_STEP (R166). -/
def execRetireSetStep (s : State) : Host.Outcome State Fault Refusal :=
  s.event (match s.maint with
    | some j => if j.kind = .retire ∧ s.takesSet j = true then s.beginMaintStep j else (s, [])
    | none => (s, []))

/-- FLUSH_SET_STEP (R167). -/
def execFlushSetStep (s : State) : Host.Outcome State Fault Refusal :=
  s.event (match s.maint with
    | some j => if j.kind = .flush ∧ s.takesSet j = true then s.beginMaintStep j else (s, [])
    | none => (s, []))

/-- SCRUB_INTERVAL_EXPIRY (R168): it acts while the interval timer runs, whatever time it has left (log 3). -/
def execScrubIntervalExpiry (s : State) : Host.Outcome State Fault Refusal :=
  s.event (match s.maint with
    | some j =>
      if j.kind = .scrub ∧ s.maintStep.isNone = true ∧ j.interval.isSome = true then s.beginScrubStep j else (s, [])
    | none => (s, []))

/-! ## CLEAR_POISON naming ALL (R141) -/

/-- What the pass does at one way: a damaged key or body is skipped and counted; an unheld POISONED way is freed; a held
way whose copy is POISONED takes the release mark. -/
def State.passWay (i : SetIx) (a : State × PoisonPass) (w : WayIx) : State × PoisonPass :=
  let (s, p) := a
  match s.keyView i w, s.bodyView i w with
  | some _, some b =>
    if b.heldBy.isSome then
      if s.wayContent i w = some .poisoned then (s.setRelease i w, { p with marked := p.marked + 1 }) else (s, p)
    else if b.content = .poisoned then (s.makeFree i w, { p with freed := p.freed + 1 })
    else (s, p)
  | _, _ => (s, { p with skipped := p.skipped + 1 })

/-- A command's end: DONE or FAILED, its result code, and COMMAND_DONE (R183). -/
def State.finish (s : State) (c : ResultCode) : State :=
  let v : MailboxState := if c = ResultCode.ok then .done else .failed
  { s with mbState := v, mbResult := c }.raise .commandDone

/-- One set of the pass: read through the check logic, its ways taken in turn; after set 2047 the command ends DONE and
reports its counts. DESIGN CHOICE (log 41): the ways are taken from W0 to W15, which orders the ways freed. DESIGN CHOICE
(log 51): of a way skipped for one UNCORRECTABLE code, a CORRECTABLE other code is corrected and counted. -/
def State.passSet (s : State) (p : PoisonPass) : State :=
  let i : SetIx := ⟨p.next % 2048, Nat.mod_lt _ (by decide)⟩
  let (s1, q) := allWays.foldl (State.passWay i) (s.readWholeSet i, p)
  if p.next + 1 < Config.setCount then { s1 with poisonPass := some { q with next := p.next + 1 } }
  else
    ({ s1 with
        poisonPass := none
        results := ((s1.results.set 0 (BitVec.ofNat 32 q.freed)).set 1 (BitVec.ofNat 32 q.marked)).set 2
          (BitVec.ofNat 32 q.skipped) }).finish .ok

/-- CLEAR_POISON_SET_PASS (R141). -/
def execClearPoisonSetPass (s : State) : Host.Outcome State Fault Refusal :=
  s.event (match s.poisonPass with
    | some p => (s.passSet p, [])
    | none => (s, []))

end Sys2Proof.Machine
end

