-- ==== Sys2Proof/Machine/Commands.lean ====
section
/-! DEFINITION. The command mailbox (R183, R184): acceptance, arguments, each command's act and result code. -/

namespace Sys2Proof.Machine

/-! ## Acceptance and end (R183) -/

/-- What a command's act leaves: the state, the tasks of its event, and its result code, absent while it runs on. -/
structure Ended where
  state : State
  tasks : List Task
  code : Option ResultCode

/-- A command that ends in its event without tasks. -/
def ended (s : State) (c : ResultCode) : Ended := ⟨s, [], some c⟩

/-- A write of a command's code to COMMAND: discarded with OVERRUN set while BUSY, else accepted; the act takes ARG0 to ARG3
as they stand (R183). -/
def State.accept (s : State) (act : State → Ended) : Work :=
  if s.mbState = .busy then ({ s with overrun := true }, [])
  else
    let e := act { s with mbState := .busy, overrun := false, results := Vector.replicate 4 0#32 }
    match e.code with
    | some c => (e.state.finish c, e.tasks)
    | none => (e.state, e.tasks)

/-! ## Arguments (12.4) -/

/-- The window an argument word names. -/
def windowArg (a : Word32) : Option WinIx := if h : a.toNat < 8 then some ⟨a.toNat, h⟩ else none

/-- The node an argument word names. -/
def nodeArg (a : Word32) : Option Node := if h : a.toNat < 8 then some ⟨a.toNat, h⟩ else none

/-- The set an argument word names. -/
def setArg (a : Word32) : Option SetIx := if h : a.toNat < 2048 then some ⟨a.toNat, h⟩ else none

/-- The way an argument word names. -/
def wayArg (a : Word32) : Option WayIx := if h : a.toNat < 16 then some ⟨a.toNat, h⟩ else none

/-- The line two argument words name: bits 31 to 0, and bits 33 to 32 in bits 1 to 0 of the second, whose other bits put
the number out of range. -/
def lineArg (lo hi : Word32) : Option Line :=
  if hi &&& 0xFFFFFFFC#32 = 0#32 then some (hi.extractLsb' 0 2 ++ lo) else none

/-- A window kind's code (TRACKED 0, DIRECT 1, SHARED_ONLY 2). -/
def kindArg (k : BitVec 2) : Option WinKind :=
  if k = 0#2 then some .tracked else if k = 1#2 then some .direct else if k = 2#2 then some .sharedOnly else none

/-! ## Window commands (R101, R102, R106) -/

/-- SET_WINDOW's arguments: window, start, limit, kind and allowed nodes, where they are in range (Table 12-3 and its
note). -/
def setWindowArgs (v : Vector Word32 4) : Option (WinIx × Line × Line × WinKind × NodeSet) :=
  if v[0] &&& 0xFF00FCF8#32 ≠ 0#32 ∨ v[3] &&& 0xFFFCFFFC#32 ≠ 0#32 then none
  else
    match windowArg (v[0] &&& 7#32), kindArg (v[0].extractLsb' 8 2) with
    | some w, some k =>
      some (w, v[3].extractLsb' 0 2 ++ v[1], v[3].extractLsb' 16 2 ++ v[2], k, v[0].extractLsb' 16 8)
    | _, _ => none

/-- SET_WINDOW (R101). -/
def cmdSetWindow (s : State) : Ended :=
  match setWindowArgs s.args with
  | none => ended s .badArgument
  | some (w, a, b, k, m) =>
    if (s.getWindow w).state ≠ .closed then ended s .windowBusy
    else ended (s.modWindow w (fun v => { v with start := a, limit := b, kind := k, allowed := m })) .ok

/-- Whether a window's range shares a line with another open window's (R102). -/
def State.overlaps (s : State) (w : WinIx) : Bool :=
  (List.finRange 8).any (fun u => u != w && (s.getWindow u).state != .closed &&
    decide ((s.getWindow u).start ≤ (s.getWindow w).limit ∧ (s.getWindow w).start ≤ (s.getWindow u).limit))

/-- OPEN_WINDOW (R102). -/
def cmdOpenWindow (s : State) : Ended :=
  match windowArg s.args[0] with
  | none => ended s .badArgument
  | some w =>
    let v := s.getWindow w
    if v.state ≠ .closed then ended s .windowBusy
    else if v.limit < v.start then ended s .badRange
    else if s.overlaps w then ended s .overlap
    else ended (s.modWindow w (fun v => { v with state := .live })) .ok

/-- Whether a RETIRE or FLUSH job exists. -/
def State.maintBusy (s : State) : Bool :=
  match s.maint with
  | some j => j.kind != .scrub
  | none => false

/-- RETIRE_WINDOW (R106, Table 6-3). -/
def cmdRetireWindow (s : State) : Ended :=
  match windowArg s.args[0] with
  | none => ended s .badArgument
  | some w =>
    let v := s.getWindow w
    match v.state with
    | .closed => ended s .notOpen
    | .retiring => ended s .windowBusy
    | .live =>
      if v.kind = .direct then
        if v.openCount = 0 then ended (s.modWindow w (fun r => { r with state := .closed, progress := none })) .ok
        else ended (s.modWindow w (fun r => { r with state := .retiring, progress := some .draining })) .ok
      else if s.maintBusy then ended s .maintBusy
      else
        ended ((s.modWindow w (fun r => { r with state := .retiring, progress := some .walking })).createMaint .retire
          (some w)) .ok

/-! ## Maintenance commands (R165, R169, R170) -/

/-- FLUSH_ALL (R165). -/
def cmdFlushAll (s : State) : Ended :=
  if s.maintBusy then ended s .maintBusy else ended (s.createMaint .flush none) .ok

/-- PAUSE_MAINT (R169). -/
def cmdPauseMaint (s : State) : Ended :=
  match s.maint with
  | none => ended s .notRunning
  | some j =>
    if j.kind ≠ .scrub ∧ j.run = .running then
      ended { s with maint := some { j with
        run := if j.owed = false ∧ s.maintStep.isNone = true then .paused else .pausing } } .ok
    else ended s .notRunning

/-- RESUME_MAINT (R169). -/
def cmdResumeMaint (s : State) : Ended :=
  match s.maint with
  | none => ended s .notPaused
  | some j =>
    if j.kind ≠ .scrub ∧ j.run = .paused then
      ended { s with maint := some { j with run := .running, owed := true } } .ok
    else ended s .notPaused

/-- ABORT_MAINT (R109, R170). -/
def cmdAbortMaint (s : State) : Ended :=
  match s.maint with
  | none => ended s .notRunning
  | some j =>
    if j.kind = .scrub ∨ j.run = .aborting then ended s .notRunning
    else
      let s1 := { s with maint := some { j with run := .aborting }, maintStep := none }
      match j.kind, j.window with
      | .retire, some w => ended (s1.modWindow w (fun r => { r with progress := some .aborting })) .ok
      | _, _ => ended s1 .ok

/-! ## Inspection (R19, R20, R41, R185) -/

/-- INSPECT_LINE (R20). -/
def cmdInspectLine (s : State) : Ended :=
  match lineArg s.args[0] s.args[1] with
  | none => ended s .badArgument
  | some l =>
    let (s1, ws, found) := s.inspectLineReport l
    ended { s1 with inspect := bufferOf ws, results := s1.results.set 0 (boolWord found) } .ok

/-- INSPECT_WAY (R19). -/
def cmdInspectWay (s : State) : Ended :=
  match setArg s.args[0], wayArg s.args[1] with
  | some i, some w => ended { s with inspect := bufferOf (s.wayReport absentWord i w) } .ok
  | _, _ => ended s .badArgument

/-- INSPECT_SLOT (R41). -/
def cmdInspectSlot (s : State) : Ended :=
  if h : s.args[0].toNat < 48 then
    match s.getSlot ⟨s.args[0].toNat, h⟩ with
    | none => ended { s with inspect := bufferOf freeSlotReport } .ok
    | some x =>
      let (s1, ws) := s.slotReport ⟨s.args[0].toNat, h⟩ x
      ended { s1 with inspect := bufferOf ws } .ok
  else ended s .badArgument

/-! ## Nodes (R117) -/

/-- NODE_EVICT (R117). -/
def cmdNodeEvict (s : State) : Ended :=
  match nodeArg s.args[0] with
  | none => ended s .badArgument
  | some n =>
    match s.nodeState n with
    | .live => ⟨(s.enterPurging n .evicted).1, (s.enterPurging n .evicted).2, some .ok⟩
    | .leaving => ⟨(s.enterPurging n .evicted).1, (s.enterPurging n .evicted).2, some .ok⟩
    | .purging => ended (s.modNode n (fun r => { r with reason := some .evicted })) .ok
    | .absent => ended s .nodeState
    | .lost => ended s .nodeState

/-! ## CLEAR_POISON (R140, R141) -/

/-- CLEAR_POISON naming a line (R140): RESULT0 is 0 for a way freed, 1 for a way marked. -/
def clearPoisonLine (s : State) (l : Line) : Ended :=
  let i := setOf l
  match s.lookup l false with
  | (s1, .miss) => ended s1 .notPoisoned
  | (s1, .damagedBody _) => ended s1 .damaged
  | (s1, .damagedKey w) => ended (s1.foundDamagedKey i w none) .damaged
  | (s1, .hit w) =>
    if s1.wayContent i w = some .poisoned then
      if s1.wayHeld i w then ended { s1.setRelease i w with results := s1.results.set 0 1#32 } .ok
      else ended (s1.makeFree i w) .ok
    else ended s1 .notPoisoned

/-- CLEAR_POISON: ARG2 bit 0 names ALL, whose pass keeps the mailbox BUSY (R141); else ARG0 and ARG1 name a line. DESIGN
CHOICE (log 50): the other bits of ARG2 are ignored. -/
def cmdClearPoison (s : State) : Ended :=
  if s.args[2].getLsbD 0 then ⟨{ s with poisonPass := some ⟨0, 0, 0, 0⟩ }, [], none⟩
  else
    match lineArg s.args[0] s.args[1] with
    | none => ended s .badArgument
    | some l => clearPoisonLine s l

/-! ## Records and counters (R187, R188) -/

/-- CLEAR_CAPTURE (R188). -/
def cmdClearCapture (s : State) : Ended := ended { s with capture := none } .ok

/-- CLEAR_COUNTERS (R187). -/
def cmdClearCounters (s : State) : Ended :=
  let s1 := (List.finRange 8).foldl
    (fun s n => s.modNode n (fun r => { r with timeouts := 0, violations := 0, stale := 0 })) s
  ended { s1 with counters := ⟨0, 0, 0, 0, 0, 0, 0⟩, memTimeouts := 0 } .ok

/-! ## The link (R173) -/

/-- A width LINK_SET names: 4 or 8 lanes. -/
def widthArg (a : Word32) : Option Width := if a = 4#32 then some .four else if a = 8#32 then some .eight else none

/-- A rate step LINK_SET names: 1 to 3. -/
def rateArg (a : Word32) : Option Rate :=
  if a = 1#32 then some .one else if a = 2#32 then some .two else if a = 3#32 then some .three else none

/-- LINK_SET (R173). -/
def cmdLinkSet (s : State) : Ended :=
  match widthArg s.args[0], rateArg s.args[1] with
  | some w, some r => ended { s with nextSetting := ⟨w, r⟩ } .ok
  | _, _ => ended s .badArgument

/-- PORT_RESET (R173, R174). -/
def cmdPortReset (s : State) : Ended :=
  let s1 := { s with curSetting := s.nextSetting }
  if s.link = .up then ended s1.leaveUp .ok else ended s1 .ok

/-! ## DIR_RESET (R190) -/

/-- Whether DIR_RESET is accepted: every node ABSENT or LOST, no maintenance job but a SCRUB. -/
def State.dirResetAllowed (s : State) : Bool :=
  (List.finRange 8).all (fun n => s.nodeState n == .absent || s.nodeState n == .lost) && !s.maintBusy

/-- A window at DIR_RESET: RETIRING becomes CLOSED, the count 0 (R110). -/
def Window.afterDirReset (v : Window) : Window :=
  if v.state = .retiring then { v with state := .closed, progress := none, openCount := 0 } else { v with openCount := 0 }

/-- A node at DIR_RESET: LOST becomes ABSENT (R111). -/
def NodeRec.afterDirReset (r : NodeRec) : NodeRec :=
  if r.state = .lost then { r with state := .absent, reason := none } else r

/-- The effects of an accepted DIR_RESET: the directory (R21), slots and their held messages (R42), notices (R70), windows
(R110), nodes (R111), scrub (R171). -/
def State.dirReset (s : State) : State :=
  let s1 := (List.finRange 8).foldl (fun s w => s.modWindow w Window.afterDirReset) s
  let s2 := (List.finRange 8).foldl (fun s n => s.modNode n NodeRec.afterDirReset) s1
  { s2 with
    dir := []
    slots := Vector.replicate 48 none
    notices := []
    orderHeld := []
    answerHeld := s.answerHeld.filter (fun h => match h with
      | .slot _ => false
      | _ => true)
    maint := none
    maintStep := none
    scrubPos := 0 }.startScrub

/-- DIR_RESET (R190). -/
def cmdDirReset (s : State) : Ended := if s.dirResetAllowed then ended s.dirReset .ok else ended s .busy

/-! ## The commands of Table 12-3, and a code that is not in it -/

/-- BAD_COMMAND (R183). -/
def cmdUnknown (s : State) : Ended := ended s .badCommand

/-- The act of a command code. DESIGN CHOICE (log 49): the code is the whole word written to COMMAND. -/
def commandOf (c : Word32) : State → Ended :=
  match c.toNat with
  | 0x01 => cmdSetWindow
  | 0x02 => cmdOpenWindow
  | 0x03 => cmdRetireWindow
  | 0x04 => cmdFlushAll
  | 0x05 => cmdPauseMaint
  | 0x06 => cmdResumeMaint
  | 0x07 => cmdAbortMaint
  | 0x08 => cmdInspectLine
  | 0x09 => cmdInspectWay
  | 0x0A => cmdInspectSlot
  | 0x0B => cmdNodeEvict
  | 0x0C => cmdClearPoison
  | 0x0D => cmdClearCapture
  | 0x0E => cmdClearCounters
  | 0x0F => cmdLinkSet
  | 0x10 => cmdPortReset
  | 0x11 => cmdDirReset
  | _ => cmdUnknown

/-- A write to COMMAND of any code. -/
def State.writeCommand (s : State) (c : Word32) : Work := s.accept (commandOf c)

/-- BAD_COMMAND: a write to COMMAND of a code not in Table 12-3 (R183); a code of the table is taken as its command
(log 20). -/
def execBadCommand (c : Word32) (s : State) : Host.Outcome State Fault Refusal := s.event (s.writeCommand c)

/-- SET_WINDOW (R101). -/
def execSetWindow (s : State) : Host.Outcome State Fault Refusal := s.event (s.accept cmdSetWindow)

/-- OPEN_WINDOW (R102). -/
def execOpenWindow (s : State) : Host.Outcome State Fault Refusal := s.event (s.accept cmdOpenWindow)

/-- RETIRE_WINDOW (R106). -/
def execRetireWindow (s : State) : Host.Outcome State Fault Refusal := s.event (s.accept cmdRetireWindow)

/-- FLUSH_ALL (R165). -/
def execFlushAll (s : State) : Host.Outcome State Fault Refusal := s.event (s.accept cmdFlushAll)

/-- PAUSE_MAINT (R169). -/
def execPauseMaint (s : State) : Host.Outcome State Fault Refusal := s.event (s.accept cmdPauseMaint)

/-- RESUME_MAINT (R169). -/
def execResumeMaint (s : State) : Host.Outcome State Fault Refusal := s.event (s.accept cmdResumeMaint)

/-- ABORT_MAINT (R170). -/
def execAbortMaint (s : State) : Host.Outcome State Fault Refusal := s.event (s.accept cmdAbortMaint)

/-- INSPECT_LINE (R20). -/
def execInspectLine (s : State) : Host.Outcome State Fault Refusal := s.event (s.accept cmdInspectLine)

/-- INSPECT_WAY (R19). -/
def execInspectWay (s : State) : Host.Outcome State Fault Refusal := s.event (s.accept cmdInspectWay)

/-- INSPECT_SLOT (R41). -/
def execInspectSlot (s : State) : Host.Outcome State Fault Refusal := s.event (s.accept cmdInspectSlot)

/-- NODE_EVICT (R117). -/
def execNodeEvict (s : State) : Host.Outcome State Fault Refusal := s.event (s.accept cmdNodeEvict)

/-- CLEAR_POISON (R140). The code is that of CLEAR_POISON_ALL too: ARG2 bit 0 tells them apart (log 20). -/
def execClearPoison (s : State) : Host.Outcome State Fault Refusal := s.event (s.accept cmdClearPoison)

/-- CLEAR_POISON naming ALL (R141). -/
def execClearPoisonAll (s : State) : Host.Outcome State Fault Refusal := s.event (s.accept cmdClearPoison)

/-- CLEAR_CAPTURE (R188). -/
def execClearCapture (s : State) : Host.Outcome State Fault Refusal := s.event (s.accept cmdClearCapture)

/-- CLEAR_COUNTERS (R187). -/
def execClearCounters (s : State) : Host.Outcome State Fault Refusal := s.event (s.accept cmdClearCounters)

/-- LINK_SET (R173). -/
def execLinkSet (s : State) : Host.Outcome State Fault Refusal := s.event (s.accept cmdLinkSet)

/-- PORT_RESET (R173). -/
def execPortReset (s : State) : Host.Outcome State Fault Refusal := s.event (s.accept cmdPortReset)

/-- DIR_RESET (R190). -/
def execDirReset (s : State) : Host.Outcome State Fault Refusal := s.event (s.accept cmdDirReset)

end Sys2Proof.Machine
end

