-- ==== Sys2Proof/Machine/Registers.lean ====
section
/-! DEFINITION. The register window (R181, Table 12-1): limits (R182), event flags and enables (R186), counters (R187), the
capture record (R188), the views and their snapshots (R189, Table 12-9), STATUS (R183). -/

namespace Sys2Proof.Machine

/-! ## Limits (R182) -/

/-- The range of a limit (Table 12-2). -/
def limitInRange (k : LimitName) (v : Word32) : Bool :=
  match k with
  | .orderTimeout => decide (10 ≤ v.toNat ∧ v.toNat ≤ 65535)
  | .retryLimit => decide (v.toNat ≤ 7)
  | .noticeLifetime => decide (10 ≤ v.toNat ∧ v.toNat ≤ 1000000)
  | .scrubInterval => decide (v.toNat ≤ 1000000)
  | .correctedLimit => decide (1 ≤ v.toNat ∧ v.toNat ≤ 65535)

/-- A limit written. -/
def Limits.put (r : Limits) (k : LimitName) (v : Word32) : Limits :=
  match k with
  | .orderTimeout => { r with orderTimeout := v }
  | .retryLimit => { r with retryLimit := v }
  | .noticeLifetime => { r with noticeLifetime := v }
  | .scrubInterval => { r with scrubInterval := v }
  | .correctedLimit => { r with correctedLimit := v }

/-- A limit read. -/
def Limits.get (r : Limits) (k : LimitName) : Word32 :=
  match k with
  | .orderTimeout => r.orderTimeout
  | .retryLimit => r.retryLimit
  | .noticeLifetime => r.noticeLifetime
  | .scrubInterval => r.scrubInterval
  | .correctedLimit => r.correctedLimit

/-- The SCRUB job after a write of SCRUB_INTERVAL: 0 ends it, another value starts one where no job exists; a running
timer keeps its time (R168). -/
def State.rescrub (s : State) : State :=
  match s.maint with
  | none => s.startScrub
  | some j =>
    if j.kind = .scrub ∧ s.limits.scrubInterval = 0#32 then { s.uncount with maint := none, maintStep := none } else s

/-- A write of a limit: taken within its range, else discarded with LIMIT_REJECTED set (R182). -/
def State.writeLimit (s : State) (k : LimitName) (v : Word32) : State :=
  if limitInRange k v then
    let s1 := { s with limits := s.limits.put k v, limitRejected := false }
    if k = .scrubInterval then s1.rescrub else s1
  else { s with limitRejected := true }

/-- LIMIT_WRITE (R182). -/
def execLimitWrite (k : LimitName) (v : Word32) (s : State) : Host.Outcome State Fault Refusal :=
  s.event (s.writeLimit k v, [])

/-! ## Event flags (R186) -/

/-- A write to EVENT_FLAGS clears the flags whose bits are 1. -/
def State.writeFlags (s : State) (v : Word32) : State := { s with flags := s.flags &&& ~~~ (v.setWidth 16) }

/-- A write to EVENT_ENABLE replaces every enable; its upper bits are reserved. -/
def State.writeEnables (s : State) (v : Word32) : State := { s with enables := v.setWidth 16 }

/-- EVENT_FLAGS_WRITE (R186). -/
def execEventFlagsWrite (v : Word32) (s : State) : Host.Outcome State Fault Refusal := s.event (s.writeFlags v, [])

/-- EVENT_ENABLE_WRITE (R186). -/
def execEventEnableWrite (v : Word32) (s : State) : Host.Outcome State Fault Refusal := s.event (s.writeEnables v, [])

/-! ## Words of the views (Table 12-9) -/

/-- A number in a word, at a bit. -/
def field (n bit : Nat) : Word32 := BitVec.ofNat 32 (n * 2 ^ bit)

/-- The code of a node state. -/
def NodeState.code : NodeState → Nat
  | .absent => 0
  | .live => 1
  | .leaving => 2
  | .purging => 3
  | .lost => 4

/-- The code of a purge reason; 0 is absent. -/
def reasonCode : Option PurgeReason → Nat
  | none => 0
  | some .leave => 1
  | some .lost => 2
  | some .evicted => 3
  | some .restart => 4

/-- Node view word 0. -/
def NodeRec.viewWord (r : NodeRec) : Word32 :=
  field r.state.code 0 ||| field (reasonCode r.reason) 8 ||| field r.credits 16

/-- Node view word 1, and the node's counter register. -/
def NodeRec.countWord (r : NodeRec) : Word32 := 0#8 ++ r.timeouts ++ r.violations ++ r.stale

/-- The memory agent view. -/
def State.memWord (s : State) : Word32 :=
  (match s.mem with
    | .absent => 0#32
    | .live => 1#32
    | .failed => 2#32) ||| (s.memTimeouts.setWidth 32 <<< 16)

/-- The code of a window state. -/
def WinState.code : WinState → Nat
  | .closed => 0
  | .live => 1
  | .retiring => 2

/-- The code of a window kind. -/
def WinKind.code : WinKind → Nat
  | .tracked => 0
  | .direct => 1
  | .sharedOnly => 2

/-- The code of retire progress; 0 is absent. -/
def progressCode : Option Progress → Nat
  | none => 0
  | some .walking => 1
  | some .draining => 2
  | some .aborting => 3

/-- Window view word 0. -/
def Window.viewWord (v : Window) : Word32 :=
  field v.state.code 0 ||| field v.kind.code 4 ||| field (progressCode v.progress) 8 ||| field v.openCount 16

/-- Window view words 1 to 3. -/
def Window.viewTail (v : Window) : Vector Word32 3 :=
  #v[maskWord v.allowed ||| (lineHigh v.start <<< 16) ||| (lineHigh v.limit <<< 24), lineLow v.start, lineLow v.limit]

/-- A setting's width bit and rate step. -/
def Setting.codes (g : Setting) : Nat × Nat :=
  (match g.width with
    | .four => 0
    | .eight => 1,
   match g.rate with
    | .one => 1
    | .two => 2
    | .three => 3)

/-- The link view. -/
def State.linkWord (s : State) : Word32 :=
  (match s.link with
    | .down => 0#32
    | .training => 1#32
    | .up => 2#32) ||| field s.curSetting.codes.1 4 ||| field s.curSetting.codes.2 8 ||| field s.nextSetting.codes.1 12 |||
    field s.nextSetting.codes.2 16

/-- The purge set: the nodes that have a purge job. -/
def State.purgeSet (s : State) : NodeSet := NodeSet.ofTest (fun n => (s.getJob n).isSome)

/-- The purge cursor word. -/
def State.purgeWord (s : State) : Word32 :=
  field s.purgePos.val 0 ||| (if s.walkingNodes = 0#8 then field 1 15 else 0#32) ||| (maskWord s.purgeSet <<< 16)

/-- A node's purge job word. -/
def jobWord : Option PurgeJob → Word32
  | none => 0#32
  | some j => field 1 31 ||| (if j.mode = .silent then field 1 30 else 0#32) ||| field j.setsLeft 16 ||| field j.openRecalls 0

/-- The code of a maintenance job kind. -/
def MaintKind.code : MaintKind → Nat
  | .retire => 0
  | .flush => 1
  | .scrub => 2

/-- The code of a run state. -/
def RunState.code : RunState → Nat
  | .running => 0
  | .pausing => 1
  | .paused => 2
  | .finishing => 3
  | .aborting => 4

/-- Maintenance job word 0. -/
def maintWord0 : Option MaintJob → Word32
  | none => 0#32
  | some j => field 1 31 ||| field j.kind.code 28 ||| field (match j.window with
      | some w => w.val
      | none => 0) 24 ||| field j.run.code 20 ||| field (if j.owed then 1 else 0) 19 ||| field j.nextSet 0

/-- Maintenance job word 1: open transactions and the scrub position. -/
def State.maintWord1 (s : State) : Word32 :=
  field (match s.maint with
    | some j => j.openCount
    | none => 0) 0 ||| field s.scrubPos.val 16

/-- Maintenance job word 2: the interval time left of a SCRUB. -/
def maintWord2 : Option MaintJob → Word32
  | some j => match j.interval with
    | some k => field k 0
    | none => 0#32
  | none => 0#32

/-- Words 1 to 11 of the walk views. -/
def State.walkTail (s : State) : Vector Word32 11 :=
  #v[jobWord (s.getJob 0), jobWord (s.getJob 1), jobWord (s.getJob 2), jobWord (s.getJob 3), jobWord (s.getJob 4),
    jobWord (s.getJob 5), jobWord (s.getJob 6), jobWord (s.getJob 7), maintWord0 s.maint, s.maintWord1,
    maintWord2 s.maint]

/-! ## The capture record (R188) -/

/-- The code of a capture cause (Table 12-8). -/
def Cause.code : Cause → Nat
  | .nodeLost => 0
  | .linePoisoned => 1
  | .memoryFailed => 2
  | .entryDamaged => 3
  | .setDamaged => 4
  | .violation => 5

/-- A presence bit. -/
def presence {α : Type} (o : Option α) (bit : Nat) : Word32 := if o.isSome then field 1 bit else 0#32

/-- CAPTURE0. -/
def captureWord0 : Option Capture → Word32
  | none => 0#32
  | some r => field 1 31 ||| field r.cause.code 24 ||| field r.further.toNat 16 ||| presence r.fields.line 0 |||
      presence r.fields.node 1 ||| presence r.fields.set 2 ||| presence r.fields.way 3 ||| presence r.fields.slot 4

/-- The bits of a field, 0 where it is absent. -/
def orZero {α : Type} (f : α → Word32) : Option α → Word32
  | some a => f a
  | none => 0#32

/-- CAPTURE1 to CAPTURE3. -/
def captureTail : Option Capture → Vector Word32 3
  | none => #v[0#32, 0#32, 0#32]
  | some r => #v[orZero lineLow r.fields.line,
      orZero lineHigh r.fields.line ||| orZero (fun p : Peer => (p.code.setWidth 32 : Word32) <<< 8) r.fields.node,
      orZero (fun i : SetIx => field i.val 0) r.fields.set ||| orZero (fun w : WayIx => field w.val 16) r.fields.way |||
        orZero (fun t : SlotIx => field t.val 24) r.fields.slot]

/-! ## STATUS (R183) -/

/-- The code of a mailbox state. -/
def MailboxState.code : MailboxState → Nat
  | .idle => 0
  | .busy => 1
  | .done => 2
  | .failed => 3

/-- A result code (Table 12-4). -/
def ResultCode.code : ResultCode → Nat
  | .ok => 0
  | .badCommand => 1
  | .badArgument => 2
  | .busy => 3
  | .windowBusy => 4
  | .badRange => 5
  | .overlap => 6
  | .notOpen => 7
  | .maintBusy => 8
  | .notRunning => 9
  | .notPaused => 10
  | .nodeState => 11
  | .notPoisoned => 12
  | .damaged => 13

/-- STATUS. -/
def State.statusWord (s : State) : Word32 :=
  field s.mbState.code 0 ||| field s.mbResult.code 8 ||| (if s.overrun then field 1 16 else 0#32) |||
    (if s.limitRejected then field 1 17 else 0#32)

/-! ## Reads (R181, R189) -/

/-- The counter registers 0030H to 0037H, in their order. -/
def State.counterWord (s : State) (k : Nat) : Word32 :=
  match k with
  | 0 => s.counters.corrected.setWidth 32
  | 1 => s.counters.uncorrected.setWidth 32
  | 2 => s.counters.linkCheck.setWidth 32
  | 3 => s.counters.refusedTableFull.setWidth 32
  | 4 => s.counters.refusedSetFull.setWidth 32
  | 5 => s.counters.refusedSetFrozen.setWidth 32
  | 6 => s.counters.noticesDropped.setWidth 32
  | _ => s.memTimeouts.setWidth 32

/-- A node's number mod 8. -/
def node8 (k : Nat) : Node := ⟨k % 8, Nat.mod_lt _ (by decide)⟩

/-- A limit's place in the register map (Table 12-1). -/
def limitAt (k : Nat) : LimitName :=
  match k with
  | 0 => .orderTimeout
  | 1 => .retryLimit
  | 2 => .noticeLifetime
  | 3 => .scrubInterval
  | _ => .correctedLimit

/-- A register read: its word, and the snapshot a read of a first word takes. A register that is not in Table 12-1, or is
write-only, reads 0. DESIGN CHOICE (log 53): the twelve words of the walk views are one snapshot, its first word 00B0H. -/
def State.readRegister (s : State) (r : BitVec 16) : State × Word32 :=
  let a := r.toNat
  if a = 0x00 then (s, 0x00472408#32)
  else if 0x10 ≤ a ∧ a ≤ 0x14 then (s, s.limits.get (limitAt (a - 0x10)))
  else if a = 0x20 then (s, s.flags.setWidth 32)
  else if a = 0x21 then (s, s.enables.setWidth 32)
  else if 0x30 ≤ a ∧ a ≤ 0x37 then (s, s.counterWord (a - 0x30))
  else if 0x40 ≤ a ∧ a ≤ 0x47 then (s, (s.getNode (node8 a)).countWord)
  else if a = 0x50 then ({ s with snapCapture := captureTail s.capture }, captureWord0 s.capture)
  else if 0x51 ≤ a ∧ a ≤ 0x53 then (s, s.snapCapture.toList.getD (a - 0x51) 0#32)
  else if 0x60 ≤ a ∧ a < 0x70 then
    let n := node8 ((a - 0x60) / 2)
    if a % 2 = 0 then
      ({ s with snapNode := s.snapNode.set n.val (s.getNode n).countWord n.isLt }, (s.getNode n).viewWord)
    else (s, s.snapNode[n])
  else if a = 0x70 then (s, s.memWord)
  else if 0x80 ≤ a ∧ a < 0xA0 then
    let w : WinIx := node8 ((a - 0x80) / 4)
    if a % 4 = 0 then
      ({ s with snapWindow := s.snapWindow.set w.val (s.getWindow w).viewTail w.isLt }, (s.getWindow w).viewWord)
    else (s, s.snapWindow[w].toList.getD (a % 4 - 1) 0#32)
  else if a = 0xA0 then (s, s.linkWord)
  else if a = 0xB0 then ({ s with snapWalk := s.walkTail }, s.purgeWord)
  else if 0xB1 ≤ a ∧ a ≤ 0xBB then (s, s.snapWalk.toList.getD (a - 0xB1) 0#32)
  else if 0x101 ≤ a ∧ a ≤ 0x104 then (s, s.args.toList.getD (a - 0x101) 0#32)
  else if a = 0x105 then (s, s.statusWord)
  else if 0x106 ≤ a ∧ a ≤ 0x109 then (s, s.results.toList.getD (a - 0x106) 0#32)
  else if 0x110 ≤ a ∧ a ≤ 0x14F then (s, s.inspect.toList.getD (a - 0x110) 0#32)
  else (s, 0#32)

/-- A read frame taken: the word goes out on SDO. -/
def State.readFrame (s : State) (r : BitVec 16) : State := { (s.readRegister r).1 with sdo := (s.readRegister r).2 }

/-- VIEW_SNAPSHOT_READ (R189): a read of a register; of a first word it copies the record. -/
def execViewSnapshotRead (r : BitVec 16) (s : State) : Host.Outcome State Fault Refusal := s.event (s.readFrame r, [])

/-! ## Writes (R181) -/

/-- A register written. A write to a register that is not in Table 12-1, or is read-only, is discarded. -/
def State.writeRegister (s : State) (r : BitVec 16) (v : Word32) : Work :=
  let a := r.toNat
  if 0x10 ≤ a ∧ a ≤ 0x14 then (s.writeLimit (limitAt (a - 0x10)) v, [])
  else if a = 0x20 then (s.writeFlags v, [])
  else if a = 0x21 then (s.writeEnables v, [])
  else if a = 0x100 then s.writeCommand v
  else if a = 0x101 then ({ s with args := s.args.set 0 v }, [])
  else if a = 0x102 then ({ s with args := s.args.set 1 v }, [])
  else if a = 0x103 then ({ s with args := s.args.set 2 v }, [])
  else if a = 0x104 then ({ s with args := s.args.set 3 v }, [])
  else (s, [])

/-- SDO gives 0 for the bytes clocked after byte 6 (R181). -/
def State.driveTail (s : State) (f : List Byte) : State :=
  if f.length ≤ 7 then s else { s with sdoTail := List.replicate (f.length - 7) 0#8 }

/-- A frame taken at the last bit of byte 6: operation 01H writes, 00H reads; a shorter frame or another operation has no
effect. The bytes after byte 6 are ignored (R181, log 31). -/
def State.takeFrame (s : State) (f : List Byte) : Work :=
  if f.length < 7 then (s, [])
  else if byteAt f 0 = 0x01#8 then (s.driveTail f).writeRegister (frameRegister f) (frameData f)
  else if byteAt f 0 = 0x00#8 then ((s.driveTail f).readFrame (frameRegister f), [])
  else (s.driveTail f, [])

/-- REGISTER_WRITE (R181). -/
def execRegisterWrite (f : List Byte) (s : State) : Host.Outcome State Fault Refusal := s.event (s.takeFrame f)

end Sys2Proof.Machine
end

