-- ==== Sys2Proof/Machine/Replies.lean ====
section
/-! DEFINITION. Messages of the REPLY intake (R25, R49, R51, R69, R71, R82 to R85, R90, R148, R155). A command whose message
is not at the intake's head changes nothing (log 1). -/

namespace Sys2Proof.Machine

/-! ## Matching (R25, R82, R84) -/

/-- The active transaction that awaits a node for a line. -/
def State.awaiting (s : State) (l : Line) (n : Node) : Option (SlotIx × Slot) :=
  match s.activeOn l with
  | none => none
  | some t =>
    match s.getSlot t with
    | none => none
    | some x => if NodeSet.has x.awaited n then some (t, x) else none

/-- A stale reply: counted, and nothing else (R82). -/
def State.staleReply (s : State) (n : Node) : Work := (s.countStale n, [])

/-- A reply that does not fit the order outstanding to its awaited sender: a violation, and the sender stays awaited
(R84). -/
def State.unfitReply (s : State) (n : Node) (l : Line) (t : SlotIx) : Work :=
  (s.chargeViolation n (some l) (some t), [])

/-- A node taken out of a transaction's awaited set. -/
def State.answered (s : State) (t : SlotIx) (n : Node) : State :=
  s.modSlot t (fun y => { y with awaited := NodeSet.remove y.awaited n })

/-- Takes the head of the REPLY intake off. -/
def State.dropReply (s : State) : State := { s with replyIntake := s.replyIntake.tail }

/-! ## Replies of nodes -/

/-- A REVOKE_ACK (R49, R82, R84). -/
def State.revokeAck (s : State) (n : Node) (l : Line) : Work :=
  match s.awaiting l n with
  | none => s.staleReply n
  | some (t, x) => if x.outstanding = .revoke then s.revokeAcked t n else s.staleReply n

/-- A FORWARD_DONE (R49, R54, R58, R77, R84). -/
def State.forwardDone (s : State) (n : Node) (l : Line) (r : Result) : Work :=
  match s.awaiting l n with
  | none => s.staleReply n
  | some (t, x) =>
    match x.outstanding with
    | .forward m =>
      let s1 := s.answered t n
      match r with
      | .clean => s1.nextStep t
      | .dirty => if m = .share then s1.enterConsuming t n else s1.nextStep t
      | .notHeld => s1.notHeld t l n
    | _ => s.unfitReply n l t

/-- A RECALL_DONE (R77, R84, R90, R148). -/
def State.recallDone (s : State) (n : Node) (l : Line) (r : Result) : Work :=
  match s.awaiting l n with
  | none => s.staleReply n
  | some (t, x) =>
    if x.outstanding = .recall then
      if x.phase = .rebuild then s.lineAnswer t x l n r
      else
        let s1 := s.answered t n
        match r with
        | .clean => s1.recallFreed t
        | .dirty => s1.enterConsuming t n
        | .notHeld => s1.notHeld t l n
    else s.unfitReply n l t

/-- The set rebuild of a set that awaits a node (R82, R155). -/
def State.surrenderTaker (s : State) (n : Node) (i : SetIx) : Option SlotIx :=
  (s.slotsWith (fun x => x.rebuildsSet && x.setIx == some i && NodeSet.has x.awaited n)).head?

/-- A SURRENDER_DONE (R82, R155). -/
def State.surrenderDone (s : State) (n : Node) (i : SetIx) (d : Nat) : Work :=
  match s.surrenderTaker n i with
  | none => s.staleReply n
  | some t => s.surrenderAnswer t n d

/-- A COMPLETE (R51, R82, R84): it closes the transaction that awaits it for its GRANT. -/
def State.complete (s : State) (n : Node) (l : Line) : Work :=
  match s.awaiting l n with
  | none => s.staleReply n
  | some (t, x) => if x.phase = .awaitComplete then (s.answered t n).close t else s.staleReply n

/-- REVOKE_ACK (R49). -/
def execRevokeAck (s : State) : Host.Outcome State Fault Refusal :=
  s.event (match s.replyIntake with
    | .revokeAck n l :: _ => s.dropReply.revokeAck n l
    | _ => (s, []))

/-- FORWARD_DONE (R49). -/
def execForwardDone (s : State) : Host.Outcome State Fault Refusal :=
  s.event (match s.replyIntake with
    | .forwardDone n l r :: _ => s.dropReply.forwardDone n l r
    | _ => (s, []))

/-- RECALL_DONE (R90, R148). -/
def execRecallDone (s : State) : Host.Outcome State Fault Refusal :=
  s.event (match s.replyIntake with
    | .recallDone n l r :: _ => s.dropReply.recallDone n l r
    | _ => (s, []))

/-- SURRENDER_DONE (R155). -/
def execSurrenderDone (s : State) : Host.Outcome State Fault Refusal :=
  s.event (match s.replyIntake with
    | .surrenderDone n i d :: _ => s.dropReply.surrenderDone n i d
    | _ => (s, []))

/-- COMPLETE (R51). -/
def execComplete (s : State) : Host.Outcome State Fault Refusal :=
  s.event (match s.replyIntake with
    | .complete n l :: _ => s.dropReply.complete n l
    | _ => (s, []))

/-! ## Replies of the memory agent -/

/-- The active transaction of a line whose memory wait is FETCH_SENT. -/
def State.fetching (s : State) (l : Line) : Option SlotIx :=
  match s.activeOn l with
  | none => none
  | some t => if (s.getSlot t).map Slot.memWait = some .fetchSent then some t else none

/-- A FETCH_SENT (R47, R83). -/
def State.fetchSent (s : State) (l : Line) : Work :=
  match s.fetching l with
  | none => (s, [])
  | some t => (s.modSlot t (fun y => { y with memWait := .noWait })).nextStep t

/-- A FETCH_FAILED (R69, R83): the requester is refused MEMORY_FAULT, whatever else is awaited. -/
def State.fetchFailed (s : State) (l : Line) : Work :=
  match s.fetching l with
  | none => (s, [])
  | some t => (s.modSlot t (fun y => { y with memWait := .noWait })).refuse t .memoryFault

/-- The active transaction of a line with a consuming store wait on a node (Table 4-2). -/
def State.consumer (s : State) (l : Line) (n : Node) : Option SlotIx :=
  match s.activeOn l with
  | none => none
  | some t => if (s.getSlot t).map Slot.memWait = some (.consuming n) then some t else none

/-- The active transaction of a line with an observing store wait on a node. -/
def State.watcher (s : State) (l : Line) (n : Node) : List Task :=
  match s.activeOn l with
  | none => []
  | some t => if (s.getSlot t).map Slot.memWait = some (.observing n) then [.meetObserving t] else []

/-- An ABSORB_DONE (R71, R72, R78, R155): consumed by a waiting transaction, counted by a set rebuild, or offered to the
Store Notice Table; an observing wait is met by an arrival that is offered. -/
def State.absorbDone (s : State) (l : Line) (n : Node) : Work :=
  match s.consumer l n with
  | some t => s.storeConsumed t
  | none =>
    match s.storeTaker l n with
    | some t => s.countStore t n
    | none => (s.offerNotice l n, s.watcher l n)

/-- FETCH_SENT (R47). -/
def execFetchSent (s : State) : Host.Outcome State Fault Refusal :=
  s.event (match s.replyIntake with
    | .fetchSent l :: _ => s.dropReply.fetchSent l
    | _ => (s, []))

/-- FETCH_FAILED (R69). -/
def execFetchFailed (s : State) : Host.Outcome State Fault Refusal :=
  s.event (match s.replyIntake with
    | .fetchFailed l :: _ => s.dropReply.fetchFailed l
    | _ => (s, []))

/-- ABSORB_DONE (R71). -/
def execAbsorbDone (s : State) : Host.Outcome State Fault Refusal :=
  s.event (match s.replyIntake with
    | .absorbDone l n :: _ => s.dropReply.absorbDone l n
    | _ => (s, []))

end Sys2Proof.Machine
end

