-- ==== Sys2Proof/Machine/Requests.lean ====
section
/-! DEFINITION. Messages of the REQUEST intake: the arrival checks, admission (R32 to R35, R73, R78, R103), HELLO and LEAVE
(R112 to R116). A command whose message is not at the intake's head changes nothing (log 1). -/

namespace Sys2Proof.Machine

/-! ## Node requests -/

/-- The window verdicts (Table 6-2): a refusal, or the containing window. -/
def State.windowVerdict (s : State) (k : ReqKind) (n : Node) (l : Line) : Except Reason WinIx :=
  match s.windowOf l with
  | none => .error .noHome
  | some w =>
    let v := s.getWindow w
    if NodeSet.has v.allowed n = false then .error .denied
    else if v.kind = .sharedOnly ∧ (k = .readOwn ∨ k = .upgrade) then .error .readOnly
    else if v.state = .retiring then .error .retiring
    else .ok w

/-- The arrival checks in their order (Table 2-4): the reason of the first that fails, or the containing window. -/
def State.arrivalCheck (s : State) (k : ReqKind) (n : Node) (l : Line) : Except Reason WinIx :=
  if s.nodeState n ≠ .live then .error .notLive
  else
    match s.windowVerdict k n l with
    | .error r => .error r
    | .ok w =>
      if s.frozen (setOf l) = true ∧ (s.getWindow w).kind ≠ .direct then .error .setFrozen
      else if Config.creditLimit ≤ (s.getNode n).credits then .error .tableFull
      else if s.freeSlots < Config.admissionSlots then .error .tableFull
      else .ok w

/-- What a refusal at arrival counts (R35). -/
def State.countArrival (s : State) (r : Reason) : State :=
  match r with
  | .setFrozen => s.countSetFrozen
  | .tableFull => s.countTableFull
  | _ => s

/-- A request refused at arrival: REFUSE, and nothing else (R35). -/
def State.refuseArrival (s : State) (k : ReqKind) (n : Node) (l : Line) (r : Reason) : State :=
  (s.countArrival r).intakeAnswer (.refuse n l (.request k) r)

/-- The transaction of a line whose observing store wait watches a node (Table 4-2). -/
def State.observer (s : State) (l : Line) (n : Node) : List SlotIx :=
  s.slotsWith (fun x => x.line == some l && x.memWait == .observing n)

/-- A request admitted: the lowest free slot, the tail of its line's order, a credit, the window's count; a WRITEBACK
claims its notice (R73) and a DROP meets an observing wait (R78); at the head of an unfrozen set it activates (R27, R32). -/
def State.takeIn (s : State) (k : ReqKind) (n : Node) (l : Line) (w : WinIx) : Work :=
  match s.lowestFree with
  | none => (s, [])
  | some t =>
    let s1 := (s.openOnLine t { newSlot k.toKind with requester := some n } l (some w)).modNode n
      (fun r => { r with credits := r.credits + 1 })
    let s2 := if k = .writeback then s1.claimNotice l n else s1
    (s2, s2.startIfHead t ++ (if k = .drop then (s2.observer l n).map Task.meetObserving else []))

/-- A node request taken by the Request Intake (R34). -/
def State.arrive (s : State) (k : ReqKind) (n : Node) (l : Line) : Work :=
  match s.arrivalCheck k n l with
  | .error r => (s.refuseArrival k n l r, [])
  | .ok w => s.takeIn k n l w

/-- The head of the REQUEST intake delivered, if it is a request of this kind and the Request Intake holds nothing (R35,
R176). -/
def State.takeRequest (s : State) (k : ReqKind) : Work :=
  if s.riHeld.isSome then (s, [])
  else
    match s.reqIntake with
    | .request j n l :: rest => if j = k then ({ s with reqIntake := rest }).arrive k n l else (s, [])
    | _ => (s, [])

/-- READ_SHARED (R34, R52 to R55). -/
def execReadShared (s : State) : Host.Outcome State Fault Refusal := s.event (s.takeRequest .readShared)

/-- READ_OWN (R34, R56 to R59). -/
def execReadOwn (s : State) : Host.Outcome State Fault Refusal := s.event (s.takeRequest .readOwn)

/-- UPGRADE (R34, R60 to R62). -/
def execUpgrade (s : State) : Host.Outcome State Fault Refusal := s.event (s.takeRequest .upgrade)

/-- WRITEBACK (R34, R63, R64, R73). -/
def execWriteback (s : State) : Host.Outcome State Fault Refusal := s.event (s.takeRequest .writeback)

/-- DROP (R34, R65, R66, R78). -/
def execDrop (s : State) : Host.Outcome State Fault Refusal := s.event (s.takeRequest .drop)

/-! ## Membership -/

/-- A HELLO from a node (R113, R114). -/
def State.helloNode (s : State) (n : Node) : Work :=
  match s.nodeState n with
  | .absent =>
    ((((s.dropMembership n).modNode n (fun r => { r with state := .live, reason := none })).intakeAnswer
      (.welcome (.node n))).raise .joined, [])
  | .lost =>
    ((((s.dropMembership n).modNode n (fun r => { r with state := .live, reason := none })).intakeAnswer
      (.welcome (.node n))).raise .restarted, [])
  | .live => s.enterPurging n .restart
  | .leaving => s.enterPurging n .restart
  | .purging => (s.modNode n (fun r => { r with reason := some .restart }), [])

/-- HELLO (R113, R114). -/
def execHello (s : State) : Host.Outcome State Fault Refusal :=
  s.event (match s.riHeld, s.reqIntake with
    | none, .hello (.node n) :: rest => ({ s with reqIntake := rest }).helloNode n
    | _, _ => (s, []))

/-- HELLO from the memory agent (R112). -/
def execHelloFromMemoryAgent (s : State) : Host.Outcome State Fault Refusal :=
  s.event (match s.riHeld, s.reqIntake with
    | none, .hello .memory :: rest => (({ s with reqIntake := rest, mem := .live }).intakeAnswer (.welcome .memory), [])
    | _, _ => (s, []))

/-- A LEAVE from a node (R115): accepted from a LIVE node with no credit in use, else refused for line 0H. -/
def State.leaveNode (s : State) (n : Node) : State :=
  if s.nodeState n = .live then
    if (s.getNode n).credits = 0 then
      ((s.dropMembership n).modNode n (fun r => { r with state := .leaving, reason := some .leave })).putJob n
        (some ⟨.messaging, Config.setCount, 0⟩)
    else (s.chargeViolation n none none).intakeAnswer (.refuse n 0 .leave .violation)
  else s.intakeAnswer (.refuse n 0 .leave .notLive)

/-- LEAVE (R115). -/
def execLeave (s : State) : Host.Outcome State Fault Refusal :=
  s.event (match s.riHeld, s.reqIntake with
    | none, .leave n :: rest => (({ s with reqIntake := rest }).leaveNode n, [])
    | _, _ => (s, []))

end Sys2Proof.Machine
end

