-- ==== Sys2Proof/Machine/Timers.lean ====
section
/-! DEFINITION. Timer expiries (R76, R79, R131 to R138, R149, R156) and the passing of time (log 2). An expiry command acts
on a timer that runs, whatever time it has left, while the link is UP (R129, log 3). -/

namespace Sys2Proof.Machine

/-- The slot a slot number names. -/
def slotOf (t : Nat) : Option SlotIx := if h : t < 48 then some ⟨t, h⟩ else none

/-- The slot and record whose running timer an expiry command names, with the link UP. -/
def State.expiring (s : State) (t : Nat) : Option (SlotIx × Slot) :=
  match slotOf t with
  | none => none
  | some u =>
    match s.getSlot u with
    | none => none
    | some x => if s.link = .up ∧ x.timer.isSome = true then some (u, x) else none

/-! ## Orders (R131, R133) -/

/-- Whether the expiry is that of an order round: AWAIT_REPLIES, a line rebuild that still awaits replies, or a set
rebuild in SURRENDERING (R131, R149, R156). -/
def Slot.roundTimed (x : Slot) : Bool :=
  match x.rebuild with
  | some (.line _) => x.awaited != 0#8
  | some (.set .surrendering _ _ _) => true
  | some (.set _ _ _ _) => false
  | none => x.phase == .awaitReplies

/-- The orders a re-send repeats: those outstanding to the nodes still awaited, and the FETCH (R131). DESIGN CHOICE (log 38):
the nodes in ascending order, the FETCH behind them. -/
def Slot.resends (x : Slot) : List Order :=
  (match x.outstanding, x.line, x.setIx with
    | .revoke, some l, _ => revokes l x.awaited true
    | .recall, some l, _ => recalls l x.awaited true
    | .forward m, some l, _ =>
      match x.requester with
      | some r => (NodeSet.toList x.awaited).map (fun n => .forward n l r m true)
      | none => []
    | .surrender, _, some i => surrenders i x.awaited true
    | _, _, _ => []) ++
  (match x.memWait, x.line, x.requester with
    | .fetchSent, some l, some r => [.fetch l r true]
    | _, _, _ => [])

/-- The TIMEOUTS an expiry counts: each awaited node's, and the memory agent's where a FETCH is awaited (R131, R133). -/
def State.countExpiry (s : State) (x : Slot) : State :=
  let s1 := (NodeSet.toList x.awaited).foldl State.countTimeout s
  if x.memWait = .fetchSent then s1.countMemTimeout else s1

/-- The capture fields of a declaration by a slot: its line, or the set of a SET_REBUILD; set and way where it holds a way;
the slot (R134). DESIGN CHOICE (log 36): a transaction that took the set rebuild role gives its line, and no set. -/
def lossFields (t : SlotIx) (x : Slot) : FaultFields :=
  { noFields with
    line := x.line
    set := if x.working.isSome ∨ x.line = none then x.setIx else none
    way := x.working.map Working.way
    slot := some t }

/-- The capture fields of a failed memory agent: the line and the slot (R137). -/
def failFields (t : SlotIx) (x : Slot) : FaultFields := { noFields with line := x.line, slot := some t }

/-- A slot's timer stopped. -/
def State.stopTimer (s : State) (t : SlotIx) : State := s.modSlot t (fun y => { y with timer := none })

/-- One retry used. -/
def State.useRetry (s : State) (t : SlotIx) : State :=
  s.modSlot t (fun y => { y with retriesLeft := y.retriesLeft - 1, timer := none })

/-- An order round's expiry (R131, R133): re-sent while retries are left; else each node awaited is declared lost in
ascending order, and then the memory agent failed where FETCH_SENT was awaited at the expiry (log 16). -/
def State.orderExpiry (s : State) (t : SlotIx) (x : Slot) : Work :=
  let s1 := s.countExpiry x
  if 0 < x.retriesLeft then ((s1.useRetry t).sendRound t x.resends false, [])
  else
    (s1.stopTimer t,
      (NodeSet.toList x.awaited).map (fun n => Task.declareLost n (lossFields t x)) ++
        (if x.memWait = .fetchSent then [.declareFailed (failFields t x)] else []))

/-- ORDER_TIMER_EXPIRY (R131, R133). -/
def execOrderTimerExpiry (t : Nat) (s : State) : Host.Outcome State Fault Refusal :=
  s.event (match s.expiring t with
    | some (u, x) => if x.roundTimed then s.orderExpiry u x else (s, [])
    | none => (s, []))

/-! ## The GRANT (R135) -/

/-- A GRANT's expiry: sent again with the repeat flag, or the requester is declared lost (R135). -/
def State.grantExpiry (s : State) (t : SlotIx) (x : Slot) : Work :=
  match x.requester, x.line, x.outstanding with
  | some n, some l, .grant p src u =>
    let s1 := s.countTimeout n
    if 0 < x.retriesLeft then (s1.useRetry t).sendAnswer t (.grant n l p src u true)
    else (s1.stopTimer t, [.declareLost n (lossFields t x)])
  | _, _, _ => (s, [])

/-- GRANT_TIMER_EXPIRY (R135). -/
def execGrantTimerExpiry (t : Nat) (s : State) : Host.Outcome State Fault Refusal :=
  s.event (match s.expiring t with
    | some (u, x) => if x.phase = .awaitComplete then s.grantExpiry u x else (s, [])
    | none => (s, []))

/-! ## Store waits (R79, R138, R149) -/

/-- A store wait ends in poison: a recall closes with its line POISONED, a read request is refused POISONED, a WRITEBACK is
answered WB_DONE (R138). -/
def State.endInPoison (s : State) (t : SlotIx) (x : Slot) (n : Node) : Work :=
  let s1 := (s.modSlot t (fun y => { y with memWait := .noWait, timer := none })).poisonCopy t (some n)
  if x.kind.recall then s1.close t
  else if x.kind = .writeback then s1.closeWith t (fun m l => .wbDone m l false)
  else s1.refuse t .poisoned

/-- STORE_WAIT_EXPIRY (R138, R149): the memory agent's TIMEOUTS counts one; a line rebuild whose replies are all in ends in
poison. -/
def execStoreWaitExpiry (t : Nat) (s : State) : Host.Outcome State Fault Refusal :=
  s.event (match s.expiring t with
    | some (u, x) =>
      match x.memWait, x.rebuild with
      | .consuming n, none => if x.phase = .awaitStore then s.countMemTimeout.endInPoison u x n else (s, [])
      | .consuming _, some (.line _) => if x.awaited = 0#8 then s.countMemTimeout.lineLost u else (s, [])
      | _, _ => (s, [])
    | none => (s, []))

/-- An observing wait's expiry: with the owner's WRITEBACK present it is a store expiry; else the owner is charged a
violation, after the poisoning has reached the capture record (R79). -/
def State.observingExpiry (s : State) (t : SlotIx) (x : Slot) (n : Node) (l : Line) : Work :=
  if s.requestPresent .writeback n l then s.countMemTimeout.endInPoison t x n
  else
    let s1 := (s.modSlot t (fun y => { y with memWait := .noWait, timer := none })).poisonCopy t (some n)
    let s2 := s1.chargeViolation n (some l) (some t)
    if x.kind.recall then s2.close t else s2.refuse t .poisoned

/-- OBSERVING_WAIT_EXPIRY (R79). -/
def execObservingWaitExpiry (t : Nat) (s : State) : Host.Outcome State Fault Refusal :=
  s.event (match s.expiring t with
    | some (u, x) =>
      match x.memWait, x.line with
      | .observing n, some l => s.observingExpiry u x n l
      | _, _ => (s, [])
    | none => (s, []))

/-! ## Collecting (R156) -/

/-- A set rebuild's expiry in COLLECTING: a retry is used, or the memory agent is declared failed and the rebuild ends
(R156). -/
def State.collectingStep (s : State) (t : SlotIx) (x : Slot) : Work :=
  let s1 := s.countMemTimeout
  if 0 < x.retriesLeft then
    (s1.modSlot t (fun y => { y with retriesLeft := y.retriesLeft - 1, timer := some s.orderTimeout }), [])
  else (s1.stopTimer t, [.declareFailed (failFields t x), .endSetRebuild t])

/-- COLLECTING_EXPIRY (R156). -/
def execCollectingExpiry (t : Nat) (s : State) : Host.Outcome State Fault Refusal :=
  s.event (match s.expiring t with
    | some (u, x) =>
      match x.rebuild with
      | some (.set .collecting _ _ _) => s.collectingStep u x
      | _ => (s, [])
    | none => (s, []))

/-! ## Notice ages (R76) -/

/-- NOTICE_AGE_EXPIRY (R76): an unclaimed notice leaves the table and NOTICES_DROPPED counts one. -/
def execNoticeAgeExpiry (l : Line) (n : Node) (s : State) : Host.Outcome State Fault Refusal :=
  s.event (match s.noticeFor l n with
    | some v => if s.link = .up ∧ v.claimed = false then ((s.removeNotice l n).countNoticeDropped, []) else (s, [])
    | none => (s, []))

/-! ## A microsecond (log 2) -/

/-- A running time after a microsecond; it does not go below 1, where the expiry command is due. -/
def countDown (k : Nat) : Nat := max 1 (k - 1)

/-- A microsecond passes: slot timers and the ages of unclaimed notices run while the link is UP, the scrub's interval
whatever the link's state (R129, R168). -/
def State.tick (s : State) : State :=
  let s1 := { s with maint := s.maint.map (fun j => { j with interval := j.interval.map countDown }) }
  if s.link = .up then
    { s1.modSlots (fun x => { x with timer := x.timer.map countDown }) with
      notices := s.notices.map (fun v => if v.claimed then v else { v with age := countDown v.age }) }
  else s1

end Sys2Proof.Machine
end

