-- ==== Sys2Proof/Machine/Dispatch.lean ====
section
/-! DEFINITION. One arm per command: the direct call of its meaning. -/

namespace Sys2Proof.Machine

/-- A command's effect on everything but the queue. -/
def exec (i : Instr) (s : State) : Host.Outcome State Fault Refusal :=
  match i with
  | .linkMessageReceived ch bytes => Sys2Proof.Machine.execLinkMessageReceived ch bytes s
  | .readShared => Sys2Proof.Machine.execReadShared s
  | .readOwn => Sys2Proof.Machine.execReadOwn s
  | .upgrade => Sys2Proof.Machine.execUpgrade s
  | .writeback => Sys2Proof.Machine.execWriteback s
  | .drop => Sys2Proof.Machine.execDrop s
  | .hello => Sys2Proof.Machine.execHello s
  | .helloFromMemoryAgent => Sys2Proof.Machine.execHelloFromMemoryAgent s
  | .leave => Sys2Proof.Machine.execLeave s
  | .revokeAck => Sys2Proof.Machine.execRevokeAck s
  | .forwardDone => Sys2Proof.Machine.execForwardDone s
  | .recallDone => Sys2Proof.Machine.execRecallDone s
  | .surrenderDone => Sys2Proof.Machine.execSurrenderDone s
  | .complete => Sys2Proof.Machine.execComplete s
  | .fetchSent => Sys2Proof.Machine.execFetchSent s
  | .fetchFailed => Sys2Proof.Machine.execFetchFailed s
  | .absorbDone => Sys2Proof.Machine.execAbsorbDone s
  | .orderTimerExpiry slot => Sys2Proof.Machine.execOrderTimerExpiry slot s
  | .grantTimerExpiry slot => Sys2Proof.Machine.execGrantTimerExpiry slot s
  | .storeWaitExpiry slot => Sys2Proof.Machine.execStoreWaitExpiry slot s
  | .observingWaitExpiry slot => Sys2Proof.Machine.execObservingWaitExpiry slot s
  | .collectingExpiry slot => Sys2Proof.Machine.execCollectingExpiry slot s
  | .noticeAgeExpiry line node => Sys2Proof.Machine.execNoticeAgeExpiry line node s
  | .purgeSetStep => Sys2Proof.Machine.execPurgeSetStep s
  | .retireSetStep => Sys2Proof.Machine.execRetireSetStep s
  | .flushSetStep => Sys2Proof.Machine.execFlushSetStep s
  | .scrubIntervalExpiry => Sys2Proof.Machine.execScrubIntervalExpiry s
  | .clearPoisonSetPass => Sys2Proof.Machine.execClearPoisonSetPass s
  | .outboundSend queue => Sys2Proof.Machine.execOutboundSend queue s
  | .signalDetected => Sys2Proof.Machine.execSignalDetected s
  | .trainingComplete => Sys2Proof.Machine.execTrainingComplete s
  | .trainingFailed => Sys2Proof.Machine.execTrainingFailed s
  | .lossOfTraining => Sys2Proof.Machine.execLossOfTraining s
  | .resetn level => Sys2Proof.Machine.execResetn level s
  | .limitWrite limit value => Sys2Proof.Machine.execLimitWrite limit value s
  | .eventFlagsWrite value => Sys2Proof.Machine.execEventFlagsWrite value s
  | .eventEnableWrite value => Sys2Proof.Machine.execEventEnableWrite value s
  | .viewSnapshotRead register => Sys2Proof.Machine.execViewSnapshotRead register s
  | .registerWrite frame => Sys2Proof.Machine.execRegisterWrite frame s
  | .badCommand code => Sys2Proof.Machine.execBadCommand code s
  | .setWindow => Sys2Proof.Machine.execSetWindow s
  | .openWindow => Sys2Proof.Machine.execOpenWindow s
  | .retireWindow => Sys2Proof.Machine.execRetireWindow s
  | .flushAll => Sys2Proof.Machine.execFlushAll s
  | .pauseMaint => Sys2Proof.Machine.execPauseMaint s
  | .resumeMaint => Sys2Proof.Machine.execResumeMaint s
  | .abortMaint => Sys2Proof.Machine.execAbortMaint s
  | .inspectLine => Sys2Proof.Machine.execInspectLine s
  | .inspectWay => Sys2Proof.Machine.execInspectWay s
  | .inspectSlot => Sys2Proof.Machine.execInspectSlot s
  | .nodeEvict => Sys2Proof.Machine.execNodeEvict s
  | .clearPoison => Sys2Proof.Machine.execClearPoison s
  | .clearPoisonAll => Sys2Proof.Machine.execClearPoisonAll s
  | .clearCapture => Sys2Proof.Machine.execClearCapture s
  | .clearCounters => Sys2Proof.Machine.execClearCounters s
  | .linkSet => Sys2Proof.Machine.execLinkSet s
  | .portReset => Sys2Proof.Machine.execPortReset s
  | .dirReset => Sys2Proof.Machine.execDirReset s

end Sys2Proof.Machine
end

