-- ==== Sys2Proof/Safety.lean ====
section
/-! DEFINITION. What a sound state of the part is: the conditions every event leaves true, and a part with nothing of its
own in hand. Claims are stated with these. -/

namespace Sys2Proof.Machine

/-! ## What the engine's tasks never write -/

/-- The Fabric Port's link, settings, intakes and TX lanes, the Management Port but for flags, counters and capture record,
and the pins. -/
structure Surface where
  link : LinkState
  curSetting : Setting
  nextSetting : Setting
  reqIntake : List ReqMsg
  replyIntake : List ReplyMsg
  txFrame : List Byte
  limits : Limits
  limitRejected : Bool
  mbState : MailboxState
  mbResult : ResultCode
  overrun : Bool
  args : Vector Word32 4
  results : Vector Word32 4
  poisonPass : Option PoisonPass
  enables : BitVec 16
  snapNode : Vector Word32 8
  snapWindow : Vector (Vector Word32 3) 8
  snapWalk : Vector Word32 11
  snapCapture : Vector Word32 3
  inspect : Vector Word32 64
  eventN : Level
  sdo : Word32
  sdoTail : List Byte
  resetN : Level
  pending : List Instr
deriving DecidableEq, Repr

/-- The surface of a state. -/
def State.surface (s : State) : Surface where
  link := s.link
  curSetting := s.curSetting
  nextSetting := s.nextSetting
  reqIntake := s.reqIntake
  replyIntake := s.replyIntake
  txFrame := s.txFrame
  limits := s.limits
  limitRejected := s.limitRejected
  mbState := s.mbState
  mbResult := s.mbResult
  overrun := s.overrun
  args := s.args
  results := s.results
  poisonPass := s.poisonPass
  enables := s.enables
  snapNode := s.snapNode
  snapWindow := s.snapWindow
  snapWalk := s.snapWalk
  snapCapture := s.snapCapture
  inspect := s.inspect
  eventN := s.eventN
  sdo := s.sdo
  sdoTail := s.sdoTail
  resetN := s.resetN
  pending := s.pending

/-! ## Conditions every event leaves true -/

/-- Every set's recency order lists the 16 ways once each (R16). -/
def State.ordersOk (s : State) : Prop := ∀ i, (s.getSet i).order.Perm allWays

/-- The directory's store has its canonical form (log 7) and its orders are orders of the ways (R16). -/
def State.directoryOk (s : State) : Prop := dirWf s.dir = true ∧ s.ordersOk

/-- The outbound queues hold at most 64 messages each (R177). -/
def State.queuesOk (s : State) : Prop :=
  s.orderQ.length ≤ Config.queueCapacity ∧ s.answerQ.length ≤ Config.queueCapacity

/-- The intakes hold at most 16 messages each (R176). -/
def State.intakesOk (s : State) : Prop :=
  s.reqIntake.length ≤ Config.intakeCapacity ∧ s.replyIntake.length ≤ Config.intakeCapacity

/-- At most 16 notices, no two for one line and node (R70). -/
def State.noticesOk (s : State) : Prop :=
  s.notices.length ≤ Config.noticeCapacity ∧
    s.notices.Pairwise (fun a b => ¬(a.line = b.line ∧ a.node = b.node))

/-- No node uses more than 6 credits (R33). -/
def State.creditsOk (s : State) : Prop := ∀ n, (s.getNode n).credits ≤ Config.creditLimit

/-- Two windows share a line. -/
def Window.shares (v u : Window) : Prop := ∃ l, v.spans l = true ∧ u.spans l = true

/-- A window that is not CLOSED has a range, no two of them share a line (R102), and the window of a maintenance job is
RETIRING and not DRAINING (R106, R107). -/
def State.windowsOk (s : State) : Prop :=
  (∀ w, (s.getWindow w).state ≠ .closed → (s.getWindow w).start ≤ (s.getWindow w).limit) ∧
  (∀ u w, u ≠ w → (s.getWindow u).state ≠ .closed → (s.getWindow w).state ≠ .closed →
    ¬(s.getWindow u).shares (s.getWindow w)) ∧
  (∀ j w, s.maint = some j → j.window = some w →
    (s.getWindow w).state = .retiring ∧ (s.getWindow w).progress ≠ some .draining)

/-- The transactions of a line have its ranks: each a number below how many there are, no two the same (R26, R39). -/
def State.ranksOk (s : State) : Prop :=
  (∀ t x l, s.getSlot t = some x → x.line = some l → ∃ r, x.rank = some r ∧ r < (s.onLine l).length) ∧
  (∀ t u x y l, t ≠ u → s.getSlot t = some x → s.getSlot u = some y → x.line = some l → y.line = some l →
    x.rank ≠ y.rank)

/-- Nothing that follows from a condition is left undone, and EVENTn has the level its flags give it (R186, log 13). -/
def State.atRest (s : State) : Prop := s.settled = true ∧ s.eventN = s.eventLevel

/-! ## A part with nothing of its own in hand -/

/-- RESETn is high, no set is frozen or being rebuilt, no walk has a set in hand, no message is held for room, and no job
is at its end. -/
structure State.Quiet (s : State) : Prop where
  running : s.resetN = .high
  noRebuild : s.slotsWith Slot.rebuildsSet = []
  noFrozen : s.anyFrozen = false
  noPurgeStep : s.purgeStep = none
  noMaintStep : s.maintStep = none
  noHeldOrder : s.orderHeld = []
  noHeldAnswer : s.answerHeld = []
  noEnding : s.maintEnding = none
  noDone : s.doneNode = none

/-- RESETn is high and no condition is left standing: the part between two events. -/
def State.Ready (s : State) : Prop := s.resetN = .high ∧ s.settled = true

/-- The command that delivers a node request of a kind from the REQUEST intake. -/
def ReqKind.command : ReqKind → Instr
  | .readShared => .readShared
  | .readOwn => .readOwn
  | .upgrade => .upgrade
  | .writeback => .writeback
  | .drop => .drop

/-- What the end of a command in its accepting event leaves in the mailbox: the state, the result code, OVERRUN clear,
RESULT0 to RESULT3 at 0 and COMMAND_DONE raised (R183). -/
def State.commandEnd (s : State) (c : ResultCode) : State :=
  let v : MailboxState := if c = ResultCode.ok then .done else .failed
  { s with mbState := v, mbResult := c, overrun := false, results := Vector.replicate 4 0#32, flags := s.flags ||| 0x8000#16 }

/-- Every check code of a set matches its field (R143). -/
def State.soundSet (s : State) (i : SetIx) : Prop :=
  ∀ w, (s.getWay i w).key.check = .good ∧ (s.getWay i w).body.check = .good

/-! ## Commands -/

/-- The commands that are writes to COMMAND of a code of Table 12-3, and BAD_COMMAND (R183). -/
def mailboxCommand : Instr → Bool
  | .badCommand _ => true
  | .setWindow => true
  | .openWindow => true
  | .retireWindow => true
  | .flushAll => true
  | .pauseMaint => true
  | .resumeMaint => true
  | .abortMaint => true
  | .inspectLine => true
  | .inspectWay => true
  | .inspectSlot => true
  | .nodeEvict => true
  | .clearPoison => true
  | .clearPoisonAll => true
  | .clearCapture => true
  | .clearCounters => true
  | .linkSet => true
  | .portReset => true
  | .dirReset => true
  | _ => false

/-- A part between two events whose mailbox is not BUSY: it takes a command (R183). -/
def State.TakesCommand (s : State) : Prop := s.Ready ∧ s.mbState ≠ .busy

/-- The open transactions a maintenance job counts: none. -/
def State.noneCounted (s : State) : Prop :=
  ∀ t x, s.getSlot t = some x → x.counted = true → x.kind = .leaveRecall

/-! ## A line's entry -/

/-- A line no way of its set names: every code of the set matches its field, and no way in use has the line's key (R7). -/
def State.untracked (s : State) (l : Line) : Prop :=
  s.soundSet (setOf l) ∧
    ∀ w, (s.getWay (setOf l) w).body.stored.content ≠ .free → (s.getWay (setOf l) w).key.stored ≠ some (keyOf l)

/-- A line tracked by an unheld way with a content, every code of its set matching its field and no other way in use having
the line's key (R7). -/
def State.trackedAs (s : State) (l : Line) (w : WayIx) (c : Content) : Prop :=
  s.soundSet (setOf l) ∧ s.getWay (setOf l) w = ⟨coded (some (keyOf l)), coded ⟨c, none, false⟩⟩ ∧
    ∀ u, u ≠ w → (s.getWay (setOf l) u).body.stored.content ≠ .free →
      (s.getWay (setOf l) u).key.stored ≠ some (keyOf l)

/-- A record that stays as it is when a transaction takes it up: VALID, and naming no node in PURGING (R122). -/
def State.keepsContent (s : State) (c : Content) : Prop :=
  c ≠ .free ∧ c ≠ .reserved ∧ editContent s.purgingNodes c = c

/-! ## Node requests -/

/-- A node request at the head of the REQUEST intake that passes every check of Table 2-4, in a part with nothing of its
own in hand. -/
structure State.Arrives (s : State) (k : ReqKind) (n : Node) (l : Line) (v : WinIx) (rest : List ReqMsg) : Prop where
  quiet : s.Quiet
  canonical : dirWf s.dir = true
  unheld : s.riHeld = none
  head : s.reqIntake = .request k n l :: rest
  live : s.nodeState n = .live
  home : s.windowOf l = some v
  allowed : NodeSet.has (s.getWindow v).allowed n = true
  writable : (s.getWindow v).kind = .sharedOnly → k ≠ .readOwn ∧ k ≠ .upgrade
  windowLive : (s.getWindow v).state = .live
  credit : (s.getNode n).credits < 6
  room : 5 ≤ s.freeSlots

/-- The record of a node request just admitted, in its line's order at a rank (R23, R26, R32). -/
def requestSlot (k : ReqKind) (n : Node) (l : Line) (v : WinIx) (r : Nat) : Slot :=
  { newSlot k.toKind with requester := some n, line := some l, window := some v, rank := some r }

/-- What an admission changes beside its slot: the message leaves the intake, the requester's credits in use and the
window's count rise by one (R32, R105). -/
def State.admitted (s : State) (n : Node) (v : WinIx) (rest : List ReqMsg) : State :=
  (({ s with reqIntake := rest }).modNode n (fun r => { r with credits := r.credits + 1 })).modWindow v
    (fun r => { r with openCount := r.openCount + 1 })

/-- A slot whose transaction has just sent its first GRANT (R50, R128). -/
def Slot.granted (x : Slot) (s : State) (n : Node) (p : Permission) (src : Source) (untracked : Bool) : Slot :=
  { x with
    phase := .awaitComplete
    awaited := NodeSet.single n
    memWait := .noWait
    outstanding := .grant p src untracked
    working := x.working.map (fun k => { k with content := grantContent p n k.content })
    pending := none
    timer := some s.orderTimeout
    retriesLeft := s.retryLimit }

/-- The only transaction of its line, active, with its window LIVE, no recall awaited and none of the internal marks: the
request's close changes nothing else on its line. -/
structure State.Sole (s : State) (t : SlotIx) (x : Slot) (l : Line) (v : WinIx) : Prop where
  slot : s.getSlot t = some x
  line : x.line = some l
  alone : s.onLine l = [t]
  active : x.phase ≠ .parked
  rank : x.rank = some 0
  window : x.window = some v
  windowLive : (s.getWindow v).state = .live
  unlinked : x.victimLink = none
  uncounted : x.counted = false
  sent : x.pending = none
  plain : x.rebuild = none

/-- What the close of such a transaction changes beside the directory: the slot is free, the requester's credit and the
window's count fall by one (R33, R39, R105). -/
def State.closed (s : State) (t : SlotIx) (n : Option Node) (v : WinIx) : State :=
  (match n with
    | some k => (s.putSlot t none).modNode k (fun r => { r with credits := r.credits - 1 })
    | none => s.putSlot t none).modWindow v (fun r => { r with openCount := r.openCount - 1 })

/-- A fault directed to the capture record (R188): the first fills it, a further one counts, holding at 15. -/
def captured (c : Option Capture) (cause : Cause) (f : FaultFields) : Option Capture :=
  some (match c with
    | none => ⟨cause, f, 0⟩
    | some r => { r with further := satInc r.further })

/-- A node's entry into PURGING with no transaction left to edit: its reason, its credits 0, nothing held in NT for it, and a
SILENT purge job (R118, R123, R160). -/
def State.purged (s : State) (n : Node) (r : PurgeReason) : State :=
  { s.modNode n (fun v => { v with state := .purging, reason := some r, credits := 0 }) with
    ntHeld := s.ntHeld.set n.val none n.isLt
    purgeJobs := s.purgeJobs.set n.val (some (match s.getJob n with
      | none => ⟨.silent, 2048, 0⟩
      | some j => { j with mode := .silent })) n.isLt }

/-! ## Internal recalls -/

/-- What the opening of a recall changes on an unheld, tracked line with no other transaction: the slot, with a way held, and the
orders that withdraw the line from some of the nodes its record names (R28, R89, R105), in the model's order (log 38). -/
def State.recallOpened (s : State) (u : SlotIx) (x : Slot) (l : Line) (v : WinIx) (w : WayIx) (c : Content) (m : NodeSet) :
    State :=
  { ((s.putWay (setOf l) w ⟨coded (some (keyOf l)), coded ⟨c, some u, false⟩⟩).modWindow v (fun r =>
      { r with openCount := r.openCount + 1 })).putSlot u (some { x with
        line := some l
        window := some v
        rank := some 0
        phase := .awaitReplies
        awaited := m
        outstanding := match c with
          | .owned _ => .recall
          | _ => .revoke
        working := some ⟨w, c⟩
        timer := some s.limits.orderTimeout.toNat
        retriesLeft := s.limits.retryLimit.toNat }) with
    orderQ := s.orderQ ++ (NodeSet.toList m).map (fun q => match c with
      | .owned _ => .recall q l false
      | _ => .revoke q l false) }

/-- What the close of a recall changes beside the directory: its slot is free, its window's count falls by one, a DRAINING
window left without a transaction is CLOSED, and the open count of the job that counts it falls by one (R105, R107, R163,
R166, R168). -/
def State.recallClosed (s : State) (t : SlotIx) (x : Slot) (v : WinIx) : State :=
  let s1 := (s.putSlot t none).modWindow v (fun r =>
    if r.state = .retiring ∧ r.progress = some .draining ∧ r.openCount ≤ 1 then
      { r with state := .closed, progress := none, openCount := 0 }
    else { r with openCount := r.openCount - 1 })
  if x.counted then
    match x.kind, x.target with
    | .leaveRecall, some q => s1.putJob q ((s1.getJob q).map (fun j => { j with openRecalls := j.openRecalls - 1 }))
    | _, _ => { s1 with maint := s1.maint.map (fun j => { j with openCount := j.openCount - 1 }) }
  else s1

/-- The close of a recall ends no job: a job that counts it has another one open, or sets left. -/
def State.jobsGoOn (s : State) (x : Slot) : Prop :=
  x.counted = true →
    (∀ q j, x.kind = .leaveRecall → x.target = some q → s.getJob q = some j → j.setsLeft ≠ 0 ∨ j.openRecalls ≠ 1) ∧
    (∀ j, x.kind ≠ .leaveRecall ∨ x.target = none → s.maint = some j → (j.run ≠ .finishing ∧ j.run ≠ .aborting) ∨ j.openCount ≠ 1)

/-- Whether a way whose codes match its fields may be a victim: SHARED or OWNED, unheld, on a line with no transaction in use
(R9, Table 1-5). -/
def State.eligible (s : State) (i : SetIx) (w : WayIx) : Bool :=
  (match (s.getWay i w).body.stored.content with
    | .shared _ => true
    | .owned _ => true
    | _ => false) &&
  (s.getWay i w).body.stored.heldBy.isNone &&
  (match (s.getWay i w).key.stored with
    | some q => (s.onLine (lineOf q i)).isEmpty
    | none => false)

/-- A waiter for the way of a VICTIM_RECALL on a line: its slot's request, in AWAIT_VICTIM, for a line of the same set, with its
window not RETIRING (R91, R92, R104). -/
structure State.waits (s : State) (t u : SlotIx) (y : Slot) (l k : Line) (o : Node) : Prop where
  other : u ≠ t
  slot : s.getSlot u = some y
  phase : y.phase = .awaitVictim
  line : y.line = some k
  sameSet : setOf k = setOf l
  requester : y.requester = some o
  windowOpen : ∀ i, y.window = some i → (s.getWindow i).state ≠ .retiring
  sent : y.pending = none
  plain : y.rebuild = none

/-- A request that holds a way just RESERVED for it, its FETCH sent as a new round (R47, R92, R128). -/
def Slot.given (y : Slot) (s : State) (w : WayIx) : Slot :=
  { y with
    phase := .awaitReplies
    awaited := 0#8
    memWait := .fetchSent
    outstanding := .nothing
    working := some ⟨w, .reserved⟩
    victimLink := none
    timer := some s.limits.orderTimeout.toNat
    retriesLeft := s.limits.retryLimit.toNat }

/-- A freed victim way handed to the waiter: RESERVED for its line, at the back of the order, and its FETCH sent (R91, R92). -/
def State.givenWay (s : State) (u : SlotIx) (y : Slot) (l k : Line) (o : Node) (w : WayIx) : State :=
  { (s.putSet (setOf l) { s.getSet (setOf l) with
      ways := (s.getSet (setOf l)).ways.set w.val ⟨coded (some (keyOf k)), coded ⟨.reserved, some u, false⟩⟩ w.isLt
      order := (s.getSet (setOf l)).order.erase w ++ [w] }).putSlot u (some (y.given s w)) with
    orderQ := s.orderQ ++ [.fetch k o false] }

/-- No way of a set is held. -/
def State.unheldSet (s : State) (i : SetIx) : Prop := ∀ w, s.wayHolder i w = none

/-- The job that follows a RETIRE or FLUSH job: a SCRUB at the scrub position, where the interval is not 0 (R168). -/
def State.nextMaint (s : State) : Option MaintJob :=
  if s.limits.scrubInterval = 0#32 then none
  else some ⟨.scrub, none, .running, s.scrubPos.val, false, 0, some s.limits.scrubInterval.toNat, false⟩

/-- The ways a step frees go to the back of their set's order one after another, W0 first (R17; log 41). -/
def sunk (o : List WayIx) (freed : WayIx → Bool) : List WayIx :=
  allWays.foldl (fun o w => if freed w then o.erase w ++ [w] else o) o

end Sys2Proof.Machine
end

