-- ==== Sys2Proof/Certificates/Slice0/Obligations.lean ====
section
/-! DEFINITION. The statements. Each gives what a command or the part does by the rules named in OBLIGATIONS.json, with its
frame: what is not named in a next state is as before. `Ready` is a part between two events, `Quiet` one with nothing of
its own in hand (Safety.lean). A statement that rests on a choice of the model names its log entry. -/

open Sys2Proof Sys2Proof.Machine

/-! ## The part as a machine -/

/-- The command at the front of the queue runs on the queue's rest (the row's frame, log 1), and no command touches the
commands that wait behind it. -/
def Obligations.StepRunsFrontCommand : Prop :=
  (∀ (s : State) (c : Instr) (rest : List Instr), s.pending = c :: rest → step s = exec c (s.withPending rest)) ∧
  (∀ (c : Instr) (s t : State), exec c s = .next t → t.pending = s.pending)

/-- With no command waiting a microsecond passes (the model's choice, log 2): slot timers and the ages of unclaimed notices
run while the link is UP (R129), the scrub interval always (R168), none below 1. -/
def Obligations.EmptyQueueIsAMicrosecond : Prop :=
  ∀ s : State, s.pending = [] → s.resetN = .high → ∃ t : State, step s = .next t ∧
    (∀ u, t.getSlot u = if s.link = .up then
      (s.getSlot u).map (fun x => { x with timer := x.timer.map (fun k => max 1 (k - 1)) }) else s.getSlot u) ∧
    t.notices = (if s.link = .up then
      s.notices.map (fun v => if v.claimed then v else { v with age := max 1 (v.age - 1) }) else s.notices) ∧
    t.maint = s.maint.map (fun j => { j with interval := j.interval.map (fun k => max 1 (k - 1)) }) ∧
    t = { s with slots := t.slots, notices := t.notices, maint := t.maint }

/-- RESETn (R180). Low: every block at its power-on values, no lane driven, EVENTn high, the link DOWN at 4 lanes and rate
step 1, no flag; the model's queue and its count of free values are not the part's (log 21). While low no command but RESETN
changes anything. High: the part goes on from those values. -/
def Obligations.ResetnHoldsEveryBlock : Prop :=
  (∀ s : State, exec (.resetn .low) s =
    .next { State.reset with resetN := .low, freeCount := s.freeCount, pending := s.pending }) ∧
  (∀ s : State, exec (.resetn .high) s = .next { s with resetN := .high }) ∧
  (∀ (c : Instr) (s : State), s.resetN = .low → (∀ v, c ≠ .resetn v) → exec c s = .next s) ∧
  (State.reset.txFrame = [] ∧ State.reset.eventN = .high ∧ State.reset.link = .down ∧
    State.reset.curSetting = ⟨.four, .one⟩ ∧ State.reset.nextSetting = ⟨.four, .one⟩ ∧ State.reset.flags = 0#16 ∧
    State.reset.orderQ = [] ∧ State.reset.answerQ = [])

/-- What power-on reset leaves: every set 16 FREE ways with matching codes, the order W0 to W15, the mark clear (R21); the
tables empty (R23, R70, R99, R111, R112); the SCRUB job the default interval starts (R171); link, intakes and queues (R172,
R176, R177); limits, mailbox, flags, counters and capture record (R182, R183, R186 to R188). -/
def Obligations.PartAfterReset : Prop :=
  let s := State.reset
  (∀ i : SetIx, (∀ w : WayIx, s.getWay i w = ⟨⟨none, .good⟩, ⟨⟨.free, none, false⟩, .good⟩⟩) ∧
    (s.getSet i).order = List.finRange 16 ∧ (s.getSet i).frozen = false) ∧
  (∀ t, s.getSlot t = none) ∧ s.notices = [] ∧
  (∀ n, s.getNode n = ⟨.absent, none, 0, 0, 0, 0⟩) ∧ s.mem = .absent ∧ s.memTimeouts = 0 ∧
  (∀ w, s.getWindow w = ⟨.closed, 0, 0, .tracked, 0, 0, none⟩) ∧
  (∀ n, s.getJob n = none) ∧ s.purgePos = 0 ∧ s.scrubPos = 0 ∧
  s.maint = some ⟨.scrub, none, .running, 0, false, 0, some 50000, false⟩ ∧
  s.link = .down ∧ s.reqIntake = [] ∧ s.replyIntake = [] ∧ s.orderQ = [] ∧ s.answerQ = [] ∧
  s.limits = ⟨100, 3, 1000, 50000, 16⟩ ∧ s.limitRejected = false ∧
  s.mbState = .idle ∧ s.mbResult = .ok ∧ s.overrun = false ∧ s.args = Vector.replicate 4 0 ∧
  s.results = Vector.replicate 4 0 ∧ s.flags = 0 ∧ s.enables = 0 ∧ s.eventN = .high ∧
  s.counters = ⟨0, 0, 0, 0, 0, 0, 0⟩ ∧ s.capture = none ∧ s.inspect = Vector.replicate 64 0

/-! ## Invariants of every step -/

/-- The directory keeps its canonical form (log 7) and every recency order lists the 16 ways once each (R16). -/
def Obligations.StepKeepsDirectory : Prop :=
  ∀ s t : State, s.directoryOk → step s = .next t → t.directoryOk

/-- The transactions of a line keep the ranks of its order (R26, R39). -/
def Obligations.StepKeepsLineOrders : Prop :=
  ∀ s t : State, s.ranksOk → step s = .next t → t.ranksOk

/-- No two open windows come to share a line (R102), and a maintenance job's window stays RETIRING and not DRAINING (R106,
R107, R109). -/
def Obligations.StepKeepsWindows : Prop :=
  ∀ s t : State, s.windowsOk → step s = .next t → t.windowsOk

/-- What the tables may hold: at most 16 notices, never two for one line and node (R70), at most 6 credits in use (R33), at
most 16 messages in an intake (R176) and 64 in an outbound queue (R177), and every limit within its range (R182). Each holds
after a step if it held before. -/
def Obligations.StepKeepsCapacities : Prop :=
  ∀ s t : State, step s = .next t →
    (s.noticesOk → t.noticesOk) ∧ (s.creditsOk → t.creditsOk) ∧ (s.intakesOk → t.intakesOk) ∧ (s.queuesOk → t.queuesOk) ∧
    ((∀ k, limitInRange k (s.limits.get k) = true) → ∀ k, limitInRange k (t.limits.get k) = true)

/-- No step leaves undone what a condition of R151, R153, R163 to R165, R170 or R177 calls for (log 13), and EVENTn is low
exactly while a flag is pending and enabled (R186). -/
def Obligations.StepLeavesAtRest : Prop :=
  ∀ s t : State, s.atRest → step s = .next t →
    t.atRest ∧ (t.eventN = .low ↔ t.flags &&& t.enables ≠ 0#16)

/-- The state after power-on reset meets every invariant. -/
def Obligations.ResetMeetsInvariants : Prop :=
  let s := State.reset
  s.directoryOk ∧ s.ranksOk ∧ s.windowsOk ∧ s.noticesOk ∧ s.creditsOk ∧ s.queuesOk ∧ s.intakesOk ∧
    (∀ k, limitInRange k (s.limits.get k) = true) ∧ s.atRest ∧ s.Quiet

/-! ## Rules over all commands -/

/-- A pending flag is cleared by a write to EVENT_FLAGS or by RESETn and by nothing else (R186). Any write to EVENT_FLAGS may be
a REGISTER_WRITE, so that command is left out (log 20). -/
def Obligations.FlagsStayPending : Prop :=
  ∀ (c : Instr) (s t : State), exec c s = .next t →
    (∀ v, c ≠ .eventFlagsWrite v) → (∀ f, c ≠ .registerWrite f) → (∀ v, c ≠ .resetn v) →
    s.flags &&& t.flags = s.flags

/-- A valid capture record keeps its cause and fields until CLEAR_CAPTURE or RESETn (R188). Any write to COMMAND may be that
command, so REGISTER_WRITE and BAD_COMMAND are left out (log 20). -/
def Obligations.CaptureKeepsFirstFault : Prop :=
  ∀ (c : Instr) (s t : State) (r : Capture), exec c s = .next t → s.capture = some r →
    c ≠ .clearCapture → (∀ f, c ≠ .registerWrite f) → (∀ v, c ≠ .badCommand v) → (∀ v, c ≠ .resetn v) →
    ∃ k, t.capture = some { r with further := k }

/-- An expiry, or a set step of a cursor, changes nothing of the link, its settings and its intakes, and of the Management Port
only the flags, the counters and the capture record (R172, R181 to R183); of the pins only EVENTn. -/
def Obligations.InnerCommandsKeepTheSurface : Prop :=
  ∀ (c : Instr) (s t : State), exec c s = .next t →
    (c = .purgeSetStep ∨ c = .retireSetStep ∨ c = .flushSetStep ∨ c = .scrubIntervalExpiry ∨
      (∃ k, c = .orderTimerExpiry k ∨ c = .grantTimerExpiry k ∨ c = .storeWaitExpiry k ∨ c = .observingWaitExpiry k ∨
        c = .collectingExpiry k) ∨ (∃ l n, c = .noticeAgeExpiry l n)) →
    t.surface = { s.surface with eventN := t.eventN }

/-! ## Line numbers and message formats -/

/-- Set index and key of a line, and back (R1). -/
def Obligations.LineNumberRoundTrip : Prop :=
  (∀ l : Line, lineOf (keyOf l) (setOf l) = l ∧ (setOf l).val = l.toNat % 2048 ∧ (keyOf l).toNat = l.toNat / 2048) ∧
  (∀ (k : Key) (i : SetIx), keyOf (lineOf k i) = k ∧ setOf (lineOf k i) = i)

/-- Every outbound message has 12 bytes and carries the code of its first ten, whatever its free bits are (R178), and each
order and answer is laid out as Tables 11-2 to 11-4 give: channel, kind code, destination, repeat flag, line or set, and the
parameters of its kind in bytes 7 to 9. Bits to which Table 11-3 gives no meaning are the model's free values (log 18). -/
def Obligations.OutboundFrames : Prop :=
  (∀ (m : OutMsg) (k : Nat), (m.frame k).length = 12 ∧ crcMatches (m.frame k) = true ∧
    channelField (m.frame k) = m.channel ∧ kindField (m.frame k) = m.kind.toNat ∧ peerField (m.frame k) = m.peer.code ∧
    (m.line < 2 ^ 40 → lineField (m.frame k) = m.line) ∧
    byteAt (m.frame k) 1 = m.peer.code ++ (if m.rep then 0x8#4 else 0x0#4) ∧
    byteAt (m.frame k) 7 &&& m.p7.mask = m.p7.value &&& m.p7.mask ∧
    byteAt (m.frame k) 8 &&& m.p8.mask = m.p8.value &&& m.p8.mask ∧
    byteAt (m.frame k) 9 &&& m.p9.mask = m.p9.value &&& m.p9.mask) ∧
  ∀ (k : Nat) (n d : Node) (l : Line) (i : SetIx) (r : Bool),
    let means (f : List Byte) (channel kind peer : Nat) (rep : Bool) (line : Nat) : Prop :=
      (channelField f).toNat = channel ∧ kindField f = kind ∧ (peerField f).toNat = peer ∧ (byteAt f 1).getLsbD 3 = rep ∧
        (byteAt f 1).extractLsb' 0 3 = 0#3 ∧ lineField f = line
    let low (b : Byte) : Nat := (b.extractLsb' 0 4).toNat
    let order (o : Order) : List Byte := o.message.frame k
    let answer (a : Answer) : List Byte := a.message.frame k
    means (order (.revoke n l r)) 2 1 n.val r l.toNat ∧ means (order (.recall n l r)) 2 3 n.val r l.toNat ∧
    means (order (.surrender n i r)) 2 4 n.val r i.val ∧
    (∀ m : Mode, let f := order (.forward n l d m r);
      means f 2 2 n.val r l.toNat ∧ low (byteAt f 7) = d.val ∧ byteAt f 8 = (match m with
        | .share => 0#8
        | .move => 1#8)) ∧
    (let f := order (.fetch l d r);
     means f 2 5 15 r l.toNat ∧ low (byteAt f 7) = d.val) ∧
    (∀ (p : Permission) (src : Source) (u : Bool), let f := answer (.grant n l p src u r);
      means f 3 1 n.val r l.toNat ∧
        byteAt f 7 = (match p with
          | .shared => 0#8
          | .owned => 1#8) ∧
        (match src with
          | .memory => (byteAt f 8).extractLsb' 6 2 = 0#2
          | .node q => (byteAt f 8).extractLsb' 6 2 = 1#2 ∧ low (byteAt f 8) = q.val
          | .noSource => (byteAt f 8).extractLsb' 6 2 = 2#2) ∧
        (byteAt f 9).getLsbD 0 = u) ∧
    (∀ (q : RefusedKind) (e : Reason), let f := answer (.refuse n l q e);
      means f 3 2 n.val false l.toNat ∧
        byteAt f 7 = (match q with
          | .request .readShared => 1#8
          | .request .readOwn => 2#8
          | .request .upgrade => 3#8
          | .request .writeback => 4#8
          | .request .drop => 5#8
          | .leave => 9#8) ∧
        byteAt f 8 = (match e with
          | .tableFull => 1#8
          | .setFull => 2#8
          | .setFrozen => 3#8
          | .noHome => 4#8
          | .denied => 5#8
          | .readOnly => 6#8
          | .retiring => 7#8
          | .notLive => 8#8
          | .poisoned => 9#8
          | .memoryFault => 10#8
          | .violation => 11#8)) ∧
    (∀ e : Bool, (let f := answer (.wbDone n l e);
        means f 3 3 n.val false l.toNat ∧ (byteAt f 7).getLsbD 0 = e) ∧
      (let f := answer (.dropped n l e);
        means f 3 4 n.val false l.toNat ∧ (byteAt f 7).getLsbD 0 = e)) ∧
    (means (answer (.welcome (.node n))) 3 5 n.val false 0 ∧ byteAt (answer (.welcome (.node n))) 7 = 6#8) ∧
    (means (answer (.welcome .memory)) 3 5 15 false 0 ∧ byteAt (answer (.welcome .memory)) 7 = 0#8) ∧
    means (answer (.farewell n)) 3 6 n.val false 0

/-- What a well-formed inbound message says is what the part reads: kind, source, line and parameters, with every bit the
layout leaves unused at any value, HELLO's and LEAVE's line field among them (Tables 11-2 to 11-4, R179). -/
def Obligations.InboundMessagesAreRead : Prop :=
  ∀ (n : Node) (l : Line) (x : BitVec 4) (a b c : Byte) (tail : List Byte),
    let node := BitVec.ofNat 4 n.val ++ x
    let mem := 15#4 ++ x
    let line := lineBytes l.toNat
    let rest := [b, c] ++ tail
    (∀ k : ReqKind, readRequest ([k.code, node] ++ line ++ [a] ++ rest) = some (.request k n l)) ∧
    (∀ v : Nat, readRequest ([0x08#8, node] ++ lineBytes v ++ [a] ++ rest) = some (.hello (.node n)) ∧
      readRequest ([0x08#8, mem] ++ lineBytes v ++ [a] ++ rest) = some (.hello .memory) ∧
      readRequest ([0x09#8, node] ++ lineBytes v ++ [a] ++ rest) = some (.leave n)) ∧
    readReply ([0x41#8, node] ++ line ++ [a] ++ rest) = some (.revokeAck n l) ∧
    (∀ r : Result, let v : Byte := (match r with
        | .clean => 0#8
        | .dirty => 1#8
        | .notHeld => 2#8)
      readReply ([0x42#8, node] ++ line ++ [v] ++ rest) = some (.forwardDone n l r) ∧
      readReply ([0x43#8, node] ++ line ++ [v] ++ rest) = some (.recallDone n l r)) ∧
    (∀ (i : SetIx) (d : Nat), d ≤ 16 →
      readReply ([0x44#8, node] ++ lineBytes i.val ++ [BitVec.ofNat 8 d] ++ rest) = some (.surrenderDone n i d)) ∧
    readReply ([0x45#8, node] ++ line ++ [a] ++ rest) = some (.complete n l) ∧
    readReply ([0x46#8, mem] ++ line ++ [a] ++ rest) = some (.fetchSent l) ∧
    readReply ([0x47#8, mem] ++ line ++ [a] ++ rest) = some (.fetchFailed l) ∧
    readReply ([0x48#8, mem] ++ line ++ [x ++ BitVec.ofNat 4 n.val] ++ rest) = some (.absorbDone l n)

/-- The format check (R179): which messages of either channel are read, by channel field, source, kind, line field and byte 7;
the others are malformed. -/
def Obligations.FormatCheck : Prop :=
  ∀ m : List Byte,
    let p := (peerField m).toNat
    let k := kindField m
    let l := lineField m
    let b := byteAt m 7
    ((readRequest m).isSome = true ↔ channelField m = 0#2 ∧
      ((p < 8 ∧ ((1 ≤ k ∧ k ≤ 5 ∧ l ≤ 0x3FFFFFFFF) ∨ k = 8 ∨ k = 9)) ∨ (p = 15 ∧ k = 8))) ∧
    ((readReply m).isSome = true ↔ channelField m = 1#2 ∧
      ((p < 8 ∧ (((k = 1 ∨ k = 5) ∧ l ≤ 0x3FFFFFFFF) ∨ ((k = 2 ∨ k = 3) ∧ l ≤ 0x3FFFFFFFF ∧ b.toNat ≤ 2) ∨
          (k = 4 ∧ l ≤ 2047 ∧ b.toNat ≤ 16))) ∨
        (p = 15 ∧ (((k = 6 ∨ k = 7) ∧ l ≤ 0x3FFFFFFFF) ∨ (k = 8 ∧ l ≤ 0x3FFFFFFFF ∧ b.toNat % 16 ≤ 7)))))

/-! ## The Fabric Port -/

/-- A message arriving on a channel whose intake has room (R178, R179): a code that does not match counts in LINK_CHECK and
does nothing else; a well-formed message goes to the intake's tail; a malformed one raises PROTOCOL_VIOLATION, counts for the
node it names, reaches the capture record, and is gone. That the record takes the line field of a malformed message of any kind,
where it is within range, is the model's reading (log 28). -/
def Obligations.LinkMessagesAreChecked : Prop :=
  ∀ (s : State) (ch : InChannel) (m : List Byte), s.Ready → s.link = .up → m.length = 12 →
    (ch = .request → s.reqIntake.length < 16) → (ch = .reply → s.replyIntake.length < 16) →
    let c := Instr.linkMessageReceived ch m
    (m.drop 10 ≠ bytes16 (crc16 (m.take 10)) →
      exec c s = .next (State.driveEventN
        { s with counters := { s.counters with linkCheck := satInc s.counters.linkCheck } })) ∧
    (m.drop 10 = bytes16 (crc16 (m.take 10)) →
      (∀ q, ch = .request → readRequest m = some q →
        exec c s = .next (State.driveEventN { s with reqIntake := s.reqIntake ++ [q] })) ∧
      (∀ q, ch = .reply → readReply m = some q →
        exec c s = .next (State.driveEventN { s with replyIntake := s.replyIntake ++ [q] })) ∧
      ((ch = .request → readRequest m = none) → (ch = .reply → readReply m = none) →
        ∃ t, exec c s = .next t ∧ t.flags = s.flags ||| 0x0200#16 ∧
          (∀ k, t.getNode k = if (peerField m).toNat = k.val then
            { s.getNode k with violations := satInc (s.getNode k).violations } else s.getNode k) ∧
          t.capture = some (match s.capture with
            | none => ⟨.violation, ⟨malformedLine m, peerOf (peerField m), none, none, none⟩, 0⟩
            | some r => { r with further := satInc r.further }) ∧
          t = State.driveEventN { s with flags := t.flags, nodes := t.nodes, capture := t.capture }))

/-- While the link is UP the head of an outbound queue crosses it as a 12-byte frame (R177, R178), and nothing else changes
where no message is held for room; the count of free values is the model's (log 18). A round held for room goes into the ORDER
queue, whole, in the event that makes room for it, and its timer starts there (R40, R177); a round whose transaction has gone on
goes in as well (R132) and starts no timer (log 12). A link that is not UP, or an empty queue, sends nothing (log 1). -/
def Obligations.OutboundQueuesDrain : Prop :=
  ∀ s : State, s.Ready →
    (∀ (o : Order) (rest : List Order), s.link = .up → s.orderQ = o :: rest → s.orderHeld = [] →
      exec (.outboundSend .order) s = .next (State.driveEventN
        { s with orderQ := rest, txFrame := o.message.frame s.freeCount, freeCount := s.freeCount + 1 })) ∧
    (∀ (a : Answer) (rest : List Answer), s.link = .up → s.answerQ = a :: rest → s.answerHeld = [] →
      exec (.outboundSend .answer) s = .next (State.driveEventN
        { s with answerQ := rest, txFrame := a.message.frame s.freeCount, freeCount := s.freeCount + 1 })) ∧
    (∀ (o : Order) (rest os : List Order) (t : SlotIx) (x : Slot) (fresh : Bool), s.link = .up → s.orderQ = o :: rest →
      s.orderHeld = [.slot t] → s.answerHeld = [] → s.getSlot t = some x → x.pending = some (.round os fresh) →
      x.rebuild = none → rest.length + os.length ≤ 64 →
      exec (.outboundSend .order) s = .next (State.driveEventN
        { s.putSlot t (some { x with
            pending := none
            timer := some s.limits.orderTimeout.toNat
            retriesLeft := if fresh then s.limits.retryLimit.toNat else x.retriesLeft }) with
          orderQ := rest ++ os, orderHeld := [], txFrame := o.message.frame s.freeCount
          freeCount := s.freeCount + 1 })) ∧
    (∀ (o : Order) (rest os : List Order) (h : Option SlotIx), s.link = .up → s.orderQ = o :: rest →
      s.orderHeld = [.left h os] → s.answerHeld = [] → rest.length + os.length ≤ 64 →
      exec (.outboundSend .order) s = .next (State.driveEventN
        { s with
          orderQ := rest ++ os, orderHeld := [], txFrame := o.message.frame s.freeCount, freeCount := s.freeCount + 1 })) ∧
    (∀ q, s.link ≠ .up ∨ (q = .order ∧ s.orderQ = []) ∨ (q = .answer ∧ s.answerQ = []) →
      exec (.outboundSend q) s = .next (State.driveEventN s))

/-- The link's states (R172, R174): DOWN to TRAINING, TRAINING to UP with LINK_UP raised, TRAINING to DOWN; UP to TRAINING with
LINK_DOWN raised and the intakes and outbound queues discarded, where nothing is held for room. An event of another state
changes nothing (log 1). -/
def Obligations.LinkStates : Prop :=
  ∀ s : State, s.Ready →
    exec .signalDetected s = .next (State.driveEventN (if s.link = .down then { s with link := .training } else s)) ∧
    exec .trainingComplete s = .next (State.driveEventN
      (if s.link = .training then { s with link := .up, flags := s.flags ||| 0x4000#16 } else s)) ∧
    exec .trainingFailed s = .next (State.driveEventN (if s.link = .training then { s with link := .down } else s)) ∧
    (s.link ≠ .up → exec .lossOfTraining s = .next (State.driveEventN s)) ∧
    (s.link = .up → s.orderHeld = [] → s.answerHeld = [] →
      exec .lossOfTraining s = .next (State.driveEventN { s with
        link := .training, reqIntake := [], replyIntake := [], orderQ := [], answerQ := []
        flags := s.flags ||| 0x2000#16 }))

/-! ## Registers -/

/-- Writes of the limits (R182, Table 12-2). In range the limit is taken and LIMIT_REJECTED cleared; out of range the write is
discarded and LIMIT_REJECTED set. A SCRUB_INTERVAL of 0 ends a SCRUB job and another value starts one where no job exists;
else the job stays as it is (R168). -/
def Obligations.LimitWrites : Prop :=
  ∀ (s : State) (v : Word32), s.Ready →
    let b : State := { s with limitRejected := false }
    (exec (.limitWrite .orderTimeout v) s = .next (State.driveEventN
      (if 10 ≤ v.toNat ∧ v.toNat ≤ 65535 then { b with limits := { s.limits with orderTimeout := v } }
        else { s with limitRejected := true }))) ∧
    (exec (.limitWrite .retryLimit v) s = .next (State.driveEventN
      (if v.toNat ≤ 7 then { b with limits := { s.limits with retryLimit := v } }
        else { s with limitRejected := true }))) ∧
    (exec (.limitWrite .noticeLifetime v) s = .next (State.driveEventN
      (if 10 ≤ v.toNat ∧ v.toNat ≤ 1000000 then { b with limits := { s.limits with noticeLifetime := v } }
        else { s with limitRejected := true }))) ∧
    (exec (.limitWrite .correctedLimit v) s = .next (State.driveEventN
      (if 1 ≤ v.toNat ∧ v.toNat ≤ 65535 then { b with limits := { s.limits with correctedLimit := v } }
        else { s with limitRejected := true }))) ∧
    (1000000 < v.toNat → exec (.limitWrite .scrubInterval v) s = .next (State.driveEventN
      { s with limitRejected := true })) ∧
    (v.toNat ≤ 1000000 → s.maintStep = none → s.noneCounted →
      exec (.limitWrite .scrubInterval v) s = .next (State.driveEventN
        { b with
          limits := { s.limits with scrubInterval := v }
          maint := match s.maint with
            | none =>
              if v = 0#32 then none else some ⟨.scrub, none, .running, s.scrubPos.val, false, 0, some v.toNat, false⟩
            | some j => if j.kind = .scrub ∧ v = 0#32 then none else some j }))

/-- Event flags and enables (R186): a write to EVENT_FLAGS clears the flags whose bits are 1, a write to EVENT_ENABLE replaces
every enable, and EVENTn is low after either exactly while a flag is pending and enabled. -/
def Obligations.EventRegisters : Prop :=
  ∀ (s : State) (v : Word32), s.Ready →
    (∃ t, exec (.eventFlagsWrite v) s = .next t ∧ t = { s with flags := t.flags, eventN := t.eventN } ∧
      (∀ e : Event, t.flags.getLsbD e.bit = (s.flags.getLsbD e.bit && !v.getLsbD e.bit)) ∧
      (t.eventN = .low ↔ t.flags &&& t.enables ≠ 0#16)) ∧
    (∃ t, exec (.eventEnableWrite v) s = .next t ∧ t = { s with enables := t.enables, eventN := t.eventN } ∧
      (∀ e : Event, t.enables.getLsbD e.bit = v.getLsbD e.bit) ∧
      (t.eventN = .low ↔ t.flags &&& t.enables ≠ 0#16))

/-- A read of the first word of a view, or of the capture record, returns it and copies the record's other words, laid out as
Table 12-9 and R188 give; a read of such a word returns what was copied (R189). STATUS, the limits, flags, enables, counters, the
memory agent and link views, arguments, results and the INSPECT buffer read as they stand; COMMAND, which is write-only, and every
number that is not in Table 12-1 read as 0 (R181 to R187). Here the jobs' counts are within their fields. That
every field of a job, window, interval or capture record that is absent reads 0 (log 19), that the walk views are one snapshot
(log 53), and that a read is a command too (log 20), are the model's choices. -/
def Obligations.SnapshotReads : Prop :=
  ∀ s : State, s.Ready →
    (∀ n j, s.getJob n = some j → j.setsLeft ≤ 2048 ∧ j.openRecalls ≤ 48) →
    (∀ j, s.maint = some j → j.nextSet ≤ 2048 ∧ j.openCount ≤ 48) →
    let bit (b : Bool) (k : Nat) : Nat := if b then 2 ^ k else 0
    let high (l : Line) : Nat := l.toNat / 2 ^ 32
    let nodeWord (r : NodeRec) : Word32 := natWord ((match r.state with
        | .absent => 0
        | .live => 1
        | .leaving => 2
        | .purging => 3
        | .lost => 4) + (match r.reason with
        | none => 0
        | some .leave => 1
        | some .lost => 2
        | some .evicted => 3
        | some .restart => 4) * 2 ^ 8 + r.credits * 2 ^ 16)
    let nodeCounts (r : NodeRec) : Word32 :=
      natWord (r.timeouts.toNat * 2 ^ 16 + r.violations.toNat * 2 ^ 8 + r.stale.toNat)
    let windowWord (v : Window) : Word32 := natWord ((match v.state with
        | .closed => 0
        | .live => 1
        | .retiring => 2) + (match v.kind with
        | .tracked => 0
        | .direct => 1
        | .sharedOnly => 2) * 2 ^ 4 + (match v.progress with
        | none => 0
        | some .walking => 1
        | some .draining => 2
        | some .aborting => 3) * 2 ^ 8 + v.openCount * 2 ^ 16)
    let windowTail (v : Window) : Vector Word32 3 :=
      #v[natWord (v.allowed.toNat + high v.start * 2 ^ 16 + high v.limit * 2 ^ 24), v.start.setWidth 32, v.limit.setWidth 32]
    let purgeWord : Word32 := natWord (s.purgePos.val + bit (decide (∀ n j, s.getJob n = some j → j.setsLeft = 0)) 15 +
      (NodeSet.ofTest (fun n => (s.getJob n).isSome)).toNat * 2 ^ 16)
    let jobWords (n : Node) : Word32 := match s.getJob n with
      | none => 0#32
      | some j => natWord (2 ^ 31 + bit (decide (j.mode = .silent)) 30 + j.setsLeft * 2 ^ 16 + j.openRecalls)
    let maintWord : Word32 := match s.maint with
      | none => 0#32
      | some j => natWord (2 ^ 31 + (match j.kind with
          | .retire => 0
          | .flush => 1
          | .scrub => 2) * 2 ^ 28 + (match j.window with
          | none => 0
          | some w => w.val) * 2 ^ 24 + (match j.run with
          | .running => 0
          | .pausing => 1
          | .paused => 2
          | .finishing => 3
          | .aborting => 4) * 2 ^ 20 + bit j.owed 19 + j.nextSet)
    let maintTail : Word32 × Word32 := match s.maint with
      | none => (natWord (s.scrubPos.val * 2 ^ 16), 0#32)
      | some j => (natWord (j.openCount + s.scrubPos.val * 2 ^ 16), natWord (j.interval.getD 0))
    let walkTail : Vector Word32 11 := #v[jobWords 0, jobWords 1, jobWords 2, jobWords 3, jobWords 4, jobWords 5, jobWords 6,
      jobWords 7, maintWord, maintTail.1, maintTail.2]
    let captureWord : Word32 := match s.capture with
      | none => 0#32
      | some r => natWord (2 ^ 31 + (match r.cause with
          | .nodeLost => 0
          | .linePoisoned => 1
          | .memoryFailed => 2
          | .entryDamaged => 3
          | .setDamaged => 4
          | .violation => 5) * 2 ^ 24 + r.further.toNat * 2 ^ 16 + bit r.fields.line.isSome 0 + bit r.fields.node.isSome 1 +
          bit r.fields.set.isSome 2 + bit r.fields.way.isSome 3 + bit r.fields.slot.isSome 4)
    let captureTail : Vector Word32 3 := match s.capture with
      | none => #v[0#32, 0#32, 0#32]
      | some r => #v[(r.fields.line.getD 0).setWidth 32,
          natWord (high (r.fields.line.getD 0) + (match r.fields.node with
            | none => 0
            | some (.node n) => n.val
            | some .memory => 15) * 2 ^ 8),
          natWord ((r.fields.set.getD 0).val + (r.fields.way.getD 0).val * 2 ^ 16 + (r.fields.slot.getD 0).val * 2 ^ 24)]
    let codes (g : Setting) (a b : Nat) : Nat := (match g.width with
        | .four => 0
        | .eight => 1) * 2 ^ a + (match g.rate with
        | .one => 1
        | .two => 2
        | .three => 3) * 2 ^ b
    let reads (a : Nat) (w : Word32) : Prop :=
      exec (.viewSnapshotRead (BitVec.ofNat 16 a)) s = .next (State.driveEventN { s with sdo := w })
    (∀ n : Node,
      exec (.viewSnapshotRead (BitVec.ofNat 16 (0x60 + 2 * n.val))) s = .next (State.driveEventN
        { s with sdo := nodeWord (s.getNode n), snapNode := s.snapNode.set n.val (nodeCounts (s.getNode n)) n.isLt }) ∧
      exec (.viewSnapshotRead (BitVec.ofNat 16 (0x61 + 2 * n.val))) s = .next (State.driveEventN
        { s with sdo := s.snapNode[n] })) ∧
    (∀ w : WinIx,
      exec (.viewSnapshotRead (BitVec.ofNat 16 (0x80 + 4 * w.val))) s = .next (State.driveEventN
        { s with
          sdo := windowWord (s.getWindow w)
          snapWindow := s.snapWindow.set w.val (windowTail (s.getWindow w)) w.isLt }) ∧
      ∀ k : Fin 3, exec (.viewSnapshotRead (BitVec.ofNat 16 (0x81 + 4 * w.val + k.val))) s = .next (State.driveEventN
        { s with sdo := (s.snapWindow[w])[k] })) ∧
    exec (.viewSnapshotRead 0xB0#16) s = .next (State.driveEventN { s with sdo := purgeWord, snapWalk := walkTail }) ∧
    (∀ k : Fin 11, exec (.viewSnapshotRead (BitVec.ofNat 16 (0xB1 + k.val))) s = .next (State.driveEventN
      { s with sdo := s.snapWalk[k] })) ∧
    exec (.viewSnapshotRead 0x50#16) s = .next (State.driveEventN
      { s with sdo := captureWord, snapCapture := captureTail }) ∧
    (∀ k : Fin 3, exec (.viewSnapshotRead (BitVec.ofNat 16 (0x51 + k.val))) s = .next (State.driveEventN
      { s with sdo := s.snapCapture[k] })) ∧
    reads 0x00 0x00472408#32 ∧ reads 0x10 s.limits.orderTimeout ∧ reads 0x11 s.limits.retryLimit ∧
    reads 0x12 s.limits.noticeLifetime ∧ reads 0x13 s.limits.scrubInterval ∧ reads 0x14 s.limits.correctedLimit ∧
    reads 0x20 (s.flags.setWidth 32) ∧ reads 0x21 (s.enables.setWidth 32) ∧
    reads 0x30 (s.counters.corrected.setWidth 32) ∧ reads 0x31 (s.counters.uncorrected.setWidth 32) ∧
    reads 0x32 (s.counters.linkCheck.setWidth 32) ∧ reads 0x33 (s.counters.refusedTableFull.setWidth 32) ∧
    reads 0x34 (s.counters.refusedSetFull.setWidth 32) ∧ reads 0x35 (s.counters.refusedSetFrozen.setWidth 32) ∧
    reads 0x36 (s.counters.noticesDropped.setWidth 32) ∧ reads 0x37 (s.memTimeouts.setWidth 32) ∧
    (∀ n : Node, reads (0x40 + n.val) (nodeCounts (s.getNode n))) ∧
    reads 0x70 (natWord ((match s.mem with
        | .absent => 0
        | .live => 1
        | .failed => 2) + s.memTimeouts.toNat * 2 ^ 16)) ∧
    reads 0xA0 (natWord ((match s.link with
        | .down => 0
        | .training => 1
        | .up => 2) + codes s.curSetting 4 8 + codes s.nextSetting 12 16)) ∧
    (∀ k : Fin 4, reads (0x101 + k.val) s.args[k] ∧ reads (0x106 + k.val) s.results[k]) ∧
    reads 0x105 (natWord ((match s.mbState with
        | .idle => 0
        | .busy => 1
        | .done => 2
        | .failed => 3) + (match s.mbResult with
        | .ok => 0
        | .badCommand => 1
        | .badArgument => 2
        | .busy => 3
        | .windowBusy => 4
        | .badRange => 5
        | .overlap => 6
        | .notOpen => 7
        | .maintBusy => 8
        | .notRunning => 9
        | .notPaused => 10
        | .nodeState => 11
        | .notPoisoned => 12
        | .damaged => 13) * 2 ^ 8 + bit s.overrun 16 + bit s.limitRejected 17)) ∧
    (∀ k : Fin 64, reads (0x110 + k.val) s.inspect[k]) ∧
    reads 0x100 0#32 ∧
    (∀ a : Nat, (0 < a ∧ a < 0x10) ∨ (0x14 < a ∧ a < 0x20) ∨ (0x21 < a ∧ a < 0x30) ∨ (0x37 < a ∧ a < 0x40) ∨
      (0x47 < a ∧ a < 0x50) ∨ (0x53 < a ∧ a < 0x60) ∨ (0x70 < a ∧ a < 0x80) ∨ (0xA0 < a ∧ a < 0xB0) ∨
      (0xBB < a ∧ a < 0x100) ∨ (0x109 < a ∧ a < 0x110) ∨ (0x14F < a ∧ a < 2 ^ 16) → reads a 0#32)

/-- SPI frames (R181): the operation, the register number and the data, most significant byte first; for bytes behind them SDO
gives 0 and nothing else changes. A write writes ARG0 to ARG3, or is the command of its register: a limit, EVENT_FLAGS,
EVENT_ENABLE, or COMMAND with a code (Tables 12-1 and 12-3); a write to another register is discarded. A read is the read of its
register. A frame of fewer than 7 bytes, or of another operation, has no effect. That one REGISTER_WRITE is the command of its
register, and that code 0CH is CLEAR_POISON and CLEAR_POISON_ALL alike, are the model's choices (log 20). -/
def Obligations.WriteFrames : Prop :=
  ∀ (s : State) (d : Word32) (more : List Byte), s.resetN = .high →
    let frame (r : BitVec 16) (d : Word32) : List Byte :=
      [0x01#8, r.extractLsb' 8 8, r.extractLsb' 0 8, d.extractLsb' 24 8, d.extractLsb' 16 8, d.extractLsb' 8 8,
        d.extractLsb' 0 8] ++ more
    let q : State := if more = [] then s else { s with sdoTail := List.replicate more.length 0#8 }
    (s.Ready → ∀ k : Fin 4, exec (.registerWrite (frame (BitVec.ofNat 16 (0x101 + k.val)) d)) s =
      .next (State.driveEventN { q with args := s.args.set k.val d k.isLt })) ∧
    exec (.registerWrite (frame 0x10#16 d)) s = exec (.limitWrite .orderTimeout d) q ∧
    exec (.registerWrite (frame 0x11#16 d)) s = exec (.limitWrite .retryLimit d) q ∧
    exec (.registerWrite (frame 0x12#16 d)) s = exec (.limitWrite .noticeLifetime d) q ∧
    exec (.registerWrite (frame 0x13#16 d)) s = exec (.limitWrite .scrubInterval d) q ∧
    exec (.registerWrite (frame 0x14#16 d)) s = exec (.limitWrite .correctedLimit d) q ∧
    exec (.registerWrite (frame 0x20#16 d)) s = exec (.eventFlagsWrite d) q ∧
    exec (.registerWrite (frame 0x21#16 d)) s = exec (.eventEnableWrite d) q ∧
    (s.Ready → ∀ r : BitVec 16, r.toNat < 0x10 ∨ (0x14 < r.toNat ∧ r.toNat < 0x20) ∨ (0x21 < r.toNat ∧ r.toNat < 0x100) ∨
        0x104 < r.toNat → exec (.registerWrite (frame r d)) s = .next (State.driveEventN q)) ∧
    (∀ r : BitVec 16, exec (.registerWrite ([0x00#8, r.extractLsb' 8 8, r.extractLsb' 0 8, d.extractLsb' 24 8,
      d.extractLsb' 16 8, d.extractLsb' 8 8, d.extractLsb' 0 8] ++ more)) s = exec (.viewSnapshotRead r) q) ∧
    (∀ p ∈ [(0x01#32, Instr.setWindow), (0x02#32, .openWindow), (0x03#32, .retireWindow), (0x04#32, .flushAll),
        (0x05#32, .pauseMaint), (0x06#32, .resumeMaint), (0x07#32, .abortMaint), (0x08#32, .inspectLine),
        (0x09#32, .inspectWay), (0x0A#32, .inspectSlot), (0x0B#32, .nodeEvict), (0x0C#32, .clearPoison),
        (0x0C#32, .clearPoisonAll), (0x0D#32, .clearCapture), (0x0E#32, .clearCounters), (0x0F#32, .linkSet),
        (0x10#32, .portReset), (0x11#32, .dirReset)],
      exec (.registerWrite (frame 0x100#16 p.1)) s = exec p.2 q) ∧
    (d.toNat = 0 ∨ 0x11 < d.toNat → exec (.registerWrite (frame 0x100#16 d)) s = exec (.badCommand d) q) ∧
    (s.Ready → ∀ f : List Byte, f.length < 7 → exec (.registerWrite f) s = .next (State.driveEventN s)) ∧
    (s.Ready → ∀ (b : Byte) (f : List Byte), b ≠ 0x00#8 → b ≠ 0x01#8 → f.length = 6 →
      exec (.registerWrite (b :: (f ++ more))) s = .next (State.driveEventN q))

/-! ## The mailbox -/

/-- The mailbox's rules for every command (R183): a code that is not in Table 12-3 ends FAILED with BAD_COMMAND; a write to
COMMAND while BUSY is discarded and sets OVERRUN, and changes nothing else. That the code is the whole word written, so that
every word above 11H is no code of the table, is the model's choice (log 49). -/
def Obligations.MailboxTakesOneCommand : Prop :=
  (∀ (s : State) (c : Word32), s.TakesCommand → c.toNat = 0 ∨ 0x11 < c.toNat →
    exec (.badCommand c) s = .next (State.driveEventN (s.commandEnd .badCommand))) ∧
  (∀ (s : State) (c : Instr), s.Ready → s.mbState = .busy → mailboxCommand c = true →
    exec c s = .next (State.driveEventN { s with overrun := true }))

/-- SET_WINDOW (R101; its argument bits, Table 12-3 and its note; its end, R183). The premise on the windows, of which R102 and
R106 speak, is kept by every step. -/
def Obligations.SetWindowWritesAClosedWindow : Prop :=
  ∀ s : State, s.TakesCommand → s.windowsOk →
    let spells (w : WinIx) (k : WinKind) (m : NodeSet) (a b : Line) : Prop :=
      s.args[0] = BitVec.ofNat 32 (w.val + k.code * 2 ^ 8 + m.toNat * 2 ^ 16) ∧ s.args[1] = a.setWidth 32 ∧
        s.args[2] = b.setWidth 32 ∧ s.args[3] = BitVec.ofNat 32 (a.toNat / 2 ^ 32 + b.toNat / 2 ^ 32 * 2 ^ 16)
    (∀ w k m a b, spells w k m a b →
      exec .setWindow s = .next (State.driveEventN (
        if (s.getWindow w).state = .closed then
          (s.modWindow w (fun r => { r with start := a, limit := b, kind := k, allowed := m })).commandEnd .ok
        else s.commandEnd .windowBusy))) ∧
    ((¬∃ w k m a b, spells w k m a b) →
      exec .setWindow s = .next (State.driveEventN (s.commandEnd .badArgument)))

/-- OPEN_WINDOW (R102): the four checks in their order, and the window LIVE, containing its lines. The premise on the windows
is kept by every step. -/
def Obligations.OpenWindowChecks : Prop :=
  ∀ s : State, s.TakesCommand → s.windowsOk →
    (7 < s.args[0].toNat → exec .openWindow s = .next (State.driveEventN (s.commandEnd .badArgument))) ∧
    ∀ w : WinIx, s.args[0].toNat = w.val →
      let r := s.getWindow w
      (r.state ≠ .closed → exec .openWindow s = .next (State.driveEventN (s.commandEnd .windowBusy))) ∧
      (r.state = .closed → r.limit < r.start →
        exec .openWindow s = .next (State.driveEventN (s.commandEnd .badRange))) ∧
      (r.state = .closed → r.start ≤ r.limit →
        ((∃ u, u ≠ w ∧ (s.getWindow u).state ≠ .closed ∧ (s.getWindow u).shares r) →
          exec .openWindow s = .next (State.driveEventN (s.commandEnd .overlap))) ∧
        ((∀ u, u ≠ w → (s.getWindow u).state ≠ .closed → ¬(s.getWindow u).shares r) →
          ∃ t, exec .openWindow s = .next t ∧
            t = State.driveEventN ((s.modWindow w (fun v => { v with state := .live })).commandEnd .ok) ∧
            ∀ l, r.start ≤ l → l ≤ r.limit → t.windowOf l = some w))

/-- RETIRE_WINDOW (R106, Table 6-3, R108) and FLUSH_ALL (R165): the checks in their order; a DIRECT window is CLOSED at once or
drains, another gets the RETIRE job; a SCRUB in place gives way. -/
def Obligations.WalkCommandsCreateJobs : Prop :=
  ∀ s : State, s.TakesCommand → s.maintStep = none → s.noneCounted →
    let job (k : MaintKind) (w : Option WinIx) : Option MaintJob := some ⟨k, w, .running, 0, false, 0, none, false⟩
    let busy : Prop := ∃ j, s.maint = some j ∧ j.kind ≠ .scrub
    (7 < s.args[0].toNat → exec .retireWindow s = .next (State.driveEventN (s.commandEnd .badArgument))) ∧
    (∀ w : WinIx, s.args[0].toNat = w.val →
      let r := s.getWindow w
      (r.state = .closed → exec .retireWindow s = .next (State.driveEventN (s.commandEnd .notOpen))) ∧
      (r.state = .retiring → exec .retireWindow s = .next (State.driveEventN (s.commandEnd .windowBusy))) ∧
      (r.state = .live → r.kind = .direct →
        exec .retireWindow s = .next (State.driveEventN ((s.modWindow w (fun v =>
          if v.openCount = 0 then { v with state := .closed, progress := none }
          else { v with state := .retiring, progress := some .draining })).commandEnd .ok))) ∧
      (r.state = .live → r.kind ≠ .direct → busy →
        exec .retireWindow s = .next (State.driveEventN (s.commandEnd .maintBusy))) ∧
      (r.state = .live → r.kind ≠ .direct → ¬busy →
        exec .retireWindow s = .next (State.driveEventN (State.commandEnd
          { s.modWindow w (fun v => { v with state := .retiring, progress := some .walking }) with
            maint := job .retire (some w) } .ok)))) ∧
    (busy → exec .flushAll s = .next (State.driveEventN (s.commandEnd .maintBusy))) ∧
    (¬busy → exec .flushAll s = .next (State.driveEventN (State.commandEnd { s with maint := job .flush none } .ok)))

/-- PAUSE_MAINT, RESUME_MAINT and ABORT_MAINT (R169, R170, R109). A pause while a set step is in hand, or before the set owed
after a resume has been taken, waits for it; an abort abandons the step in hand, waits for the recalls its job has open, and
with none open ends the job in its event, a window LIVE again and a SCRUB started. A FLUSH job names no window (Table
10-2). -/
def Obligations.MaintenanceCommands : Prop :=
  ∀ s : State, s.TakesCommand →
    (∀ j, s.maint = some j → j.kind ≠ .scrub → j.run = .running →
      exec .pauseMaint s = .next (State.driveEventN (State.commandEnd
        { s with maint := some { j with
            run := if j.owed = true ∨ s.maintStep.isSome = true then .pausing else .paused } } .ok))) ∧
    ((∀ j, s.maint = some j → j.kind = .scrub ∨ j.run ≠ .running) →
      exec .pauseMaint s = .next (State.driveEventN (s.commandEnd .notRunning))) ∧
    (∀ j, s.maint = some j → j.kind ≠ .scrub → j.run = .paused →
      exec .resumeMaint s = .next (State.driveEventN (State.commandEnd
        { s with maint := some { j with run := .running, owed := true } } .ok))) ∧
    ((∀ j, s.maint = some j → j.kind = .scrub ∨ j.run ≠ .paused) →
      exec .resumeMaint s = .next (State.driveEventN (s.commandEnd .notPaused))) ∧
    ((∀ j, s.maint = some j → j.kind = .scrub ∨ j.run = .aborting) →
      exec .abortMaint s = .next (State.driveEventN (s.commandEnd .notRunning))) ∧
    (∀ j w, s.maint = some j → j.kind = .retire → j.window = some w → j.run ≠ .aborting →
      (0 < j.openCount → exec .abortMaint s = .next (State.driveEventN (State.commandEnd
        { s.modWindow w (fun v => { v with progress := some .aborting }) with
          maint := some { j with run := .aborting }, maintStep := none } .ok))) ∧
      (j.openCount = 0 → s.noneCounted → exec .abortMaint s = .next (State.driveEventN (State.commandEnd
        { s.modWindow w (fun v => { v with state := .live, progress := none }) with
          flags := s.flags ||| 0x1000#16, maint := s.nextMaint, maintStep := none } .ok)))) ∧
    (∀ j, s.maint = some j → j.kind = .flush → j.window = none → j.run ≠ .aborting →
      (0 < j.openCount → exec .abortMaint s = .next (State.driveEventN (State.commandEnd
        { s with maint := some { j with run := .aborting }, maintStep := none } .ok))) ∧
      (j.openCount = 0 → s.noneCounted → exec .abortMaint s = .next (State.driveEventN (State.commandEnd
        { s with flags := s.flags ||| 0x1000#16, maint := s.nextMaint, maintStep := none } .ok))))

/-- INSPECT_LINE, INSPECT_WAY and INSPECT_SLOT write a report into the INSPECT buffer and change nothing else (R19, R20, R41,
R185, Table 12-5); an argument out of range ends them FAILED. The words of a found way are those of an unheld one, whose body is
reported as stored; a slot's pending round may draw a free value (log 18). -/
def Obligations.InspectionsReport : Prop :=
  ∀ s : State, s.TakesCommand →
    let after (b : Vector Word32 64) (r : Word32) (k : Nat) : State :=
      State.driveEventN { State.commandEnd { s with inspect := b, freeCount := k } .ok with
        results := (Vector.replicate 4 0#32).set 0 r }
    let failed := State.driveEventN (s.commandEnd .badArgument)
    let way (found : Word32) (i : SetIx) (w : WayIx) (b : Vector Word32 64) : Prop :=
      let v := s.getWay i w
      let l := if v.body.stored.content = .free then none else v.key.stored.map (fun k => lineOf k i)
      b.toList.take 15 = [found, natWord i.val, natWord w.val, v.body.stored.content.occupancyWord, optWord lineLow l,
        optWord lineHigh l, v.body.stored.content.stateWord, v.body.stored.content.sharersWord,
        v.body.stored.content.ownerWord, optWord (fun t => natWord t.val) v.body.stored.heldBy,
        boolWord v.body.stored.release, natWord ((s.getSet i).order.findIdx (fun u => u == w)), boolWord (s.frozen i),
        v.key.check.word, v.body.check.word]
    (∀ i w, s.args[0].toNat = i.val → s.args[1].toNat = w.val → s.wayHolder i w = none →
      ∃ b, exec .inspectWay s = .next (after b 0#32 s.freeCount) ∧ way 0xFFFFFFFF#32 i w b) ∧
    (2047 < s.args[0].toNat ∨ 15 < s.args[1].toNat → exec .inspectWay s = .next failed) ∧
    (∀ l : Line, s.args[0] = l.setWidth 32 → s.args[1].toNat = l.toNat / 2 ^ 32 →
      (∀ w c, s.trackedAs l w c → c ≠ .free →
        ∃ b, exec .inspectLine s = .next (after b 1#32 s.freeCount) ∧ way 1#32 (setOf l) w b) ∧
      (s.untracked l → ∃ b, exec .inspectLine s = .next (after b 0#32 s.freeCount) ∧
        b.toList.take 15 = [0#32, natWord (setOf l).val] ++ List.replicate 10 absentWord ++
          [boolWord (s.frozen (setOf l)), absentWord, absentWord])) ∧
    (3 < s.args[1].toNat → exec .inspectLine s = .next failed) ∧
    (∀ t : SlotIx, s.args[0].toNat = t.val →
      (s.getSlot t = none → ∃ b, exec .inspectSlot s = .next (after b 0#32 s.freeCount) ∧
        b.toList.take 40 = 0#32 :: List.replicate 39 absentWord) ∧
      (∀ x, s.getSlot t = some x → ∃ b k, exec .inspectSlot s = .next (after b 0#32 k) ∧
        b[0] = 1#32 ∧ b[1] = x.kind.word ∧ b[2] = optWord (fun n => natWord n.val) x.requester ∧
        b[3] = optWord lineLow x.line ∧ b[4] = optWord lineHigh x.line ∧
        b[6] = optWord (fun v => natWord v.val) x.window ∧ b[7] = x.phase.word ∧
        b[8] = (if x.phase = .parked then absentWord else maskWord x.awaited) ∧ b[13] = natWord x.retriesLeft ∧
        b[18] = optWord natWord x.rank)) ∧
    (47 < s.args[0].toNat → exec .inspectSlot s = .next failed)

/-- NODE_EVICT (R117, R118): an ABSENT or LOST node refuses it; one in PURGING takes the reason EVICTED; a LIVE or LEAVING one
enters PURGING with its credits 0 and a SILENT purge job, here with no slot in use. -/
def Obligations.NodeEvictPurges : Prop :=
  ∀ s : State, s.TakesCommand →
    (7 < s.args[0].toNat → exec .nodeEvict s = .next (State.driveEventN (s.commandEnd .badArgument))) ∧
    ∀ n : Node, s.args[0].toNat = n.val →
      (s.nodeState n = .absent ∨ s.nodeState n = .lost →
        exec .nodeEvict s = .next (State.driveEventN (s.commandEnd .nodeState))) ∧
      (s.nodeState n = .purging → exec .nodeEvict s = .next (State.driveEventN
        ((s.modNode n (fun r => { r with reason := some .evicted })).commandEnd .ok))) ∧
      (s.nodeState n = .live ∨ s.nodeState n = .leaving → s.Quiet → (∀ u, s.getSlot u = none) →
        (∀ j, s.getJob n = some j → 0 < j.setsLeft) →
        exec .nodeEvict s = .next (State.driveEventN (State.commandEnd
          { s.modNode n (fun r => { r with state := .purging, reason := some .evicted, credits := 0 }) with
            ntHeld := s.ntHeld.set n.val none n.isLt
            purgeJobs := s.purgeJobs.set n.val (some (match s.getJob n with
              | none => ⟨.silent, 2048, 0⟩
              | some j => { j with mode := .silent })) n.isLt } .ok)))

/-- CLEAR_POISON naming a line (R140): an unheld POISONED way, every code of its set matching, becomes FREE and moves to the back;
a line that is not POISONED, or has no entry, ends it FAILED; arguments out of range too. That CLEAR_POISON_ALL with ARG2 bit 0
clear is this command too (log 20), and that the other bits of ARG2 are ignored (log 50), are the model's choices. -/
def Obligations.ClearPoisonFreesALine : Prop :=
  ∀ (s : State) (c : Instr), s.TakesCommand → s.Quiet → c = .clearPoison ∨ c = .clearPoisonAll →
    s.args[2].getLsbD 0 = false →
    (3 < s.args[1].toNat → exec c s = .next (State.driveEventN (s.commandEnd .badArgument))) ∧
    ∀ l : Line, s.args[0] = l.setWidth 32 → s.args[1].toNat = l.toNat / 2 ^ 32 →
      (∀ w, s.trackedAs l w .poisoned → exec c s = .next (State.driveEventN (State.commandEnd
        (s.putSet (setOf l) { s.getSet (setOf l) with
          ways := (s.getSet (setOf l)).ways.set w.val freeWay w.isLt
          order := (s.getSet (setOf l)).order.erase w ++ [w] }) .ok))) ∧
      (∀ w k, s.trackedAs l w k → k ≠ .free → k ≠ .poisoned →
        exec c s = .next (State.driveEventN (s.commandEnd .notPoisoned))) ∧
      (s.untracked l → exec c s = .next (State.driveEventN (s.commandEnd .notPoisoned)))

/-- CLEAR_POISON naming ALL (R141): its pass begins and the mailbox stays BUSY; each set pass, on a set without held ways and with
every code matching, frees the POISONED ways, each to the back of the order, and counts them; the set's freeze mark stays. The
pass of set 2047 ends the command DONE with its counts. That CLEAR_POISON with ARG2 bit 0 set is this command too (log 20), that
the other bits of ARG2 are ignored (log 50), and that the ways of one set are taken from W0 to W15 (log 41), are the model's
choices. -/
def Obligations.ClearPoisonAllPasses : Prop :=
  (∀ (s : State) (c : Instr), s.TakesCommand → c = .clearPoison ∨ c = .clearPoisonAll → s.args[2].getLsbD 0 = true →
    exec c s = .next (State.driveEventN { s with
      mbState := .busy, overrun := false, results := Vector.replicate 4 0#32, poisonPass := some ⟨0, 0, 0, 0⟩ })) ∧
  (∀ (s : State) (p : PoisonPass) (i : SetIx), s.Quiet → s.directoryOk → s.poisonPass = some p → p.next = i.val →
    s.soundSet i → (∀ w, s.wayHolder i w = none) →
    ∃ t, exec .clearPoisonSetPass s = .next t ∧
      (∀ w, t.getWay i w = if (s.getWay i w).body.stored.content = .poisoned then freeWay else s.getWay i w) ∧
      (∀ j, j ≠ i → t.getSet j = s.getSet j) ∧ (t.getSet i).frozen = (s.getSet i).frozen ∧
      (t.getSet i).order = sunk (s.getSet i).order (fun w => (s.getWay i w).body.stored.content == .poisoned) ∧
      (let freed := p.freed + allWays.countP (fun w => (s.getWay i w).body.stored.content == .poisoned)
       (p.next < 2047 → t = State.driveEventN { s with
          dir := t.dir, poisonPass := some { p with next := p.next + 1, freed := freed } }) ∧
        (p.next = 2047 → t = State.driveEventN { s with
          dir := t.dir
          poisonPass := none
          results := ((s.results.set 0 (natWord freed)).set 1 (natWord p.marked)).set 2 (natWord p.skipped)
          mbState := .done
          mbResult := .ok
          flags := s.flags ||| 0x8000#16 })))

/-- CLEAR_CAPTURE leaves the capture record not valid (R188); CLEAR_COUNTERS sets every counter to 0, the per-node counters and the
memory agent's TIMEOUTS included (R187). Both end DONE and change nothing else. -/
def Obligations.RecordsAreCleared : Prop :=
  ∀ s : State, s.TakesCommand →
    exec .clearCapture s = .next (State.driveEventN (State.commandEnd { s with capture := none } .ok)) ∧
    (∃ t, exec .clearCounters s = .next t ∧
      (∀ n, t.getNode n = { s.getNode n with timeouts := 0, violations := 0, stale := 0 }) ∧
      t = State.driveEventN (State.commandEnd
        { s with counters := ⟨0, 0, 0, 0, 0, 0, 0⟩, memTimeouts := 0, nodes := t.nodes } .ok))

/-- LINK_SET and PORT_RESET (R173, R174): the setting written is used from the next PORT_RESET; an UP link goes to TRAINING with
its intakes and queues discarded and LINK_DOWN raised, here with nothing held for room. -/
def Obligations.LinkCommands : Prop :=
  ∀ s : State, s.TakesCommand →
    (∀ (w : Width) (r : Rate),
      s.args[0] = (match w with
        | .four => 4#32
        | .eight => 8#32) →
      s.args[1] = (match r with
        | .one => 1#32
        | .two => 2#32
        | .three => 3#32) →
      exec .linkSet s = .next (State.driveEventN (State.commandEnd { s with nextSetting := ⟨w, r⟩ } .ok))) ∧
    ((s.args[0] ≠ 4#32 ∧ s.args[0] ≠ 8#32) ∨ s.args[1] = 0#32 ∨ 3 < s.args[1].toNat →
      exec .linkSet s = .next (State.driveEventN (s.commandEnd .badArgument))) ∧
    (s.link ≠ .up →
      exec .portReset s = .next (State.driveEventN (State.commandEnd { s with curSetting := s.nextSetting } .ok))) ∧
    (s.link = .up → s.orderHeld = [] → s.answerHeld = [] →
      exec .portReset s = .next (State.driveEventN (State.commandEnd { s with
        curSetting := s.nextSetting, link := .training, reqIntake := [], replyIntake := [], orderQ := [], answerQ := []
        flags := s.flags ||| 0x2000#16 } .ok)))

/-- DIR_RESET (R190): accepted with every node ABSENT or LOST and no job but a SCRUB. It clears the directory (R21), the slots
(R42) and the notices (R70), closes the RETIRING windows and clears the counts of all (R110), makes LOST nodes ABSENT (R111) and
starts the scrub again at set 0 (R171); everything else stays. Else it ends FAILED with BUSY. -/
def Obligations.DirResetClearsTheDirectory : Prop :=
  ∀ s : State, s.TakesCommand →
    let free : Prop := (∀ n, s.nodeState n = .absent ∨ s.nodeState n = .lost) ∧ ∀ j, s.maint = some j → j.kind = .scrub
    (¬free → exec .dirReset s = .next (State.driveEventN (s.commandEnd .busy))) ∧
    (free → s.Quiet → (∀ n, s.getJob n = none) → ∃ t, exec .dirReset s = .next t ∧
      (∀ i, t.getSet i = blankSet) ∧ (∀ u, t.getSlot u = none) ∧
      (∀ w, t.getWindow w = { s.getWindow w with
        state := if (s.getWindow w).state = .retiring then .closed else (s.getWindow w).state
        progress := if (s.getWindow w).state = .retiring then none else (s.getWindow w).progress
        openCount := 0 }) ∧
      (∀ n, t.getNode n = if s.nodeState n = .lost then { s.getNode n with state := .absent, reason := none }
        else s.getNode n) ∧
      t = State.driveEventN (State.commandEnd { s with
        dir := [], slots := t.slots, notices := [], windows := t.windows, nodes := t.nodes, scrubPos := 0
        maint := if s.limits.scrubInterval = 0#32 then none
          else some ⟨.scrub, none, .running, 0, false, 0, some s.limits.scrubInterval.toNat, false⟩ } .ok))

/-! ## Node requests -/

/-- A node request that fails a check of Table 2-4 is answered with a REFUSE for the first check it fails, and nothing but the
counter of SET_FROZEN or TABLE_FULL changes; with the ANSWER queue full the Request Intake keeps the REFUSE, and takes no
request while it holds one (R34, R35, R103). -/
def Obligations.RequestsRefusedAtArrival : Prop :=
  ∀ (s : State) (k : ReqKind), s.Ready →
    ((∃ a, s.riHeld = some a) → exec k.command s = .next (State.driveEventN s)) ∧
    ∀ (n : Node) (l : Line) (rest : List ReqMsg), s.riHeld = none → s.answerHeld = [] →
      s.reqIntake = .request k n l :: rest →
      let refused (r : Reason) (c : Counters) : Prop :=
        exec k.command s = .next (State.driveEventN (
          if s.answerQ.length < 64 then
            { s with reqIntake := rest, counters := c, answerQ := s.answerQ ++ [.refuse n l (.request k) r] }
          else
            { s with
              reqIntake := rest, counters := c, riHeld := some (.refuse n l (.request k) r), answerHeld := [.intake] }))
      let full := { s.counters with refusedTableFull := satInc s.counters.refusedTableFull }
      (s.nodeState n ≠ .live → refused .notLive s.counters) ∧
      (s.nodeState n = .live →
        (s.windowOf l = none → refused .noHome s.counters) ∧
        ∀ v, s.windowOf l = some v →
          let w := s.getWindow v
          let reads : Prop := w.kind = .sharedOnly ∧ (k = .readOwn ∨ k = .upgrade)
          (NodeSet.has w.allowed n = false → refused .denied s.counters) ∧
          (NodeSet.has w.allowed n = true →
            (reads → refused .readOnly s.counters) ∧
            (¬reads →
              (w.state = .retiring → refused .retiring s.counters) ∧
              (w.state ≠ .retiring →
                (s.frozen (setOf l) = true ∧ w.kind ≠ .direct →
                  refused .setFrozen { s.counters with refusedSetFrozen := satInc s.counters.refusedSetFrozen }) ∧
                (¬(s.frozen (setOf l) = true ∧ w.kind ≠ .direct) →
                  6 ≤ (s.getNode n).credits ∨ s.freeSlots < 5 → refused .tableFull full)))))

/-- A request admitted behind another transaction of its line parks at the tail of the line's order in the lowest free slot;
its requester's credits and its window's count rise by one (R23, R26, R32, R105). A WRITEBACK claims the notice of its line and
requester (R73). A DROP from the owner whose release an observing wait awaits meets that wait (R78, Table 4-3): the way becomes
FREE. A read request reserves it again and sends its FETCH, and the DROP stays parked; without a LIVE memory agent the request is
refused, and a recall closes, its way handed over where a waiter still waits. Then the DROP activates on an untracked line and is
answered DROPPED stale (R27, R66), here with no other transaction on the line, and no job ended. -/
def Obligations.AdmittedRequestParks : Prop :=
  ∀ (s : State) (k : ReqKind) (n : Node) (l : Line) (v : WinIx) (rest : List ReqMsg) (u : SlotIx),
    s.Arrives k n l v rest → s.onLine l ≠ [] → s.lowestFree = some u →
    let parked : State := (s.admitted n v rest).putSlot u (some (requestSlot k n l v (s.onLine l).length))
    ((k = .drop → s.observer l n = []) → exec k.command s = .next (State.driveEventN
      { parked with
        notices := s.notices.map (fun m =>
          if k = .writeback ∧ m.line = l ∧ m.node = n then { m with claimed := true } else m) })) ∧
    (∀ (t : SlotIx) (x : Slot) (w : WayIx), k = .drop → s.observer l n = [t] → s.getSlot t = some x → x.pending = none →
      x.rebuild = none → x.working = some ⟨w, .owned n⟩ → (s.getWay (setOf l) w).body.check = .good →
      let freed : SetRec := { s.getSet (setOf l) with
        ways := (s.getSet (setOf l)).ways.set w.val freeWay w.isLt, order := (s.getSet (setOf l)).order.erase w ++ [w] }
      let reads : Prop := x.kind = .readShared ∨ x.kind = .readOwn ∨ x.kind = .upgrade
      let gone : Prop := s.onLine l = [t] ∧ x.rank = some 0 ∧ x.phase ≠ .parked ∧ (s.getWindow v).kind ≠ .direct ∧
        s.soundSet (setOf l) ∧ ∀ y, y ≠ w → (s.getWay (setOf l) y).body.stored.content ≠ .free →
          (s.getWay (setOf l) y).key.stored ≠ some (keyOf l)
      let stale (q : State) : State :=
        { q.modNode n (fun e => { e with stale := satInc e.stale }) with
          reqIntake := rest, answerQ := q.answerQ ++ [.dropped n l true] }
      (∀ o, reads → x.requester = some o → s.mem = .live → s.orderQ.length < 64 → exec .drop s = .next (State.driveEventN
        { (parked.putSlot t (some { x.given s w with victimLink := x.victimLink })).putSet (setOf l) { freed with
            ways := freed.ways.set w.val ⟨coded (some (keyOf l)), coded ⟨.reserved, some t, false⟩⟩ w.isLt } with
          orderQ := s.orderQ ++ [.fetch l o false] })) ∧
      (∀ o a, reads → gone → s.Sole t x l a → x.requester = some o → s.mem ≠ .live → s.nodeState o ≠ .purging →
        s.answerQ.length < 63 → exec .drop s = .next (State.driveEventN (stale
          { (s.closed t (some o) a).putSet (setOf l) freed with
            answerQ := s.answerQ ++ [.refuse o l (.request x.kind.toReqKind) .memoryFault] }))) ∧
      (∀ a, gone → x.kind.recall = true → x.requester = none → x.window = some a → s.jobsGoOn x → s.answerQ.length < 64 →
        (x.victimLink = none →
          exec .drop s = .next (State.driveEventN (stale ((s.recallClosed t x a).putSet (setOf l) freed)))) ∧
        (∀ (e : SlotIx) (y : Slot) (b : Line) (o : Node), x.kind = .victimRecall → x.victimLink = some e →
          s.waits t e y l b o → s.mem = .live → s.orderQ.length < 64 →
          exec .drop s = .next (State.driveEventN (stale ((s.recallClosed t x a).givenWay e y l b o w))))))

/-- A read request, or an UPGRADE, which is then converted, on an untracked line. With a FREE way in its set, the rearmost becomes
RESERVED for the line and a FETCH goes to the memory agent; the grant waits for FETCH_SENT (R8, R52, R56, R61). With none, victim
choice names the rearmost way that is SHARED or OWNED, unheld and on a line without a transaction (R9): a VICTIM_RECALL, in the
lowest free slot, withdraws its line from every node named, and the request waits for it in AWAIT_VICTIM (R86 to R89); the
order of the recall's round is the model's choice (log 38). With no such way it is refused SET_FULL, which counts one, and closes (R86, R38). -/
def Obligations.UntrackedReadFetches : Prop :=
  ∀ (s : State) (k : ReqKind) (n : Node) (l : Line) (v : WinIx) (rest : List ReqMsg) (u : SlotIx),
    s.Arrives k n l v rest → (s.getWindow v).kind ≠ .direct → s.onLine l = [] → s.lowestFree = some u → s.untracked l →
    s.mem = .live → k = .readShared ∨ k = .readOwn ∨ k = .upgrade →
    let content (y : WayIx) : Content := (s.getWay (setOf l) y).body.stored.content
    let ways : List WayIx := (s.getSet (setOf l)).order.reverse
    (∀ w : WayIx, ways.find? (fun y => content y == .free) = some w → s.orderQ.length < 64 →
      exec k.command s = .next (State.driveEventN
        { ((s.admitted n v rest).putWay (setOf l) w
            ⟨coded (some (keyOf l)), coded ⟨.reserved, some u, false⟩⟩).putSlot u (some
              { requestSlot k n l v 0 with
                phase := .awaitReplies
                memWait := .fetchSent
                working := some ⟨w, .reserved⟩
                converted := decide (k = .upgrade)
                timer := some s.limits.orderTimeout.toNat
                retriesLeft := s.limits.retryLimit.toNat }) with
          orderQ := s.orderQ ++ [.fetch l n false] })) ∧
    (ways.find? (fun y => content y == .free) = none →
      (∀ (w : WayIx) (c : Content) (q : Line) (a : WinIx) (m : NodeSet) (e : SlotIx), ways.find? (s.eligible (setOf l)) = some w →
        s.trackedAs q w c → setOf q = setOf l → s.keepsContent c → m ≠ 0#8 →
        c = .shared m ∨ (∃ o, c = .owned o ∧ m = NodeSet.single o) → s.windowOf q = some a →
        allSlots.find? (fun t => t != u && (s.getSlot t).isNone) = some e →
        s.orderQ.length + (NodeSet.toList m).length ≤ 64 →
        exec k.command s = .next (State.driveEventN
          (((s.admitted n v rest).putSlot u (some
            { requestSlot k n l v 0 with
              phase := .awaitVictim
              victimLink := some e
              converted := decide (k = .upgrade) })).recallOpened e { newSlot .victimRecall with victimLink := some u }
            q a w c m))) ∧
      (ways.find? (s.eligible (setOf l)) = none → s.answerQ.length < 64 →
        exec k.command s = .next (State.driveEventN { s with
          reqIntake := rest
          answerQ := s.answerQ ++ [.refuse n l (.request k) .setFull]
          counters := { s.counters with refusedSetFull := satInc s.counters.refusedSetFull } })))

/-- A read request, or an UPGRADE, which is then converted, on a line another node owns: a FORWARD to the owner alone, SHARE for
READ_SHARED and MOVE for the others; the entry is held as it stands (R54, R58, R61). -/
def Obligations.OwnedLineForwards : Prop :=
  ∀ (s : State) (k : ReqKind) (n o : Node) (l : Line) (v : WinIx) (rest : List ReqMsg) (u : SlotIx) (w : WayIx),
    s.Arrives k n l v rest → (s.getWindow v).kind ≠ .direct → s.onLine l = [] → s.lowestFree = some u →
    s.trackedAs l w (.owned o) → o ≠ n → s.nodeState o ≠ .purging → s.orderQ.length < 64 →
    k = .readShared ∨ k = .readOwn ∨ k = .upgrade →
    let mode : Mode := if k = .readShared then .share else .move
    exec k.command s = .next (State.driveEventN
      { ((s.admitted n v rest).putWay (setOf l) w
          ⟨coded (some (keyOf l)), coded ⟨.owned o, some u, false⟩⟩).putSlot u (some
            { requestSlot k n l v 0 with
              phase := .awaitReplies
              awaited := NodeSet.single o
              outstanding := .forward mode
              working := some ⟨w, .owned o⟩
              converted := decide (k = .upgrade)
              timer := some s.limits.orderTimeout.toNat
              retriesLeft := s.limits.retryLimit.toNat }) with
        orderQ := s.orderQ ++ [.forward o l n mode false] })

/-- Read requests on a SHARED line: READ_SHARED takes a FETCH; READ_OWN, and an UPGRADE from a node that does not share it, a
REVOKE to every other sharer and a FETCH, in one round (R48, R53, R57, R61). The order inside the round, REVOKEs by
ascending node and the FETCH last, is the model's choice (log 38). -/
def Obligations.SharedLineReads : Prop :=
  ∀ (s : State) (k : ReqKind) (n : Node) (m : NodeSet) (l : Line) (v : WinIx) (rest : List ReqMsg) (u : SlotIx) (w : WayIx),
    s.Arrives k n l v rest → (s.getWindow v).kind ≠ .direct → s.onLine l = [] → s.lowestFree = some u →
    s.trackedAs l w (.shared m) → s.keepsContent (.shared m) → s.mem = .live →
    k = .readShared ∨ k = .readOwn ∨ (k = .upgrade ∧ NodeSet.has m n = false) →
    let others : NodeSet := if k = .readShared then 0#8 else NodeSet.remove m n
    let orders : List Order := (NodeSet.toList others).map (fun q => .revoke q l false) ++ [.fetch l n false]
    s.orderQ.length + orders.length ≤ 64 →
    exec k.command s = .next (State.driveEventN
      { ((s.admitted n v rest).putWay (setOf l) w
          ⟨coded (some (keyOf l)), coded ⟨.shared m, some u, false⟩⟩).putSlot u (some
            { requestSlot k n l v 0 with
              phase := .awaitReplies
              awaited := others
              memWait := .fetchSent
              outstanding := if k = .readShared then .nothing else .revoke
              working := some ⟨w, .shared m⟩
              converted := decide (k = .upgrade)
              timer := some s.limits.orderTimeout.toNat
              retriesLeft := s.limits.retryLimit.toNat }) with
        orderQ := s.orderQ ++ orders })

/-- UPGRADE from a sharer: a REVOKE to every other sharer and no FETCH; from the only sharer, GRANT OWNED with source NONE at
once, the way to the front of its set's order, and COMPLETE awaited (R16, R50, R60). The order inside the round is the
model's choice (log 38). -/
def Obligations.SharerUpgrades : Prop :=
  ∀ (s : State) (n : Node) (m : NodeSet) (l : Line) (v : WinIx) (rest : List ReqMsg) (u : SlotIx) (w : WayIx),
    s.Arrives .upgrade n l v rest → (s.getWindow v).kind ≠ .direct → s.onLine l = [] → s.lowestFree = some u →
    s.trackedAs l w (.shared m) → s.keepsContent (.shared m) → NodeSet.has m n = true →
    let x := { requestSlot .upgrade n l v 0 with phase := .awaitReplies, working := some ⟨w, .shared m⟩ }
    let others := NodeSet.remove m n
    let held := (s.admitted n v rest).putWay (setOf l) w ⟨coded (some (keyOf l)), coded ⟨.shared m, some u, false⟩⟩
    (others ≠ 0#8 → s.orderQ.length + (NodeSet.toList others).length ≤ 64 →
      exec .upgrade s = .next (State.driveEventN
        { held.putSlot u (some { x with
            awaited := others, outstanding := .revoke, timer := some s.limits.orderTimeout.toNat
            retriesLeft := s.limits.retryLimit.toNat }) with
          orderQ := s.orderQ ++ (NodeSet.toList others).map (fun q => .revoke q l false) })) ∧
    (others = 0#8 → s.answerQ.length < 64 →
      exec .upgrade s = .next (State.driveEventN
        { (held.putSlot u (some (x.granted s n .owned .noSource false))).putSet (setOf l)
            { held.getSet (setOf l) with order := w :: (s.getSet (setOf l)).order.erase w } with
          answerQ := s.answerQ ++ [.grant n l .owned .noSource false false] }))

/-- WRITEBACK. From the recorded owner it waits for the store (R63), or, where the store's notice is present, takes it, frees
the way and is answered WB_DONE, its slot, credit and count as before (R73, R75). From another node, or on an untracked line, it
is stale: counted, answered WB_DONE stale, and its notice gone (R64, R80). -/
def Obligations.WritebackWaitsForItsStore : Prop :=
  ∀ (s : State) (n : Node) (l : Line) (v : WinIx) (rest : List ReqMsg) (u : SlotIx),
    s.Arrives .writeback n l v rest → (s.getWindow v).kind ≠ .direct → s.onLine l = [] → s.lowestFree = some u →
    (∀ w, s.trackedAs l w (.owned n) →
      (s.noticeFor l n = none → exec .writeback s = .next (State.driveEventN
        (((s.admitted n v rest).putWay (setOf l) w
          ⟨coded (some (keyOf l)), coded ⟨.owned n, some u, false⟩⟩).putSlot u (some
            { requestSlot .writeback n l v 0 with
              phase := .awaitStore
              memWait := .consuming n
              working := some ⟨w, .owned n⟩
              timer := some s.limits.orderTimeout.toNat })))) ∧
      (s.noticeFor l n ≠ none → s.answerQ.length < 64 → exec .writeback s = .next (State.driveEventN
        { s.putSet (setOf l) { s.getSet (setOf l) with
            ways := (s.getSet (setOf l)).ways.set w.val freeWay w.isLt
            order := (s.getSet (setOf l)).order.erase w ++ [w] } with
          reqIntake := rest
          notices := s.notices.filter (fun m => !decide (m.line = l ∧ m.node = n))
          answerQ := s.answerQ ++ [.wbDone n l false] }))) ∧
    (s.untracked l ∨ (∃ w c, s.trackedAs l w c ∧ s.keepsContent c ∧ c ≠ .owned n) → s.answerQ.length < 64 →
      exec .writeback s = .next (State.driveEventN
        { s.modNode n (fun r => { r with stale := satInc r.stale }) with
          reqIntake := rest
          notices := s.notices.filter (fun m => !decide (m.line = l ∧ m.node = n))
          answerQ := s.answerQ ++ [.wbDone n l true] }))

/-- DROP. From the owner, or from the only sharer, it frees the way; from one sharer of several it removes the sharer; from
another node, or on an untracked line, it is stale and counted. Each is answered DROPPED and closes, its slot, credit and count
as before (R65, R66, R81). -/
def Obligations.DropGivesUpACopy : Prop :=
  ∀ (s : State) (n : Node) (l : Line) (v : WinIx) (rest : List ReqMsg) (u : SlotIx),
    s.Arrives .drop n l v rest → (s.getWindow v).kind ≠ .direct → s.onLine l = [] → s.lowestFree = some u →
    s.answerQ.length < 64 →
    (∀ w c, s.trackedAs l w c → s.keepsContent c →
      (c = .owned n ∨ (∃ m, c = .shared m ∧ NodeSet.has m n = true ∧ NodeSet.remove m n = 0#8) →
        exec .drop s = .next (State.driveEventN
          { s.putSet (setOf l) { s.getSet (setOf l) with
              ways := (s.getSet (setOf l)).ways.set w.val freeWay w.isLt
              order := (s.getSet (setOf l)).order.erase w ++ [w] } with
            reqIntake := rest, answerQ := s.answerQ ++ [.dropped n l false] })) ∧
      (∀ m, c = .shared m → NodeSet.has m n = true → NodeSet.remove m n ≠ 0#8 →
        exec .drop s = .next (State.driveEventN
          { s.putWay (setOf l) w ⟨coded (some (keyOf l)), coded ⟨.shared (NodeSet.remove m n), none, false⟩⟩ with
            reqIntake := rest, answerQ := s.answerQ ++ [.dropped n l false] }))) ∧
    (s.untracked l ∨ (∃ w c, s.trackedAs l w c ∧ s.keepsContent c ∧ c ≠ .owned n ∧
        NodeSet.has (Content.sharers c) n = false) →
      exec .drop s = .next (State.driveEventN
        { s.modNode n (fun r => { r with stale := satInc r.stale }) with
          reqIntake := rest, answerQ := s.answerQ ++ [.dropped n l true] }))

/-- Requests refused at their decision, which leave the entry, the slot, the credit and the count as they were (R38): a POISONED
line (R55, R59, R62), a line the requester owns, a violation (R54, R58, R62), and an untracked line without a LIVE memory agent
(R46). -/
def Obligations.ReadsRefusedAtDecision : Prop :=
  ∀ (s : State) (k : ReqKind) (n : Node) (l : Line) (v : WinIx) (rest : List ReqMsg) (u : SlotIx),
    s.Arrives k n l v rest → (s.getWindow v).kind ≠ .direct → s.onLine l = [] → s.lowestFree = some u →
    s.answerQ.length < 64 → k = .readShared ∨ k = .readOwn ∨ k = .upgrade →
    let refused (r : Reason) : State :=
      { s with reqIntake := rest, answerQ := s.answerQ ++ [.refuse n l (.request k) r] }
    (∀ w, s.trackedAs l w .poisoned → exec k.command s = .next (State.driveEventN (refused .poisoned))) ∧
    (∀ w, s.trackedAs l w (.owned n) → exec k.command s = .next (State.driveEventN
      { (refused .violation).modNode n (fun r => { r with violations := satInc r.violations }) with
        flags := s.flags ||| 0x0200#16
        capture := some (match s.capture with
          | none => ⟨.violation, ⟨some l, some (.node n), none, none, some u⟩, 0⟩
          | some r => { r with further := satInc r.further }) })) ∧
    (s.untracked l → s.mem ≠ .live → exec k.command s = .next (State.driveEventN (refused .memoryFault)))

/-- Requests in a DIRECT window take no way (R67, R68): a read takes a FETCH, a WRITEBACK waits for its store, a DROP is answered
at once; an UPGRADE is a violation. The directory does not change. -/
def Obligations.DirectWindowRequests : Prop :=
  ∀ (s : State) (k : ReqKind) (n : Node) (l : Line) (v : WinIx) (rest : List ReqMsg) (u : SlotIx),
    s.Arrives k n l v rest → (s.getWindow v).kind = .direct → s.onLine l = [] → s.lowestFree = some u →
    (k = .readShared ∨ k = .readOwn → s.mem = .live → s.orderQ.length < 64 →
      exec k.command s = .next (State.driveEventN
        { (s.admitted n v rest).putSlot u (some
            { requestSlot k n l v 0 with
              phase := .awaitReplies
              memWait := .fetchSent
              timer := some s.limits.orderTimeout.toNat
              retriesLeft := s.limits.retryLimit.toNat }) with
          orderQ := s.orderQ ++ [.fetch l n false] })) ∧
    (k = .writeback → s.noticeFor l n = none → exec k.command s = .next (State.driveEventN
      ((s.admitted n v rest).putSlot u (some
        { requestSlot k n l v 0 with
          phase := .awaitStore, memWait := .consuming n, timer := some s.limits.orderTimeout.toNat })))) ∧
    (k = .drop → s.answerQ.length < 64 → exec k.command s = .next (State.driveEventN
      { s with reqIntake := rest, answerQ := s.answerQ ++ [.dropped n l false] })) ∧
    (k = .upgrade → s.answerQ.length < 64 → exec k.command s = .next (State.driveEventN
      { s.modNode n (fun r => { r with violations := satInc r.violations }) with
        reqIntake := rest
        answerQ := s.answerQ ++ [.refuse n l (.request k) .violation]
        flags := s.flags ||| 0x0200#16
        capture := some (match s.capture with
          | none => ⟨.violation, ⟨some l, some (.node n), none, none, some u⟩, 0⟩
          | some r => { r with further := satInc r.further }) }))

/-! ## Membership -/

/-- HELLO and LEAVE (R112 to R115). An ABSENT node joins and a LOST one restarts, each LIVE and answered WELCOME; in PURGING the
reason becomes RESTART; a LIVE or LEAVING node enters PURGING for RESTART with its credits 0 and a SILENT purge job, a LEAVING
one's turned SILENT, here with no slot in use and its walk not over. The memory agent becomes LIVE. A LEAVE starts a MESSAGING
purge from a LIVE node with no credit in use; with one it is a violation, and from another state it is refused NOT_LIVE. -/
def Obligations.MembershipMessages : Prop :=
  ∀ (s : State) (n : Node) (rest : List ReqMsg), s.Ready → s.riHeld = none → s.answerHeld = [] → s.answerQ.length < 64 →
    let r := s.getNode n
    let t : State := { s with reqIntake := rest }
    (s.reqIntake = .hello (.node n) :: rest →
      (∀ e : Event, (r.state = .absent ∧ e = .joined) ∨ (r.state = .lost ∧ e = .restarted) →
        exec .hello s = .next (State.driveEventN
          { t.modNode n (fun r => { r with state := .live, reason := none }) with
            ntHeld := s.ntHeld.set n.val none n.isLt
            answerQ := s.answerQ ++ [.welcome (.node n)]
            flags := s.flags ||| (1#16 <<< e.bit) })) ∧
      (r.state = .purging → exec .hello s = .next (State.driveEventN
        (t.modNode n (fun r => { r with reason := some .restart })))) ∧
      (r.state = .live ∨ r.state = .leaving → s.Quiet → (∀ u, s.getSlot u = none) →
        (∀ j, s.getJob n = some j → 0 < j.setsLeft) →
        exec .hello s = .next (State.driveEventN (t.purged n .restart)))) ∧
    (s.reqIntake = .hello .memory :: rest → exec .helloFromMemoryAgent s = .next (State.driveEventN
      { t with mem := .live, answerQ := s.answerQ ++ [.welcome .memory] })) ∧
    (s.reqIntake = .leave n :: rest →
      (r.state = .live → r.credits = 0 → exec .leave s = .next (State.driveEventN
        { t.modNode n (fun r => { r with state := .leaving, reason := some .leave }) with
          ntHeld := s.ntHeld.set n.val none n.isLt
          purgeJobs := s.purgeJobs.set n.val (some ⟨.messaging, 2048, 0⟩) n.isLt })) ∧
      (r.state = .live → r.credits ≠ 0 → exec .leave s = .next (State.driveEventN
        { t.modNode n (fun r => { r with violations := satInc r.violations }) with
          flags := s.flags ||| 0x0200#16
          answerQ := s.answerQ ++ [.refuse n 0#34 .leave .violation]
          capture := some (match s.capture with
            | none => ⟨.violation, ⟨none, some (.node n), none, none, none⟩, 0⟩
            | some r => { r with further := satInc r.further }) })) ∧
      (r.state ≠ .live → exec .leave s = .next (State.driveEventN
        { t with answerQ := s.answerQ ++ [.refuse n 0#34 .leave .notLive] })))

/-! ## Replies -/

/-- A reply from a node that no active transaction of its line awaits, or for SURRENDER_DONE no set rebuild of its set, is
stale: its sender's STALE_REPLIES counts one and nothing else changes (R82). From a node that is awaited, a REVOKE_ACK or COMPLETE
that does not fit is stale in the same way; a FORWARD_DONE or RECALL_DONE that does not fit is a violation, counted and captured
with the line, the sender and the slot; the sender stays awaited, and the transaction is as it was (R84, Table 4-4). -/
def Obligations.StaleRepliesAreCounted : Prop :=
  ∀ (s : State) (n : Node) (rest : List ReplyMsg), s.Ready →
    let counted : State :=
      { s.modNode n (fun r => { r with stale := satInc r.stale }) with replyIntake := rest }
    (∀ l : Line, (∀ t x, s.activeOn l = some t → s.getSlot t = some x → NodeSet.has x.awaited n = false) →
      (s.replyIntake = .revokeAck n l :: rest → exec .revokeAck s = .next counted.driveEventN) ∧
      (∀ r, s.replyIntake = .forwardDone n l r :: rest → exec .forwardDone s = .next counted.driveEventN) ∧
      (∀ r, s.replyIntake = .recallDone n l r :: rest → exec .recallDone s = .next counted.driveEventN) ∧
      (s.replyIntake = .complete n l :: rest → exec .complete s = .next counted.driveEventN)) ∧
    (∀ (i : SetIx) (d : Nat),
      (∀ t x, s.getSlot t = some x → x.rebuildsSet = true → x.setIx = some i → NodeSet.has x.awaited n = false) →
      s.replyIntake = .surrenderDone n i d :: rest → exec .surrenderDone s = .next counted.driveEventN) ∧
    (∀ (l : Line) (t : SlotIx) (x : Slot), s.activeOn l = some t → s.getSlot t = some x → NodeSet.has x.awaited n = true →
      let violation : State :=
        { s.modNode n (fun r => { r with violations := satInc r.violations }) with
          replyIntake := rest
          flags := s.flags ||| 0x0200#16
          capture := captured s.capture .violation ⟨some l, some (.node n), none, none, some t⟩ }
      (x.outstanding ≠ .revoke → s.replyIntake = .revokeAck n l :: rest →
        exec .revokeAck s = .next counted.driveEventN) ∧
      (x.phase ≠ .awaitComplete → s.replyIntake = .complete n l :: rest →
        exec .complete s = .next counted.driveEventN) ∧
      (∀ r, (∀ m, x.outstanding ≠ .forward m) → s.replyIntake = .forwardDone n l r :: rest →
        exec .forwardDone s = .next violation.driveEventN) ∧
      (∀ r, x.outstanding ≠ .recall → s.replyIntake = .recallDone n l r :: rest →
        exec .recallDone s = .next violation.driveEventN))

/-- A FETCH_SENT or FETCH_FAILED that finds no FETCH_SENT wait on the active transaction of its line, or no active transaction,
is discarded: not counted, no event raised, nothing else changed (R83). -/
def Obligations.UnawaitedFetchRepliesDiscarded : Prop :=
  ∀ (s : State) (l : Line) (rest : List ReplyMsg), s.Ready →
    (∀ t x, s.activeOn l = some t → s.getSlot t = some x → x.memWait ≠ .fetchSent) →
    (s.replyIntake = .fetchSent l :: rest →
      exec .fetchSent s = .next (State.driveEventN { s with replyIntake := rest })) ∧
    (s.replyIntake = .fetchFailed l :: rest →
      exec .fetchFailed s = .next (State.driveEventN { s with replyIntake := rest }))

/-- REVOKE_ACK from an awaited sharer (R49): the sender leaves the awaited set and the copy's sharers, and while another node or
a memory wait is outstanding nothing else happens; the last one sends the GRANT of an UPGRADE (R50, R60, R16). -/
def Obligations.RevokeAckRemovesASharer : Prop :=
  ∀ (s : State) (n : Node) (l : Line) (rest : List ReplyMsg) (t : SlotIx) (x : Slot) (w : WayIx) (m : NodeSet),
    s.Quiet → s.replyIntake = .revokeAck n l :: rest → s.activeOn l = some t → s.getSlot t = some x → x.line = some l →
    NodeSet.has x.awaited n = true → x.outstanding = .revoke → x.working = some ⟨w, .shared m⟩ →
    NodeSet.remove m n ≠ 0#8 →
    let y := { x with awaited := NodeSet.remove x.awaited n, working := some ⟨w, .shared (NodeSet.remove m n)⟩ }
    let r : State := { s with replyIntake := rest }
    (y.awaited ≠ 0#8 ∨ x.memWait ≠ .noWait →
      exec .revokeAck s = .next (State.driveEventN (r.putSlot t (some y)))) ∧
    (∀ q, y.awaited = 0#8 → x.memWait = .noWait → x.pending = none → x.requester = some q → s.isDirect x = false →
      x.kind = .upgrade → x.converted = false → s.answerQ.length < 64 →
      exec .revokeAck s = .next (State.driveEventN
        { (r.putSlot t (some (y.granted s q .owned .noSource false))).putSet (setOf l)
            { s.getSet (setOf l) with order := w :: (s.getSet (setOf l)).order.erase w } with
          answerQ := s.answerQ ++ [.grant q l .owned .noSource false false] }))

/-- FORWARD_DONE from the awaited owner (R49, R54, R58, R77): CLEAN, and DIRTY under MOVE, let the GRANT go with the owner as its
source; DIRTY under SHARE waits for the store; NOT_HELD, with no notice and no DROP of the owner's present, watches for it. -/
def Obligations.ForwardDoneDecides : Prop :=
  ∀ (s : State) (n q : Node) (l : Line) (res : Result) (rest : List ReplyMsg) (t : SlotIx) (x : Slot) (w : WayIx)
      (mode : Mode),
    s.Quiet → s.replyIntake = .forwardDone n l res :: rest → s.activeOn l = some t → s.getSlot t = some x →
    x.line = some l → x.awaited = NodeSet.single n → x.outstanding = .forward mode → x.working = some ⟨w, .owned n⟩ →
    x.memWait = .noWait → x.pending = none → x.requester = some q → s.isDirect x = false →
    x.kind = .readShared ∨ x.kind = .readOwn ∨ x.kind = .upgrade →
    let r : State := { s with replyIntake := rest }
    let p : Permission := if x.kind = .readShared then .shared else .owned
    let waits (m : MemWait) : State := r.putSlot t (some { x with
      phase := .awaitStore, awaited := 0#8, memWait := m, outstanding := .nothing
      timer := some s.limits.orderTimeout.toNat })
    (res = .clean ∨ (res = .dirty ∧ mode = .move) → s.answerQ.length < 64 →
      exec .forwardDone s = .next (State.driveEventN
        { (r.putSlot t (some (x.granted s q p (.node n) false))).putSet (setOf l)
            { s.getSet (setOf l) with order := w :: (s.getSet (setOf l)).order.erase w } with
          answerQ := s.answerQ ++ [.grant q l p (.node n) false false] })) ∧
    (res = .dirty → mode = .share → (∀ v, s.noticeFor l n = some v → v.claimed = true) →
      exec .forwardDone s = .next (State.driveEventN (waits (.consuming n)))) ∧
    (res = .notHeld → s.noticeFor l n = none → s.requestPresent .drop n l = false →
      exec .forwardDone s = .next (State.driveEventN (waits (.observing n))))

/-- RECALL_DONE from the owner an internal recall awaits (R49, R77, R90): DIRTY waits for the store, NOT_HELD with no notice and
no DROP of the owner's present watches for it. CLEAN, and DIRTY with an unclaimed notice, which is taken, free the way; the
recall closes, its job's and its window's counts fall by one (R105, R107, R163, R166), here where no job ends by it. The way
of a VICTIM_RECALL whose waiter still waits is RESERVED for the waiter's line, at the back of the order, and the waiter's
FETCH goes out (R91, R92). -/
def Obligations.RecallDoneDecides : Prop :=
  ∀ (s : State) (n : Node) (l : Line) (res : Result) (rest : List ReplyMsg) (t : SlotIx) (x : Slot) (w : WayIx),
    s.Quiet → s.replyIntake = .recallDone n l res :: rest → s.activeOn l = some t → s.getSlot t = some x → x.line = some l →
    NodeSet.has x.awaited n = true → x.outstanding = .recall → x.phase = .awaitReplies → x.kind.recall = true →
    x.requester = none → x.pending = none → x.rebuild = none → x.working = some ⟨w, .owned n⟩ →
    (s.getWay (setOf l) w).body.check = .good →
    let r : State := { s with replyIntake := rest }
    let waits (m : MemWait) : State := r.putSlot t (some { x with
      phase := .awaitStore, awaited := 0#8, memWait := m, outstanding := .nothing
      timer := some s.limits.orderTimeout.toNat })
    let back := (s.getSet (setOf l)).order.erase w ++ [w]
    (res = .dirty → (∀ v, s.noticeFor l n = some v → v.claimed = true) →
      exec .recallDone s = .next (State.driveEventN (waits (.consuming n)))) ∧
    (res = .notHeld → s.noticeFor l n = none → s.requestPresent .drop n l = false →
      exec .recallDone s = .next (State.driveEventN (waits (.observing n)))) ∧
    (∀ (v : WinIx) (q : State), x.window = some v → s.onLine l = [t] → x.rank = some 0 → s.jobsGoOn x →
      (res = .clean ∧ q = r) ∨ (res = .dirty ∧ s.noticeFor l n ≠ none ∧ (∀ v, s.noticeFor l n = some v → v.claimed = false) ∧
        q = { r with notices := s.notices.filter (fun m => !decide (m.line = l ∧ m.node = n)) }) →
      (x.victimLink = none → exec .recallDone s = .next (State.driveEventN
        ((q.recallClosed t x v).putSet (setOf l) { s.getSet (setOf l) with
          ways := (s.getSet (setOf l)).ways.set w.val freeWay w.isLt, order := back }))) ∧
      (∀ (u : SlotIx) (y : Slot) (k : Line) (o : Node), x.kind = .victimRecall → x.victimLink = some u → u ≠ t →
        s.getSlot u = some y → y.phase = .awaitVictim → y.line = some k → setOf k = setOf l → y.requester = some o →
        (∀ i, y.window = some i → (s.getWindow i).state ≠ .retiring) → y.pending = none → y.rebuild = none →
        s.mem = .live → s.orderQ.length < 64 → s.directoryOk →
        exec .recallDone s = .next (State.driveEventN
          { ((q.recallClosed t x v).putSet (setOf l) { s.getSet (setOf l) with
              ways := (s.getSet (setOf l)).ways.set w.val
                ⟨coded (some (keyOf k)), coded ⟨.reserved, some u, false⟩⟩ w.isLt
              order := back }).putSlot u (some { y with
                phase := .awaitReplies
                awaited := 0#8
                memWait := .fetchSent
                outstanding := .nothing
                working := some ⟨w, .reserved⟩
                victimLink := none
                timer := some s.limits.orderTimeout.toNat
                retriesLeft := s.limits.retryLimit.toNat }) with
            orderQ := s.orderQ ++ [.fetch k o false] })))

/-- SURRENDER_DONE from a node a set rebuild awaits: its stores due are its dirty count less the stores already taken (R155); with
every answer in and stores due the rebuild collects them with a full timer and full retries; with none due it ends, the set
blank and a SET_REBUILD's slot free (R156, R157). A store that no transaction consumes, from a node awaited or with stores due, is
counted by the rebuild, and the last one due ends it (R155, R156). The expiry in SURRENDERING with retries left sends the
SURRENDERs again (R131), in the model's order (log 38).
COLLECTING_EXPIRY uses a retry and counts the memory agent's TIMEOUTS; with none left the agent is FAILED and the rebuild ends
(R137, R156). Both expiries act at every time left, the model's choice (log 3). The ends are stated of a SET_REBUILD, which holds
no way, with nothing else of the set or of the walks waiting. -/
def Obligations.SetRebuildCollects : Prop :=
  ∀ (s : State) (t : SlotIx) (x : Slot) (p : Bool) (g : Resume) (v : Vector Tally 8), s.Ready → s.getSlot t = some x →
    let owes (q : Node) : Prop := ∃ d, v[q].due = some d ∧ 0 < d
    let mayEnd (i : SetIx) : Prop := x.kind = .setRebuild ∧ x.set = some i ∧ x.line = none ∧ x.window = none ∧
      x.requester = none ∧ x.working = none ∧ x.victimLink = none ∧ x.counted = false ∧ s.directoryOk ∧ s.parkedHeads i = [] ∧
      s.dueSets = [] ∧ s.purgeStep = none ∧ s.maintStep = none ∧ (∀ j, s.maint = some j → j.run ≠ .finishing) ∧
      (∀ q j, s.getJob q = some j → j.setsLeft ≠ 0)
    (∀ (n : Node) (i : SetIx) (d : Nat) (rest : List ReplyMsg), s.replyIntake = .surrenderDone n i d :: rest →
      s.surrenderTaker n i = some t → x.rebuild = some (.set .surrendering p g v) → NodeSet.has x.awaited n = true →
      let tallies := v.set n.val ⟨some (d - v[n].taken), v[n].taken⟩ n.isLt
      let r : State := { s with replyIntake := rest }
      (NodeSet.remove x.awaited n ≠ 0#8 → exec .surrenderDone s = .next (State.driveEventN (r.putSlot t (some
        { x with awaited := NodeSet.remove x.awaited n, rebuild := some (.set .surrendering p g tallies) })))) ∧
      (NodeSet.remove x.awaited n = 0#8 → 0 < d - v[n].taken → s.orderHeld = [] → s.answerHeld = [] → x.pending = none →
        exec .surrenderDone s = .next (State.driveEventN (r.putSlot t (some
          { x with
            awaited := 0#8
            rebuild := some (.set .collecting p g tallies)
            timer := some s.limits.orderTimeout.toNat
            retriesLeft := s.limits.retryLimit.toNat })))) ∧
      (NodeSet.remove x.awaited n = 0#8 → d ≤ v[n].taken → (∀ q, q ≠ n → ¬owes q) → mayEnd i → s.orderHeld = [] →
        s.answerHeld = [] → exec .surrenderDone s = .next (State.driveEventN ((r.putSlot t none).putSet i blankSet)))) ∧
    (∀ (n : Node) (l : Line) (rest : List ReplyMsg) (z : Stage), s.replyIntake = .absorbDone l n :: rest →
      (∀ u y, s.activeOn l = some u → s.getSlot u = some y → y.memWait ≠ .consuming n) → s.storeTaker l n = some t →
      x.rebuild = some (.set z true g v) →
      let tallies := v.set n.val ⟨v[n].due.map (fun d => d - 1), v[n].taken + 1⟩ n.isLt
      let r : State := { s with replyIntake := rest }
      let owing : Prop := ∃ (q : Node) (d : Nat), tallies[q].due = some d ∧ 0 < d
      (x.awaited ≠ 0#8 ∨ (z = .collecting ∧ owing) → exec .absorbDone s = .next (State.driveEventN (r.putSlot t (some
        { x with rebuild := some (.set z true g tallies) })))) ∧
      (x.awaited = 0#8 → ¬owing → mayEnd (setOf l) → s.orderHeld = [] → s.answerHeld = [] →
        exec .absorbDone s = .next (State.driveEventN ((r.putSlot t none).putSet (setOf l) blankSet)))) ∧
    (∀ (k : Nat) (i : SetIx), s.link = .up → x.timer = some k →
      (x.rebuild = some (.set .surrendering p g v) → x.outstanding = .surrender → x.memWait = .counted → x.set = some i →
        x.line = none → 0 < x.retriesLeft → s.orderHeld = [] → s.answerHeld = [] →
        s.orderQ.length + (NodeSet.toList x.awaited).length ≤ 64 →
        ∃ r, exec (.orderTimerExpiry t.val) s = .next r ∧
          (∀ q, r.getNode q = if NodeSet.has x.awaited q then
            { s.getNode q with timeouts := satInc (s.getNode q).timeouts } else s.getNode q) ∧
          r = State.driveEventN { s.putSlot t (some { x with
              retriesLeft := x.retriesLeft - 1, timer := some s.limits.orderTimeout.toNat, pending := none
              rebuild := some (.set .surrendering true g v) }) with
            nodes := r.nodes
            orderQ := s.orderQ ++ (NodeSet.toList x.awaited).map (fun q => .surrender q i true) }) ∧
      (x.rebuild = some (.set .collecting p g v) → 0 < x.retriesLeft →
        exec (.collectingExpiry t.val) s = .next (State.driveEventN
          { s.putSlot t (some { x with
              retriesLeft := x.retriesLeft - 1, timer := some s.limits.orderTimeout.toNat }) with
            memTimeouts := satInc s.memTimeouts })) ∧
      (x.rebuild = some (.set .collecting p g v) → x.retriesLeft = 0 → mayEnd i → s.mem = .live →
        (∀ u y, s.getSlot u = some y → y.memWait ≠ .fetchSent) → s.orderHeld = [] → s.answerHeld = [] →
        exec (.collectingExpiry t.val) s = .next (State.driveEventN
          { (s.putSlot t none).putSet i blankSet with
            memTimeouts := satInc s.memTimeouts
            mem := .failed
            flags := s.flags ||| 0x0020#16
            capture := captured s.capture .memoryFailed ⟨none, some .memory, none, none, some t⟩ })))

/-- COMPLETE closes the transaction that awaits it for its GRANT (R39, R51): the way takes the copy's content unheld, the slot is
free, the credit and the count fall by one; here with no other transaction on the line. -/
def Obligations.CompleteCloses : Prop :=
  ∀ (s : State) (n : Node) (l : Line) (rest : List ReplyMsg) (t : SlotIx) (x : Slot) (v : WinIx),
    s.Quiet → s.replyIntake = .complete n l :: rest → s.activeOn l = some t → s.Sole t x l v → x.phase = .awaitComplete →
    NodeSet.has x.awaited n = true → x.requester = some n →
    x.kind = .readShared ∨ x.kind = .readOwn ∨ x.kind = .upgrade →
    let r : State := ({ s with replyIntake := rest } : State).closed t (some n) v
    (∀ w c, x.working = some ⟨w, c⟩ → s.keepsContent c → c ≠ .poisoned →
      (s.getWay (setOf l) w).body.check = .good →
      exec .complete s = .next (State.driveEventN (r.putWay (setOf l) w
        { s.getWay (setOf l) w with body := coded ⟨c, none, false⟩ }))) ∧
    (x.working = none → exec .complete s = .next (State.driveEventN r))

/-- The memory agent's answers to a FETCH. FETCH_SENT clears the wait (R47); with no reply outstanding the GRANT goes from MEMORY,
and moves the way to the front (R50, R16); in a DIRECT window it has the untracked flag, and no way is written (R67). FETCH_FAILED
refuses the requester MEMORY_FAULT whatever else is outstanding: a RESERVED way becomes FREE, a SHARED copy is written back with
the sharers it names then, unheld, and a DIRECT request holds nothing (R69); here with no other transaction on the line. -/
def Obligations.FetchRepliesDecide : Prop :=
  ∀ (s : State) (n : Node) (l : Line) (rest : List ReplyMsg) (t : SlotIx) (x : Slot) (v : WinIx),
    s.Quiet → s.activeOn l = some t → s.Sole t x l v → x.memWait = .fetchSent → x.requester = some n →
    let r : State := { s with replyIntake := rest }
    let p : Permission := if x.kind = .readShared then .shared else .owned
    let refusal : Answer := .refuse n l (.request x.kind.toReqKind) .memoryFault
    (∀ (w : WayIx) (c : Content), s.isDirect x = false → x.working = some ⟨w, c⟩ →
      x.kind = .readShared ∨ x.kind = .readOwn ∨ (x.kind = .upgrade ∧ x.converted = true) →
      (s.replyIntake = .fetchSent l :: rest →
        (x.awaited ≠ 0#8 →
          exec .fetchSent s = .next (State.driveEventN (r.putSlot t (some { x with memWait := .noWait })))) ∧
        (x.awaited = 0#8 → (∀ o, c ≠ .owned o) → s.answerQ.length < 64 → exec .fetchSent s = .next (State.driveEventN
          { (r.putSlot t (some (x.granted s n p .memory false))).putSet (setOf l)
              { s.getSet (setOf l) with order := w :: (s.getSet (setOf l)).order.erase w } with
            answerQ := s.answerQ ++ [.grant n l p .memory false false] }))) ∧
      (s.replyIntake = .fetchFailed l :: rest → (s.getWay (setOf l) w).body.check = .good → s.nodeState n ≠ .purging →
        s.answerQ.length < 64 →
        (c = .reserved → exec .fetchFailed s = .next (State.driveEventN
          { (r.closed t (some n) v).putSet (setOf l) { s.getSet (setOf l) with
              ways := (s.getSet (setOf l)).ways.set w.val freeWay w.isLt
              order := (s.getSet (setOf l)).order.erase w ++ [w] } with
            answerQ := s.answerQ ++ [refusal] })) ∧
        (∀ m, c = .shared m → s.keepsContent c → exec .fetchFailed s = .next (State.driveEventN
          { (r.closed t (some n) v).putWay (setOf l) w
              { s.getWay (setOf l) w with body := coded ⟨.shared m, none, false⟩ } with
            answerQ := s.answerQ ++ [refusal] })))) ∧
    (s.isDirect x = true → x.working = none → x.kind = .readShared ∨ x.kind = .readOwn → s.answerQ.length < 64 →
      (s.replyIntake = .fetchSent l :: rest → x.awaited = 0#8 → exec .fetchSent s = .next (State.driveEventN
        { r.putSlot t (some (x.granted s n p .memory true)) with
          answerQ := s.answerQ ++ [.grant n l p .memory true false] })) ∧
      (s.replyIntake = .fetchFailed l :: rest → s.nodeState n ≠ .purging → exec .fetchFailed s = .next (State.driveEventN
        { r.closed t (some n) v with answerQ := s.answerQ ++ [refusal] })))

/-- ABSORB_DONE. The store a transaction awaits is consumed as it arrives (R71): a WRITEBACK's way becomes FREE, at the back of the
order, and WB_DONE ends it (R63, R68); a READ_SHARED's GRANT goes, with the owner as its source (R54); a recall ends with its way
freed, handed over where a waiter still waits (R90, R91). A store no transaction consumes is offered to the Store Notice Table
(R72): a duplicate is a violation by the memory agent, a full table drops it, else it is inserted, claimed where its WRITEBACK is
present; it meets an observing wait (R78): the way becomes FREE, a recall ends so, and a read request reserves it again and sends
its FETCH, or is refused without a LIVE memory agent. Here with no other transaction on a line that closes, and no job ended.
NOTICE_AGE_EXPIRY removes an unclaimed notice while the link is UP and counts it; a claimed one does not expire (R76). That the
expiry acts at every age, and changes nothing where no such notice is, are the model's choices (logs 3 and 1). -/
def Obligations.StoresAndNotices : Prop :=
  ∀ (s : State) (l : Line) (n : Node),
    (∀ rest, s.Quiet → s.replyIntake = .absorbDone l n :: rest →
      let r : State := { s with replyIntake := rest }
      let offered (q : State) : Prop :=
        (s.noticeFor l n ≠ none ∧ q = { r with
          flags := s.flags ||| 0x0200#16
          capture := captured s.capture .violation ⟨some l, some .memory, none, none, none⟩ }) ∨
        (s.noticeFor l n = none ∧ 16 ≤ s.notices.length ∧ q = { r with
          flags := s.flags ||| 0x0400#16
          counters := { s.counters with noticesDropped := satInc s.counters.noticesDropped } }) ∨
        (s.noticeFor l n = none ∧ s.notices.length < 16 ∧ q = { r with
          notices := s.notices ++ [⟨l, n, s.requestPresent .writeback n l, s.limits.noticeLifetime.toNat⟩] })
      (∀ q, (∀ t x, s.activeOn l = some t → s.getSlot t = some x → x.memWait ≠ .consuming n ∧ x.memWait ≠ .observing n) →
        offered q → exec .absorbDone s = .next (State.driveEventN q)) ∧
      (∀ (t : SlotIx) (x : Slot) (v : WinIx), s.activeOn l = some t → s.Sole t x l v → s.isDirect x = true →
        x.kind = .writeback → x.memWait = .consuming n → x.requester = some n → x.working = none → s.noticeFor l n = none →
        s.answerQ.length < 64 → exec .absorbDone s = .next (State.driveEventN
          { r.closed t (some n) v with answerQ := s.answerQ ++ [.wbDone n l false] })) ∧
      (∀ (t : SlotIx) (x : Slot) (w : WayIx), s.activeOn l = some t → s.getSlot t = some x → x.line = some l →
        x.pending = none → x.rebuild = none → x.working = some ⟨w, .owned n⟩ → (s.getWay (setOf l) w).body.check = .good →
        let back : List WayIx := (s.getSet (setOf l)).order.erase w ++ [w]
        let freed : SetRec := { s.getSet (setOf l) with
          ways := (s.getSet (setOf l)).ways.set w.val freeWay w.isLt, order := back }
        let reads : Prop := x.kind = .readShared ∨ x.kind = .readOwn ∨ x.kind = .upgrade
        (∀ v, s.Sole t x l v → x.kind = .writeback → x.memWait = .consuming n → x.requester = some n →
          s.noticeFor l n = none → s.answerQ.length < 64 → exec .absorbDone s = .next (State.driveEventN
            { (r.closed t (some n) v).putSet (setOf l) freed with answerQ := s.answerQ ++ [.wbDone n l false] })) ∧
        (∀ o, x.kind = .readShared → x.memWait = .consuming n → x.awaited = 0#8 → x.requester = some o →
          s.isDirect x = false → s.answerQ.length < 64 → exec .absorbDone s = .next (State.driveEventN
            { (r.putSlot t (some (x.granted s o .shared (.node n) false))).putSet (setOf l)
                { s.getSet (setOf l) with order := w :: (s.getSet (setOf l)).order.erase w } with
              answerQ := s.answerQ ++ [.grant o l .shared (.node n) false false] })) ∧
        (∀ (v : WinIx) (q : State), x.kind.recall = true → x.requester = none → x.window = some v → s.onLine l = [t] →
          x.rank = some 0 → s.jobsGoOn x → (x.memWait = .consuming n ∧ q = r) ∨ (x.memWait = .observing n ∧ offered q) →
          (x.victimLink = none →
            exec .absorbDone s = .next (State.driveEventN ((q.recallClosed t x v).putSet (setOf l) freed))) ∧
          (∀ (u : SlotIx) (y : Slot) (k : Line) (o : Node), x.kind = .victimRecall → x.victimLink = some u →
            s.waits t u y l k o → s.mem = .live → s.orderQ.length < 64 → s.directoryOk → exec .absorbDone s = .next (State.driveEventN
              ((q.recallClosed t x v).givenWay u y l k o w)))) ∧
        (∀ (q : State) (o : Node), x.memWait = .observing n → offered q → reads → x.requester = some o →
          (s.mem = .live → s.orderQ.length < 64 → s.directoryOk → exec .absorbDone s = .next (State.driveEventN
            { (q.putSlot t (some { x with
                phase := .awaitReplies
                awaited := 0#8
                memWait := .fetchSent
                outstanding := .nothing
                working := some ⟨w, .reserved⟩
                timer := some s.limits.orderTimeout.toNat
                retriesLeft := s.limits.retryLimit.toNat })).putSet (setOf l) { freed with
                  ways := freed.ways.set w.val
                    ⟨coded (some (keyOf l)), coded ⟨.reserved, some t, false⟩⟩ w.isLt } with
              orderQ := s.orderQ ++ [.fetch l o false] })) ∧
          (∀ v, s.mem ≠ .live → s.Sole t x l v → s.nodeState o ≠ .purging → s.answerQ.length < 64 →
            exec .absorbDone s = .next (State.driveEventN
              { (q.closed t (some o) v).putSet (setOf l) freed with
                answerQ := s.answerQ ++ [.refuse o l (.request x.kind.toReqKind) .memoryFault] }))))) ∧
    (s.Ready →
      (∀ v, s.noticeFor l n = some v → v.claimed = false → s.link = .up →
        exec (.noticeAgeExpiry l n) s = .next (State.driveEventN
          { s with
            notices := s.notices.filter (fun m => !decide (m.line = l ∧ m.node = n))
            counters := { s.counters with noticesDropped := satInc s.counters.noticesDropped } })) ∧
      (s.link ≠ .up ∨ (∀ v, s.noticeFor l n = some v → v.claimed = true) →
        exec (.noticeAgeExpiry l n) s = .next (State.driveEventN s)))

/-! ## Expiries -/

/-- The expiry of an order round or of a GRANT, at every time left, the model's choice (log 3). With retries left (R131, R135):
the TIMEOUTS of each node awaited, and of the memory agent where a FETCH is, count one; a retry is used; the orders still
outstanding, of a line rebuild too, or the GRANT go again with the repeat flag, and the timer starts again; without room they
are held and the timer stops (R40, R177). The order inside a round is the model's choice (log 38). With none left: the node is
lost and enters PURGING (R133 to R135), so that a granted OWNED line, a forwarded read's line and a recalled line become
POISONED (R119 to R121); a FETCH fails the memory agent and refuses its request (R137). Those are stated with no other slot in
use. -/
def Obligations.ExpiriesSendAgain : Prop :=
  ∀ (s : State) (t : SlotIx) (x : Slot) (l : Line) (k : Nat),
    s.Quiet → s.link = .up → s.getSlot t = some x → x.timer = some k → x.line = some l →
    let again (full : Bool) (p : Pending) : Slot := { x with
      retriesLeft := x.retriesLeft - 1
      timer := if full then none else some s.limits.orderTimeout.toNat
      pending := if full then some p else none }
    (∀ n : Node, 0 < x.retriesLeft →
      (x.rebuild = none ∧ x.phase = .awaitReplies) ∨ (∃ b, x.rebuild = some (.line b) ∧ x.awaited ≠ 0#8) →
      x.outstanding = .nothing ∨ x.outstanding = .revoke ∨ x.outstanding = .recall ∨ (∃ m, x.outstanding = .forward m) →
      ((∃ m, x.outstanding = .forward m) ∨ x.memWait = .fetchSent → x.requester = some n) →
      let orders : List Order := (NodeSet.toList x.awaited).flatMap (fun q => match x.outstanding with
          | .revoke => [.revoke q l true]
          | .recall => [.recall q l true]
          | .forward m => [.forward q l n m true]
          | _ => []) ++ (if x.memWait = .fetchSent then [.fetch l n true] else [])
      let full : Bool := decide (64 < s.orderQ.length + orders.length)
      ∃ r, exec (.orderTimerExpiry t.val) s = .next r ∧
        (∀ q, r.getNode q = if NodeSet.has x.awaited q then
          { s.getNode q with timeouts := satInc (s.getNode q).timeouts } else s.getNode q) ∧
        r = State.driveEventN { s.putSlot t (some (again full (.round orders false))) with
          nodes := r.nodes
          orderQ := if full then s.orderQ else s.orderQ ++ orders
          orderHeld := if full then [.slot t] else []
          memTimeouts := if x.memWait = .fetchSent then satInc s.memTimeouts else s.memTimeouts }) ∧
    (∀ n p src u, 0 < x.retriesLeft → x.rebuild = none → x.requester = some n → x.phase = .awaitComplete →
      x.outstanding = .grant p src u →
      let full : Bool := decide (64 ≤ s.answerQ.length)
      let grant : Answer := .grant n l p src u true
      exec (.grantTimerExpiry t.val) s = .next (State.driveEventN
        { (s.putSlot t (some (again full (.answer grant)))).modNode n (fun r => { r with timeouts := satInc r.timeouts }) with
          answerQ := if full then s.answerQ else s.answerQ ++ [grant]
          answerHeld := if full then [.slot t] else [] })) ∧
    (∀ (v : WinIx) (w : WayIx) (c : Content), x.retriesLeft = 0 → (∀ u, u ≠ t → s.getSlot u = none) →
      x.rank = some 0 → x.rebuild = none → x.window = some v → (s.getWindow v).state = .live → x.victimLink = none →
      x.pending = none → s.jobsGoOn x → x.working = some ⟨w, c⟩ →
      (∃ c', (s.getWay (setOf l) w).body = coded ⟨c', some t, false⟩) →
      let poisoned (r : State) (o : Node) : State :=
        { ((r.purged o .lost).modNode o (fun e => { e with timeouts := satInc e.timeouts })).putWay (setOf l) w
            { s.getWay (setOf l) w with body := coded ⟨.poisoned, none, false⟩ } with
          flags := s.flags ||| 0x0018#16
          capture := captured
            (captured s.capture .nodeLost ⟨some l, some (.node o), some (setOf l), some w, some t⟩)
            .linePoisoned ⟨some l, some (.node o), some (setOf l), some w, some t⟩ }
      let asks : Prop := x.kind = .readShared ∨ x.kind = .readOwn ∨ x.kind = .upgrade
      let present (o : Node) : Prop := (s.nodeState o = .live ∨ s.nodeState o = .leaving) ∧
        ∀ j, s.getJob o = some j → 0 < j.setsLeft
      (∀ n p src u, x.phase = .awaitComplete → x.requester = some n → x.awaited = NodeSet.single n → x.counted = false →
        asks → x.outstanding = .grant p src u → x.memWait = .noWait → c = .owned n → present n →
        exec (.grantTimerExpiry t.val) s = .next (State.driveEventN (poisoned (s.closed t (some n) v) n))) ∧
      (∀ n o m, x.phase = .awaitReplies → x.requester = some n → n ≠ o → x.awaited = NodeSet.single o →
        x.counted = false → x.kind = .readShared ∨ x.kind = .readOwn → x.outstanding = .forward m → x.memWait = .noWait →
        c = .owned o → present o → s.nodeState n ≠ .purging → s.answerQ.length < 64 →
        exec (.orderTimerExpiry t.val) s = .next (State.driveEventN
          { poisoned (s.closed t (some n) v) o with
            answerQ := s.answerQ ++ [.refuse n l (.request x.kind.toReqKind) .poisoned] })) ∧
      (∀ o, x.phase = .awaitReplies → x.requester = none → x.awaited = NodeSet.single o → x.kind.recall = true →
        x.kind ≠ .retireRecall → x.outstanding = .recall → x.memWait = .noWait → c = .owned o → present o →
        exec (.orderTimerExpiry t.val) s = .next (State.driveEventN (poisoned (s.recallClosed t x v) o))) ∧
      (∀ n, x.phase = .awaitReplies → x.requester = some n → x.awaited = 0#8 → x.counted = false → asks →
        x.memWait = .fetchSent → c = .reserved → s.mem = .live → s.nodeState n ≠ .purging → s.answerQ.length < 64 →
        exec (.orderTimerExpiry t.val) s = .next (State.driveEventN
          { (s.closed t (some n) v).putSet (setOf l) { s.getSet (setOf l) with
              ways := (s.getSet (setOf l)).ways.set w.val freeWay w.isLt
              order := (s.getSet (setOf l)).order.erase w ++ [w] } with
            mem := .failed
            memTimeouts := satInc s.memTimeouts
            flags := s.flags ||| 0x0020#16
            capture := captured s.capture .memoryFailed ⟨some l, some .memory, none, none, some t⟩
            answerQ := s.answerQ ++ [.refuse n l (.request x.kind.toReqKind) .memoryFault] })))

/-- The expiry of a store wait, at every time left, the model's choice (log 3); here with no other transaction on the line, and no
job ended. A consuming wait counts the memory agent's TIMEOUTS and makes the line POISONED (R138): a WRITEBACK is answered
WB_DONE, a READ_SHARED refused, a recall closes. An observing wait on an owner with no WRITEBACK present makes it POISONED and
charges the owner a violation (R79): a read request is refused, a recall closes. A RETIRE_RECALL's way becomes FREE instead
(R166). The waiter of a VICTIM_RECALL takes a FREE way of its set where there is one (R93), with no code corrected, the
model's choice (log 59). LINE_POISONED fills the capture record,
or counts as a further fault, as the violation after it does. A WRITEBACK in a DIRECT window is answered, and nothing is POISONED. -/
def Obligations.StoreExpiriesPoison : Prop :=
  ∀ (s : State) (t : SlotIx) (x : Slot) (l : Line) (k : Nat),
    s.Quiet → s.link = .up → s.getSlot t = some x → x.timer = some k → x.line = some l → x.phase = .awaitStore →
    (∀ (n : Node) (v : WinIx), s.Sole t x l v → x.kind = .writeback → x.requester = some n → x.working = none →
      x.memWait = .consuming n → s.noticeFor l n = none → s.answerQ.length < 64 →
      exec (.storeWaitExpiry t.val) s = .next (State.driveEventN { s.closed t (some n) v with
        memTimeouts := satInc s.memTimeouts
        answerQ := s.answerQ ++ [.wbDone n l false] })) ∧
    (∀ (o : Node) (w : WayIx), x.working = some ⟨w, .owned o⟩ →
      (s.getWay (setOf l) w).body = coded ⟨.owned o, some t, false⟩ →
      let poison (q : State) : State := q.putWay (setOf l) w
        { s.getWay (setOf l) w with body := coded ⟨.poisoned, none, false⟩ }
      let fields : FaultFields := ⟨some l, some (.node o), some (setOf l), some w, some t⟩
      let late (q : State) : State := { q with
        memTimeouts := satInc s.memTimeouts
        flags := s.flags ||| 0x0010#16
        capture := captured s.capture .linePoisoned fields }
      let charged (q : State) : State := { q.modNode o (fun r => { r with violations := satInc r.violations }) with
        flags := s.flags ||| 0x0210#16
        capture := captured (captured s.capture .linePoisoned fields) .violation
          ⟨some l, some (.node o), none, none, some t⟩ }
      (∀ (n : Node) (v : WinIx), s.Sole t x l v → x.requester = some n → s.nodeState n ≠ .purging → s.answerQ.length < 64 →
        let refused : State := { poison (s.closed t (some n) v) with
          answerQ := s.answerQ ++ [.refuse n l (.request x.kind.toReqKind) .poisoned] }
        (x.kind = .writeback → o = n → x.memWait = .consuming n → s.noticeFor l n = none →
          exec (.storeWaitExpiry t.val) s = .next (State.driveEventN
            { late (poison (s.closed t (some n) v)) with answerQ := s.answerQ ++ [.wbDone n l false] })) ∧
        (x.kind = .readShared → x.memWait = .consuming o →
          exec (.storeWaitExpiry t.val) s = .next (State.driveEventN (late refused))) ∧
        (x.kind = .readShared ∨ x.kind = .readOwn ∨ x.kind = .upgrade → x.memWait = .observing o →
          s.requestPresent .writeback o l = false →
          exec (.observingWaitExpiry t.val) s = .next (State.driveEventN (charged refused)))) ∧
      (∀ (v : WinIx) (c : Instr) (f : State → State), x.kind.recall = true → x.requester = none → x.window = some v →
        s.onLine l = [t] → x.rank = some 0 → x.pending = none → x.rebuild = none → s.jobsGoOn x →
        (x.memWait = .consuming o ∧ c = .storeWaitExpiry t.val ∧ f = late) ∨
          (x.memWait = .observing o ∧ s.requestPresent .writeback o l = false ∧ c = .observingWaitExpiry t.val ∧ f = charged) →
        (x.kind ≠ .retireRecall → x.victimLink = none →
          exec c s = .next (State.driveEventN (f (poison (s.recallClosed t x v))))) ∧
        (x.kind = .retireRecall → x.victimLink = none →
          exec c s = .next (State.driveEventN (f ((s.recallClosed t x v).putSet (setOf l) { s.getSet (setOf l) with
            ways := (s.getSet (setOf l)).ways.set w.val freeWay w.isLt
            order := (s.getSet (setOf l)).order.erase w ++ [w] })))) ∧
        (∀ (u : SlotIx) (y : Slot) (b : Line) (q : Node) (e : WayIx), x.kind = .victimRecall → x.victimLink = some u →
          s.waits t u y l b q → y.victimLink = some t → s.mem = .live → s.orderQ.length < 64 → s.directoryOk →
          (s.getSet (setOf l)).order.reverse.find? (fun z => (s.bodyView (setOf l) z).map Body.content == some .free) = some e →
          exec c s = .next (State.driveEventN { f ((poison (s.recallClosed t x v)).putSlot u (some (y.given s e))) with
            dir := ((poison s).putWay (setOf l) e ⟨coded (some (keyOf b)), coded ⟨.reserved, some u, false⟩⟩).dir
            orderQ := s.orderQ ++ [.fetch b q false] }))))

/-! ## Cursors -/

/-- A set step of the purge cursor on a set none of whose ways is held (R161). SILENT jobs (R162): every record that names a node
of a job loses it, a way left without a sharer is FREE, at the back of the order, one whose owner goes is POISONED, with
LINE_POISONED raised and the capture record filled or counted; the order of those edits within the set is the model's choice
(log 41). A MESSAGING job (R163): a LEAVE_RECALL is opened on the line that names its node, here the only one of the set, in a
window that is not DIRECT. Each job has a set less and the position moves on, wrapping. A job's last set ends the purge (R123,
R164), a LEAVE's here with no transaction awaiting the node. -/
def Obligations.PurgeSetStepEdits : Prop :=
  ∀ s : State, s.Quiet → s.directoryOk → s.soundSet s.purgePos → s.unheldSet s.purgePos →
    let content (w : WayIx) : Content := (s.getWay s.purgePos w).body.stored.content
    let next : SetIx := ⟨(s.purgePos.val + 1) % 2048, Nat.mod_lt _ (by decide)⟩
    (s.walkingNodes ≠ 0#8 →
      (∀ n j, s.getJob n = some j → j.mode = .silent ∧ j.setsLeft ≠ 1 ∧ s.nodeState n = .purging) →
      (∀ n, s.nodeState n = .purging → NodeSet.has s.walkingNodes n = true) →
      let edited (w : WayIx) : Content := editContent s.walkingNodes (content w)
      let poisons (w : WayIx) : Bool := edited w == .poisoned && content w != .poisoned
      ∃ t, exec .purgeSetStep s = .next t ∧
        (∀ w, t.getWay s.purgePos w = if edited w = content w then s.getWay s.purgePos w
          else if edited w = .free then freeWay
          else { s.getWay s.purgePos w with body := coded { (s.getWay s.purgePos w).body.stored with content := edited w } }) ∧
        (t.getSet s.purgePos).order = sunk (s.getSet s.purgePos).order (fun w => edited w == .free && content w != .free) ∧
        (t.getSet s.purgePos).frozen = (s.getSet s.purgePos).frozen ∧
        (∀ i, i ≠ s.purgePos → t.getSet i = s.getSet i) ∧
        (∀ n, t.getJob n = (s.getJob n).map (fun j => { j with setsLeft := j.setsLeft - 1 })) ∧
        t = State.driveEventN { s with
          dir := t.dir
          purgeJobs := t.purgeJobs
          purgePos := next
          flags := if allWays.any poisons then s.flags ||| 0x0010#16 else s.flags
          capture := allWays.foldl (fun r w => if poisons w then captured r .linePoisoned
            ⟨(s.getWay s.purgePos w).key.stored.map (fun k => lineOf k s.purgePos), (content w).owner?.map Peer.node,
              some s.purgePos, some w, none⟩ else r) s.capture }) ∧
    (∀ (n : Node) (j : PurgeJob), s.getJob n = some j → (∀ q, q ≠ n → s.getJob q = none) →
      (∀ (l : Line) (w : WayIx) (c : Content) (v : WinIx) (u : SlotIx), j.mode = .messaging → 0 < j.setsLeft →
        s.nodeState n = .leaving → setOf l = s.purgePos → s.trackedAs l w c → s.keepsContent c →
        c = .owned n ∨ (∃ m, c = .shared m ∧ NodeSet.has m n = true) →
        (∀ y, y ≠ w → editContent (NodeSet.single n) (content y) = content y) → s.onLine l = [] → s.windowOf l = some v →
        (s.getWindow v).kind ≠ .direct → 3 ≤ s.freeSlots → s.lowestFree = some u → s.orderQ.length < 64 →
        exec .purgeSetStep s = .next (State.driveEventN
          { s.recallOpened u { newSlot .leaveRecall with target := some n, counted := true } l v w c (NodeSet.single n) with
            purgeJobs := s.purgeJobs.set n.val
              (some { j with setsLeft := j.setsLeft - 1, openRecalls := j.openRecalls + 1 }) n.isLt
            purgePos := next })) ∧
      (j.setsLeft = 1 → (∀ y, editContent (NodeSet.single n) (content y) = content y) →
        (∀ u x, s.getSlot u = some x → x.kind ≠ .leaveRecall) → s.answerQ.length < 64 →
        let r : State := { s with purgeJobs := s.purgeJobs.set n.val none n.isLt, purgePos := next }
        (j.mode = .messaging → j.openRecalls = 0 → s.nodeState n = .leaving →
          (∀ u x, s.getSlot u = some x → NodeSet.has x.awaited n = false) →
          exec .purgeSetStep s = .next (State.driveEventN
            { r.modNode n (fun e => { e with state := .absent, reason := none }) with
              answerQ := s.answerQ ++ [.farewell n], flags := s.flags ||| 0x0002#16 })) ∧
        (j.mode = .silent → s.nodeState n = .purging →
          ((s.getNode n).reason = some .restart → exec .purgeSetStep s = .next (State.driveEventN
            { r.modNode n (fun e => { e with state := .live, reason := none, credits := 0 }) with
              answerQ := s.answerQ ++ [.welcome (.node n)], flags := s.flags ||| 0x0004#16 })) ∧
          ((s.getNode n).reason = some .lost ∨ (s.getNode n).reason = some .evicted →
            exec .purgeSetStep s = .next (State.driveEventN
              (r.modNode n (fun e => { e with state := .lost })))))))

/-- Set steps of the maintenance cursor on a set none of whose ways is held (R165 to R168). RETIRE frees the POISONED ways of its
window, each to the back of the order, those of one event in the model's order (log 41); FLUSH leaves POISONED ways. A
SHARED or OWNED way, here the only one of its set and in a window that is not DIRECT, gets a RETIRE_RECALL or FLUSH_RECALL, which the job counts and which
withdraws the line from every node named (R166, R167), in the model's order (log 38). Both move on to the next set, and a PAUSING
job is PAUSED. After set 2047 a RETIRE job ends, its window DRAINING or CLOSED (R107), and a FLUSH job ends once it has nothing open. The SCRUB writes
every CORRECTABLE code right (R144), moves on, wrapping, and starts its interval again; its SCRUB_INTERVAL_EXPIRY acts at every
time left, the model's choice (log 3). -/
def Obligations.MaintenanceSetSteps : Prop :=
  ∀ (s : State) (j : MaintJob), s.Quiet → s.directoryOk → s.maint = some j →
    (∀ i : SetIx, j.kind ≠ .scrub → j.run = .running ∨ j.run = .pausing → j.nextSet = i.val → s.soundSet i → s.unheldSet i →
      let content (w : WayIx) : Content := (s.getWay i w).body.stored.content
      let freed (v : WinIx) (w : WayIx) : Bool := content w == .poisoned && (match (s.getWay i w).key.stored with
        | some q => (s.getWindow v).spans (lineOf q i)
        | none => false)
      let moved : MaintJob := { j with
        nextSet := j.nextSet + 1, owed := false, run := if j.run = .pausing then .paused else .running }
      let uncounted (t : State) : Prop := ∀ u, t.getSlot u = (s.getSlot u).map (fun x =>
        if x.kind = .leaveRecall then x else { x with counted := false })
      ((∀ w m o, content w ≠ .shared m ∧ content w ≠ .owned o) →
        (∀ v, j.kind = .retire → j.window = some v → ∃ t, exec .retireSetStep s = .next t ∧
          (∀ w, t.getWay i w = if freed v w then freeWay else s.getWay i w) ∧
          (t.getSet i).order = sunk (s.getSet i).order (freed v) ∧ (t.getSet i).frozen = (s.getSet i).frozen ∧
          (∀ u, u ≠ i → t.getSet u = s.getSet u) ∧
          (j.nextSet < 2047 → t = State.driveEventN { s with dir := t.dir, maint := some moved }) ∧
          (j.nextSet = 2047 → uncounted t ∧ t = State.driveEventN
            { s.modWindow v (fun r => if r.openCount = 0 then { r with state := .closed, progress := none }
                else { r with progress := some .draining }) with
              dir := t.dir, slots := t.slots, maint := s.nextMaint, flags := s.flags ||| 0x0800#16 })) ∧
        (j.kind = .flush →
          (j.nextSet < 2047 → exec .flushSetStep s = .next (State.driveEventN { s with maint := some moved })) ∧
          (j.nextSet = 2047 → 0 < j.openCount → exec .flushSetStep s = .next (State.driveEventN
            { s with maint := some { moved with run := .finishing, walked := true } })) ∧
          (j.nextSet = 2047 → j.openCount = 0 → ∃ t, exec .flushSetStep s = .next t ∧ uncounted t ∧
            t = State.driveEventN
              { s with slots := t.slots, maint := s.nextMaint, flags := s.flags ||| 0x0800#16 }))) ∧
      (∀ (l : Line) (w : WayIx) (c : Content) (v : WinIx) (u : SlotIx) (m : NodeSet), setOf l = i → s.trackedAs l w c →
        s.keepsContent c → m ≠ 0#8 → c = .shared m ∨ (∃ o, c = .owned o ∧ m = NodeSet.single o) →
        (∀ y, y ≠ w → ∀ k o, content y ≠ .shared k ∧ content y ≠ .owned o ∧ (j.kind = .retire → content y ≠ .poisoned)) →
        s.onLine l = [] → s.windowOf l = some v → (s.getWindow v).kind ≠ .direct → (j.kind = .retire → j.window = some v) →
        3 ≤ s.freeSlots → s.lowestFree = some u → s.orderQ.length + (NodeSet.toList m).length ≤ 64 → j.nextSet < 2047 →
        let step : Instr := if j.kind = .retire then .retireSetStep else .flushSetStep
        let kind : Kind := if j.kind = .retire then .retireRecall else .flushRecall
        exec step s = .next (State.driveEventN
          { s.recallOpened u { newSlot kind with counted := true } l v w c m with
            maint := some { moved with openCount := j.openCount + 1 } }))) ∧
    (∀ k, j.kind = .scrub → j.interval = some k → s.unheldSet s.scrubPos →
      (∀ w, (s.getWay s.scrubPos w).key.check ≠ .uncorrectable ∧ (s.getWay s.scrubPos w).body.check ≠ .uncorrectable) →
      ∃ t, exec .scrubIntervalExpiry s = .next t ∧
        (∀ w, some (t.getWay s.scrubPos w).body.stored = (s.getWay s.scrubPos w).body.view ∧
          some (t.getWay s.scrubPos w).key.stored = (s.getWay s.scrubPos w).key.view) ∧
        t.soundSet s.scrubPos ∧ (t.getSet s.scrubPos).order = (s.getSet s.scrubPos).order ∧
        (t.getSet s.scrubPos).frozen = (s.getSet s.scrubPos).frozen ∧
        (∀ u, u ≠ s.scrubPos → t.getSet u = s.getSet u) ∧
        t.counters = { s.counters with corrected := t.counters.corrected } ∧
        t.counters.corrected.toNat = min 65535 (s.counters.corrected.toNat +
          allWays.countP (fun w => (s.getWay s.scrubPos w).body.check != .good) +
          allWays.countP (fun w => (s.getWay s.scrubPos w).key.check != .good)) ∧
        t.flags = (if s.counters.corrected.toNat < s.limits.correctedLimit.toNat ∧
            s.limits.correctedLimit.toNat ≤ t.counters.corrected.toNat then s.flags ||| 0x0040#16 else s.flags) ∧
        t.scrubPos.val = (s.scrubPos.val + 1) % 2048 ∧
        t.maint = some { j with nextSet := t.scrubPos.val, interval := some s.limits.scrubInterval.toNat } ∧
        t = State.driveEventN { s with
          dir := t.dir, counters := t.counters, flags := t.flags, scrubPos := t.scrubPos, maint := t.maint })
end

