-- ==== Sys2Proof/Laws/State.lean ====
section
/-! SUPPORT. What each named update of the state leaves alone, field by field, and what it writes. -/

namespace Sys2Proof.Machine

/-! ## putSet -/

@[simp] theorem putSet_slots (s : State) (i : SetIx) (r : SetRec) : (s.putSet i r).slots = s.slots := rfl
@[simp] theorem putSet_notices (s : State) (i : SetIx) (r : SetRec) : (s.putSet i r).notices = s.notices := rfl
@[simp] theorem putSet_nodes (s : State) (i : SetIx) (r : SetRec) : (s.putSet i r).nodes = s.nodes := rfl
@[simp] theorem putSet_mem (s : State) (i : SetIx) (r : SetRec) : (s.putSet i r).mem = s.mem := rfl
@[simp] theorem putSet_memTimeouts (s : State) (i : SetIx) (r : SetRec) : (s.putSet i r).memTimeouts = s.memTimeouts := rfl
@[simp] theorem putSet_ntHeld (s : State) (i : SetIx) (r : SetRec) : (s.putSet i r).ntHeld = s.ntHeld := rfl
@[simp] theorem putSet_windows (s : State) (i : SetIx) (r : SetRec) : (s.putSet i r).windows = s.windows := rfl
@[simp] theorem putSet_purgePos (s : State) (i : SetIx) (r : SetRec) : (s.putSet i r).purgePos = s.purgePos := rfl
@[simp] theorem putSet_purgeJobs (s : State) (i : SetIx) (r : SetRec) : (s.putSet i r).purgeJobs = s.purgeJobs := rfl
@[simp] theorem putSet_purgeStep (s : State) (i : SetIx) (r : SetRec) : (s.putSet i r).purgeStep = s.purgeStep := rfl
@[simp] theorem putSet_maint (s : State) (i : SetIx) (r : SetRec) : (s.putSet i r).maint = s.maint := rfl
@[simp] theorem putSet_maintStep (s : State) (i : SetIx) (r : SetRec) : (s.putSet i r).maintStep = s.maintStep := rfl
@[simp] theorem putSet_scrubPos (s : State) (i : SetIx) (r : SetRec) : (s.putSet i r).scrubPos = s.scrubPos := rfl
@[simp] theorem putSet_riHeld (s : State) (i : SetIx) (r : SetRec) : (s.putSet i r).riHeld = s.riHeld := rfl
@[simp] theorem putSet_link (s : State) (i : SetIx) (r : SetRec) : (s.putSet i r).link = s.link := rfl
@[simp] theorem putSet_curSetting (s : State) (i : SetIx) (r : SetRec) : (s.putSet i r).curSetting = s.curSetting := rfl
@[simp] theorem putSet_nextSetting (s : State) (i : SetIx) (r : SetRec) : (s.putSet i r).nextSetting = s.nextSetting := rfl
@[simp] theorem putSet_reqIntake (s : State) (i : SetIx) (r : SetRec) : (s.putSet i r).reqIntake = s.reqIntake := rfl
@[simp] theorem putSet_replyIntake (s : State) (i : SetIx) (r : SetRec) : (s.putSet i r).replyIntake = s.replyIntake := rfl
@[simp] theorem putSet_orderQ (s : State) (i : SetIx) (r : SetRec) : (s.putSet i r).orderQ = s.orderQ := rfl
@[simp] theorem putSet_answerQ (s : State) (i : SetIx) (r : SetRec) : (s.putSet i r).answerQ = s.answerQ := rfl
@[simp] theorem putSet_orderHeld (s : State) (i : SetIx) (r : SetRec) : (s.putSet i r).orderHeld = s.orderHeld := rfl
@[simp] theorem putSet_answerHeld (s : State) (i : SetIx) (r : SetRec) : (s.putSet i r).answerHeld = s.answerHeld := rfl
@[simp] theorem putSet_txFrame (s : State) (i : SetIx) (r : SetRec) : (s.putSet i r).txFrame = s.txFrame := rfl
@[simp] theorem putSet_limits (s : State) (i : SetIx) (r : SetRec) : (s.putSet i r).limits = s.limits := rfl
@[simp] theorem putSet_limitRejected (s : State) (i : SetIx) (r : SetRec) : (s.putSet i r).limitRejected = s.limitRejected := rfl
@[simp] theorem putSet_mbState (s : State) (i : SetIx) (r : SetRec) : (s.putSet i r).mbState = s.mbState := rfl
@[simp] theorem putSet_mbResult (s : State) (i : SetIx) (r : SetRec) : (s.putSet i r).mbResult = s.mbResult := rfl
@[simp] theorem putSet_overrun (s : State) (i : SetIx) (r : SetRec) : (s.putSet i r).overrun = s.overrun := rfl
@[simp] theorem putSet_args (s : State) (i : SetIx) (r : SetRec) : (s.putSet i r).args = s.args := rfl
@[simp] theorem putSet_results (s : State) (i : SetIx) (r : SetRec) : (s.putSet i r).results = s.results := rfl
@[simp] theorem putSet_poisonPass (s : State) (i : SetIx) (r : SetRec) : (s.putSet i r).poisonPass = s.poisonPass := rfl
@[simp] theorem putSet_flags (s : State) (i : SetIx) (r : SetRec) : (s.putSet i r).flags = s.flags := rfl
@[simp] theorem putSet_enables (s : State) (i : SetIx) (r : SetRec) : (s.putSet i r).enables = s.enables := rfl
@[simp] theorem putSet_counters (s : State) (i : SetIx) (r : SetRec) : (s.putSet i r).counters = s.counters := rfl
@[simp] theorem putSet_capture (s : State) (i : SetIx) (r : SetRec) : (s.putSet i r).capture = s.capture := rfl
@[simp] theorem putSet_snapNode (s : State) (i : SetIx) (r : SetRec) : (s.putSet i r).snapNode = s.snapNode := rfl
@[simp] theorem putSet_snapWindow (s : State) (i : SetIx) (r : SetRec) : (s.putSet i r).snapWindow = s.snapWindow := rfl
@[simp] theorem putSet_snapWalk (s : State) (i : SetIx) (r : SetRec) : (s.putSet i r).snapWalk = s.snapWalk := rfl
@[simp] theorem putSet_snapCapture (s : State) (i : SetIx) (r : SetRec) : (s.putSet i r).snapCapture = s.snapCapture := rfl
@[simp] theorem putSet_inspect (s : State) (i : SetIx) (r : SetRec) : (s.putSet i r).inspect = s.inspect := rfl
@[simp] theorem putSet_eventN (s : State) (i : SetIx) (r : SetRec) : (s.putSet i r).eventN = s.eventN := rfl
@[simp] theorem putSet_sdo (s : State) (i : SetIx) (r : SetRec) : (s.putSet i r).sdo = s.sdo := rfl
@[simp] theorem putSet_sdoTail (s : State) (i : SetIx) (r : SetRec) : (s.putSet i r).sdoTail = s.sdoTail := rfl
@[simp] theorem putSet_resetN (s : State) (i : SetIx) (r : SetRec) : (s.putSet i r).resetN = s.resetN := rfl
@[simp] theorem putSet_freeCount (s : State) (i : SetIx) (r : SetRec) : (s.putSet i r).freeCount = s.freeCount := rfl
@[simp] theorem putSet_pending (s : State) (i : SetIx) (r : SetRec) : (s.putSet i r).pending = s.pending := rfl

/-! ## putWay -/

@[simp] theorem putWay_slots (s : State) (i : SetIx) (w : WayIx) (v : Way) : (s.putWay i w v).slots = s.slots := rfl
@[simp] theorem putWay_notices (s : State) (i : SetIx) (w : WayIx) (v : Way) : (s.putWay i w v).notices = s.notices := rfl
@[simp] theorem putWay_nodes (s : State) (i : SetIx) (w : WayIx) (v : Way) : (s.putWay i w v).nodes = s.nodes := rfl
@[simp] theorem putWay_mem (s : State) (i : SetIx) (w : WayIx) (v : Way) : (s.putWay i w v).mem = s.mem := rfl
@[simp] theorem putWay_memTimeouts (s : State) (i : SetIx) (w : WayIx) (v : Way) : (s.putWay i w v).memTimeouts = s.memTimeouts := rfl
@[simp] theorem putWay_ntHeld (s : State) (i : SetIx) (w : WayIx) (v : Way) : (s.putWay i w v).ntHeld = s.ntHeld := rfl
@[simp] theorem putWay_windows (s : State) (i : SetIx) (w : WayIx) (v : Way) : (s.putWay i w v).windows = s.windows := rfl
@[simp] theorem putWay_purgePos (s : State) (i : SetIx) (w : WayIx) (v : Way) : (s.putWay i w v).purgePos = s.purgePos := rfl
@[simp] theorem putWay_purgeJobs (s : State) (i : SetIx) (w : WayIx) (v : Way) : (s.putWay i w v).purgeJobs = s.purgeJobs := rfl
@[simp] theorem putWay_purgeStep (s : State) (i : SetIx) (w : WayIx) (v : Way) : (s.putWay i w v).purgeStep = s.purgeStep := rfl
@[simp] theorem putWay_maint (s : State) (i : SetIx) (w : WayIx) (v : Way) : (s.putWay i w v).maint = s.maint := rfl
@[simp] theorem putWay_maintStep (s : State) (i : SetIx) (w : WayIx) (v : Way) : (s.putWay i w v).maintStep = s.maintStep := rfl
@[simp] theorem putWay_scrubPos (s : State) (i : SetIx) (w : WayIx) (v : Way) : (s.putWay i w v).scrubPos = s.scrubPos := rfl
@[simp] theorem putWay_riHeld (s : State) (i : SetIx) (w : WayIx) (v : Way) : (s.putWay i w v).riHeld = s.riHeld := rfl
@[simp] theorem putWay_link (s : State) (i : SetIx) (w : WayIx) (v : Way) : (s.putWay i w v).link = s.link := rfl
@[simp] theorem putWay_curSetting (s : State) (i : SetIx) (w : WayIx) (v : Way) : (s.putWay i w v).curSetting = s.curSetting := rfl
@[simp] theorem putWay_nextSetting (s : State) (i : SetIx) (w : WayIx) (v : Way) : (s.putWay i w v).nextSetting = s.nextSetting := rfl
@[simp] theorem putWay_reqIntake (s : State) (i : SetIx) (w : WayIx) (v : Way) : (s.putWay i w v).reqIntake = s.reqIntake := rfl
@[simp] theorem putWay_replyIntake (s : State) (i : SetIx) (w : WayIx) (v : Way) : (s.putWay i w v).replyIntake = s.replyIntake := rfl
@[simp] theorem putWay_orderQ (s : State) (i : SetIx) (w : WayIx) (v : Way) : (s.putWay i w v).orderQ = s.orderQ := rfl
@[simp] theorem putWay_answerQ (s : State) (i : SetIx) (w : WayIx) (v : Way) : (s.putWay i w v).answerQ = s.answerQ := rfl
@[simp] theorem putWay_orderHeld (s : State) (i : SetIx) (w : WayIx) (v : Way) : (s.putWay i w v).orderHeld = s.orderHeld := rfl
@[simp] theorem putWay_answerHeld (s : State) (i : SetIx) (w : WayIx) (v : Way) : (s.putWay i w v).answerHeld = s.answerHeld := rfl
@[simp] theorem putWay_txFrame (s : State) (i : SetIx) (w : WayIx) (v : Way) : (s.putWay i w v).txFrame = s.txFrame := rfl
@[simp] theorem putWay_limits (s : State) (i : SetIx) (w : WayIx) (v : Way) : (s.putWay i w v).limits = s.limits := rfl
@[simp] theorem putWay_limitRejected (s : State) (i : SetIx) (w : WayIx) (v : Way) : (s.putWay i w v).limitRejected = s.limitRejected := rfl
@[simp] theorem putWay_mbState (s : State) (i : SetIx) (w : WayIx) (v : Way) : (s.putWay i w v).mbState = s.mbState := rfl
@[simp] theorem putWay_mbResult (s : State) (i : SetIx) (w : WayIx) (v : Way) : (s.putWay i w v).mbResult = s.mbResult := rfl
@[simp] theorem putWay_overrun (s : State) (i : SetIx) (w : WayIx) (v : Way) : (s.putWay i w v).overrun = s.overrun := rfl
@[simp] theorem putWay_args (s : State) (i : SetIx) (w : WayIx) (v : Way) : (s.putWay i w v).args = s.args := rfl
@[simp] theorem putWay_results (s : State) (i : SetIx) (w : WayIx) (v : Way) : (s.putWay i w v).results = s.results := rfl
@[simp] theorem putWay_poisonPass (s : State) (i : SetIx) (w : WayIx) (v : Way) : (s.putWay i w v).poisonPass = s.poisonPass := rfl
@[simp] theorem putWay_flags (s : State) (i : SetIx) (w : WayIx) (v : Way) : (s.putWay i w v).flags = s.flags := rfl
@[simp] theorem putWay_enables (s : State) (i : SetIx) (w : WayIx) (v : Way) : (s.putWay i w v).enables = s.enables := rfl
@[simp] theorem putWay_counters (s : State) (i : SetIx) (w : WayIx) (v : Way) : (s.putWay i w v).counters = s.counters := rfl
@[simp] theorem putWay_capture (s : State) (i : SetIx) (w : WayIx) (v : Way) : (s.putWay i w v).capture = s.capture := rfl
@[simp] theorem putWay_snapNode (s : State) (i : SetIx) (w : WayIx) (v : Way) : (s.putWay i w v).snapNode = s.snapNode := rfl
@[simp] theorem putWay_snapWindow (s : State) (i : SetIx) (w : WayIx) (v : Way) : (s.putWay i w v).snapWindow = s.snapWindow := rfl
@[simp] theorem putWay_snapWalk (s : State) (i : SetIx) (w : WayIx) (v : Way) : (s.putWay i w v).snapWalk = s.snapWalk := rfl
@[simp] theorem putWay_snapCapture (s : State) (i : SetIx) (w : WayIx) (v : Way) : (s.putWay i w v).snapCapture = s.snapCapture := rfl
@[simp] theorem putWay_inspect (s : State) (i : SetIx) (w : WayIx) (v : Way) : (s.putWay i w v).inspect = s.inspect := rfl
@[simp] theorem putWay_eventN (s : State) (i : SetIx) (w : WayIx) (v : Way) : (s.putWay i w v).eventN = s.eventN := rfl
@[simp] theorem putWay_sdo (s : State) (i : SetIx) (w : WayIx) (v : Way) : (s.putWay i w v).sdo = s.sdo := rfl
@[simp] theorem putWay_sdoTail (s : State) (i : SetIx) (w : WayIx) (v : Way) : (s.putWay i w v).sdoTail = s.sdoTail := rfl
@[simp] theorem putWay_resetN (s : State) (i : SetIx) (w : WayIx) (v : Way) : (s.putWay i w v).resetN = s.resetN := rfl
@[simp] theorem putWay_freeCount (s : State) (i : SetIx) (w : WayIx) (v : Way) : (s.putWay i w v).freeCount = s.freeCount := rfl
@[simp] theorem putWay_pending (s : State) (i : SetIx) (w : WayIx) (v : Way) : (s.putWay i w v).pending = s.pending := rfl

/-! ## makeFree -/

@[simp] theorem makeFree_slots (s : State) (i : SetIx) (w : WayIx) : (s.makeFree i w).slots = s.slots := rfl
@[simp] theorem makeFree_notices (s : State) (i : SetIx) (w : WayIx) : (s.makeFree i w).notices = s.notices := rfl
@[simp] theorem makeFree_nodes (s : State) (i : SetIx) (w : WayIx) : (s.makeFree i w).nodes = s.nodes := rfl
@[simp] theorem makeFree_mem (s : State) (i : SetIx) (w : WayIx) : (s.makeFree i w).mem = s.mem := rfl
@[simp] theorem makeFree_memTimeouts (s : State) (i : SetIx) (w : WayIx) : (s.makeFree i w).memTimeouts = s.memTimeouts := rfl
@[simp] theorem makeFree_ntHeld (s : State) (i : SetIx) (w : WayIx) : (s.makeFree i w).ntHeld = s.ntHeld := rfl
@[simp] theorem makeFree_windows (s : State) (i : SetIx) (w : WayIx) : (s.makeFree i w).windows = s.windows := rfl
@[simp] theorem makeFree_purgePos (s : State) (i : SetIx) (w : WayIx) : (s.makeFree i w).purgePos = s.purgePos := rfl
@[simp] theorem makeFree_purgeJobs (s : State) (i : SetIx) (w : WayIx) : (s.makeFree i w).purgeJobs = s.purgeJobs := rfl
@[simp] theorem makeFree_purgeStep (s : State) (i : SetIx) (w : WayIx) : (s.makeFree i w).purgeStep = s.purgeStep := rfl
@[simp] theorem makeFree_maint (s : State) (i : SetIx) (w : WayIx) : (s.makeFree i w).maint = s.maint := rfl
@[simp] theorem makeFree_maintStep (s : State) (i : SetIx) (w : WayIx) : (s.makeFree i w).maintStep = s.maintStep := rfl
@[simp] theorem makeFree_scrubPos (s : State) (i : SetIx) (w : WayIx) : (s.makeFree i w).scrubPos = s.scrubPos := rfl
@[simp] theorem makeFree_riHeld (s : State) (i : SetIx) (w : WayIx) : (s.makeFree i w).riHeld = s.riHeld := rfl
@[simp] theorem makeFree_link (s : State) (i : SetIx) (w : WayIx) : (s.makeFree i w).link = s.link := rfl
@[simp] theorem makeFree_curSetting (s : State) (i : SetIx) (w : WayIx) : (s.makeFree i w).curSetting = s.curSetting := rfl
@[simp] theorem makeFree_nextSetting (s : State) (i : SetIx) (w : WayIx) : (s.makeFree i w).nextSetting = s.nextSetting := rfl
@[simp] theorem makeFree_reqIntake (s : State) (i : SetIx) (w : WayIx) : (s.makeFree i w).reqIntake = s.reqIntake := rfl
@[simp] theorem makeFree_replyIntake (s : State) (i : SetIx) (w : WayIx) : (s.makeFree i w).replyIntake = s.replyIntake := rfl
@[simp] theorem makeFree_orderQ (s : State) (i : SetIx) (w : WayIx) : (s.makeFree i w).orderQ = s.orderQ := rfl
@[simp] theorem makeFree_answerQ (s : State) (i : SetIx) (w : WayIx) : (s.makeFree i w).answerQ = s.answerQ := rfl
@[simp] theorem makeFree_orderHeld (s : State) (i : SetIx) (w : WayIx) : (s.makeFree i w).orderHeld = s.orderHeld := rfl
@[simp] theorem makeFree_answerHeld (s : State) (i : SetIx) (w : WayIx) : (s.makeFree i w).answerHeld = s.answerHeld := rfl
@[simp] theorem makeFree_txFrame (s : State) (i : SetIx) (w : WayIx) : (s.makeFree i w).txFrame = s.txFrame := rfl
@[simp] theorem makeFree_limits (s : State) (i : SetIx) (w : WayIx) : (s.makeFree i w).limits = s.limits := rfl
@[simp] theorem makeFree_limitRejected (s : State) (i : SetIx) (w : WayIx) : (s.makeFree i w).limitRejected = s.limitRejected := rfl
@[simp] theorem makeFree_mbState (s : State) (i : SetIx) (w : WayIx) : (s.makeFree i w).mbState = s.mbState := rfl
@[simp] theorem makeFree_mbResult (s : State) (i : SetIx) (w : WayIx) : (s.makeFree i w).mbResult = s.mbResult := rfl
@[simp] theorem makeFree_overrun (s : State) (i : SetIx) (w : WayIx) : (s.makeFree i w).overrun = s.overrun := rfl
@[simp] theorem makeFree_args (s : State) (i : SetIx) (w : WayIx) : (s.makeFree i w).args = s.args := rfl
@[simp] theorem makeFree_results (s : State) (i : SetIx) (w : WayIx) : (s.makeFree i w).results = s.results := rfl
@[simp] theorem makeFree_poisonPass (s : State) (i : SetIx) (w : WayIx) : (s.makeFree i w).poisonPass = s.poisonPass := rfl
@[simp] theorem makeFree_flags (s : State) (i : SetIx) (w : WayIx) : (s.makeFree i w).flags = s.flags := rfl
@[simp] theorem makeFree_enables (s : State) (i : SetIx) (w : WayIx) : (s.makeFree i w).enables = s.enables := rfl
@[simp] theorem makeFree_counters (s : State) (i : SetIx) (w : WayIx) : (s.makeFree i w).counters = s.counters := rfl
@[simp] theorem makeFree_capture (s : State) (i : SetIx) (w : WayIx) : (s.makeFree i w).capture = s.capture := rfl
@[simp] theorem makeFree_snapNode (s : State) (i : SetIx) (w : WayIx) : (s.makeFree i w).snapNode = s.snapNode := rfl
@[simp] theorem makeFree_snapWindow (s : State) (i : SetIx) (w : WayIx) : (s.makeFree i w).snapWindow = s.snapWindow := rfl
@[simp] theorem makeFree_snapWalk (s : State) (i : SetIx) (w : WayIx) : (s.makeFree i w).snapWalk = s.snapWalk := rfl
@[simp] theorem makeFree_snapCapture (s : State) (i : SetIx) (w : WayIx) : (s.makeFree i w).snapCapture = s.snapCapture := rfl
@[simp] theorem makeFree_inspect (s : State) (i : SetIx) (w : WayIx) : (s.makeFree i w).inspect = s.inspect := rfl
@[simp] theorem makeFree_eventN (s : State) (i : SetIx) (w : WayIx) : (s.makeFree i w).eventN = s.eventN := rfl
@[simp] theorem makeFree_sdo (s : State) (i : SetIx) (w : WayIx) : (s.makeFree i w).sdo = s.sdo := rfl
@[simp] theorem makeFree_sdoTail (s : State) (i : SetIx) (w : WayIx) : (s.makeFree i w).sdoTail = s.sdoTail := rfl
@[simp] theorem makeFree_resetN (s : State) (i : SetIx) (w : WayIx) : (s.makeFree i w).resetN = s.resetN := rfl
@[simp] theorem makeFree_freeCount (s : State) (i : SetIx) (w : WayIx) : (s.makeFree i w).freeCount = s.freeCount := rfl
@[simp] theorem makeFree_pending (s : State) (i : SetIx) (w : WayIx) : (s.makeFree i w).pending = s.pending := rfl

/-! ## moveFront -/

@[simp] theorem moveFront_slots (s : State) (i : SetIx) (w : WayIx) : (s.moveFront i w).slots = s.slots := rfl
@[simp] theorem moveFront_notices (s : State) (i : SetIx) (w : WayIx) : (s.moveFront i w).notices = s.notices := rfl
@[simp] theorem moveFront_nodes (s : State) (i : SetIx) (w : WayIx) : (s.moveFront i w).nodes = s.nodes := rfl
@[simp] theorem moveFront_mem (s : State) (i : SetIx) (w : WayIx) : (s.moveFront i w).mem = s.mem := rfl
@[simp] theorem moveFront_memTimeouts (s : State) (i : SetIx) (w : WayIx) : (s.moveFront i w).memTimeouts = s.memTimeouts := rfl
@[simp] theorem moveFront_ntHeld (s : State) (i : SetIx) (w : WayIx) : (s.moveFront i w).ntHeld = s.ntHeld := rfl
@[simp] theorem moveFront_windows (s : State) (i : SetIx) (w : WayIx) : (s.moveFront i w).windows = s.windows := rfl
@[simp] theorem moveFront_purgePos (s : State) (i : SetIx) (w : WayIx) : (s.moveFront i w).purgePos = s.purgePos := rfl
@[simp] theorem moveFront_purgeJobs (s : State) (i : SetIx) (w : WayIx) : (s.moveFront i w).purgeJobs = s.purgeJobs := rfl
@[simp] theorem moveFront_purgeStep (s : State) (i : SetIx) (w : WayIx) : (s.moveFront i w).purgeStep = s.purgeStep := rfl
@[simp] theorem moveFront_maint (s : State) (i : SetIx) (w : WayIx) : (s.moveFront i w).maint = s.maint := rfl
@[simp] theorem moveFront_maintStep (s : State) (i : SetIx) (w : WayIx) : (s.moveFront i w).maintStep = s.maintStep := rfl
@[simp] theorem moveFront_scrubPos (s : State) (i : SetIx) (w : WayIx) : (s.moveFront i w).scrubPos = s.scrubPos := rfl
@[simp] theorem moveFront_riHeld (s : State) (i : SetIx) (w : WayIx) : (s.moveFront i w).riHeld = s.riHeld := rfl
@[simp] theorem moveFront_link (s : State) (i : SetIx) (w : WayIx) : (s.moveFront i w).link = s.link := rfl
@[simp] theorem moveFront_curSetting (s : State) (i : SetIx) (w : WayIx) : (s.moveFront i w).curSetting = s.curSetting := rfl
@[simp] theorem moveFront_nextSetting (s : State) (i : SetIx) (w : WayIx) : (s.moveFront i w).nextSetting = s.nextSetting := rfl
@[simp] theorem moveFront_reqIntake (s : State) (i : SetIx) (w : WayIx) : (s.moveFront i w).reqIntake = s.reqIntake := rfl
@[simp] theorem moveFront_replyIntake (s : State) (i : SetIx) (w : WayIx) : (s.moveFront i w).replyIntake = s.replyIntake := rfl
@[simp] theorem moveFront_orderQ (s : State) (i : SetIx) (w : WayIx) : (s.moveFront i w).orderQ = s.orderQ := rfl
@[simp] theorem moveFront_answerQ (s : State) (i : SetIx) (w : WayIx) : (s.moveFront i w).answerQ = s.answerQ := rfl
@[simp] theorem moveFront_orderHeld (s : State) (i : SetIx) (w : WayIx) : (s.moveFront i w).orderHeld = s.orderHeld := rfl
@[simp] theorem moveFront_answerHeld (s : State) (i : SetIx) (w : WayIx) : (s.moveFront i w).answerHeld = s.answerHeld := rfl
@[simp] theorem moveFront_txFrame (s : State) (i : SetIx) (w : WayIx) : (s.moveFront i w).txFrame = s.txFrame := rfl
@[simp] theorem moveFront_limits (s : State) (i : SetIx) (w : WayIx) : (s.moveFront i w).limits = s.limits := rfl
@[simp] theorem moveFront_limitRejected (s : State) (i : SetIx) (w : WayIx) : (s.moveFront i w).limitRejected = s.limitRejected := rfl
@[simp] theorem moveFront_mbState (s : State) (i : SetIx) (w : WayIx) : (s.moveFront i w).mbState = s.mbState := rfl
@[simp] theorem moveFront_mbResult (s : State) (i : SetIx) (w : WayIx) : (s.moveFront i w).mbResult = s.mbResult := rfl
@[simp] theorem moveFront_overrun (s : State) (i : SetIx) (w : WayIx) : (s.moveFront i w).overrun = s.overrun := rfl
@[simp] theorem moveFront_args (s : State) (i : SetIx) (w : WayIx) : (s.moveFront i w).args = s.args := rfl
@[simp] theorem moveFront_results (s : State) (i : SetIx) (w : WayIx) : (s.moveFront i w).results = s.results := rfl
@[simp] theorem moveFront_poisonPass (s : State) (i : SetIx) (w : WayIx) : (s.moveFront i w).poisonPass = s.poisonPass := rfl
@[simp] theorem moveFront_flags (s : State) (i : SetIx) (w : WayIx) : (s.moveFront i w).flags = s.flags := rfl
@[simp] theorem moveFront_enables (s : State) (i : SetIx) (w : WayIx) : (s.moveFront i w).enables = s.enables := rfl
@[simp] theorem moveFront_counters (s : State) (i : SetIx) (w : WayIx) : (s.moveFront i w).counters = s.counters := rfl
@[simp] theorem moveFront_capture (s : State) (i : SetIx) (w : WayIx) : (s.moveFront i w).capture = s.capture := rfl
@[simp] theorem moveFront_snapNode (s : State) (i : SetIx) (w : WayIx) : (s.moveFront i w).snapNode = s.snapNode := rfl
@[simp] theorem moveFront_snapWindow (s : State) (i : SetIx) (w : WayIx) : (s.moveFront i w).snapWindow = s.snapWindow := rfl
@[simp] theorem moveFront_snapWalk (s : State) (i : SetIx) (w : WayIx) : (s.moveFront i w).snapWalk = s.snapWalk := rfl
@[simp] theorem moveFront_snapCapture (s : State) (i : SetIx) (w : WayIx) : (s.moveFront i w).snapCapture = s.snapCapture := rfl
@[simp] theorem moveFront_inspect (s : State) (i : SetIx) (w : WayIx) : (s.moveFront i w).inspect = s.inspect := rfl
@[simp] theorem moveFront_eventN (s : State) (i : SetIx) (w : WayIx) : (s.moveFront i w).eventN = s.eventN := rfl
@[simp] theorem moveFront_sdo (s : State) (i : SetIx) (w : WayIx) : (s.moveFront i w).sdo = s.sdo := rfl
@[simp] theorem moveFront_sdoTail (s : State) (i : SetIx) (w : WayIx) : (s.moveFront i w).sdoTail = s.sdoTail := rfl
@[simp] theorem moveFront_resetN (s : State) (i : SetIx) (w : WayIx) : (s.moveFront i w).resetN = s.resetN := rfl
@[simp] theorem moveFront_freeCount (s : State) (i : SetIx) (w : WayIx) : (s.moveFront i w).freeCount = s.freeCount := rfl
@[simp] theorem moveFront_pending (s : State) (i : SetIx) (w : WayIx) : (s.moveFront i w).pending = s.pending := rfl

/-! ## putSlot -/

@[simp] theorem putSlot_dir (s : State) (t : SlotIx) (v : Option Slot) : (s.putSlot t v).dir = s.dir := rfl
@[simp] theorem putSlot_notices (s : State) (t : SlotIx) (v : Option Slot) : (s.putSlot t v).notices = s.notices := rfl
@[simp] theorem putSlot_nodes (s : State) (t : SlotIx) (v : Option Slot) : (s.putSlot t v).nodes = s.nodes := rfl
@[simp] theorem putSlot_mem (s : State) (t : SlotIx) (v : Option Slot) : (s.putSlot t v).mem = s.mem := rfl
@[simp] theorem putSlot_memTimeouts (s : State) (t : SlotIx) (v : Option Slot) : (s.putSlot t v).memTimeouts = s.memTimeouts := rfl
@[simp] theorem putSlot_ntHeld (s : State) (t : SlotIx) (v : Option Slot) : (s.putSlot t v).ntHeld = s.ntHeld := rfl
@[simp] theorem putSlot_windows (s : State) (t : SlotIx) (v : Option Slot) : (s.putSlot t v).windows = s.windows := rfl
@[simp] theorem putSlot_purgePos (s : State) (t : SlotIx) (v : Option Slot) : (s.putSlot t v).purgePos = s.purgePos := rfl
@[simp] theorem putSlot_purgeJobs (s : State) (t : SlotIx) (v : Option Slot) : (s.putSlot t v).purgeJobs = s.purgeJobs := rfl
@[simp] theorem putSlot_purgeStep (s : State) (t : SlotIx) (v : Option Slot) : (s.putSlot t v).purgeStep = s.purgeStep := rfl
@[simp] theorem putSlot_maint (s : State) (t : SlotIx) (v : Option Slot) : (s.putSlot t v).maint = s.maint := rfl
@[simp] theorem putSlot_maintStep (s : State) (t : SlotIx) (v : Option Slot) : (s.putSlot t v).maintStep = s.maintStep := rfl
@[simp] theorem putSlot_scrubPos (s : State) (t : SlotIx) (v : Option Slot) : (s.putSlot t v).scrubPos = s.scrubPos := rfl
@[simp] theorem putSlot_riHeld (s : State) (t : SlotIx) (v : Option Slot) : (s.putSlot t v).riHeld = s.riHeld := rfl
@[simp] theorem putSlot_link (s : State) (t : SlotIx) (v : Option Slot) : (s.putSlot t v).link = s.link := rfl
@[simp] theorem putSlot_curSetting (s : State) (t : SlotIx) (v : Option Slot) : (s.putSlot t v).curSetting = s.curSetting := rfl
@[simp] theorem putSlot_nextSetting (s : State) (t : SlotIx) (v : Option Slot) : (s.putSlot t v).nextSetting = s.nextSetting := rfl
@[simp] theorem putSlot_reqIntake (s : State) (t : SlotIx) (v : Option Slot) : (s.putSlot t v).reqIntake = s.reqIntake := rfl
@[simp] theorem putSlot_replyIntake (s : State) (t : SlotIx) (v : Option Slot) : (s.putSlot t v).replyIntake = s.replyIntake := rfl
@[simp] theorem putSlot_orderQ (s : State) (t : SlotIx) (v : Option Slot) : (s.putSlot t v).orderQ = s.orderQ := rfl
@[simp] theorem putSlot_answerQ (s : State) (t : SlotIx) (v : Option Slot) : (s.putSlot t v).answerQ = s.answerQ := rfl
@[simp] theorem putSlot_orderHeld (s : State) (t : SlotIx) (v : Option Slot) : (s.putSlot t v).orderHeld = s.orderHeld := rfl
@[simp] theorem putSlot_answerHeld (s : State) (t : SlotIx) (v : Option Slot) : (s.putSlot t v).answerHeld = s.answerHeld := rfl
@[simp] theorem putSlot_txFrame (s : State) (t : SlotIx) (v : Option Slot) : (s.putSlot t v).txFrame = s.txFrame := rfl
@[simp] theorem putSlot_limits (s : State) (t : SlotIx) (v : Option Slot) : (s.putSlot t v).limits = s.limits := rfl
@[simp] theorem putSlot_limitRejected (s : State) (t : SlotIx) (v : Option Slot) : (s.putSlot t v).limitRejected = s.limitRejected := rfl
@[simp] theorem putSlot_mbState (s : State) (t : SlotIx) (v : Option Slot) : (s.putSlot t v).mbState = s.mbState := rfl
@[simp] theorem putSlot_mbResult (s : State) (t : SlotIx) (v : Option Slot) : (s.putSlot t v).mbResult = s.mbResult := rfl
@[simp] theorem putSlot_overrun (s : State) (t : SlotIx) (v : Option Slot) : (s.putSlot t v).overrun = s.overrun := rfl
@[simp] theorem putSlot_args (s : State) (t : SlotIx) (v : Option Slot) : (s.putSlot t v).args = s.args := rfl
@[simp] theorem putSlot_results (s : State) (t : SlotIx) (v : Option Slot) : (s.putSlot t v).results = s.results := rfl
@[simp] theorem putSlot_poisonPass (s : State) (t : SlotIx) (v : Option Slot) : (s.putSlot t v).poisonPass = s.poisonPass := rfl
@[simp] theorem putSlot_flags (s : State) (t : SlotIx) (v : Option Slot) : (s.putSlot t v).flags = s.flags := rfl
@[simp] theorem putSlot_enables (s : State) (t : SlotIx) (v : Option Slot) : (s.putSlot t v).enables = s.enables := rfl
@[simp] theorem putSlot_counters (s : State) (t : SlotIx) (v : Option Slot) : (s.putSlot t v).counters = s.counters := rfl
@[simp] theorem putSlot_capture (s : State) (t : SlotIx) (v : Option Slot) : (s.putSlot t v).capture = s.capture := rfl
@[simp] theorem putSlot_snapNode (s : State) (t : SlotIx) (v : Option Slot) : (s.putSlot t v).snapNode = s.snapNode := rfl
@[simp] theorem putSlot_snapWindow (s : State) (t : SlotIx) (v : Option Slot) : (s.putSlot t v).snapWindow = s.snapWindow := rfl
@[simp] theorem putSlot_snapWalk (s : State) (t : SlotIx) (v : Option Slot) : (s.putSlot t v).snapWalk = s.snapWalk := rfl
@[simp] theorem putSlot_snapCapture (s : State) (t : SlotIx) (v : Option Slot) : (s.putSlot t v).snapCapture = s.snapCapture := rfl
@[simp] theorem putSlot_inspect (s : State) (t : SlotIx) (v : Option Slot) : (s.putSlot t v).inspect = s.inspect := rfl
@[simp] theorem putSlot_eventN (s : State) (t : SlotIx) (v : Option Slot) : (s.putSlot t v).eventN = s.eventN := rfl
@[simp] theorem putSlot_sdo (s : State) (t : SlotIx) (v : Option Slot) : (s.putSlot t v).sdo = s.sdo := rfl
@[simp] theorem putSlot_sdoTail (s : State) (t : SlotIx) (v : Option Slot) : (s.putSlot t v).sdoTail = s.sdoTail := rfl
@[simp] theorem putSlot_resetN (s : State) (t : SlotIx) (v : Option Slot) : (s.putSlot t v).resetN = s.resetN := rfl
@[simp] theorem putSlot_freeCount (s : State) (t : SlotIx) (v : Option Slot) : (s.putSlot t v).freeCount = s.freeCount := rfl
@[simp] theorem putSlot_pending (s : State) (t : SlotIx) (v : Option Slot) : (s.putSlot t v).pending = s.pending := rfl

/-! ## modSlot -/

@[simp] theorem modSlot_dir (s : State) (t : SlotIx) (f : Slot → Slot) : (s.modSlot t f).dir = s.dir := by unfold State.modSlot; split <;> rfl
@[simp] theorem modSlot_notices (s : State) (t : SlotIx) (f : Slot → Slot) : (s.modSlot t f).notices = s.notices := by unfold State.modSlot; split <;> rfl
@[simp] theorem modSlot_nodes (s : State) (t : SlotIx) (f : Slot → Slot) : (s.modSlot t f).nodes = s.nodes := by unfold State.modSlot; split <;> rfl
@[simp] theorem modSlot_mem (s : State) (t : SlotIx) (f : Slot → Slot) : (s.modSlot t f).mem = s.mem := by unfold State.modSlot; split <;> rfl
@[simp] theorem modSlot_memTimeouts (s : State) (t : SlotIx) (f : Slot → Slot) : (s.modSlot t f).memTimeouts = s.memTimeouts := by unfold State.modSlot; split <;> rfl
@[simp] theorem modSlot_ntHeld (s : State) (t : SlotIx) (f : Slot → Slot) : (s.modSlot t f).ntHeld = s.ntHeld := by unfold State.modSlot; split <;> rfl
@[simp] theorem modSlot_windows (s : State) (t : SlotIx) (f : Slot → Slot) : (s.modSlot t f).windows = s.windows := by unfold State.modSlot; split <;> rfl
@[simp] theorem modSlot_purgePos (s : State) (t : SlotIx) (f : Slot → Slot) : (s.modSlot t f).purgePos = s.purgePos := by unfold State.modSlot; split <;> rfl
@[simp] theorem modSlot_purgeJobs (s : State) (t : SlotIx) (f : Slot → Slot) : (s.modSlot t f).purgeJobs = s.purgeJobs := by unfold State.modSlot; split <;> rfl
@[simp] theorem modSlot_purgeStep (s : State) (t : SlotIx) (f : Slot → Slot) : (s.modSlot t f).purgeStep = s.purgeStep := by unfold State.modSlot; split <;> rfl
@[simp] theorem modSlot_maint (s : State) (t : SlotIx) (f : Slot → Slot) : (s.modSlot t f).maint = s.maint := by unfold State.modSlot; split <;> rfl
@[simp] theorem modSlot_maintStep (s : State) (t : SlotIx) (f : Slot → Slot) : (s.modSlot t f).maintStep = s.maintStep := by unfold State.modSlot; split <;> rfl
@[simp] theorem modSlot_scrubPos (s : State) (t : SlotIx) (f : Slot → Slot) : (s.modSlot t f).scrubPos = s.scrubPos := by unfold State.modSlot; split <;> rfl
@[simp] theorem modSlot_riHeld (s : State) (t : SlotIx) (f : Slot → Slot) : (s.modSlot t f).riHeld = s.riHeld := by unfold State.modSlot; split <;> rfl
@[simp] theorem modSlot_link (s : State) (t : SlotIx) (f : Slot → Slot) : (s.modSlot t f).link = s.link := by unfold State.modSlot; split <;> rfl
@[simp] theorem modSlot_curSetting (s : State) (t : SlotIx) (f : Slot → Slot) : (s.modSlot t f).curSetting = s.curSetting := by unfold State.modSlot; split <;> rfl
@[simp] theorem modSlot_nextSetting (s : State) (t : SlotIx) (f : Slot → Slot) : (s.modSlot t f).nextSetting = s.nextSetting := by unfold State.modSlot; split <;> rfl
@[simp] theorem modSlot_reqIntake (s : State) (t : SlotIx) (f : Slot → Slot) : (s.modSlot t f).reqIntake = s.reqIntake := by unfold State.modSlot; split <;> rfl
@[simp] theorem modSlot_replyIntake (s : State) (t : SlotIx) (f : Slot → Slot) : (s.modSlot t f).replyIntake = s.replyIntake := by unfold State.modSlot; split <;> rfl
@[simp] theorem modSlot_orderQ (s : State) (t : SlotIx) (f : Slot → Slot) : (s.modSlot t f).orderQ = s.orderQ := by unfold State.modSlot; split <;> rfl
@[simp] theorem modSlot_answerQ (s : State) (t : SlotIx) (f : Slot → Slot) : (s.modSlot t f).answerQ = s.answerQ := by unfold State.modSlot; split <;> rfl
@[simp] theorem modSlot_orderHeld (s : State) (t : SlotIx) (f : Slot → Slot) : (s.modSlot t f).orderHeld = s.orderHeld := by unfold State.modSlot; split <;> rfl
@[simp] theorem modSlot_answerHeld (s : State) (t : SlotIx) (f : Slot → Slot) : (s.modSlot t f).answerHeld = s.answerHeld := by unfold State.modSlot; split <;> rfl
@[simp] theorem modSlot_txFrame (s : State) (t : SlotIx) (f : Slot → Slot) : (s.modSlot t f).txFrame = s.txFrame := by unfold State.modSlot; split <;> rfl
@[simp] theorem modSlot_limits (s : State) (t : SlotIx) (f : Slot → Slot) : (s.modSlot t f).limits = s.limits := by unfold State.modSlot; split <;> rfl
@[simp] theorem modSlot_limitRejected (s : State) (t : SlotIx) (f : Slot → Slot) : (s.modSlot t f).limitRejected = s.limitRejected := by unfold State.modSlot; split <;> rfl
@[simp] theorem modSlot_mbState (s : State) (t : SlotIx) (f : Slot → Slot) : (s.modSlot t f).mbState = s.mbState := by unfold State.modSlot; split <;> rfl
@[simp] theorem modSlot_mbResult (s : State) (t : SlotIx) (f : Slot → Slot) : (s.modSlot t f).mbResult = s.mbResult := by unfold State.modSlot; split <;> rfl
@[simp] theorem modSlot_overrun (s : State) (t : SlotIx) (f : Slot → Slot) : (s.modSlot t f).overrun = s.overrun := by unfold State.modSlot; split <;> rfl
@[simp] theorem modSlot_args (s : State) (t : SlotIx) (f : Slot → Slot) : (s.modSlot t f).args = s.args := by unfold State.modSlot; split <;> rfl
@[simp] theorem modSlot_results (s : State) (t : SlotIx) (f : Slot → Slot) : (s.modSlot t f).results = s.results := by unfold State.modSlot; split <;> rfl
@[simp] theorem modSlot_poisonPass (s : State) (t : SlotIx) (f : Slot → Slot) : (s.modSlot t f).poisonPass = s.poisonPass := by unfold State.modSlot; split <;> rfl
@[simp] theorem modSlot_flags (s : State) (t : SlotIx) (f : Slot → Slot) : (s.modSlot t f).flags = s.flags := by unfold State.modSlot; split <;> rfl
@[simp] theorem modSlot_enables (s : State) (t : SlotIx) (f : Slot → Slot) : (s.modSlot t f).enables = s.enables := by unfold State.modSlot; split <;> rfl
@[simp] theorem modSlot_counters (s : State) (t : SlotIx) (f : Slot → Slot) : (s.modSlot t f).counters = s.counters := by unfold State.modSlot; split <;> rfl
@[simp] theorem modSlot_capture (s : State) (t : SlotIx) (f : Slot → Slot) : (s.modSlot t f).capture = s.capture := by unfold State.modSlot; split <;> rfl
@[simp] theorem modSlot_snapNode (s : State) (t : SlotIx) (f : Slot → Slot) : (s.modSlot t f).snapNode = s.snapNode := by unfold State.modSlot; split <;> rfl
@[simp] theorem modSlot_snapWindow (s : State) (t : SlotIx) (f : Slot → Slot) : (s.modSlot t f).snapWindow = s.snapWindow := by unfold State.modSlot; split <;> rfl
@[simp] theorem modSlot_snapWalk (s : State) (t : SlotIx) (f : Slot → Slot) : (s.modSlot t f).snapWalk = s.snapWalk := by unfold State.modSlot; split <;> rfl
@[simp] theorem modSlot_snapCapture (s : State) (t : SlotIx) (f : Slot → Slot) : (s.modSlot t f).snapCapture = s.snapCapture := by unfold State.modSlot; split <;> rfl
@[simp] theorem modSlot_inspect (s : State) (t : SlotIx) (f : Slot → Slot) : (s.modSlot t f).inspect = s.inspect := by unfold State.modSlot; split <;> rfl
@[simp] theorem modSlot_eventN (s : State) (t : SlotIx) (f : Slot → Slot) : (s.modSlot t f).eventN = s.eventN := by unfold State.modSlot; split <;> rfl
@[simp] theorem modSlot_sdo (s : State) (t : SlotIx) (f : Slot → Slot) : (s.modSlot t f).sdo = s.sdo := by unfold State.modSlot; split <;> rfl
@[simp] theorem modSlot_sdoTail (s : State) (t : SlotIx) (f : Slot → Slot) : (s.modSlot t f).sdoTail = s.sdoTail := by unfold State.modSlot; split <;> rfl
@[simp] theorem modSlot_resetN (s : State) (t : SlotIx) (f : Slot → Slot) : (s.modSlot t f).resetN = s.resetN := by unfold State.modSlot; split <;> rfl
@[simp] theorem modSlot_freeCount (s : State) (t : SlotIx) (f : Slot → Slot) : (s.modSlot t f).freeCount = s.freeCount := by unfold State.modSlot; split <;> rfl
@[simp] theorem modSlot_pending (s : State) (t : SlotIx) (f : Slot → Slot) : (s.modSlot t f).pending = s.pending := by unfold State.modSlot; split <;> rfl

/-! ## modNode -/

@[simp] theorem modNode_dir (s : State) (n : Node) (f : NodeRec → NodeRec) : (s.modNode n f).dir = s.dir := rfl
@[simp] theorem modNode_slots (s : State) (n : Node) (f : NodeRec → NodeRec) : (s.modNode n f).slots = s.slots := rfl
@[simp] theorem modNode_notices (s : State) (n : Node) (f : NodeRec → NodeRec) : (s.modNode n f).notices = s.notices := rfl
@[simp] theorem modNode_mem (s : State) (n : Node) (f : NodeRec → NodeRec) : (s.modNode n f).mem = s.mem := rfl
@[simp] theorem modNode_memTimeouts (s : State) (n : Node) (f : NodeRec → NodeRec) : (s.modNode n f).memTimeouts = s.memTimeouts := rfl
@[simp] theorem modNode_ntHeld (s : State) (n : Node) (f : NodeRec → NodeRec) : (s.modNode n f).ntHeld = s.ntHeld := rfl
@[simp] theorem modNode_windows (s : State) (n : Node) (f : NodeRec → NodeRec) : (s.modNode n f).windows = s.windows := rfl
@[simp] theorem modNode_purgePos (s : State) (n : Node) (f : NodeRec → NodeRec) : (s.modNode n f).purgePos = s.purgePos := rfl
@[simp] theorem modNode_purgeJobs (s : State) (n : Node) (f : NodeRec → NodeRec) : (s.modNode n f).purgeJobs = s.purgeJobs := rfl
@[simp] theorem modNode_purgeStep (s : State) (n : Node) (f : NodeRec → NodeRec) : (s.modNode n f).purgeStep = s.purgeStep := rfl
@[simp] theorem modNode_maint (s : State) (n : Node) (f : NodeRec → NodeRec) : (s.modNode n f).maint = s.maint := rfl
@[simp] theorem modNode_maintStep (s : State) (n : Node) (f : NodeRec → NodeRec) : (s.modNode n f).maintStep = s.maintStep := rfl
@[simp] theorem modNode_scrubPos (s : State) (n : Node) (f : NodeRec → NodeRec) : (s.modNode n f).scrubPos = s.scrubPos := rfl
@[simp] theorem modNode_riHeld (s : State) (n : Node) (f : NodeRec → NodeRec) : (s.modNode n f).riHeld = s.riHeld := rfl
@[simp] theorem modNode_link (s : State) (n : Node) (f : NodeRec → NodeRec) : (s.modNode n f).link = s.link := rfl
@[simp] theorem modNode_curSetting (s : State) (n : Node) (f : NodeRec → NodeRec) : (s.modNode n f).curSetting = s.curSetting := rfl
@[simp] theorem modNode_nextSetting (s : State) (n : Node) (f : NodeRec → NodeRec) : (s.modNode n f).nextSetting = s.nextSetting := rfl
@[simp] theorem modNode_reqIntake (s : State) (n : Node) (f : NodeRec → NodeRec) : (s.modNode n f).reqIntake = s.reqIntake := rfl
@[simp] theorem modNode_replyIntake (s : State) (n : Node) (f : NodeRec → NodeRec) : (s.modNode n f).replyIntake = s.replyIntake := rfl
@[simp] theorem modNode_orderQ (s : State) (n : Node) (f : NodeRec → NodeRec) : (s.modNode n f).orderQ = s.orderQ := rfl
@[simp] theorem modNode_answerQ (s : State) (n : Node) (f : NodeRec → NodeRec) : (s.modNode n f).answerQ = s.answerQ := rfl
@[simp] theorem modNode_orderHeld (s : State) (n : Node) (f : NodeRec → NodeRec) : (s.modNode n f).orderHeld = s.orderHeld := rfl
@[simp] theorem modNode_answerHeld (s : State) (n : Node) (f : NodeRec → NodeRec) : (s.modNode n f).answerHeld = s.answerHeld := rfl
@[simp] theorem modNode_txFrame (s : State) (n : Node) (f : NodeRec → NodeRec) : (s.modNode n f).txFrame = s.txFrame := rfl
@[simp] theorem modNode_limits (s : State) (n : Node) (f : NodeRec → NodeRec) : (s.modNode n f).limits = s.limits := rfl
@[simp] theorem modNode_limitRejected (s : State) (n : Node) (f : NodeRec → NodeRec) : (s.modNode n f).limitRejected = s.limitRejected := rfl
@[simp] theorem modNode_mbState (s : State) (n : Node) (f : NodeRec → NodeRec) : (s.modNode n f).mbState = s.mbState := rfl
@[simp] theorem modNode_mbResult (s : State) (n : Node) (f : NodeRec → NodeRec) : (s.modNode n f).mbResult = s.mbResult := rfl
@[simp] theorem modNode_overrun (s : State) (n : Node) (f : NodeRec → NodeRec) : (s.modNode n f).overrun = s.overrun := rfl
@[simp] theorem modNode_args (s : State) (n : Node) (f : NodeRec → NodeRec) : (s.modNode n f).args = s.args := rfl
@[simp] theorem modNode_results (s : State) (n : Node) (f : NodeRec → NodeRec) : (s.modNode n f).results = s.results := rfl
@[simp] theorem modNode_poisonPass (s : State) (n : Node) (f : NodeRec → NodeRec) : (s.modNode n f).poisonPass = s.poisonPass := rfl
@[simp] theorem modNode_flags (s : State) (n : Node) (f : NodeRec → NodeRec) : (s.modNode n f).flags = s.flags := rfl
@[simp] theorem modNode_enables (s : State) (n : Node) (f : NodeRec → NodeRec) : (s.modNode n f).enables = s.enables := rfl
@[simp] theorem modNode_counters (s : State) (n : Node) (f : NodeRec → NodeRec) : (s.modNode n f).counters = s.counters := rfl
@[simp] theorem modNode_capture (s : State) (n : Node) (f : NodeRec → NodeRec) : (s.modNode n f).capture = s.capture := rfl
@[simp] theorem modNode_snapNode (s : State) (n : Node) (f : NodeRec → NodeRec) : (s.modNode n f).snapNode = s.snapNode := rfl
@[simp] theorem modNode_snapWindow (s : State) (n : Node) (f : NodeRec → NodeRec) : (s.modNode n f).snapWindow = s.snapWindow := rfl
@[simp] theorem modNode_snapWalk (s : State) (n : Node) (f : NodeRec → NodeRec) : (s.modNode n f).snapWalk = s.snapWalk := rfl
@[simp] theorem modNode_snapCapture (s : State) (n : Node) (f : NodeRec → NodeRec) : (s.modNode n f).snapCapture = s.snapCapture := rfl
@[simp] theorem modNode_inspect (s : State) (n : Node) (f : NodeRec → NodeRec) : (s.modNode n f).inspect = s.inspect := rfl
@[simp] theorem modNode_eventN (s : State) (n : Node) (f : NodeRec → NodeRec) : (s.modNode n f).eventN = s.eventN := rfl
@[simp] theorem modNode_sdo (s : State) (n : Node) (f : NodeRec → NodeRec) : (s.modNode n f).sdo = s.sdo := rfl
@[simp] theorem modNode_sdoTail (s : State) (n : Node) (f : NodeRec → NodeRec) : (s.modNode n f).sdoTail = s.sdoTail := rfl
@[simp] theorem modNode_resetN (s : State) (n : Node) (f : NodeRec → NodeRec) : (s.modNode n f).resetN = s.resetN := rfl
@[simp] theorem modNode_freeCount (s : State) (n : Node) (f : NodeRec → NodeRec) : (s.modNode n f).freeCount = s.freeCount := rfl
@[simp] theorem modNode_pending (s : State) (n : Node) (f : NodeRec → NodeRec) : (s.modNode n f).pending = s.pending := rfl

/-! ## modWindow -/

@[simp] theorem modWindow_dir (s : State) (w : WinIx) (f : Window → Window) : (s.modWindow w f).dir = s.dir := rfl
@[simp] theorem modWindow_slots (s : State) (w : WinIx) (f : Window → Window) : (s.modWindow w f).slots = s.slots := rfl
@[simp] theorem modWindow_notices (s : State) (w : WinIx) (f : Window → Window) : (s.modWindow w f).notices = s.notices := rfl
@[simp] theorem modWindow_nodes (s : State) (w : WinIx) (f : Window → Window) : (s.modWindow w f).nodes = s.nodes := rfl
@[simp] theorem modWindow_mem (s : State) (w : WinIx) (f : Window → Window) : (s.modWindow w f).mem = s.mem := rfl
@[simp] theorem modWindow_memTimeouts (s : State) (w : WinIx) (f : Window → Window) : (s.modWindow w f).memTimeouts = s.memTimeouts := rfl
@[simp] theorem modWindow_ntHeld (s : State) (w : WinIx) (f : Window → Window) : (s.modWindow w f).ntHeld = s.ntHeld := rfl
@[simp] theorem modWindow_purgePos (s : State) (w : WinIx) (f : Window → Window) : (s.modWindow w f).purgePos = s.purgePos := rfl
@[simp] theorem modWindow_purgeJobs (s : State) (w : WinIx) (f : Window → Window) : (s.modWindow w f).purgeJobs = s.purgeJobs := rfl
@[simp] theorem modWindow_purgeStep (s : State) (w : WinIx) (f : Window → Window) : (s.modWindow w f).purgeStep = s.purgeStep := rfl
@[simp] theorem modWindow_maint (s : State) (w : WinIx) (f : Window → Window) : (s.modWindow w f).maint = s.maint := rfl
@[simp] theorem modWindow_maintStep (s : State) (w : WinIx) (f : Window → Window) : (s.modWindow w f).maintStep = s.maintStep := rfl
@[simp] theorem modWindow_scrubPos (s : State) (w : WinIx) (f : Window → Window) : (s.modWindow w f).scrubPos = s.scrubPos := rfl
@[simp] theorem modWindow_riHeld (s : State) (w : WinIx) (f : Window → Window) : (s.modWindow w f).riHeld = s.riHeld := rfl
@[simp] theorem modWindow_link (s : State) (w : WinIx) (f : Window → Window) : (s.modWindow w f).link = s.link := rfl
@[simp] theorem modWindow_curSetting (s : State) (w : WinIx) (f : Window → Window) : (s.modWindow w f).curSetting = s.curSetting := rfl
@[simp] theorem modWindow_nextSetting (s : State) (w : WinIx) (f : Window → Window) : (s.modWindow w f).nextSetting = s.nextSetting := rfl
@[simp] theorem modWindow_reqIntake (s : State) (w : WinIx) (f : Window → Window) : (s.modWindow w f).reqIntake = s.reqIntake := rfl
@[simp] theorem modWindow_replyIntake (s : State) (w : WinIx) (f : Window → Window) : (s.modWindow w f).replyIntake = s.replyIntake := rfl
@[simp] theorem modWindow_orderQ (s : State) (w : WinIx) (f : Window → Window) : (s.modWindow w f).orderQ = s.orderQ := rfl
@[simp] theorem modWindow_answerQ (s : State) (w : WinIx) (f : Window → Window) : (s.modWindow w f).answerQ = s.answerQ := rfl
@[simp] theorem modWindow_orderHeld (s : State) (w : WinIx) (f : Window → Window) : (s.modWindow w f).orderHeld = s.orderHeld := rfl
@[simp] theorem modWindow_answerHeld (s : State) (w : WinIx) (f : Window → Window) : (s.modWindow w f).answerHeld = s.answerHeld := rfl
@[simp] theorem modWindow_txFrame (s : State) (w : WinIx) (f : Window → Window) : (s.modWindow w f).txFrame = s.txFrame := rfl
@[simp] theorem modWindow_limits (s : State) (w : WinIx) (f : Window → Window) : (s.modWindow w f).limits = s.limits := rfl
@[simp] theorem modWindow_limitRejected (s : State) (w : WinIx) (f : Window → Window) : (s.modWindow w f).limitRejected = s.limitRejected := rfl
@[simp] theorem modWindow_mbState (s : State) (w : WinIx) (f : Window → Window) : (s.modWindow w f).mbState = s.mbState := rfl
@[simp] theorem modWindow_mbResult (s : State) (w : WinIx) (f : Window → Window) : (s.modWindow w f).mbResult = s.mbResult := rfl
@[simp] theorem modWindow_overrun (s : State) (w : WinIx) (f : Window → Window) : (s.modWindow w f).overrun = s.overrun := rfl
@[simp] theorem modWindow_args (s : State) (w : WinIx) (f : Window → Window) : (s.modWindow w f).args = s.args := rfl
@[simp] theorem modWindow_results (s : State) (w : WinIx) (f : Window → Window) : (s.modWindow w f).results = s.results := rfl
@[simp] theorem modWindow_poisonPass (s : State) (w : WinIx) (f : Window → Window) : (s.modWindow w f).poisonPass = s.poisonPass := rfl
@[simp] theorem modWindow_flags (s : State) (w : WinIx) (f : Window → Window) : (s.modWindow w f).flags = s.flags := rfl
@[simp] theorem modWindow_enables (s : State) (w : WinIx) (f : Window → Window) : (s.modWindow w f).enables = s.enables := rfl
@[simp] theorem modWindow_counters (s : State) (w : WinIx) (f : Window → Window) : (s.modWindow w f).counters = s.counters := rfl
@[simp] theorem modWindow_capture (s : State) (w : WinIx) (f : Window → Window) : (s.modWindow w f).capture = s.capture := rfl
@[simp] theorem modWindow_snapNode (s : State) (w : WinIx) (f : Window → Window) : (s.modWindow w f).snapNode = s.snapNode := rfl
@[simp] theorem modWindow_snapWindow (s : State) (w : WinIx) (f : Window → Window) : (s.modWindow w f).snapWindow = s.snapWindow := rfl
@[simp] theorem modWindow_snapWalk (s : State) (w : WinIx) (f : Window → Window) : (s.modWindow w f).snapWalk = s.snapWalk := rfl
@[simp] theorem modWindow_snapCapture (s : State) (w : WinIx) (f : Window → Window) : (s.modWindow w f).snapCapture = s.snapCapture := rfl
@[simp] theorem modWindow_inspect (s : State) (w : WinIx) (f : Window → Window) : (s.modWindow w f).inspect = s.inspect := rfl
@[simp] theorem modWindow_eventN (s : State) (w : WinIx) (f : Window → Window) : (s.modWindow w f).eventN = s.eventN := rfl
@[simp] theorem modWindow_sdo (s : State) (w : WinIx) (f : Window → Window) : (s.modWindow w f).sdo = s.sdo := rfl
@[simp] theorem modWindow_sdoTail (s : State) (w : WinIx) (f : Window → Window) : (s.modWindow w f).sdoTail = s.sdoTail := rfl
@[simp] theorem modWindow_resetN (s : State) (w : WinIx) (f : Window → Window) : (s.modWindow w f).resetN = s.resetN := rfl
@[simp] theorem modWindow_freeCount (s : State) (w : WinIx) (f : Window → Window) : (s.modWindow w f).freeCount = s.freeCount := rfl
@[simp] theorem modWindow_pending (s : State) (w : WinIx) (f : Window → Window) : (s.modWindow w f).pending = s.pending := rfl

/-! ## putJob -/

@[simp] theorem putJob_dir (s : State) (n : Node) (j : Option PurgeJob) : (s.putJob n j).dir = s.dir := rfl
@[simp] theorem putJob_slots (s : State) (n : Node) (j : Option PurgeJob) : (s.putJob n j).slots = s.slots := rfl
@[simp] theorem putJob_notices (s : State) (n : Node) (j : Option PurgeJob) : (s.putJob n j).notices = s.notices := rfl
@[simp] theorem putJob_nodes (s : State) (n : Node) (j : Option PurgeJob) : (s.putJob n j).nodes = s.nodes := rfl
@[simp] theorem putJob_mem (s : State) (n : Node) (j : Option PurgeJob) : (s.putJob n j).mem = s.mem := rfl
@[simp] theorem putJob_memTimeouts (s : State) (n : Node) (j : Option PurgeJob) : (s.putJob n j).memTimeouts = s.memTimeouts := rfl
@[simp] theorem putJob_ntHeld (s : State) (n : Node) (j : Option PurgeJob) : (s.putJob n j).ntHeld = s.ntHeld := rfl
@[simp] theorem putJob_windows (s : State) (n : Node) (j : Option PurgeJob) : (s.putJob n j).windows = s.windows := rfl
@[simp] theorem putJob_purgePos (s : State) (n : Node) (j : Option PurgeJob) : (s.putJob n j).purgePos = s.purgePos := rfl
@[simp] theorem putJob_purgeStep (s : State) (n : Node) (j : Option PurgeJob) : (s.putJob n j).purgeStep = s.purgeStep := rfl
@[simp] theorem putJob_maint (s : State) (n : Node) (j : Option PurgeJob) : (s.putJob n j).maint = s.maint := rfl
@[simp] theorem putJob_maintStep (s : State) (n : Node) (j : Option PurgeJob) : (s.putJob n j).maintStep = s.maintStep := rfl
@[simp] theorem putJob_scrubPos (s : State) (n : Node) (j : Option PurgeJob) : (s.putJob n j).scrubPos = s.scrubPos := rfl
@[simp] theorem putJob_riHeld (s : State) (n : Node) (j : Option PurgeJob) : (s.putJob n j).riHeld = s.riHeld := rfl
@[simp] theorem putJob_link (s : State) (n : Node) (j : Option PurgeJob) : (s.putJob n j).link = s.link := rfl
@[simp] theorem putJob_curSetting (s : State) (n : Node) (j : Option PurgeJob) : (s.putJob n j).curSetting = s.curSetting := rfl
@[simp] theorem putJob_nextSetting (s : State) (n : Node) (j : Option PurgeJob) : (s.putJob n j).nextSetting = s.nextSetting := rfl
@[simp] theorem putJob_reqIntake (s : State) (n : Node) (j : Option PurgeJob) : (s.putJob n j).reqIntake = s.reqIntake := rfl
@[simp] theorem putJob_replyIntake (s : State) (n : Node) (j : Option PurgeJob) : (s.putJob n j).replyIntake = s.replyIntake := rfl
@[simp] theorem putJob_orderQ (s : State) (n : Node) (j : Option PurgeJob) : (s.putJob n j).orderQ = s.orderQ := rfl
@[simp] theorem putJob_answerQ (s : State) (n : Node) (j : Option PurgeJob) : (s.putJob n j).answerQ = s.answerQ := rfl
@[simp] theorem putJob_orderHeld (s : State) (n : Node) (j : Option PurgeJob) : (s.putJob n j).orderHeld = s.orderHeld := rfl
@[simp] theorem putJob_answerHeld (s : State) (n : Node) (j : Option PurgeJob) : (s.putJob n j).answerHeld = s.answerHeld := rfl
@[simp] theorem putJob_txFrame (s : State) (n : Node) (j : Option PurgeJob) : (s.putJob n j).txFrame = s.txFrame := rfl
@[simp] theorem putJob_limits (s : State) (n : Node) (j : Option PurgeJob) : (s.putJob n j).limits = s.limits := rfl
@[simp] theorem putJob_limitRejected (s : State) (n : Node) (j : Option PurgeJob) : (s.putJob n j).limitRejected = s.limitRejected := rfl
@[simp] theorem putJob_mbState (s : State) (n : Node) (j : Option PurgeJob) : (s.putJob n j).mbState = s.mbState := rfl
@[simp] theorem putJob_mbResult (s : State) (n : Node) (j : Option PurgeJob) : (s.putJob n j).mbResult = s.mbResult := rfl
@[simp] theorem putJob_overrun (s : State) (n : Node) (j : Option PurgeJob) : (s.putJob n j).overrun = s.overrun := rfl
@[simp] theorem putJob_args (s : State) (n : Node) (j : Option PurgeJob) : (s.putJob n j).args = s.args := rfl
@[simp] theorem putJob_results (s : State) (n : Node) (j : Option PurgeJob) : (s.putJob n j).results = s.results := rfl
@[simp] theorem putJob_poisonPass (s : State) (n : Node) (j : Option PurgeJob) : (s.putJob n j).poisonPass = s.poisonPass := rfl
@[simp] theorem putJob_flags (s : State) (n : Node) (j : Option PurgeJob) : (s.putJob n j).flags = s.flags := rfl
@[simp] theorem putJob_enables (s : State) (n : Node) (j : Option PurgeJob) : (s.putJob n j).enables = s.enables := rfl
@[simp] theorem putJob_counters (s : State) (n : Node) (j : Option PurgeJob) : (s.putJob n j).counters = s.counters := rfl
@[simp] theorem putJob_capture (s : State) (n : Node) (j : Option PurgeJob) : (s.putJob n j).capture = s.capture := rfl
@[simp] theorem putJob_snapNode (s : State) (n : Node) (j : Option PurgeJob) : (s.putJob n j).snapNode = s.snapNode := rfl
@[simp] theorem putJob_snapWindow (s : State) (n : Node) (j : Option PurgeJob) : (s.putJob n j).snapWindow = s.snapWindow := rfl
@[simp] theorem putJob_snapWalk (s : State) (n : Node) (j : Option PurgeJob) : (s.putJob n j).snapWalk = s.snapWalk := rfl
@[simp] theorem putJob_snapCapture (s : State) (n : Node) (j : Option PurgeJob) : (s.putJob n j).snapCapture = s.snapCapture := rfl
@[simp] theorem putJob_inspect (s : State) (n : Node) (j : Option PurgeJob) : (s.putJob n j).inspect = s.inspect := rfl
@[simp] theorem putJob_eventN (s : State) (n : Node) (j : Option PurgeJob) : (s.putJob n j).eventN = s.eventN := rfl
@[simp] theorem putJob_sdo (s : State) (n : Node) (j : Option PurgeJob) : (s.putJob n j).sdo = s.sdo := rfl
@[simp] theorem putJob_sdoTail (s : State) (n : Node) (j : Option PurgeJob) : (s.putJob n j).sdoTail = s.sdoTail := rfl
@[simp] theorem putJob_resetN (s : State) (n : Node) (j : Option PurgeJob) : (s.putJob n j).resetN = s.resetN := rfl
@[simp] theorem putJob_freeCount (s : State) (n : Node) (j : Option PurgeJob) : (s.putJob n j).freeCount = s.freeCount := rfl
@[simp] theorem putJob_pending (s : State) (n : Node) (j : Option PurgeJob) : (s.putJob n j).pending = s.pending := rfl

/-! ## raise -/

@[simp] theorem raise_dir (s : State) (e : Event) : (s.raise e).dir = s.dir := rfl
@[simp] theorem raise_slots (s : State) (e : Event) : (s.raise e).slots = s.slots := rfl
@[simp] theorem raise_notices (s : State) (e : Event) : (s.raise e).notices = s.notices := rfl
@[simp] theorem raise_nodes (s : State) (e : Event) : (s.raise e).nodes = s.nodes := rfl
@[simp] theorem raise_mem (s : State) (e : Event) : (s.raise e).mem = s.mem := rfl
@[simp] theorem raise_memTimeouts (s : State) (e : Event) : (s.raise e).memTimeouts = s.memTimeouts := rfl
@[simp] theorem raise_ntHeld (s : State) (e : Event) : (s.raise e).ntHeld = s.ntHeld := rfl
@[simp] theorem raise_windows (s : State) (e : Event) : (s.raise e).windows = s.windows := rfl
@[simp] theorem raise_purgePos (s : State) (e : Event) : (s.raise e).purgePos = s.purgePos := rfl
@[simp] theorem raise_purgeJobs (s : State) (e : Event) : (s.raise e).purgeJobs = s.purgeJobs := rfl
@[simp] theorem raise_purgeStep (s : State) (e : Event) : (s.raise e).purgeStep = s.purgeStep := rfl
@[simp] theorem raise_maint (s : State) (e : Event) : (s.raise e).maint = s.maint := rfl
@[simp] theorem raise_maintStep (s : State) (e : Event) : (s.raise e).maintStep = s.maintStep := rfl
@[simp] theorem raise_scrubPos (s : State) (e : Event) : (s.raise e).scrubPos = s.scrubPos := rfl
@[simp] theorem raise_riHeld (s : State) (e : Event) : (s.raise e).riHeld = s.riHeld := rfl
@[simp] theorem raise_link (s : State) (e : Event) : (s.raise e).link = s.link := rfl
@[simp] theorem raise_curSetting (s : State) (e : Event) : (s.raise e).curSetting = s.curSetting := rfl
@[simp] theorem raise_nextSetting (s : State) (e : Event) : (s.raise e).nextSetting = s.nextSetting := rfl
@[simp] theorem raise_reqIntake (s : State) (e : Event) : (s.raise e).reqIntake = s.reqIntake := rfl
@[simp] theorem raise_replyIntake (s : State) (e : Event) : (s.raise e).replyIntake = s.replyIntake := rfl
@[simp] theorem raise_orderQ (s : State) (e : Event) : (s.raise e).orderQ = s.orderQ := rfl
@[simp] theorem raise_answerQ (s : State) (e : Event) : (s.raise e).answerQ = s.answerQ := rfl
@[simp] theorem raise_orderHeld (s : State) (e : Event) : (s.raise e).orderHeld = s.orderHeld := rfl
@[simp] theorem raise_answerHeld (s : State) (e : Event) : (s.raise e).answerHeld = s.answerHeld := rfl
@[simp] theorem raise_txFrame (s : State) (e : Event) : (s.raise e).txFrame = s.txFrame := rfl
@[simp] theorem raise_limits (s : State) (e : Event) : (s.raise e).limits = s.limits := rfl
@[simp] theorem raise_limitRejected (s : State) (e : Event) : (s.raise e).limitRejected = s.limitRejected := rfl
@[simp] theorem raise_mbState (s : State) (e : Event) : (s.raise e).mbState = s.mbState := rfl
@[simp] theorem raise_mbResult (s : State) (e : Event) : (s.raise e).mbResult = s.mbResult := rfl
@[simp] theorem raise_overrun (s : State) (e : Event) : (s.raise e).overrun = s.overrun := rfl
@[simp] theorem raise_args (s : State) (e : Event) : (s.raise e).args = s.args := rfl
@[simp] theorem raise_results (s : State) (e : Event) : (s.raise e).results = s.results := rfl
@[simp] theorem raise_poisonPass (s : State) (e : Event) : (s.raise e).poisonPass = s.poisonPass := rfl
@[simp] theorem raise_enables (s : State) (e : Event) : (s.raise e).enables = s.enables := rfl
@[simp] theorem raise_counters (s : State) (e : Event) : (s.raise e).counters = s.counters := rfl
@[simp] theorem raise_capture (s : State) (e : Event) : (s.raise e).capture = s.capture := rfl
@[simp] theorem raise_snapNode (s : State) (e : Event) : (s.raise e).snapNode = s.snapNode := rfl
@[simp] theorem raise_snapWindow (s : State) (e : Event) : (s.raise e).snapWindow = s.snapWindow := rfl
@[simp] theorem raise_snapWalk (s : State) (e : Event) : (s.raise e).snapWalk = s.snapWalk := rfl
@[simp] theorem raise_snapCapture (s : State) (e : Event) : (s.raise e).snapCapture = s.snapCapture := rfl
@[simp] theorem raise_inspect (s : State) (e : Event) : (s.raise e).inspect = s.inspect := rfl
@[simp] theorem raise_eventN (s : State) (e : Event) : (s.raise e).eventN = s.eventN := rfl
@[simp] theorem raise_sdo (s : State) (e : Event) : (s.raise e).sdo = s.sdo := rfl
@[simp] theorem raise_sdoTail (s : State) (e : Event) : (s.raise e).sdoTail = s.sdoTail := rfl
@[simp] theorem raise_resetN (s : State) (e : Event) : (s.raise e).resetN = s.resetN := rfl
@[simp] theorem raise_freeCount (s : State) (e : Event) : (s.raise e).freeCount = s.freeCount := rfl
@[simp] theorem raise_pending (s : State) (e : Event) : (s.raise e).pending = s.pending := rfl

/-! ## fault -/

@[simp] theorem fault_dir (s : State) (c : Cause) (f : FaultFields) : (s.fault c f).dir = s.dir := by unfold State.fault; split <;> rfl
@[simp] theorem fault_slots (s : State) (c : Cause) (f : FaultFields) : (s.fault c f).slots = s.slots := by unfold State.fault; split <;> rfl
@[simp] theorem fault_notices (s : State) (c : Cause) (f : FaultFields) : (s.fault c f).notices = s.notices := by unfold State.fault; split <;> rfl
@[simp] theorem fault_nodes (s : State) (c : Cause) (f : FaultFields) : (s.fault c f).nodes = s.nodes := by unfold State.fault; split <;> rfl
@[simp] theorem fault_mem (s : State) (c : Cause) (f : FaultFields) : (s.fault c f).mem = s.mem := by unfold State.fault; split <;> rfl
@[simp] theorem fault_memTimeouts (s : State) (c : Cause) (f : FaultFields) : (s.fault c f).memTimeouts = s.memTimeouts := by unfold State.fault; split <;> rfl
@[simp] theorem fault_ntHeld (s : State) (c : Cause) (f : FaultFields) : (s.fault c f).ntHeld = s.ntHeld := by unfold State.fault; split <;> rfl
@[simp] theorem fault_windows (s : State) (c : Cause) (f : FaultFields) : (s.fault c f).windows = s.windows := by unfold State.fault; split <;> rfl
@[simp] theorem fault_purgePos (s : State) (c : Cause) (f : FaultFields) : (s.fault c f).purgePos = s.purgePos := by unfold State.fault; split <;> rfl
@[simp] theorem fault_purgeJobs (s : State) (c : Cause) (f : FaultFields) : (s.fault c f).purgeJobs = s.purgeJobs := by unfold State.fault; split <;> rfl
@[simp] theorem fault_purgeStep (s : State) (c : Cause) (f : FaultFields) : (s.fault c f).purgeStep = s.purgeStep := by unfold State.fault; split <;> rfl
@[simp] theorem fault_maint (s : State) (c : Cause) (f : FaultFields) : (s.fault c f).maint = s.maint := by unfold State.fault; split <;> rfl
@[simp] theorem fault_maintStep (s : State) (c : Cause) (f : FaultFields) : (s.fault c f).maintStep = s.maintStep := by unfold State.fault; split <;> rfl
@[simp] theorem fault_scrubPos (s : State) (c : Cause) (f : FaultFields) : (s.fault c f).scrubPos = s.scrubPos := by unfold State.fault; split <;> rfl
@[simp] theorem fault_riHeld (s : State) (c : Cause) (f : FaultFields) : (s.fault c f).riHeld = s.riHeld := by unfold State.fault; split <;> rfl
@[simp] theorem fault_link (s : State) (c : Cause) (f : FaultFields) : (s.fault c f).link = s.link := by unfold State.fault; split <;> rfl
@[simp] theorem fault_curSetting (s : State) (c : Cause) (f : FaultFields) : (s.fault c f).curSetting = s.curSetting := by unfold State.fault; split <;> rfl
@[simp] theorem fault_nextSetting (s : State) (c : Cause) (f : FaultFields) : (s.fault c f).nextSetting = s.nextSetting := by unfold State.fault; split <;> rfl
@[simp] theorem fault_reqIntake (s : State) (c : Cause) (f : FaultFields) : (s.fault c f).reqIntake = s.reqIntake := by unfold State.fault; split <;> rfl
@[simp] theorem fault_replyIntake (s : State) (c : Cause) (f : FaultFields) : (s.fault c f).replyIntake = s.replyIntake := by unfold State.fault; split <;> rfl
@[simp] theorem fault_orderQ (s : State) (c : Cause) (f : FaultFields) : (s.fault c f).orderQ = s.orderQ := by unfold State.fault; split <;> rfl
@[simp] theorem fault_answerQ (s : State) (c : Cause) (f : FaultFields) : (s.fault c f).answerQ = s.answerQ := by unfold State.fault; split <;> rfl
@[simp] theorem fault_orderHeld (s : State) (c : Cause) (f : FaultFields) : (s.fault c f).orderHeld = s.orderHeld := by unfold State.fault; split <;> rfl
@[simp] theorem fault_answerHeld (s : State) (c : Cause) (f : FaultFields) : (s.fault c f).answerHeld = s.answerHeld := by unfold State.fault; split <;> rfl
@[simp] theorem fault_txFrame (s : State) (c : Cause) (f : FaultFields) : (s.fault c f).txFrame = s.txFrame := by unfold State.fault; split <;> rfl
@[simp] theorem fault_limits (s : State) (c : Cause) (f : FaultFields) : (s.fault c f).limits = s.limits := by unfold State.fault; split <;> rfl
@[simp] theorem fault_limitRejected (s : State) (c : Cause) (f : FaultFields) : (s.fault c f).limitRejected = s.limitRejected := by unfold State.fault; split <;> rfl
@[simp] theorem fault_mbState (s : State) (c : Cause) (f : FaultFields) : (s.fault c f).mbState = s.mbState := by unfold State.fault; split <;> rfl
@[simp] theorem fault_mbResult (s : State) (c : Cause) (f : FaultFields) : (s.fault c f).mbResult = s.mbResult := by unfold State.fault; split <;> rfl
@[simp] theorem fault_overrun (s : State) (c : Cause) (f : FaultFields) : (s.fault c f).overrun = s.overrun := by unfold State.fault; split <;> rfl
@[simp] theorem fault_args (s : State) (c : Cause) (f : FaultFields) : (s.fault c f).args = s.args := by unfold State.fault; split <;> rfl
@[simp] theorem fault_results (s : State) (c : Cause) (f : FaultFields) : (s.fault c f).results = s.results := by unfold State.fault; split <;> rfl
@[simp] theorem fault_poisonPass (s : State) (c : Cause) (f : FaultFields) : (s.fault c f).poisonPass = s.poisonPass := by unfold State.fault; split <;> rfl
@[simp] theorem fault_flags (s : State) (c : Cause) (f : FaultFields) : (s.fault c f).flags = s.flags := by unfold State.fault; split <;> rfl
@[simp] theorem fault_enables (s : State) (c : Cause) (f : FaultFields) : (s.fault c f).enables = s.enables := by unfold State.fault; split <;> rfl
@[simp] theorem fault_counters (s : State) (c : Cause) (f : FaultFields) : (s.fault c f).counters = s.counters := by unfold State.fault; split <;> rfl
@[simp] theorem fault_snapNode (s : State) (c : Cause) (f : FaultFields) : (s.fault c f).snapNode = s.snapNode := by unfold State.fault; split <;> rfl
@[simp] theorem fault_snapWindow (s : State) (c : Cause) (f : FaultFields) : (s.fault c f).snapWindow = s.snapWindow := by unfold State.fault; split <;> rfl
@[simp] theorem fault_snapWalk (s : State) (c : Cause) (f : FaultFields) : (s.fault c f).snapWalk = s.snapWalk := by unfold State.fault; split <;> rfl
@[simp] theorem fault_snapCapture (s : State) (c : Cause) (f : FaultFields) : (s.fault c f).snapCapture = s.snapCapture := by unfold State.fault; split <;> rfl
@[simp] theorem fault_inspect (s : State) (c : Cause) (f : FaultFields) : (s.fault c f).inspect = s.inspect := by unfold State.fault; split <;> rfl
@[simp] theorem fault_eventN (s : State) (c : Cause) (f : FaultFields) : (s.fault c f).eventN = s.eventN := by unfold State.fault; split <;> rfl
@[simp] theorem fault_sdo (s : State) (c : Cause) (f : FaultFields) : (s.fault c f).sdo = s.sdo := by unfold State.fault; split <;> rfl
@[simp] theorem fault_sdoTail (s : State) (c : Cause) (f : FaultFields) : (s.fault c f).sdoTail = s.sdoTail := by unfold State.fault; split <;> rfl
@[simp] theorem fault_resetN (s : State) (c : Cause) (f : FaultFields) : (s.fault c f).resetN = s.resetN := by unfold State.fault; split <;> rfl
@[simp] theorem fault_freeCount (s : State) (c : Cause) (f : FaultFields) : (s.fault c f).freeCount = s.freeCount := by unfold State.fault; split <;> rfl
@[simp] theorem fault_pending (s : State) (c : Cause) (f : FaultFields) : (s.fault c f).pending = s.pending := by unfold State.fault; split <;> rfl

/-! ## driveEventN -/

@[simp] theorem driveEventN_dir (s : State) : (s.driveEventN).dir = s.dir := rfl
@[simp] theorem driveEventN_slots (s : State) : (s.driveEventN).slots = s.slots := rfl
@[simp] theorem driveEventN_notices (s : State) : (s.driveEventN).notices = s.notices := rfl
@[simp] theorem driveEventN_nodes (s : State) : (s.driveEventN).nodes = s.nodes := rfl
@[simp] theorem driveEventN_mem (s : State) : (s.driveEventN).mem = s.mem := rfl
@[simp] theorem driveEventN_memTimeouts (s : State) : (s.driveEventN).memTimeouts = s.memTimeouts := rfl
@[simp] theorem driveEventN_ntHeld (s : State) : (s.driveEventN).ntHeld = s.ntHeld := rfl
@[simp] theorem driveEventN_windows (s : State) : (s.driveEventN).windows = s.windows := rfl
@[simp] theorem driveEventN_purgePos (s : State) : (s.driveEventN).purgePos = s.purgePos := rfl
@[simp] theorem driveEventN_purgeJobs (s : State) : (s.driveEventN).purgeJobs = s.purgeJobs := rfl
@[simp] theorem driveEventN_purgeStep (s : State) : (s.driveEventN).purgeStep = s.purgeStep := rfl
@[simp] theorem driveEventN_maint (s : State) : (s.driveEventN).maint = s.maint := rfl
@[simp] theorem driveEventN_maintStep (s : State) : (s.driveEventN).maintStep = s.maintStep := rfl
@[simp] theorem driveEventN_scrubPos (s : State) : (s.driveEventN).scrubPos = s.scrubPos := rfl
@[simp] theorem driveEventN_riHeld (s : State) : (s.driveEventN).riHeld = s.riHeld := rfl
@[simp] theorem driveEventN_link (s : State) : (s.driveEventN).link = s.link := rfl
@[simp] theorem driveEventN_curSetting (s : State) : (s.driveEventN).curSetting = s.curSetting := rfl
@[simp] theorem driveEventN_nextSetting (s : State) : (s.driveEventN).nextSetting = s.nextSetting := rfl
@[simp] theorem driveEventN_reqIntake (s : State) : (s.driveEventN).reqIntake = s.reqIntake := rfl
@[simp] theorem driveEventN_replyIntake (s : State) : (s.driveEventN).replyIntake = s.replyIntake := rfl
@[simp] theorem driveEventN_orderQ (s : State) : (s.driveEventN).orderQ = s.orderQ := rfl
@[simp] theorem driveEventN_answerQ (s : State) : (s.driveEventN).answerQ = s.answerQ := rfl
@[simp] theorem driveEventN_orderHeld (s : State) : (s.driveEventN).orderHeld = s.orderHeld := rfl
@[simp] theorem driveEventN_answerHeld (s : State) : (s.driveEventN).answerHeld = s.answerHeld := rfl
@[simp] theorem driveEventN_txFrame (s : State) : (s.driveEventN).txFrame = s.txFrame := rfl
@[simp] theorem driveEventN_limits (s : State) : (s.driveEventN).limits = s.limits := rfl
@[simp] theorem driveEventN_limitRejected (s : State) : (s.driveEventN).limitRejected = s.limitRejected := rfl
@[simp] theorem driveEventN_mbState (s : State) : (s.driveEventN).mbState = s.mbState := rfl
@[simp] theorem driveEventN_mbResult (s : State) : (s.driveEventN).mbResult = s.mbResult := rfl
@[simp] theorem driveEventN_overrun (s : State) : (s.driveEventN).overrun = s.overrun := rfl
@[simp] theorem driveEventN_args (s : State) : (s.driveEventN).args = s.args := rfl
@[simp] theorem driveEventN_results (s : State) : (s.driveEventN).results = s.results := rfl
@[simp] theorem driveEventN_poisonPass (s : State) : (s.driveEventN).poisonPass = s.poisonPass := rfl
@[simp] theorem driveEventN_flags (s : State) : (s.driveEventN).flags = s.flags := rfl
@[simp] theorem driveEventN_enables (s : State) : (s.driveEventN).enables = s.enables := rfl
@[simp] theorem driveEventN_counters (s : State) : (s.driveEventN).counters = s.counters := rfl
@[simp] theorem driveEventN_capture (s : State) : (s.driveEventN).capture = s.capture := rfl
@[simp] theorem driveEventN_snapNode (s : State) : (s.driveEventN).snapNode = s.snapNode := rfl
@[simp] theorem driveEventN_snapWindow (s : State) : (s.driveEventN).snapWindow = s.snapWindow := rfl
@[simp] theorem driveEventN_snapWalk (s : State) : (s.driveEventN).snapWalk = s.snapWalk := rfl
@[simp] theorem driveEventN_snapCapture (s : State) : (s.driveEventN).snapCapture = s.snapCapture := rfl
@[simp] theorem driveEventN_inspect (s : State) : (s.driveEventN).inspect = s.inspect := rfl
@[simp] theorem driveEventN_sdo (s : State) : (s.driveEventN).sdo = s.sdo := rfl
@[simp] theorem driveEventN_sdoTail (s : State) : (s.driveEventN).sdoTail = s.sdoTail := rfl
@[simp] theorem driveEventN_resetN (s : State) : (s.driveEventN).resetN = s.resetN := rfl
@[simp] theorem driveEventN_freeCount (s : State) : (s.driveEventN).freeCount = s.freeCount := rfl
@[simp] theorem driveEventN_pending (s : State) : (s.driveEventN).pending = s.pending := rfl

/-! ## withPending -/

@[simp] theorem withPending_dir (s : State) (cs : List Instr) : (s.withPending cs).dir = s.dir := rfl
@[simp] theorem withPending_slots (s : State) (cs : List Instr) : (s.withPending cs).slots = s.slots := rfl
@[simp] theorem withPending_notices (s : State) (cs : List Instr) : (s.withPending cs).notices = s.notices := rfl
@[simp] theorem withPending_nodes (s : State) (cs : List Instr) : (s.withPending cs).nodes = s.nodes := rfl
@[simp] theorem withPending_mem (s : State) (cs : List Instr) : (s.withPending cs).mem = s.mem := rfl
@[simp] theorem withPending_memTimeouts (s : State) (cs : List Instr) : (s.withPending cs).memTimeouts = s.memTimeouts := rfl
@[simp] theorem withPending_ntHeld (s : State) (cs : List Instr) : (s.withPending cs).ntHeld = s.ntHeld := rfl
@[simp] theorem withPending_windows (s : State) (cs : List Instr) : (s.withPending cs).windows = s.windows := rfl
@[simp] theorem withPending_purgePos (s : State) (cs : List Instr) : (s.withPending cs).purgePos = s.purgePos := rfl
@[simp] theorem withPending_purgeJobs (s : State) (cs : List Instr) : (s.withPending cs).purgeJobs = s.purgeJobs := rfl
@[simp] theorem withPending_purgeStep (s : State) (cs : List Instr) : (s.withPending cs).purgeStep = s.purgeStep := rfl
@[simp] theorem withPending_maint (s : State) (cs : List Instr) : (s.withPending cs).maint = s.maint := rfl
@[simp] theorem withPending_maintStep (s : State) (cs : List Instr) : (s.withPending cs).maintStep = s.maintStep := rfl
@[simp] theorem withPending_scrubPos (s : State) (cs : List Instr) : (s.withPending cs).scrubPos = s.scrubPos := rfl
@[simp] theorem withPending_riHeld (s : State) (cs : List Instr) : (s.withPending cs).riHeld = s.riHeld := rfl
@[simp] theorem withPending_link (s : State) (cs : List Instr) : (s.withPending cs).link = s.link := rfl
@[simp] theorem withPending_curSetting (s : State) (cs : List Instr) : (s.withPending cs).curSetting = s.curSetting := rfl
@[simp] theorem withPending_nextSetting (s : State) (cs : List Instr) : (s.withPending cs).nextSetting = s.nextSetting := rfl
@[simp] theorem withPending_reqIntake (s : State) (cs : List Instr) : (s.withPending cs).reqIntake = s.reqIntake := rfl
@[simp] theorem withPending_replyIntake (s : State) (cs : List Instr) : (s.withPending cs).replyIntake = s.replyIntake := rfl
@[simp] theorem withPending_orderQ (s : State) (cs : List Instr) : (s.withPending cs).orderQ = s.orderQ := rfl
@[simp] theorem withPending_answerQ (s : State) (cs : List Instr) : (s.withPending cs).answerQ = s.answerQ := rfl
@[simp] theorem withPending_orderHeld (s : State) (cs : List Instr) : (s.withPending cs).orderHeld = s.orderHeld := rfl
@[simp] theorem withPending_answerHeld (s : State) (cs : List Instr) : (s.withPending cs).answerHeld = s.answerHeld := rfl
@[simp] theorem withPending_txFrame (s : State) (cs : List Instr) : (s.withPending cs).txFrame = s.txFrame := rfl
@[simp] theorem withPending_limits (s : State) (cs : List Instr) : (s.withPending cs).limits = s.limits := rfl
@[simp] theorem withPending_limitRejected (s : State) (cs : List Instr) : (s.withPending cs).limitRejected = s.limitRejected := rfl
@[simp] theorem withPending_mbState (s : State) (cs : List Instr) : (s.withPending cs).mbState = s.mbState := rfl
@[simp] theorem withPending_mbResult (s : State) (cs : List Instr) : (s.withPending cs).mbResult = s.mbResult := rfl
@[simp] theorem withPending_overrun (s : State) (cs : List Instr) : (s.withPending cs).overrun = s.overrun := rfl
@[simp] theorem withPending_args (s : State) (cs : List Instr) : (s.withPending cs).args = s.args := rfl
@[simp] theorem withPending_results (s : State) (cs : List Instr) : (s.withPending cs).results = s.results := rfl
@[simp] theorem withPending_poisonPass (s : State) (cs : List Instr) : (s.withPending cs).poisonPass = s.poisonPass := rfl
@[simp] theorem withPending_flags (s : State) (cs : List Instr) : (s.withPending cs).flags = s.flags := rfl
@[simp] theorem withPending_enables (s : State) (cs : List Instr) : (s.withPending cs).enables = s.enables := rfl
@[simp] theorem withPending_counters (s : State) (cs : List Instr) : (s.withPending cs).counters = s.counters := rfl
@[simp] theorem withPending_capture (s : State) (cs : List Instr) : (s.withPending cs).capture = s.capture := rfl
@[simp] theorem withPending_snapNode (s : State) (cs : List Instr) : (s.withPending cs).snapNode = s.snapNode := rfl
@[simp] theorem withPending_snapWindow (s : State) (cs : List Instr) : (s.withPending cs).snapWindow = s.snapWindow := rfl
@[simp] theorem withPending_snapWalk (s : State) (cs : List Instr) : (s.withPending cs).snapWalk = s.snapWalk := rfl
@[simp] theorem withPending_snapCapture (s : State) (cs : List Instr) : (s.withPending cs).snapCapture = s.snapCapture := rfl
@[simp] theorem withPending_inspect (s : State) (cs : List Instr) : (s.withPending cs).inspect = s.inspect := rfl
@[simp] theorem withPending_eventN (s : State) (cs : List Instr) : (s.withPending cs).eventN = s.eventN := rfl
@[simp] theorem withPending_sdo (s : State) (cs : List Instr) : (s.withPending cs).sdo = s.sdo := rfl
@[simp] theorem withPending_sdoTail (s : State) (cs : List Instr) : (s.withPending cs).sdoTail = s.sdoTail := rfl
@[simp] theorem withPending_resetN (s : State) (cs : List Instr) : (s.withPending cs).resetN = s.resetN := rfl
@[simp] theorem withPending_freeCount (s : State) (cs : List Instr) : (s.withPending cs).freeCount = s.freeCount := rfl

/-! ## finish -/

@[simp] theorem finish_dir (s : State) (c : ResultCode) : (s.finish c).dir = s.dir := rfl
@[simp] theorem finish_slots (s : State) (c : ResultCode) : (s.finish c).slots = s.slots := rfl
@[simp] theorem finish_notices (s : State) (c : ResultCode) : (s.finish c).notices = s.notices := rfl
@[simp] theorem finish_nodes (s : State) (c : ResultCode) : (s.finish c).nodes = s.nodes := rfl
@[simp] theorem finish_mem (s : State) (c : ResultCode) : (s.finish c).mem = s.mem := rfl
@[simp] theorem finish_memTimeouts (s : State) (c : ResultCode) : (s.finish c).memTimeouts = s.memTimeouts := rfl
@[simp] theorem finish_ntHeld (s : State) (c : ResultCode) : (s.finish c).ntHeld = s.ntHeld := rfl
@[simp] theorem finish_windows (s : State) (c : ResultCode) : (s.finish c).windows = s.windows := rfl
@[simp] theorem finish_purgePos (s : State) (c : ResultCode) : (s.finish c).purgePos = s.purgePos := rfl
@[simp] theorem finish_purgeJobs (s : State) (c : ResultCode) : (s.finish c).purgeJobs = s.purgeJobs := rfl
@[simp] theorem finish_purgeStep (s : State) (c : ResultCode) : (s.finish c).purgeStep = s.purgeStep := rfl
@[simp] theorem finish_maint (s : State) (c : ResultCode) : (s.finish c).maint = s.maint := rfl
@[simp] theorem finish_maintStep (s : State) (c : ResultCode) : (s.finish c).maintStep = s.maintStep := rfl
@[simp] theorem finish_scrubPos (s : State) (c : ResultCode) : (s.finish c).scrubPos = s.scrubPos := rfl
@[simp] theorem finish_riHeld (s : State) (c : ResultCode) : (s.finish c).riHeld = s.riHeld := rfl
@[simp] theorem finish_link (s : State) (c : ResultCode) : (s.finish c).link = s.link := rfl
@[simp] theorem finish_curSetting (s : State) (c : ResultCode) : (s.finish c).curSetting = s.curSetting := rfl
@[simp] theorem finish_nextSetting (s : State) (c : ResultCode) : (s.finish c).nextSetting = s.nextSetting := rfl
@[simp] theorem finish_reqIntake (s : State) (c : ResultCode) : (s.finish c).reqIntake = s.reqIntake := rfl
@[simp] theorem finish_replyIntake (s : State) (c : ResultCode) : (s.finish c).replyIntake = s.replyIntake := rfl
@[simp] theorem finish_orderQ (s : State) (c : ResultCode) : (s.finish c).orderQ = s.orderQ := rfl
@[simp] theorem finish_answerQ (s : State) (c : ResultCode) : (s.finish c).answerQ = s.answerQ := rfl
@[simp] theorem finish_orderHeld (s : State) (c : ResultCode) : (s.finish c).orderHeld = s.orderHeld := rfl
@[simp] theorem finish_answerHeld (s : State) (c : ResultCode) : (s.finish c).answerHeld = s.answerHeld := rfl
@[simp] theorem finish_txFrame (s : State) (c : ResultCode) : (s.finish c).txFrame = s.txFrame := rfl
@[simp] theorem finish_limits (s : State) (c : ResultCode) : (s.finish c).limits = s.limits := rfl
@[simp] theorem finish_limitRejected (s : State) (c : ResultCode) : (s.finish c).limitRejected = s.limitRejected := rfl
@[simp] theorem finish_overrun (s : State) (c : ResultCode) : (s.finish c).overrun = s.overrun := rfl
@[simp] theorem finish_args (s : State) (c : ResultCode) : (s.finish c).args = s.args := rfl
@[simp] theorem finish_results (s : State) (c : ResultCode) : (s.finish c).results = s.results := rfl
@[simp] theorem finish_poisonPass (s : State) (c : ResultCode) : (s.finish c).poisonPass = s.poisonPass := rfl
@[simp] theorem finish_enables (s : State) (c : ResultCode) : (s.finish c).enables = s.enables := rfl
@[simp] theorem finish_counters (s : State) (c : ResultCode) : (s.finish c).counters = s.counters := rfl
@[simp] theorem finish_capture (s : State) (c : ResultCode) : (s.finish c).capture = s.capture := rfl
@[simp] theorem finish_snapNode (s : State) (c : ResultCode) : (s.finish c).snapNode = s.snapNode := rfl
@[simp] theorem finish_snapWindow (s : State) (c : ResultCode) : (s.finish c).snapWindow = s.snapWindow := rfl
@[simp] theorem finish_snapWalk (s : State) (c : ResultCode) : (s.finish c).snapWalk = s.snapWalk := rfl
@[simp] theorem finish_snapCapture (s : State) (c : ResultCode) : (s.finish c).snapCapture = s.snapCapture := rfl
@[simp] theorem finish_inspect (s : State) (c : ResultCode) : (s.finish c).inspect = s.inspect := rfl
@[simp] theorem finish_eventN (s : State) (c : ResultCode) : (s.finish c).eventN = s.eventN := rfl
@[simp] theorem finish_sdo (s : State) (c : ResultCode) : (s.finish c).sdo = s.sdo := rfl
@[simp] theorem finish_sdoTail (s : State) (c : ResultCode) : (s.finish c).sdoTail = s.sdoTail := rfl
@[simp] theorem finish_resetN (s : State) (c : ResultCode) : (s.finish c).resetN = s.resetN := rfl
@[simp] theorem finish_freeCount (s : State) (c : ResultCode) : (s.finish c).freeCount = s.freeCount := rfl
@[simp] theorem finish_pending (s : State) (c : ResultCode) : (s.finish c).pending = s.pending := rfl

/-! ## What each writes -/

@[simp] theorem raise_flags (s : State) (e : Event) : (s.raise e).flags = s.flags ||| (1#16 <<< e.bit) := rfl
@[simp] theorem driveEventN_eventN (s : State) : s.driveEventN.eventN = s.eventLevel := rfl
@[simp] theorem withPending_pending (s : State) (cs : List Instr) : (s.withPending cs).pending = cs := rfl
@[simp] theorem putSet_dir (s : State) (i : SetIx) (r : SetRec) : (s.putSet i r).dir = dirPut i r s.dir := rfl
@[simp] theorem putSlot_slots (s : State) (t : SlotIx) (v : Option Slot) : (s.putSlot t v).slots = s.slots.set t.val v t.isLt := rfl
@[simp] theorem modNode_nodes (s : State) (n : Node) (f : NodeRec → NodeRec) : (s.modNode n f).nodes = s.nodes.set n.val (f (s.getNode n)) n.isLt := rfl
@[simp] theorem modWindow_windows (s : State) (w : WinIx) (f : Window → Window) : (s.modWindow w f).windows = s.windows.set w.val (f (s.getWindow w)) w.isLt := rfl
@[simp] theorem putJob_purgeJobs (s : State) (n : Node) (j : Option PurgeJob) : (s.putJob n j).purgeJobs = s.purgeJobs.set n.val j n.isLt := rfl
@[simp] theorem finish_mbResult (s : State) (c : ResultCode) : (s.finish c).mbResult = c := rfl
@[simp] theorem finish_flags (s : State) (c : ResultCode) : (s.finish c).flags = s.flags ||| (1#16 <<< Event.commandDone.bit) := rfl

end Sys2Proof.Machine
end

