-- ==== Sys2Proof/Laws/Store.lean ====
section
/-! SUPPORT. Reads after writes: the directory's store and its canonical form, slots, node and window records, jobs. -/

namespace Sys2Proof.Machine

set_option Elab.async false

/-! ## The directory's store -/

theorem dirWf_tail {p : SetIx × SetRec} {l : List (SetIx × SetRec)} (h : dirWf (p :: l) = true) : dirWf l = true := by
  match l, h with
  | [], _ => rfl
  | q :: l, h => simp only [dirWf, Bool.and_eq_true] at h; exact h.2

theorem dirWf_head {p : SetIx × SetRec} {l : List (SetIx × SetRec)} (h : dirWf (p :: l) = true) : p.2 ≠ blankSet := by
  match l, h with
  | [], h => simpa [dirWf] using h
  | q :: l, h => simp only [dirWf, Bool.and_eq_true, decide_eq_true_eq] at h; exact h.1.1

theorem dirWf_rising {p : SetIx × SetRec} {l : List (SetIx × SetRec)} (h : dirWf (p :: l) = true) :
    ∀ q ∈ l, p.1 < q.1 := by
  induction l generalizing p with
  | nil => simp
  | cons q l ih =>
    have h1 : p.1 < q.1 := by
      simp only [dirWf, Bool.and_eq_true, decide_eq_true_eq] at h; exact h.1.2
    intro r hr
    rcases List.mem_cons.1 hr with rfl | hr
    · exact h1
    · exact lt_trans h1 (ih (dirWf_tail h) r hr)

theorem dirWf_cons {p : SetIx × SetRec} {l : List (SetIx × SetRec)} (h1 : p.2 ≠ blankSet) (h2 : ∀ q ∈ l, p.1 < q.1)
    (h3 : dirWf l = true) : dirWf (p :: l) = true := by
  match l, h3 with
  | [], _ => simpa [dirWf] using h1
  | q :: l, h3 =>
    simp only [dirWf, Bool.and_eq_true, decide_eq_true_eq]
    exact ⟨⟨h1, h2 q (by simp)⟩, h3⟩

theorem dirGet_absent {i : SetIx} {l : List (SetIx × SetRec)} (h : ∀ q ∈ l, i < q.1) : dirGet l i = blankSet := by
  induction l with
  | nil => rfl
  | cons q l ih =>
    have h1 := h q (by simp)
    simp only [dirGet]
    rw [if_neg (ne_of_gt h1), ih (fun r hr => h r (by simp [hr]))]

theorem dirPut_mem {i : SetIx} {r : SetRec} {l : List (SetIx × SetRec)} {q : SetIx × SetRec} (h : q ∈ dirPut i r l) :
    q = (i, r) ∨ q ∈ l := by
  induction l with
  | nil =>
    simp only [dirPut] at h
    split at h <;> simp_all
  | cons p l ih =>
    simp only [dirPut] at h
    split at h
    · split at h <;> simp_all
    · split at h
      · split at h
        · simp [h]
        · rcases List.mem_cons.1 h with h | h <;> simp [h]
      · rcases List.mem_cons.1 h with rfl | h
        · simp
        · rcases ih h with h | h <;> simp [h]

/-- A write keeps the canonical form. -/
theorem dirPut_wf {i : SetIx} {r : SetRec} {l : List (SetIx × SetRec)} (h : dirWf l = true) :
    dirWf (dirPut i r l) = true := by
  induction l with
  | nil => by_cases hr : r = blankSet <;> simp [dirPut, hr, dirWf]
  | cons p l ih =>
    have hup := dirWf_rising h
    simp only [dirPut]
    split
    · rename_i hlt
      split
      · exact h
      · rename_i hr
        refine dirWf_cons hr ?_ h
        intro q hq
        rcases List.mem_cons.1 hq with rfl | hq
        · exact hlt
        · exact lt_trans hlt (hup q hq)
    · split
      · rename_i heq
        split
        · exact dirWf_tail h
        · rename_i hr
          exact dirWf_cons hr (by intro q hq; simpa [heq] using hup q hq) (dirWf_tail h)
      · rename_i h1 h2
        refine dirWf_cons (dirWf_head h) ?_ (ih (dirWf_tail h))
        intro q hq
        rcases dirPut_mem hq with rfl | hq
        · exact lt_of_le_of_ne (not_lt.1 h1) (Ne.symm h2)
        · exact hup q hq

/-- A read after a write: the set written reads as written, every other set as before. -/
theorem dirGet_dirPut {i j : SetIx} {r : SetRec} {l : List (SetIx × SetRec)} (h : dirWf l = true) :
    dirGet (dirPut i r l) j = if j = i then r else dirGet l j := by
  induction l with
  | nil =>
    by_cases hr : r = blankSet <;> by_cases hj : j = i <;> simp [dirPut, hr, hj, dirGet]
    intro h; exact absurd h.symm hj
  | cons p l ih =>
    obtain ⟨k, q⟩ := p
    have hup := dirWf_rising h
    have ih := ih (dirWf_tail h)
    simp only [dirPut]
    split
    · rename_i hlt
      have hgone : dirGet ((k, q) :: l) i = blankSet := dirGet_absent (by
        intro u hu
        rcases List.mem_cons.1 hu with rfl | hu
        · exact hlt
        · exact lt_trans hlt (hup u hu))
      split
      · rename_i hr
        by_cases hj : j = i
        · subst hj; simp [hgone, hr]
        · simp [hj]
      · by_cases hj : j = i
        · subst hj; simp [dirGet]
        · rw [if_neg hj, dirGet, if_neg (Ne.symm hj)]
    · split
      · rename_i heq
        subst heq
        split
        · rename_i hr
          by_cases hj : j = i
          · subst hj; rw [if_pos rfl, hr]; exact dirGet_absent hup
          · rw [if_neg hj, dirGet, if_neg (Ne.symm hj)]
        · by_cases hj : j = i
          · subst hj; simp [dirGet]
          · simp only [dirGet]; rw [if_neg (Ne.symm hj), if_neg (Ne.symm hj), if_neg hj]
      · rename_i h1 h2
        simp only [dirGet]
        by_cases hk : k = j
        · subst hk; simp [Ne.symm h2]
        · simp [hk, ih]

theorem getSet_putSet {s : State} (h : dirWf s.dir = true) (i j : SetIx) (r : SetRec) :
    (s.putSet i r).getSet j = if j = i then r else s.getSet j := dirGet_dirPut h

/-! ## Slots -/

theorem getSlot_putSlot (s : State) (t u : SlotIx) (v : Option Slot) :
    (s.putSlot t v).getSlot u = if u = t then v else s.getSlot u := by
  simp only [State.getSlot, State.putSlot, Fin.getElem_fin, Vector.getElem_set]
  by_cases h : u = t
  · subst h; simp
  · have : t.val ≠ u.val := fun e => h (Fin.ext e.symm)
    simp [h, this]

theorem getSlot_modSlot (s : State) (t u : SlotIx) (f : Slot → Slot) :
    (s.modSlot t f).getSlot u = if u = t then (s.getSlot t).map f else s.getSlot u := by
  unfold State.modSlot
  cases h : s.getSlot t with
  | none => by_cases hu : u = t <;> simp [hu, h]
  | some x => simp [getSlot_putSlot]

theorem mem_allSlots (t : SlotIx) : t ∈ allSlots := by unfold allSlots; exact List.mem_finRange t

theorem nodup_allSlots : allSlots.Nodup := by unfold allSlots; exact List.nodup_finRange 48

theorem mem_allWays (w : WayIx) : w ∈ allWays := by unfold allWays; exact List.mem_finRange w

/-- Two states with the same slots at every number have the same table. -/
theorem slots_ext {v w : Vector (Option Slot) 48} (h : ∀ t : SlotIx, v[t] = w[t]) : v = w := by
  apply Vector.ext
  intro i hi
  exact h ⟨i, hi⟩

theorem foldl_modSlot_getSlot (f : Slot → Slot) (ts : List SlotIx) (hn : ts.Nodup) (s : State) (u : SlotIx) :
    (ts.foldl (fun s t => s.modSlot t f) s).getSlot u = if u ∈ ts then (s.getSlot u).map f else s.getSlot u := by
  induction ts generalizing s with
  | nil => simp
  | cons t ts ih =>
    have hn' := List.nodup_cons.1 hn
    rw [List.foldl_cons, ih hn'.2, getSlot_modSlot]
    by_cases hu : u = t
    · subst hu; simp [hn'.1]
    · simp [hu]

theorem foldl_modSlot_rest (f : Slot → Slot) (ts : List SlotIx) (s : State) :
    ts.foldl (fun s t => s.modSlot t f) s = { s with slots := (ts.foldl (fun s t => s.modSlot t f) s).slots } := by
  induction ts generalizing s with
  | nil => rfl
  | cons t ts ih =>
    rw [List.foldl_cons, ih]
    unfold State.modSlot
    split <;> rfl

/-- Every slot in use changed, and nothing but the slots. -/
theorem modSlots_eq (s : State) (f : Slot → Slot) : s.modSlots f = { s with slots := s.slots.map (Option.map f) } := by
  unfold State.modSlots
  rw [foldl_modSlot_rest]
  have : (allSlots.foldl (fun s t => s.modSlot t f) s).slots = s.slots.map (Option.map f) := by
    apply slots_ext
    intro t
    have := foldl_modSlot_getSlot f allSlots nodup_allSlots s t
    simp only [mem_allSlots, if_true] at this
    simpa [State.getSlot] using this
  rw [this]

theorem getSlot_modSlots (s : State) (f : Slot → Slot) (t : SlotIx) :
    (s.modSlots f).getSlot t = (s.getSlot t).map f := by
  simp [modSlots_eq, State.getSlot]

theorem slotsWith_eq (s : State) (p : Slot → Bool) : s.slotsWith p = allSlots.filter (fun t => (s.getSlot t).any p) := by
  unfold State.slotsWith
  apply List.filter_congr
  intro t _
  cases s.getSlot t <;> rfl

theorem onLine_length (s : State) (l : Line) :
    (s.onLine l).length = allSlots.countP (fun t => (s.getSlot t).any (fun x => x.line == some l)) := by
  rw [State.onLine, slotsWith_eq, ← List.countP_eq_length_filter]

theorem mem_slotsWith {s : State} {p : Slot → Bool} {t : SlotIx} :
    t ∈ s.slotsWith p ↔ ∃ x, s.getSlot t = some x ∧ p x = true := by
  simp only [State.slotsWith, List.mem_filter, mem_allSlots, true_and]
  cases s.getSlot t with
  | none => simp
  | some x => simp

theorem lowestFree_getSlot {s : State} {t : SlotIx} (h : s.lowestFree = some t) : s.getSlot t = none := by
  have := List.find?_some h
  simpa using this

/-! ## Nodes, windows, jobs -/

theorem getNode_modNode (s : State) (n m : Node) (f : NodeRec → NodeRec) :
    (s.modNode n f).getNode m = if m = n then f (s.getNode n) else s.getNode m := by
  simp only [State.getNode, State.modNode, Fin.getElem_fin, Vector.getElem_set]
  by_cases h : m = n
  · subst h; simp
  · have : n.val ≠ m.val := fun e => h (Fin.ext e.symm)
    simp [h, this]

theorem getWindow_modWindow (s : State) (w u : WinIx) (f : Window → Window) :
    (s.modWindow w f).getWindow u = if u = w then f (s.getWindow w) else s.getWindow u := by
  simp only [State.getWindow, State.modWindow, Fin.getElem_fin, Vector.getElem_set]
  by_cases h : u = w
  · subst h; simp
  · have : w.val ≠ u.val := fun e => h (Fin.ext e.symm)
    simp [h, this]

theorem getJob_putJob (s : State) (n m : Node) (j : Option PurgeJob) :
    (s.putJob n j).getJob m = if m = n then j else s.getJob m := by
  simp only [State.getJob, State.putJob, Fin.getElem_fin, Vector.getElem_set]
  by_cases h : m = n
  · subst h; simp
  · have : n.val ≠ m.val := fun e => h (Fin.ext e.symm)
    simp [h, this]

end Sys2Proof.Machine
end

