-- ==== Sys2Proof/Laws/Evolves.lean ====
section
/-! SUPPORT. What every task of an event keeps, said once: `Evolves s s'`. The lemma of an operation `op` is `op_evolves`:
if a state evolves into s, it evolves into what `op` makes of s. -/

namespace Sys2Proof.Machine

set_option Elab.async false

/-- What a change inside an event keeps of the conditions of Safety.lean, and the parts it does not write. -/
structure Evolves (s s' : State) : Prop where
  surface : s'.surface = s.surface
  dir : s.directoryOk → s'.directoryOk
  orders : s.orderQ.length ≤ Config.queueCapacity → s'.orderQ.length ≤ Config.queueCapacity
  answers : s.answerQ.length ≤ Config.queueCapacity → s'.answerQ.length ≤ Config.queueCapacity
  notices : s.noticesOk → s'.noticesOk
  credits : ∀ n, (s'.getNode n).credits ≤ (s.getNode n).credits
  flags : s.flags &&& s'.flags = s.flags
  capture : ∀ r, s.capture = some r → ∃ k, s'.capture = some { r with further := k }
  windows : s.windowsOk → s'.windowsOk
  ranks : s.ranksOk → s'.ranksOk

variable {a s : State}

theorem Evolves.refl (s : State) : Evolves s s :=
  ⟨rfl, id, id, id, id, fun _ => le_rfl, by simp, fun r h => ⟨r.further, h⟩, id, id⟩

theorem Evolves.trans {a b c : State} (h : Evolves a b) (g : Evolves b c) : Evolves a c where
  surface := g.surface.trans h.surface
  dir := g.dir ∘ h.dir
  orders := g.orders ∘ h.orders
  answers := g.answers ∘ h.answers
  notices := g.notices ∘ h.notices
  credits n := (g.credits n).trans (h.credits n)
  flags := by
    have h1 := h.flags
    have h2 := g.flags
    calc a.flags &&& c.flags = (a.flags &&& b.flags) &&& c.flags := by rw [h1]
      _ = a.flags &&& (b.flags &&& c.flags) := BitVec.and_assoc _ _ _
      _ = a.flags := by rw [h2, h1]
  capture r hr := by
    obtain ⟨k, hk⟩ := h.capture r hr
    obtain ⟨j, hj⟩ := g.capture _ hk
    exact ⟨j, hj⟩
  windows := g.windows ∘ h.windows
  ranks := g.ranks ∘ h.ranks

/-- A change of fields none of the conditions reads. -/
theorem Evolves.plain {s s' : State} (h : Evolves a s) (h1 : s'.surface = s.surface := by rfl)
    (h2 : s'.dir = s.dir := by rfl) (h3 : s'.orderQ = s.orderQ := by rfl) (h4 : s'.answerQ = s.answerQ := by rfl)
    (h5 : s'.notices = s.notices := by rfl) (h6 : s'.nodes = s.nodes := by rfl) (h7 : s'.flags = s.flags := by rfl)
    (h8 : s'.capture = s.capture := by rfl) (h9 : s'.windows = s.windows := by rfl)
    (h10 : s'.maint = s.maint := by rfl) (h11 : s'.slots = s.slots := by rfl) : Evolves a s' := by
  refine h.trans ⟨h1, ?_, ?_, ?_, ?_, ?_, ?_, ?_, ?_, ?_⟩
  · simp only [State.directoryOk, State.ordersOk, State.getSet, h2]; exact id
  · rw [h3]; exact id
  · rw [h4]; exact id
  · simp only [State.noticesOk, h5]; exact id
  · intro n; simp only [State.getNode, h6]; exact le_rfl
  · simp [h7]
  · intro r hr; exact ⟨r.further, by rw [h8, hr]⟩
  · simp only [State.windowsOk, State.getWindow, h9, h10]; exact id
  · simp only [State.ranksOk, State.getSlot, State.onLine, State.slotsWith, h11]; exact id

/-! ## The directory -/

theorem putSet_evolves (h : Evolves a s) (i : SetIx) (r : SetRec)
    (hr : (s.getSet i).order.Perm allWays → r.order.Perm allWays) : Evolves a (s.putSet i r) := by
  refine h.trans ⟨rfl, ?_, id, id, id, fun _ => le_rfl, by simp, fun r h => ⟨r.further, h⟩, id, id⟩
  rintro ⟨h1, h2⟩
  refine ⟨dirPut_wf h1, fun j => ?_⟩
  rw [getSet_putSet h1]
  split
  · exact hr (h2 i)
  · exact h2 j

theorem putWay_evolves (h : Evolves a s) (i : SetIx) (w : WayIx) (v : Way) : Evolves a (s.putWay i w v) :=
  putSet_evolves h _ _ id

theorem toFront_perm {w : WayIx} {l : List WayIx} (h : l.Perm allWays) : (toFront w l).Perm allWays :=
  (List.perm_cons_erase (h.mem_iff.2 (mem_allWays w))).symm.trans h

theorem toBack_perm {w : WayIx} {l : List WayIx} (h : l.Perm allWays) : (toBack w l).Perm allWays :=
  (List.perm_append_comm.trans (List.perm_cons_erase (h.mem_iff.2 (mem_allWays w))).symm).trans h

theorem moveFront_evolves (h : Evolves a s) (i : SetIx) (w : WayIx) : Evolves a (s.moveFront i w) :=
  putSet_evolves h _ _ toFront_perm

theorem makeFree_evolves (h : Evolves a s) (i : SetIx) (w : WayIx) : Evolves a (s.makeFree i w) :=
  putSet_evolves h _ _ toBack_perm

/-! ## Slots -/

/-- A change of one slot that keeps its line and rank keeps the lines' orders. -/
theorem onLine_congr {s s' : State} (h : ∀ t, (s'.getSlot t).map Slot.line = (s.getSlot t).map Slot.line) (l : Line) :
    s'.onLine l = s.onLine l := by
  unfold State.onLine
  rw [slotsWith_eq, slotsWith_eq]
  apply List.filter_congr
  intro t _
  have := h t
  cases h1 : s.getSlot t <;> cases h2 : s'.getSlot t <;> simp_all

theorem ranksOk_congr {s s' : State} (h : ∀ t, (s'.getSlot t).map Slot.line = (s.getSlot t).map Slot.line)
    (g : ∀ t, (s'.getSlot t).map Slot.rank = (s.getSlot t).map Slot.rank) (hr : s.ranksOk) : s'.ranksOk := by
  have key : ∀ t x, s'.getSlot t = some x → ∃ y, s.getSlot t = some y ∧ y.line = x.line ∧ y.rank = x.rank := by
    intro t x hx
    have h1 := h t
    have h2 := g t
    rw [hx] at h1 h2
    cases hy : s.getSlot t with
    | none => simp [hy] at h1
    | some y =>
      rw [hy] at h1 h2
      exact ⟨y, rfl, by simpa using h1.symm, by simpa using h2.symm⟩
  constructor
  · intro t x l hx hl
    obtain ⟨y, hy, hyl, hyr⟩ := key t x hx
    rw [← hyr, onLine_congr h]
    exact hr.1 t y l hy (hyl.trans hl)
  · intro t u x z l hn hx hz hxl hzl
    obtain ⟨y, hy, hyl, hyr⟩ := key t x hx
    obtain ⟨v, hv, hvl, hvr⟩ := key u z hz
    rw [← hyr, ← hvr]
    exact hr.2 t u y v l hn hy hv (hyl.trans hxl) (hvl.trans hzl)

theorem slots_evolves (h : Evolves a s) {v : Vector (Option Slot) 48}
    (hr : s.ranksOk → State.ranksOk { s with slots := v }) : Evolves a { s with slots := v } :=
  h.trans ⟨rfl, id, id, id, id, fun _ => le_rfl, by simp, fun r h => ⟨r.further, h⟩, id, hr⟩

theorem modSlot_evolves (h : Evolves a s) (t : SlotIx) (f : Slot → Slot)
    (h1 : ∀ x, (f x).line = x.line := by intro _; rfl) (h2 : ∀ x, (f x).rank = x.rank := by intro _; rfl) : Evolves a (s.modSlot t f) := by
  unfold State.modSlot
  cases hx : s.getSlot t with
  | none => exact h
  | some x =>
    refine slots_evolves h (ranksOk_congr ?_ ?_)
    · intro u
      show Option.map _ ((s.putSlot t (some (f x))).getSlot u) = _
      rw [getSlot_putSlot]; split
      · rename_i e; subst e; simp [hx, h1]
      · rfl
    · intro u
      show Option.map _ ((s.putSlot t (some (f x))).getSlot u) = _
      rw [getSlot_putSlot]; split
      · rename_i e; subst e; simp [hx, h2]
      · rfl

theorem modSlots_evolves (h : Evolves a s) (f : Slot → Slot)
    (h1 : ∀ x, (f x).line = x.line := by intro _; rfl) (h2 : ∀ x, (f x).rank = x.rank := by intro _; rfl) : Evolves a (s.modSlots f) := by
  rw [modSlots_eq]
  refine slots_evolves h (ranksOk_congr ?_ ?_) <;> intro t <;>
    simp only [State.getSlot, Fin.getElem_fin, Vector.getElem_map, Option.map_map] <;> congr 1 <;> funext x <;>
    simp [h1, h2]

/-- A slot without a line may be opened in a free slot. -/
theorem putSlot_internal_evolves (h : Evolves a s) {t : SlotIx} (ht : s.getSlot t = none) {x : Slot}
    (hx : x.line = none) : Evolves a (s.putSlot t (some x)) := by
  refine slots_evolves h ?_
  intro hr
  have hg : ∀ u, State.getSlot { s with slots := s.slots.set t.val (some x) t.isLt } u =
      if u = t then some x else s.getSlot u := fun u => getSlot_putSlot s t u (some x)
  have hol : ∀ l, State.onLine { s with slots := s.slots.set t.val (some x) t.isLt } l = s.onLine l := by
    intro l
    unfold State.onLine
    rw [slotsWith_eq, slotsWith_eq]
    apply List.filter_congr
    intro u _
    rw [hg]
    by_cases e : u = t
    · subst e; simp [ht, hx]
    · simp [e]
  constructor
  · intro u y l hy hl
    rw [hg] at hy; rw [hol]
    split at hy
    · cases hy; rw [hx] at hl; cases hl
    · exact hr.1 u y l hy hl
  · intro u v y z l hn hy hz hyl hzl
    rw [hg] at hy hz
    split at hy
    · cases hy; rw [hx] at hyl; cases hyl
    · split at hz
      · cases hz; rw [hx] at hzl; cases hzl
      · exact hr.2 u v y z l hn hy hz hyl hzl

/-- A transaction opened on a line in a free slot takes the line's next rank. -/
theorem putSlot_open_ranks {t : SlotIx} (ht : s.getSlot t = none) {x : Slot} {l : Line} (hl : x.line = some l)
    (hk : x.rank = some (s.onLine l).length) (hr : s.ranksOk) : (s.putSlot t (some x)).ranksOk := by
  have hg := fun u => getSlot_putSlot s t u (some x)
  have hlen : ∀ m, ((s.putSlot t (some x)).onLine m).length = (s.onLine m).length + if m = l then 1 else 0 := by
    intro m
    rw [onLine_length, onLine_length]
    have hcount : ∀ (ts : List SlotIx), ts.Nodup →
        ts.countP (fun u => ((s.putSlot t (some x)).getSlot u).any (fun y => y.line == some m)) =
          ts.countP (fun u => (s.getSlot u).any (fun y => y.line == some m)) + if t ∈ ts ∧ m = l then 1 else 0 := by
      intro ts hn
      induction ts with
      | nil => simp
      | cons u us ih =>
        have hn' := List.nodup_cons.1 hn
        rw [List.countP_cons, List.countP_cons, ih hn'.2, hg]
        by_cases hu : u = t
        · subst hu
          by_cases hm : m = l
          · subst hm; simp [ht, hl, hn'.1]
          · have : l ≠ m := Ne.symm hm
            simp [ht, hl, hm, this]
        · have : t ≠ u := Ne.symm hu
          simp only [hu, if_false, List.mem_cons, this, false_or]
          omega
    rw [hcount _ nodup_allSlots]
    simp [mem_allSlots]
  constructor
  · intro u y m hy hm
    rw [hg] at hy; rw [hlen]
    split at hy
    · cases hy
      rw [hl] at hm; cases hm
      exact ⟨_, hk, by simp⟩
    · obtain ⟨r, h1, h2⟩ := hr.1 u y m hy hm
      exact ⟨r, h1, by omega⟩
  · intro u v y z m hn hy hz hym hzm
    rw [hg] at hy hz
    split at hy
    · rename_i e
      split at hz
      · rename_i e'; exact absurd (e.trans e'.symm) hn
      · cases hy
        rw [hl] at hym; cases hym
        obtain ⟨r, h1, h2⟩ := hr.1 v z l hz hzm
        rw [hk, h1]
        intro e; cases e; omega
    · split at hz
      · cases hz
        rw [hl] at hzm; cases hzm
        obtain ⟨r, h1, h2⟩ := hr.1 u y l hy hym
        rw [hk, h1]
        intro e; cases e; omega
      · exact hr.2 u v y z m hn hy hz hym hzm

theorem putSlot_open_evolves (h : Evolves a s) {t : SlotIx} (ht : s.getSlot t = none) {x : Slot} {l : Line}
    (hl : x.line = some l) (hk : x.rank = some (s.onLine l).length) : Evolves a (s.putSlot t (some x)) :=
  slots_evolves h (putSlot_open_ranks ht hl hk)

/-! ## Nodes, flags, counters, capture -/

theorem modNode_evolves (h : Evolves a s) (n : Node) (f : NodeRec → NodeRec)
    (hf : ∀ r, (f r).credits ≤ r.credits := by intro _; exact le_rfl) : Evolves a (s.modNode n f) := by
  refine h.trans ⟨rfl, id, id, id, id, ?_, by simp, fun r h => ⟨r.further, h⟩, id, id⟩
  intro m
  rw [getNode_modNode]; split
  · rename_i e; subst e; exact hf _
  · exact le_rfl

theorem raise_evolves (h : Evolves a s) (e : Event) : Evolves a (s.raise e) :=
  h.trans ⟨rfl, id, id, id, id, fun _ => le_rfl, by
    rw [raise_flags]; ext i hi; simp; tauto, fun r h => ⟨r.further, h⟩, id, id⟩

theorem fault_evolves (h : Evolves a s) (c : Cause) (f : FaultFields) : Evolves a (s.fault c f) := by
  unfold State.fault
  cases hc : s.capture with
  | none =>
    exact h.trans ⟨rfl, id, id, id, id, fun _ => le_rfl, by simp, fun r h => by simp [hc] at h, id, id⟩
  | some q =>
    refine h.trans ⟨rfl, id, id, id, id, fun _ => le_rfl, by simp, ?_, id, id⟩
    intro r hr
    rw [hc] at hr; cases hr
    exact ⟨satInc q.further, rfl⟩

theorem countUncorrected_evolves (h : Evolves a s) : Evolves a s.countUncorrected :=
  h.plain
theorem countLinkCheck_evolves (h : Evolves a s) : Evolves a s.countLinkCheck :=
  h.plain
theorem countTableFull_evolves (h : Evolves a s) : Evolves a s.countTableFull :=
  h.plain
theorem countSetFull_evolves (h : Evolves a s) : Evolves a s.countSetFull :=
  h.plain
theorem countSetFrozen_evolves (h : Evolves a s) : Evolves a s.countSetFrozen :=
  h.plain
theorem countNoticeDropped_evolves (h : Evolves a s) : Evolves a s.countNoticeDropped :=
  h.plain
theorem countMemTimeout_evolves (h : Evolves a s) : Evolves a s.countMemTimeout :=
  h.plain
theorem countTimeout_evolves (h : Evolves a s) (n : Node) : Evolves a (s.countTimeout n) :=
  modNode_evolves h n _
theorem countViolation_evolves (h : Evolves a s) (n : Node) : Evolves a (s.countViolation n) :=
  modNode_evolves h n _
theorem countStale_evolves (h : Evolves a s) (n : Node) : Evolves a (s.countStale n) :=
  modNode_evolves h n _

theorem countCorrected_evolves (h : Evolves a s) : Evolves a s.countCorrected := by
  have h1 : Evolves a { s with counters := { s.counters with corrected := satInc s.counters.corrected } } :=
    h.plain
  unfold State.countCorrected
  dsimp only
  split
  · exact raise_evolves h1 _
  · exact h1

theorem chargeViolation_evolves (h : Evolves a s) (n : Node) (l : Option Line) (t : Option SlotIx) :
    Evolves a (s.chargeViolation n l t) :=
  fault_evolves (raise_evolves (countViolation_evolves h n) _) _ _

theorem notePoisoned_evolves (h : Evolves a s) (l : Option Line) (n : Option Node) (i : Option SetIx) (w : Option WayIx)
    (t : Option SlotIx) : Evolves a (s.notePoisoned l n i w t) :=
  fault_evolves (raise_evolves h _) _ _

theorem noteDamaged_evolves (h : Evolves a s) (l : Option Line) (i : SetIx) (w : WayIx) (t : Option SlotIx) :
    Evolves a (s.noteDamaged l i w t) :=
  fault_evolves (raise_evolves (countUncorrected_evolves h) _) _ _

theorem pickFrom_evolves {α : Type} (h : Evolves a s) (d : α) (l : List α) : Evolves a (s.pickFrom d l).1 := by
  unfold State.pickFrom
  split
  · exact h
  · exact h
  · exact h.plain

/-! ## Windows and jobs -/

/-- A change of a window that keeps its range, and its state and progress unless it was DRAINING and is CLOSED. -/
theorem modWindow_evolves (h : Evolves a s) (w : WinIx) (f : Window → Window) (h1 : ∀ v, (f v).start = v.start)
    (h2 : ∀ v, (f v).limit = v.limit)
    (h3 : ∀ v, ((f v).state = v.state ∧ (f v).progress = v.progress) ∨
      ((f v).state = .closed ∧ v.progress = some .draining)) : Evolves a (s.modWindow w f) := by
  refine h.trans ⟨rfl, id, id, id, id, fun _ => le_rfl, by simp, fun r h => ⟨r.further, h⟩, ?_, id⟩
  rintro ⟨g1, g2, g3⟩
  have e1 : ∀ u, ((s.modWindow w f).getWindow u).start = (s.getWindow u).start := by
    intro u; rw [getWindow_modWindow]; split <;> simp_all
  have e2 : ∀ u, ((s.modWindow w f).getWindow u).limit = (s.getWindow u).limit := by
    intro u; rw [getWindow_modWindow]; split <;> simp_all
  have e3 : ∀ u, ((s.modWindow w f).getWindow u).state ≠ .closed → (s.getWindow u).state ≠ .closed := by
    intro u
    rw [getWindow_modWindow]; split
    · rename_i e; subst e
      intro hc
      rcases h3 (s.getWindow u) with ⟨h4, _⟩ | ⟨h4, _⟩
      · rwa [h4] at hc
      · exact absurd h4 hc
    · exact id
  refine ⟨fun u hu => ?_, fun u v hn hu hv => ?_, fun j u hj hu => ?_⟩
  · rw [e1, e2]; exact g1 u (e3 u hu)
  · have := g2 u v hn (e3 u hu) (e3 v hv)
    simpa only [Window.shares, Window.spans, e1, e2] using this
  · have hold := g3 j u hj hu
    rw [getWindow_modWindow]; split
    · rename_i e; subst e
      rcases h3 (s.getWindow u) with ⟨h4, h5⟩ | ⟨_, h5⟩
      · rw [h4, h5]; exact hold
      · exact absurd h5 hold.2
    · exact hold

/-- A change of the maintenance job that names no window the job did not name. -/
theorem maint_evolves (h : Evolves a s) {m : Option MaintJob}
    (hm : ∀ j w, m = some j → j.window = some w → ∃ k, s.maint = some k ∧ k.window = some w) :
    Evolves a { s with maint := m } := by
  refine h.trans ⟨rfl, id, id, id, id, fun _ => le_rfl, by simp, fun r h => ⟨r.further, h⟩, ?_, id⟩
  rintro ⟨g1, g2, g3⟩
  refine ⟨g1, g2, fun j w hj hw => ?_⟩
  obtain ⟨k, hk, hkw⟩ := hm j w hj hw
  exact g3 k w hk hkw

theorem putJob_evolves (h : Evolves a s) (n : Node) (j : Option PurgeJob) : Evolves a (s.putJob n j) :=
  h.plain

/-! ## Queues and notices -/

theorem orderQ_evolves (h : Evolves a s) {q : List Order} (hq : q.length ≤ Config.queueCapacity) :
    Evolves a { s with orderQ := q } :=
  h.trans ⟨rfl, id, fun _ => hq, id, id, fun _ => le_rfl, by simp, fun r h => ⟨r.further, h⟩, id, id⟩

theorem answerQ_evolves (h : Evolves a s) {q : List Answer} (hq : q.length ≤ Config.queueCapacity) :
    Evolves a { s with answerQ := q } :=
  h.trans ⟨rfl, id, id, fun _ => hq, id, fun _ => le_rfl, by simp, fun r h => ⟨r.further, h⟩, id, id⟩

theorem notices_evolves (h : Evolves a s) {v : List Notice}
    (hv : s.noticesOk → State.noticesOk { s with notices := v }) : Evolves a { s with notices := v } :=
  h.trans ⟨rfl, id, id, id, hv, fun _ => le_rfl, by simp, fun r h => ⟨r.further, h⟩, id, id⟩

theorem foldl_evolves {α : Type} {f : State → α → State} (hf : ∀ s x, Evolves a s → Evolves a (f s x)) (xs : List α)
    (h : Evolves a s) : Evolves a (xs.foldl f s) := by
  induction xs generalizing s with
  | nil => exact h
  | cons x xs ih => exact ih (hf s x h)

end Sys2Proof.Machine
end

