-- ==== Sys2Proof/Laws/EvolvesDirectory.lean ====
section
/-! SUPPORT. The operations of Machine/Directory.lean, Notices.lean and Transactions.lean keep the conditions. -/

namespace Sys2Proof.Machine

set_option Elab.async false

variable {a s : State}

/-! ## Reads, lookup, allocation, victim choice -/

theorem correctBody_evolves (h : Evolves a s) (i : SetIx) (w : WayIx) : Evolves a (State.correctBody i s w) := by
  unfold State.correctBody
  split
  · exact countCorrected_evolves (putWay_evolves h _ _ _)
  · exact h

theorem correctKey_evolves (h : Evolves a s) (i : SetIx) (w : WayIx) : Evolves a (State.correctKey i s w) := by
  unfold State.correctKey
  split
  · exact countCorrected_evolves (putWay_evolves h _ _ _)
  · exact h

theorem correctBodies_evolves (h : Evolves a s) (i : SetIx) (ws : List WayIx) : Evolves a (s.correctBodies i ws) :=
  foldl_evolves (fun _ w h => correctBody_evolves h i w) ws h

theorem correctKeys_evolves (h : Evolves a s) (i : SetIx) (ws : List WayIx) : Evolves a (s.correctKeys i ws) :=
  foldl_evolves (fun _ w h => correctKey_evolves h i w) ws h

theorem readWholeSet_evolves (h : Evolves a s) (i : SetIx) : Evolves a (s.readWholeSet i) :=
  correctKeys_evolves (correctBodies_evolves h i _) i _

theorem foundDamagedKey_evolves (h : Evolves a s) (i : SetIx) (w : WayIx) (t : Option SlotIx) :
    Evolves a (s.foundDamagedKey i w t) := by
  unfold State.foundDamagedKey
  split
  · exact h
  · exact fault_evolves (raise_evolves (countUncorrected_evolves (putSet_evolves h i _ (by exact id))) _) _ _

theorem noteDamagedKeys_evolves (h : Evolves a s) (i : SetIx) (ws : List WayIx) : Evolves a (s.noteDamagedKeys i ws) := by
  unfold State.noteDamagedKeys
  split
  · exact h
  · split
    · exact h
    · exact foundDamagedKey_evolves (pickFrom_evolves h _ _) _ _ _

theorem lookup_evolves (h : Evolves a s) (l : Line) (p : Bool) : Evolves a (s.lookup l p).1 := by
  unfold State.lookup
  dsimp only
  generalize List.filter _ allWays = ws
  have h2 := correctKeys_evolves (correctBodies_evolves h (setOf l) allWays) (setOf l) ws
  generalize State.correctKeys _ (setOf l) ws = s2 at h2 ⊢
  generalize s2.damagedKeys (setOf l) ws = ds
  cases ds with
  | nil => exact h2
  | cons w rest =>
    cases p
    · have := pickFrom_evolves h2 w (w :: rest)
      simpa using this
    · exact h2

theorem reserve_evolves (h : Evolves a s) (i : SetIx) (w : WayIx) (t : SlotIx) (l : Line) :
    Evolves a (s.reserve i w t l) :=
  modSlot_evolves (putWay_evolves h _ _ _) _ _

theorem allocate_evolves (h : Evolves a s) {t : SlotIx} {l : Line} {s' : State} (e : s.allocate t l = some s') :
    Evolves a s' := by
  unfold State.allocate at e
  split at e
  · cases e; exact reserve_evolves h _ _ _ _
  · cases e

theorem victimScan_evolves (i : SetIx) (ws : List WayIx) : ∀ {s : State}, Evolves a s →
    Evolves a (State.victimScan i ws s).1 := by
  induction ws with
  | nil => exact id
  | cons w ws ih =>
    intro s h
    have h1 := correctBody_evolves h i w
    have h2 := correctKey_evolves h1 i w
    unfold State.victimScan
    dsimp only
    split
    · exact ih h1
    · split
      · split
        · exact ih h2
        · exact h2
      · exact ih h2
      · split
        · exact h2
        · exact ih h2

theorem victimChoice_evolves (h : Evolves a s) (i : SetIx) : Evolves a (s.victimChoice i).1 := victimScan_evolves i _ h

theorem takeHold_evolves (h : Evolves a s) (i : SetIx) (w : WayIx) (t : SlotIx) (b : Body) :
    Evolves a (s.takeHold i w t b) :=
  modSlot_evolves (putWay_evolves h _ _ _) _ _

theorem setRelease_evolves (h : Evolves a s) (i : SetIx) (w : WayIx) : Evolves a (s.setRelease i w) := by
  unfold State.setRelease
  split
  · exact putWay_evolves h _ _ _
  · exact putWay_evolves h _ _ _
  · split
    · exact putWay_evolves (noteDamaged_evolves h _ _ _ _) _ _ _
    · exact h

theorem editWorking_evolves (h : Evolves a s) (t : SlotIx) (p : NodeSet) : Evolves a (s.editWorking t p) := by
  unfold State.editWorking
  split
  · exact h
  · split
    · exact h
    · dsimp only
      split
      · exact notePoisoned_evolves (modSlot_evolves h _ _) _ _ _ _ _
      · exact modSlot_evolves h _ _

theorem editStored_evolves (h : Evolves a s) (i : SetIx) (w : WayIx) (p : NodeSet) : Evolves a (s.editStored i w p) := by
  unfold State.editStored
  split
  · exact h
  · dsimp only
    split
    · exact h
    · split
      · exact makeFree_evolves h _ _
      · split
        · exact notePoisoned_evolves (putWay_evolves h _ _ _) _ _ _ _ _
        · exact putWay_evolves h _ _ _

theorem freeHeld_evolves (h : Evolves a s) (t : SlotIx) : Evolves a (s.freeHeld t) := by
  unfold State.freeHeld
  split
  · exact h
  · split
    · dsimp only
      refine modSlot_evolves (makeFree_evolves ?_ _ _) _ _
      split
      · exact noteDamaged_evolves h _ _ _ _
      · exact h
    · exact h

theorem writeBack_evolves (h : Evolves a s) (t : SlotIx) : Evolves a (s.writeBack t) := by
  have h0 := editWorking_evolves h t s.purgingNodes
  unfold State.writeBack
  dsimp only
  split
  · exact h0
  · split
    · rename_i k i _ _
      have h1 := correctBody_evolves h0 i k.way
      refine modSlot_evolves ?_ _ _
      split <;> split
      · exact makeFree_evolves (noteDamaged_evolves h1 _ _ _ _) _ _
      · exact makeFree_evolves h1 _ _
      · exact putWay_evolves (noteDamaged_evolves h1 _ _ _ _) _ _ _
      · exact putWay_evolves h1 _ _ _
    · exact h0

/-! ## Notices -/

theorem filter_notices_evolves (h : Evolves a s) (p : Notice → Bool) :
    Evolves a { s with notices := s.notices.filter p } :=
  notices_evolves h (fun ⟨h1, h2⟩ => ⟨(List.length_filter_le _ _).trans h1, h2.filter _⟩)

theorem map_notices_evolves (h : Evolves a s) (f : Notice → Notice) (h1 : ∀ v, (f v).line = v.line)
    (h2 : ∀ v, (f v).node = v.node) : Evolves a { s with notices := s.notices.map f } := by
  refine notices_evolves h (fun ⟨g1, g2⟩ => ⟨?_, ?_⟩)
  · simpa using g1
  · rw [List.pairwise_map]; simpa only [h1, h2] using g2

theorem removeNotice_evolves (h : Evolves a s) (l : Line) (n : Node) : Evolves a (s.removeNotice l n) :=
  filter_notices_evolves h _

theorem modNotice_evolves (h : Evolves a s) (l : Line) (n : Node) (f : Notice → Notice) (h1 : ∀ v, (f v).line = v.line)
    (h2 : ∀ v, (f v).node = v.node) : Evolves a (s.modNotice l n f) :=
  map_notices_evolves h _ (fun v => by split <;> simp [h1]) (fun v => by split <;> simp [h2])

theorem claimNotice_evolves (h : Evolves a s) (l : Line) (n : Node) : Evolves a (s.claimNotice l n) :=
  modNotice_evolves h _ _ _ (fun _ => rfl) (fun _ => rfl)

theorem releaseClaim_evolves (h : Evolves a s) (l : Line) (n : Node) : Evolves a (s.releaseClaim l n) := by
  unfold State.releaseClaim
  split
  · exact h
  · exact modNotice_evolves h _ _ _ (fun v => by split <;> rfl) (fun v => by split <;> rfl)

theorem noticeFor_none {l : Line} {n : Node} (h : s.noticeFor l n = none) :
    ∀ v ∈ s.notices, ¬(v.line = l ∧ v.node = n) := by
  intro v hv e
  have := List.find?_eq_none.1 h v hv
  simp [Notice.isFor, e.1, e.2] at this

theorem offerNotice_evolves (h : Evolves a s) (l : Line) (n : Node) : Evolves a (s.offerNotice l n) := by
  unfold State.offerNotice
  split
  · exact fault_evolves (raise_evolves h _) _ _
  · rename_i hn
    split
    · exact countNoticeDropped_evolves (raise_evolves h _)
    · rename_i hlen
      refine notices_evolves h (fun ⟨h1, h2⟩ => ⟨?_, ?_⟩)
      · simp only [List.length_append, List.length_singleton]; omega
      · refine List.pairwise_append.2 ⟨h2, List.pairwise_singleton _ _, ?_⟩
        intro v hv w hw
        rw [List.mem_singleton.1 hw]
        exact noticeFor_none (by simpa using hn) v hv

/-! ## Opening -/

theorem countOpened_evolves (h : Evolves a s) (w : Option WinIx) : Evolves a (s.countOpened w) := by
  unfold State.countOpened
  split
  · exact modWindow_evolves h _ _ (fun _ => rfl) (fun _ => rfl) (fun _ => Or.inl ⟨rfl, rfl⟩)
  · exact h

theorem openOnLine_evolves (h : Evolves a s) {t : SlotIx} (ht : s.getSlot t = none) (x : Slot) (l : Line)
    (w : Option WinIx) : Evolves a (s.openOnLine t x l w) :=
  countOpened_evolves (putSlot_open_evolves h ht rfl rfl) _

/-! ## Sending -/

theorem dropPending_evolves (h : Evolves a s) (t : SlotIx) : Evolves a (s.dropPending t) :=
  (modSlot_evolves h t (fun x => { x with pending := none })).plain

theorem setAside_evolves (h : Evolves a s) (t : SlotIx) : Evolves a (s.setAside t) :=
  (modSlot_evolves h t (fun x => { x with pending := none })).plain

theorem roundPlaced_evolves (h : Evolves a s) (t : SlotIx) (b : Bool) : Evolves a (s.roundPlaced t b) :=
  modSlot_evolves h _ _

theorem sendRound_evolves (h : Evolves a s) (t : SlotIx) (os : List Order) (b : Bool) :
    Evolves a (s.sendRound t os b) := by
  unfold State.sendRound
  split
  · rename_i hr
    simp only [Bool.and_eq_true, State.orderRoom, decide_eq_true_eq] at hr
    exact roundPlaced_evolves (orderQ_evolves h (by simpa using hr.2)) _ _
  · exact (modSlot_evolves h t (fun x => { x with pending := some (.round os b), timer := none })).plain

theorem startRound_evolves (h : Evolves a s) (t : SlotIx) (os : List Order) (m : NodeSet) (w : MemWait) (o : Outstanding) :
    Evolves a (s.startRound t os m w o) :=
  sendRound_evolves (modSlot_evolves (setAside_evolves h t) _ _) _ _ _

theorem sendFetch_evolves (h : Evolves a s) (t : SlotIx) (l : Line) (n : Node) : Evolves a (s.sendFetch t l n) :=
  startRound_evolves h _ _ _ _ _

theorem grantPlaced_evolves (h : Evolves a s) (t : SlotIx) (n : Node) (p : Permission) (src : Source) (u : Bool) :
    Evolves a (s.grantPlaced t n p src u) := by
  unfold State.grantPlaced
  split
  · exact h
  · dsimp only
    refine modSlot_evolves ?_ _ _
    split
    · exact moveFront_evolves h _ _
    · exact h

theorem answerPlaced_evolves (h : Evolves a s) (t : SlotIx) (m : Answer) : Evolves a (s.answerPlaced t m).1 := by
  unfold State.answerPlaced
  split
  · exact grantPlaced_evolves h _ _ _ _ _
  · exact modSlot_evolves h _ _
  · exact modSlot_evolves h _ _

theorem answerPush_evolves (h : Evolves a s) (m : Answer) (hr : s.answerQ.length < Config.queueCapacity) :
    Evolves a { s with answerQ := s.answerQ ++ [m] } :=
  answerQ_evolves h (by simp only [List.length_append, List.length_singleton]; omega)

theorem answerRoom_lt (hr : s.answerRoom = true) : s.answerQ.length < Config.queueCapacity := by
  simp only [State.answerRoom, Bool.and_eq_true, decide_eq_true_eq] at hr; exact hr.2

theorem sendAnswer_evolves (h : Evolves a s) (t : SlotIx) (m : Answer) : Evolves a (s.sendAnswer t m).1 := by
  have h1 := setAside_evolves h t
  unfold State.sendAnswer
  dsimp only
  split
  · rename_i hr
    rw [Bool.and_eq_true] at hr
    exact answerPlaced_evolves (answerPush_evolves h1 m (answerRoom_lt hr.1)) _ _
  · refine Evolves.plain (modSlot_evolves h1 t _ (fun x => ?_) (fun x => ?_))
    · split <;> rfl
    · split <;> rfl

theorem intakeAnswer_evolves (h : Evolves a s) (m : Answer) : Evolves a (s.intakeAnswer m) := by
  unfold State.intakeAnswer
  split
  · rename_i hr; exact answerPush_evolves h m (answerRoom_lt hr)
  · exact h.plain

theorem membershipAnswer_evolves (h : Evolves a s) (n : Node) (m : Answer) : Evolves a (s.membershipAnswer n m) := by
  unfold State.membershipAnswer
  split
  · rename_i hr; exact answerPush_evolves h m (answerRoom_lt hr)
  · exact h.plain

theorem dropMembership_evolves (h : Evolves a s) (n : Node) : Evolves a (s.dropMembership n) :=
  h.plain

theorem placeHeldOrder_evolves (h : Evolves a s) {s' : State} (e : s.placeHeldOrder = some s') : Evolves a s' := by
  unfold State.placeHeldOrder at e
  split at e
  · cases e
  · split at e
    · rename_i os _ _ hr
      cases e
      have hq : (s.orderQ ++ os).length ≤ Config.queueCapacity := by simpa [State.orderRoom] using hr
      exact Evolves.plain (orderQ_evolves h hq)
    · cases e
  · split at e
    · rename_i os fresh _
      split at e
      · rename_i hr
        cases e
        have hq : (s.orderQ ++ os).length ≤ Config.queueCapacity := by simpa [State.orderRoom] using hr
        exact roundPlaced_evolves (Evolves.plain (orderQ_evolves h hq)) _ _
      · cases e
    · cases e; exact h.plain

theorem placeHeldAnswer_evolves (h : Evolves a s) {w : Work} (e : s.placeHeldAnswer = some w) : Evolves a w.1 := by
  unfold State.placeHeldAnswer at e
  split at e
  · cases e
  · split at e
    · rename_i hr
      dsimp only at e
      have push : ∀ m, Evolves a { s with answerQ := s.answerQ ++ [m] } := fun m => answerPush_evolves h m hr
      split at e
      · split at e
        · cases e
        · split at e
          · rename_i m _
            cases e
            exact answerPlaced_evolves (Evolves.plain (push m)) _ _
          · cases e; exact h.plain
      · split at e
        · cases e; exact (push _).plain
        · cases e; exact h.plain
      · split at e
        · cases e; exact (push _).plain
        · cases e; exact h.plain
    · cases e

/-! ## Refusals -/

theorem countRefusal_evolves (h : Evolves a s) (r : Reason) (n : Node) (l : Line) (t : SlotIx) :
    Evolves a (s.countRefusal r n l t) := by
  unfold State.countRefusal
  split
  · exact countTableFull_evolves h
  · exact countSetFull_evolves h
  · exact chargeViolation_evolves h _ _ _
  · exact h

theorem refuse_evolves (h : Evolves a s) (t : SlotIx) (r : Reason) : Evolves a (s.refuse t r).1 := by
  unfold State.refuse
  split
  · exact h
  · split
    · split
      · exact dropPending_evolves h _
      · exact sendAnswer_evolves (countRefusal_evolves h _ _ _ _) _ _
    · exact dropPending_evolves h _

/-! ## The close -/

theorem countClosed_evolves (h : Evolves a s) (w : Option WinIx) : Evolves a (s.countClosed w) := by
  unfold State.countClosed
  split
  · exact h
  · refine modWindow_evolves h _ _ (fun v => ?_) (fun v => ?_) (fun v => ?_) <;> dsimp only <;> split
    all_goals first | rfl | exact Or.inl ⟨rfl, rfl⟩ | (rename_i hc; exact Or.inr ⟨rfl, hc.2.1⟩)

theorem returnCredit_evolves (h : Evolves a s) (n : Option Node) : Evolves a (s.returnCredit n) := by
  unfold State.returnCredit
  split
  · exact modNode_evolves h _ _ (fun r => Nat.sub_le _ _)
  · exact h

theorem countRecallClosed_evolves (h : Evolves a s) (x : Slot) : Evolves a (s.countRecallClosed x) := by
  unfold State.countRecallClosed
  split
  · split
    · exact putJob_evolves h _ _
    · refine maint_evolves h ?_
      intro j w hj hw
      rw [Option.map_eq_some_iff] at hj
      obtain ⟨k, hk, rfl⟩ := hj
      exact ⟨k, hk, hw⟩
  · exact h

/-- A slot whose transaction leaves the table, its ranks closed. -/
theorem leave_ranks {t : SlotIx} {x : Slot} (ht : s.getSlot t = some x) (hr : s.ranksOk) :
    ((s.closeRanks x).putSlot t none).ranksOk := by
  have hg : ∀ u, ((s.closeRanks x).putSlot t none).getSlot u = if u = t then none else (s.closeRanks x).getSlot u :=
    fun u => getSlot_putSlot _ t u none
  cases hl : x.line with
  | none =>
    have hc : s.closeRanks x = s := by unfold State.closeRanks; simp [hl]
    rw [hc] at hg ⊢
    have hol : ∀ m, (s.putSlot t none).onLine m = s.onLine m := by
      intro m
      unfold State.onLine
      rw [slotsWith_eq, slotsWith_eq]
      apply List.filter_congr
      intro u _
      rw [hg]
      by_cases e : u = t
      · subst e; simp [ht, hl]
      · simp [e]
    refine ⟨fun u y m hy hm => ?_, fun u v y z m hn hy hz => ?_⟩
    · rw [hg] at hy; rw [hol]
      split at hy
      · cases hy
      · exact hr.1 u y m hy hm
    · rw [hg] at hy hz
      split at hy
      · cases hy
      · split at hz
        · cases hz
        · exact hr.2 u v y z m hn hy hz
  | some l =>
    obtain ⟨r, hxr, hrl⟩ := hr.1 t x l ht hl
    let f : Slot → Slot := fun y =>
      if y.line = some l then { y with rank := y.rank.map (fun q => if r < q then q - 1 else q) } else y
    have hfl : ∀ y, (f y).line = y.line := fun y => by simp only [f]; split <;> rfl
    have hc : ∀ u, (s.closeRanks x).getSlot u = (s.getSlot u).map f := by
      intro u
      unfold State.closeRanks
      simp only [hl, hxr]
      exact getSlot_modSlots s _ u
    simp only [hc] at hg
    have hlen : ∀ m, (((s.closeRanks x).putSlot t none).onLine m).length + (if m = l then 1 else 0) =
        (s.onLine m).length := by
      intro m
      rw [onLine_length, onLine_length]
      have hcount : ∀ (ts : List SlotIx), ts.Nodup →
          ts.countP (fun u => (((s.closeRanks x).putSlot t none).getSlot u).any (fun y => y.line == some m)) +
            (if t ∈ ts ∧ m = l then 1 else 0) =
          ts.countP (fun u => (s.getSlot u).any (fun y => y.line == some m)) := by
        intro ts hn
        induction ts with
        | nil => simp
        | cons u us ih =>
          have hn' := List.nodup_cons.1 hn
          rw [List.countP_cons, List.countP_cons, ← ih hn'.2, hg]
          by_cases hu : u = t
          · subst hu
            by_cases hm : m = l
            · subst hm; simp [ht, hl, hn'.1]
            · have : l ≠ m := Ne.symm hm
              simp [ht, hl, hm, this]
          · have : t ≠ u := Ne.symm hu
            have e : ((s.getSlot u).map f).any (fun y => y.line == some m) = (s.getSlot u).any (fun y => y.line == some m) := by
              cases s.getSlot u <;> simp [hfl]
            simp only [hu, if_false, List.mem_cons, this, false_or, e]
            omega
      rw [← hcount _ nodup_allSlots]
      simp [mem_allSlots]
    have key : ∀ u y, ((s.closeRanks x).putSlot t none).getSlot u = some y →
        u ≠ t ∧ ∃ z, s.getSlot u = some z ∧ y = f z := by
      intro u y hy
      rw [hg] at hy
      split at hy
      · cases hy
      · rename_i hn
        obtain ⟨z, hz, e⟩ := Option.map_eq_some_iff.1 hy
        exact ⟨hn, z, hz, e.symm⟩
    refine ⟨fun u y m hy hm => ?_, fun u v y z m hn hy hz hym hzm => ?_⟩
    · obtain ⟨hne, z, hz, rfl⟩ := key u y hy
      rw [hfl] at hm
      obtain ⟨q, hq, hql⟩ := hr.1 u z m hz hm
      have hl' := hlen m
      by_cases hml : m = l
      · subst hml
        have hdist := hr.2 u t z x m hne hz ht hm hl
        rw [hq, hxr] at hdist
        have hqr : q ≠ r := fun e => hdist (by rw [e])
        simp only [if_true] at hl'
        refine ⟨if r < q then q - 1 else q, by simp [f, hm, hq], ?_⟩
        split <;> omega
      · have : ¬ z.line = some l := by rw [hm]; simpa using hml
        refine ⟨q, by simp [f, this, hq], ?_⟩
        simp only [hml, if_false] at hl'
        omega
    · obtain ⟨hu, y', hy', rfl⟩ := key u y hy
      obtain ⟨hv, z', hz', rfl⟩ := key v z hz
      rw [hfl] at hym hzm
      have hd := hr.2 u v y' z' m hn hy' hz' hym hzm
      by_cases hml : m = l
      · subst hml
        obtain ⟨p, hp, _⟩ := hr.1 u y' m hy' hym
        obtain ⟨q, hq, _⟩ := hr.1 v z' m hz' hzm
        have d1 := hr.2 u t y' x m hu hy' ht hym hl
        have d2 := hr.2 v t z' x m hv hz' ht hzm hl
        rw [hp, hxr] at d1
        rw [hq, hxr] at d2
        rw [hp, hq] at hd
        have d1' : p ≠ r := fun e => d1 (by rw [e])
        have d2' : q ≠ r := fun e => d2 (by rw [e])
        have d3' : p ≠ q := fun e => hd (by rw [e])
        simp only [f, hym, hzm, if_true, hp, hq, Option.map_some, ne_eq, Option.some.injEq]
        split <;> split <;> omega
      · have h1 : ¬ y'.line = some l := by rw [hym]; simpa using hml
        have h2 : ¬ z'.line = some l := by rw [hzm]; simpa using hml
        simpa [f, h1, h2] using hd

theorem modSlot_putSlot (s : State) (t : SlotIx) (f : Slot → Slot) (v : Option Slot) :
    (s.modSlot t f).putSlot t v = s.putSlot t v := by
  unfold State.modSlot
  split
  · rfl
  · simp [State.putSlot]

theorem setAside_putSlot (s : State) (t : SlotIx) (v : Option Slot) :
    ((s.setAside t).disownRounds t).putSlot t v =
      { s.putSlot t v with
        orderHeld := ((s.setAside t).disownRounds t).orderHeld
        answerHeld := (s.setAside t).answerHeld } := by
  rw [← modSlot_putSlot s t (fun x => { x with pending := none }) v]
  rfl

theorem leaveSlot_evolves (h : Evolves a s) {t : SlotIx} {x : Slot} (ht : s.getSlot t = some x) :
    Evolves a ((s.closeRanks x).freeSlot t x) := by
  have h1 : Evolves a ((s.closeRanks x).putSlot t none) := by
    have e : (s.closeRanks x).putSlot t none = { s with slots := ((s.closeRanks x).putSlot t none).slots } := by
      unfold State.closeRanks
      split
      · rw [modSlots_eq]; rfl
      · rfl
    rw [e]
    refine slots_evolves h (fun hr => ?_)
    rw [← e]
    exact leave_ranks ht hr
  have h2 : Evolves a ((((s.closeRanks x).setAside t).disownRounds t).putSlot t none) := by
    rw [setAside_putSlot]
    exact h1.plain
  unfold State.freeSlot
  dsimp only
  split
  · exact modSlot_evolves h2 _ _ (fun y => by split <;> rfl) (fun y => by split <;> rfl)
  · exact h2

theorem countClosed_getSlot (w : Option WinIx) (t : SlotIx) : (s.countClosed w).getSlot t = s.getSlot t := by
  unfold State.countClosed; split <;> rfl
theorem returnCredit_getSlot (n : Option Node) (t : SlotIx) : (s.returnCredit n).getSlot t = s.getSlot t := by
  unfold State.returnCredit; split <;> rfl
theorem countRecallClosed_getSlot (x : Slot) (t : SlotIx) : (s.countRecallClosed x).getSlot t = s.getSlot t := by
  unfold State.countRecallClosed; split
  · split <;> rfl
  · rfl

theorem leaveTable_evolves (h : Evolves a s) {t : SlotIx} {x : Slot} (ht : s.getSlot t = some x) :
    Evolves a (s.leaveTable t x) := by
  have h1 := countRecallClosed_evolves (returnCredit_evolves (countClosed_evolves h x.window) x.requester) x
  have g1 : (((s.countClosed x.window).returnCredit x.requester).countRecallClosed x).getSlot t = some x := by
    rw [countRecallClosed_getSlot, returnCredit_getSlot, countClosed_getSlot, ht]
  have h2 := leaveSlot_evolves h1 g1
  unfold State.leaveTable
  dsimp only
  split
  · exact releaseClaim_evolves h2 _ _
  · exact h2

theorem finishClose_evolves (h : Evolves a s) (t : SlotIx) : Evolves a (s.finishClose t).1 := by
  unfold State.finishClose
  split
  · exact h
  · rename_i ht; exact leaveTable_evolves h ht

theorem close_evolves (h : Evolves a s) (t : SlotIx) : Evolves a (s.close t).1 := writeBack_evolves h t

theorem closeWith_evolves (h : Evolves a s) (t : SlotIx) (m : Node → Line → Answer) : Evolves a (s.closeWith t m).1 := by
  unfold State.closeWith
  split
  · exact h
  · split
    · exact sendAnswer_evolves h _ _
    · exact h

theorem handOver_evolves (h : Evolves a s) (r w : SlotIx) (i : SetIx) (y : WayIx) (l : Line) :
    Evolves a (s.handOver r w i y l) :=
  modSlot_evolves (modSlot_evolves (reserve_evolves h _ _ _ _) _ _) _ _

theorem recallFreed_evolves (h : Evolves a s) (t : SlotIx) : Evolves a (s.recallFreed t).1 := by
  have h1 := freeHeld_evolves h t
  unfold State.recallFreed
  split
  · exact h
  · dsimp only
    repeat' split
    all_goals first | exact h1 | exact handOver_evolves h1 _ _ _ _ _

theorem poisonCopy_evolves (h : Evolves a s) (t : SlotIx) (n : Option Node) : Evolves a (s.poisonCopy t n) := by
  unfold State.poisonCopy
  split
  · exact h
  · split
    · exact h
    · exact notePoisoned_evolves (modSlot_evolves h _ _) _ _ _ _ _

end Sys2Proof.Machine
end

