-- ==== Sys2Proof/Laws/EvolvesFlows.lean ====
section
/-! SUPPORT. The operations of Machine/Rebuild.lean and Flows.lean keep the conditions. -/

namespace Sys2Proof.Machine

set_option Elab.async false

variable {a s : State}

/-! ## Line rebuild -/

theorem leaveRebuild_evolves (h : Evolves a s) (t : SlotIx) : Evolves a (s.leaveRebuild t) :=
  modSlot_evolves (setAside_evolves h t) _ _

theorem lineUntracked_evolves (h : Evolves a s) (t : SlotIx) : Evolves a (s.lineUntracked t).1 := by
  have h1 := leaveRebuild_evolves h t
  unfold State.lineUntracked
  dsimp only
  split
  · exact recallFreed_evolves h1 t
  · exact freeHeld_evolves h1 t

theorem lineLost_evolves (h : Evolves a s) (t : SlotIx) : Evolves a (s.lineLost t).1 :=
  poisonCopy_evolves (leaveRebuild_evolves h t) t none

theorem lineProgress_evolves (h : Evolves a s) (t : SlotIx) : Evolves a (s.lineProgress t).1 := by
  unfold State.lineProgress
  repeat' split
  · exact h
  · exact h
  · exact lineUntracked_evolves h t
  · exact modSlot_evolves (setAside_evolves h t) _ _

theorem startLineRebuild_evolves (h : Evolves a s) (t : SlotIx) (i : SetIx) (w : WayIx) (l : Line) :
    Evolves a (s.startLineRebuild t i w l).1 := by
  unfold State.startLineRebuild
  dsimp only
  split
  · exact lineUntracked_evolves (modSlot_evolves (setAside_evolves (putWay_evolves (noteDamaged_evolves h _ _ _ _) _ _ _) t) _ _) t
  · exact sendRound_evolves (modSlot_evolves (setAside_evolves (putWay_evolves (noteDamaged_evolves h _ _ _ _) _ _ _) t) _ _) _ _ _

theorem lineAnswer_evolves (h : Evolves a s) (t : SlotIx) (x : Slot) (l : Line) (n : Node) (r : Result) :
    Evolves a (s.lineAnswer t x l n r).1 := by
  have h1 : Evolves a (s.modSlot t (fun y => { y with awaited := NodeSet.remove y.awaited n })) := modSlot_evolves h _ _
  unfold State.lineAnswer
  dsimp only
  repeat' split
  · exact lineLost_evolves h1 t
  · exact lineProgress_evolves (removeNotice_evolves (modSlot_evolves h1 _ _) _ _) t
  · exact lineProgress_evolves (modSlot_evolves (modSlot_evolves h1 _ _) _ _) t
  · exact lineProgress_evolves h1 t

/-! ## Set rebuild -/

theorem dropHolds_evolves (h : Evolves a s) (i : SetIx) (t : SlotIx) : Evolves a (s.dropHolds i t) := by
  refine foldl_evolves (fun s w h => ?_) _ h
  split
  · split
    · exact putWay_evolves h _ _ _
    · exact h
  · exact h

theorem takeSetRole_evolves (h : Evolves a s) (t : SlotIx) (i : SetIx) (r : Resume) : Evolves a (s.takeSetRole t i r) :=
  modSlot_evolves (setAside_evolves (dropHolds_evolves h i t) t) _ _

theorem openSetRebuild_evolves (h : Evolves a s) {t : SlotIx} (ht : s.getSlot t = none) (i : SetIx) :
    Evolves a (s.openSetRebuild t i) :=
  putSlot_internal_evolves h ht rfl

theorem beginSurrender_evolves (h : Evolves a s) (t : SlotIx) : Evolves a (s.beginSurrender t).1 := by
  unfold State.beginSurrender
  dsimp only
  repeat' split
  · exact h
  · exact h
  · exact sendRound_evolves (modSlot_evolves h _ _) _ _ _
  · exact h

theorem setProgress_evolves (h : Evolves a s) (t : SlotIx) : Evolves a (s.setProgress t).1 := by
  unfold State.setProgress
  repeat' split
  all_goals first | exact h | exact modSlot_evolves h t _

theorem putTally_evolves (h : Evolves a s) (t : SlotIx) (n : Node) (f : Tally → Tally) : Evolves a (s.putTally t n f) :=
  modSlot_evolves h _ _

theorem surrenderAnswer_evolves (h : Evolves a s) (t : SlotIx) (n : Node) (d : Nat) :
    Evolves a (s.surrenderAnswer t n d).1 :=
  setProgress_evolves (putTally_evolves (modSlot_evolves h t (fun y => { y with awaited := NodeSet.remove y.awaited n }))
    t n (fun v => { v with due := some (d - v.taken) })) t

theorem countStore_evolves (h : Evolves a s) (t : SlotIx) (n : Node) : Evolves a (s.countStore t n).1 :=
  setProgress_evolves (putTally_evolves h t n (fun v => ⟨v.due.map (fun d => d - 1), v.taken + 1⟩)) t

theorem abandonStores_evolves (h : Evolves a s) (t : SlotIx) (n : Node) : Evolves a (s.abandonStores t n) :=
  putTally_evolves (modSlot_evolves h t (fun y => { y with awaited := NodeSet.remove y.awaited n })) t n _

theorem blankSet_perm : blankSet.order.Perm allWays := by unfold allWays; exact List.Perm.refl _

theorem endSetRebuild_evolves (h : Evolves a s) (t : SlotIx) : Evolves a (s.endSetRebuild t).1 := by
  unfold State.endSetRebuild
  split
  · exact h
  · rename_i x ht
    split
    · rename_i i _ _
      have h1 : Evolves a (s.putSet i blankSet) := putSet_evolves h i _ (fun _ => blankSet_perm)
      dsimp only
      split
      · exact leaveTable_evolves h1 ht
      · split
        · exact leaveRebuild_evolves h1 t
        · exact leaveRebuild_evolves h1 t
    · exact h

/-! ## Steps of a flow -/

theorem nextStep_evolves (h : Evolves a s) (t : SlotIx) : Evolves a (s.nextStep t).1 := by
  have h1 : Evolves a ((s.setAside t).modSlot t (fun y => { y with timer := none })) :=
    modSlot_evolves (setAside_evolves h t) _ _
  unfold State.nextStep
  dsimp only
  repeat' split
  · exact h
  · exact h
  · exact close_evolves h1 t
  · exact sendAnswer_evolves h1 t _
  · exact close_evolves h1 t

theorem chooseVictim_evolves (h : Evolves a s) (t : SlotIx) (l : Line) : Evolves a (s.chooseVictim t l).1 := by
  have h1 := victimChoice_evolves h (setOf l)
  unfold State.chooseVictim
  dsimp only
  generalize s.victimChoice (setOf l) = q at h1 ⊢
  obtain ⟨s1, v⟩ := q
  cases v with
  | noVictim => exact refuse_evolves h1 t _
  | damagedKey w =>
    dsimp only
    exact takeSetRole_evolves (foundDamagedKey_evolves h1 _ _ _) _ _ _
  | victim w =>
    dsimp only
    split
    · exact refuse_evolves h1 t _
    · split
      · exact refuse_evolves h1 t _
      · rename_i hu
        exact modSlot_evolves (openOnLine_evolves h1 (lowestFree_getSlot hu) _ _ _) _ _

theorem untrackedRead_evolves (h : Evolves a s) (t : SlotIx) (n : Node) (l : Line) :
    Evolves a (s.untrackedRead t n l).1 := by
  unfold State.untrackedRead
  split
  · split
    · rename_i e; exact sendFetch_evolves (allocate_evolves h e) _ _ _
    · exact chooseVictim_evolves h t l
  · exact refuse_evolves h t _

theorem handedOver_evolves (h : Evolves a s) (t : SlotIx) : Evolves a (s.handedOver t).1 := by
  unfold State.handedOver
  repeat' split
  all_goals first | exact h | exact refuse_evolves h t _ | exact sendFetch_evolves h _ _ _

theorem reallocate_evolves (h : Evolves a s) (t : SlotIx) : Evolves a (s.reallocate t).1 := by
  unfold State.reallocate
  split
  · exact h
  · split
    · exact h
    · split
      · split
        · exact refuse_evolves h t _
        · split
          · rename_i e
            have h1 := allocate_evolves h e
            split
            · exact sendFetch_evolves h1 _ _ _
            · exact refuse_evolves h1 t _
          · exact chooseVictim_evolves h t _
      · exact h

theorem resumeAllocation_evolves (h : Evolves a s) (t : SlotIx) : Evolves a (s.resumeAllocation t).1 := by
  unfold State.resumeAllocation
  repeat' split
  all_goals first | exact h | exact refuse_evolves h t _ | exact untrackedRead_evolves h _ _ _

/-! ## Store waits -/

theorem storeConsumed_evolves (h : Evolves a s) (t : SlotIx) : Evolves a (s.storeConsumed t).1 := by
  have h1 : Evolves a (s.modSlot t (fun y => { y with memWait := .noWait, timer := none })) := modSlot_evolves h _ _
  unfold State.storeConsumed
  dsimp only
  repeat' split
  · exact h1
  · exact lineProgress_evolves (modSlot_evolves h _ _) t
  · exact recallFreed_evolves h1 t
  · exact closeWith_evolves (freeHeld_evolves h1 t) t _
  · exact nextStep_evolves h1 t

theorem enterConsuming_evolves (h : Evolves a s) (t : SlotIx) (n : Node) : Evolves a (s.enterConsuming t n).1 := by
  unfold State.enterConsuming
  dsimp only
  repeat' split
  · exact h
  · exact h
  · exact storeConsumed_evolves (removeNotice_evolves (modSlot_evolves (setAside_evolves h t) _ _) _ _) t
  · exact modSlot_evolves (setAside_evolves h t) _ _

theorem meetObserving_evolves (h : Evolves a s) (t : SlotIx) : Evolves a (s.meetObserving t).1 := by
  have h1 : Evolves a ((s.setAside t).modSlot t (fun y => { y with
    awaited := 0#8, memWait := .noWait, outstanding := .nothing, timer := none })) :=
    modSlot_evolves (setAside_evolves h t) _ _
  unfold State.meetObserving
  dsimp only
  repeat' split
  · exact h1
  · exact recallFreed_evolves h1 t
  · exact untrackedRead_evolves (freeHeld_evolves h1 t) _ _ _
  · exact h1

theorem notHeld_evolves (h : Evolves a s) (t : SlotIx) (l : Line) (n : Node) : Evolves a (s.notHeld t l n).1 := by
  unfold State.notHeld
  split
  · exact meetObserving_evolves h t
  · exact modSlot_evolves (setAside_evolves h t) _ _

theorem dropSharerOf_evolves (h : Evolves a s) (t : SlotIx) (n : Node) : Evolves a (s.dropSharerOf t n) :=
  modSlot_evolves h _ _

theorem freeAndReallocate_evolves (h : Evolves a s) (t : SlotIx) : Evolves a (s.freeAndReallocate t) := by
  have h1 := freeHeld_evolves h t
  unfold State.freeAndReallocate
  dsimp only
  split
  · rename_i l _
    cases e : (s.freeHeld t).allocate t l with
    | none => exact h1
    | some s' => exact allocate_evolves h1 e
  · exact h1

theorem revokeAcked_evolves (h : Evolves a s) (t : SlotIx) (n : Node) : Evolves a (s.revokeAcked t n).1 := by
  have h1 := dropSharerOf_evolves (modSlot_evolves h t (fun y => { y with awaited := NodeSet.remove y.awaited n })) t n
  unfold State.revokeAcked
  dsimp only
  repeat' split
  · exact h1
  · exact recallFreed_evolves h1 t
  · exact nextStep_evolves (freeAndReallocate_evolves h1 t) t
  · exact nextStep_evolves h1 t

/-! ## Decisions -/

theorem decideReadOwn_evolves (h : Evolves a s) (t : SlotIx) (c : Option Content) (n : Node) (l : Line) :
    Evolves a (s.decideReadOwn t c n l).1 := by
  unfold State.decideReadOwn
  repeat' split
  all_goals first
    | exact startRound_evolves h _ _ _ _ _ | exact refuse_evolves h t _ | exact untrackedRead_evolves h _ _ _

theorem decideReadShared_evolves (h : Evolves a s) (t : SlotIx) (c : Option Content) (n : Node) (l : Line) :
    Evolves a (s.decideReadShared t c n l).1 := by
  unfold State.decideReadShared
  repeat' split
  all_goals first
    | exact sendFetch_evolves h _ _ _ | exact startRound_evolves h _ _ _ _ _ | exact refuse_evolves h t _
    | exact untrackedRead_evolves h _ _ _

theorem convert_evolves (h : Evolves a s) (t : SlotIx) (c : Option Content) (n : Node) (l : Line) :
    Evolves a (s.convert t c n l).1 :=
  decideReadOwn_evolves (modSlot_evolves h t (fun y => { y with converted := true })) t c n l

theorem decideUpgrade_evolves (h : Evolves a s) (t : SlotIx) (c : Option Content) (n : Node) (l : Line) :
    Evolves a (s.decideUpgrade t c n l).1 := by
  unfold State.decideUpgrade
  repeat' split
  all_goals first
    | exact nextStep_evolves h t | exact startRound_evolves h _ _ _ _ _ | exact refuse_evolves h t _
    | exact convert_evolves h _ _ _ _

theorem staleWriteback_evolves (h : Evolves a s) (t : SlotIx) (n : Node) (l : Line) :
    Evolves a (s.staleWriteback t n l).1 :=
  sendAnswer_evolves (countStale_evolves (removeNotice_evolves h l n) n) t _

theorem decideWriteback_evolves (h : Evolves a s) (t : SlotIx) (c : Option Content) (n : Node) (l : Line) :
    Evolves a (s.decideWriteback t c n l).1 := by
  unfold State.decideWriteback
  repeat' split
  all_goals first | exact enterConsuming_evolves h _ _ | exact staleWriteback_evolves h _ _ _

theorem staleDrop_evolves (h : Evolves a s) (t : SlotIx) (n : Node) (l : Line) : Evolves a (s.staleDrop t n l).1 :=
  sendAnswer_evolves (countStale_evolves h n) t _

theorem decideDrop_evolves (h : Evolves a s) (t : SlotIx) (c : Option Content) (n : Node) (l : Line) :
    Evolves a (s.decideDrop t c n l).1 := by
  unfold State.decideDrop
  dsimp only
  repeat' split
  all_goals first
    | with_reducible exact sendAnswer_evolves (freeHeld_evolves (dropSharerOf_evolves h t n) t) t _
    | with_reducible exact sendAnswer_evolves (dropSharerOf_evolves h t n) t _
    | with_reducible exact staleDrop_evolves h _ _ _
    | with_reducible exact sendAnswer_evolves (freeHeld_evolves h t) t _

theorem decideDirect_evolves (h : Evolves a s) (t : SlotIx) (k : Kind) (n : Node) (l : Line) :
    Evolves a (s.decideDirect t k n l).1 := by
  unfold State.decideDirect
  repeat' split
  all_goals first
    | with_reducible exact refuse_evolves h t _ | with_reducible exact enterConsuming_evolves h _ _ | with_reducible exact sendAnswer_evolves h t _
    | with_reducible exact sendFetch_evolves h _ _ _

theorem decideNode_evolves (h : Evolves a s) (t : SlotIx) (x : Slot) (n : Node) (l : Line) :
    Evolves a (s.decideNode t x n l).1 := by
  unfold State.decideNode
  dsimp only
  repeat' split
  all_goals first
    | with_reducible exact decideDirect_evolves h _ _ _ _ | with_reducible exact decideReadShared_evolves h _ _ _ _
    | with_reducible exact decideReadOwn_evolves h _ _ _ _ | with_reducible exact decideUpgrade_evolves h _ _ _ _
    | with_reducible exact decideWriteback_evolves h _ _ _ _ | with_reducible exact decideDrop_evolves h _ _ _ _ | with_reducible exact h

theorem decideRecall_evolves (h : Evolves a s) (t : SlotIx) (x : Slot) (l : Line) :
    Evolves a (s.decideRecall t x l).1 := by
  unfold State.decideRecall
  dsimp only
  repeat' split
  all_goals first | exact close_evolves h t | exact startRound_evolves h _ _ _ _ _

theorem decision_evolves (h : Evolves a s) (t : SlotIx) : Evolves a (s.decision t).1 := by
  unfold State.decision
  repeat' split
  all_goals first
    | exact h | exact decideRecall_evolves h _ _ _ | exact close_evolves h t | exact refuse_evolves h t _
    | exact decideNode_evolves h _ _ _ _

/-! ## Activation -/

theorem goOn_evolves (h : Evolves a s) (t : SlotIx) : Evolves a (s.goOn t).1 := by
  have h1 := editWorking_evolves h t s.purgingNodes
  unfold State.goOn
  dsimp only
  repeat' split
  · exact recallFreed_evolves h1 t
  · exact decision_evolves (freeHeld_evolves h1 t) t
  · exact decision_evolves h1 t

theorem activate_evolves (h : Evolves a s) (t : SlotIx) : Evolves a (s.activate t).1 := by
  have h0 : Evolves a (s.modSlot t (fun y => { y with phase := .awaitReplies })) := modSlot_evolves h _ _
  unfold State.activate
  dsimp only
  split
  · exact h0
  · split
    · exact h0
    · rename_i l _
      split
      · exact h0
      · have h1 := lookup_evolves h0 l ((s.modSlot t (fun y => { y with phase := .awaitReplies })).frozen (setOf l))
        generalize State.lookup _ l _ = q at h1 ⊢
        obtain ⟨s1, r⟩ := q
        cases r with
        | miss => exact h1
        | hit w =>
          dsimp only
          split
          · exact takeHold_evolves h1 _ _ _ _
          · exact h1
        | damagedBody w => exact startLineRebuild_evolves h1 _ _ _ _
        | damagedKey w =>
          dsimp only
          exact takeSetRole_evolves (foundDamagedKey_evolves h1 _ _ _) _ _ _

theorem advance_evolves (h : Evolves a s) (l : Line) : Evolves a (s.advance l).1 := by
  unfold State.advance
  repeat' split
  all_goals exact h

end Sys2Proof.Machine
end

