-- ==== Sys2Proof/Laws/EvolvesWalks.lean ====
section
/-! SUPPORT. The operations of Machine/Purge.lean, Walks.lean and Engine.lean keep the conditions; so does a whole event
(`drain_evolves`, `conclude_next`). -/

namespace Sys2Proof.Machine

set_option Elab.async false

variable {a s : State}

/-! ## Purges -/

theorem dropPendingTo_evolves (h : Evolves a s) (t : SlotIx) (n : Node) : Evolves a (s.dropPendingTo t n) := by
  unfold State.dropPendingTo
  dsimp only
  repeat' split
  · exact (modSlot_evolves h t (fun y => { y with pending := none })).plain
  · exact modSlot_evolves h _ _
  · exact h

theorem dropOrdersTo_evolves (h : Evolves a s) (n : Node) : Evolves a (s.dropOrdersTo n) := h.plain

theorem endParked_evolves (h : Evolves a s) (n : Node) (t : SlotIx) : Evolves a (State.endParked n s t) := by
  unfold State.endParked
  split
  · exact h
  · rename_i ht
    split
    · exact leaveTable_evolves h ht
    · exact h

theorem enterPurging_evolves (h : Evolves a s) (n : Node) (r : PurgeReason) : Evolves a (s.enterPurging n r).1 :=
  foldl_evolves (fun _ t h => endParked_evolves h n t) allSlots
    (modNode_evolves (dropOrdersTo_evolves (dropMembership_evolves h n) n) n _)

theorem editOwn_evolves (h : Evolves a s) (t : SlotIx) (n : Node) (x : Slot) : Evolves a (s.editOwn t n x) := by
  have h1 : Evolves a ((s.modSlot t (fun y => { y with
    awaited := NodeSet.remove y.awaited n, memWait := clearStoreWait n y.memWait })).editWorking t (NodeSet.single n)) :=
    editWorking_evolves (modSlot_evolves h _ _) _ _
  unfold State.editOwn
  dsimp only
  split
  · split
    · exact freeAndReallocate_evolves h1 t
    · exact freeHeld_evolves h1 t
  · exact h1

theorem disownRebuild_evolves (h : Evolves a s) (t : SlotIx) (n : Node) (x : Slot) :
    Evolves a (s.disownRebuild t n x) := by
  unfold State.disownRebuild
  dsimp only
  split
  · exact releaseClaim_evolves (modSlot_evolves h _ _) _ _
  · exact modSlot_evolves h _ _

theorem editRebuild_evolves (h : Evolves a s) (t : SlotIx) (n : Node) (x : Slot) (b : Rebuild) :
    Evolves a (s.editRebuild t n x b).1 := by
  unfold State.editRebuild
  repeat' split
  · exact lineLost_evolves h t
  · exact h
  · exact h
  · exact setProgress_evolves (abandonStores_evolves h t n) t
  · exact h

theorem editOwned_evolves (h : Evolves a s) (t : SlotIx) (n : Node) (x : Slot) : Evolves a (s.editOwned t n x).1 := by
  have h1 : Evolves a ((s.poisonCopy t (some n)).modSlot t (fun y => { y with
    awaited := NodeSet.remove y.awaited n, memWait := clearStoreWait n y.memWait })) :=
    modSlot_evolves (poisonCopy_evolves h t _) _ _
  unfold State.editOwned
  dsimp only
  repeat' split
  · exact h1
  · exact setAside_evolves h1 t
  · exact refuse_evolves h1 t _
  · exact h1

theorem editSharer_evolves (h : Evolves a s) (t : SlotIx) (n : Node) (x : Slot) : Evolves a (s.editSharer t n x).1 := by
  have h1 := dropSharerOf_evolves h t n
  unfold State.editSharer
  dsimp only
  repeat' split
  · exact recallFreed_evolves h1 t
  · exact freeAndReallocate_evolves h1 t
  · exact freeHeld_evolves h1 t
  · exact h1

theorem purgeEdit_evolves (h : Evolves a s) (t : SlotIx) (n : Node) : Evolves a (s.purgeEdit t n).1 := by
  have h0 := dropPendingTo_evolves h t n
  unfold State.purgeEdit
  dsimp only
  generalize s.dropPendingTo t n = s0 at h0 ⊢
  split
  · exact h0
  · split
    · exact h0
    · split
      · split
        · exact editRebuild_evolves (disownRebuild_evolves h0 _ _ _) _ _ _ _
        · exact editRebuild_evolves h0 _ _ _ _
      · split
        · exact editOwn_evolves h0 _ _ _
        · split
          · split
            · exact editOwned_evolves h0 _ _ _
            · exact h0
          · split
            · exact revokeAcked_evolves h0 _ _
            · split
              · exact editSharer_evolves h0 _ _ _
              · exact h0
          · split
            · exact revokeAcked_evolves h0 _ _
            · exact h0

theorem purgeEnd_evolves (h : Evolves a s) (t : SlotIx) (n : Node) : Evolves a (s.purgeEnd t n).1 := by
  unfold State.purgeEnd
  repeat' split
  · exact h
  · exact disownRebuild_evolves h t n _
  · exact close_evolves (dropPending_evolves h t) t
  · exact h

theorem silentEdit_evolves (h : Evolves a s) (i : SetIx) (p : NodeSet) : Evolves a (s.silentEdit i p) := by
  refine foldl_evolves (fun s w h => ?_) _ h
  split
  · exact h
  · split
    · exact h
    · split
      · exact h
      · exact editStored_evolves h _ _ _

theorem purgeFinish_evolves (h : Evolves a s) (n : Node) : Evolves a (s.purgeFinish n) := by
  have h1 : Evolves a (s.modNode n (fun v => { v with credits := 0 })) :=
    modNode_evolves h n _ (fun _ => Nat.zero_le _)
  unfold State.purgeFinish
  dsimp only
  split
  · exact putJob_evolves h1 _ _
  · split
    · split
      · exact (silentEdit_evolves (putJob_evolves h1 _ _) _ _).plain
      · exact putJob_evolves h1 _ _
    · exact putJob_evolves h1 _ _

theorem declareLost_evolves (h : Evolves a s) (n : Node) (f : FaultFields) : Evolves a (s.declareLost n f).1 := by
  unfold State.declareLost
  split
  · exact enterPurging_evolves (fault_evolves (raise_evolves h _) _ _) n _
  · exact h

theorem declareFailed_evolves (h : Evolves a s) (f : FaultFields) : Evolves a (s.declareFailed f).1 := by
  unfold State.declareFailed
  dsimp only
  split
  · have h1 : Evolves a { s with mem := .failed } := h.plain
    exact fault_evolves (raise_evolves h1 _) _ _
  · exact h

theorem refuseFetch_evolves (h : Evolves a s) (t : SlotIx) : Evolves a (s.refuseFetch t).1 := by
  unfold State.refuseFetch
  repeat' split
  · exact h
  · exact refuse_evolves (modSlot_evolves (dropPending_evolves h t) t (fun y => { y with memWait := .noWait })) t _
  · exact h

theorem uncountLeaves_evolves (h : Evolves a s) (n : Node) : Evolves a (s.uncountLeaves n) :=
  modSlots_evolves h _ (fun x => by split <;> rfl) (fun x => by split <;> rfl)

theorem endPurge_evolves (h : Evolves a s) (n : Node) : Evolves a (s.endPurge n).1 := by
  have h1 := putJob_evolves (uncountLeaves_evolves h n) n none
  unfold State.endPurge
  dsimp only
  split
  · exact raise_evolves (membershipAnswer_evolves (modNode_evolves h1 n _) _ _) _
  · exact raise_evolves (membershipAnswer_evolves (modNode_evolves h1 n _ (fun _ => Nat.zero_le _)) _ _) _
  · exact modNode_evolves h1 n (fun v => { v with state := .lost })
  · exact h1

/-! ## Walks -/

theorem openRecall_evolves (h : Evolves a s) (x : Slot) (l : Line) : Evolves a (s.openRecall x l).1 := by
  unfold State.openRecall
  split
  · exact h
  · rename_i ht; exact openOnLine_evolves h (lowestFree_getSlot ht) _ _ _

theorem beginPurgeStep_evolves (h : Evolves a s) : Evolves a s.beginPurgeStep.1 :=
  Evolves.plain (silentEdit_evolves (noteDamagedKeys_evolves (readWholeSet_evolves h s.purgePos) s.purgePos allWays)
    s.purgePos _)

theorem endPurgeStep_evolves (h : Evolves a s) (p : NodeSet) : Evolves a (s.endPurgeStep p) :=
  Evolves.plain (foldl_evolves (fun _ n h => putJob_evolves h n _) (NodeSet.toList p) h)

theorem purgeCursor_evolves (h : Evolves a s) : Evolves a s.purgeCursor.1 := by
  unfold State.purgeCursor
  split
  · exact h
  · split
    · exact endPurgeStep_evolves h _
    · split
      · exact h
      · split
        · refine openRecall_evolves (putJob_evolves ?_ _ _) _ _
          exact h.plain
        · exact h.plain

theorem endMaintStep_evolves (h : Evolves a s) {j : MaintJob} (hj : s.maint = some j) : Evolves a (s.endMaintStep j) := by
  have key : ∀ k : MaintJob, k.window = j.window → Evolves a { s with maint := some k } := fun k hk =>
    maint_evolves h (fun q w hq hw => by cases hq; exact ⟨j, hj, by rw [← hk, hw]⟩)
  unfold State.endMaintStep
  dsimp only
  split
  · refine (key { j with
      nextSet := (s.scrubPos.val + 1) % 2048, interval := some s.limits.scrubInterval.toNat } rfl).plain
  · refine (key { j with
      nextSet := j.nextSet + 1
      owed := false
      run := if j.nextSet + 1 = Config.setCount then .finishing else if j.run = .pausing then .paused else j.run }
      rfl).plain

theorem beginMaintStep_evolves (h : Evolves a s) (j : MaintJob) : Evolves a (s.beginMaintStep j).1 :=
  Evolves.plain (noteDamagedKeys_evolves (readWholeSet_evolves h (s.maintSet j)) (s.maintSet j) allWays)

theorem correctBody_maint (i : SetIx) (w : WayIx) : (State.correctBody i s w).maint = s.maint := by
  unfold State.correctBody
  split
  · unfold State.countCorrected; dsimp only; split <;> rfl
  · rfl

theorem correctKey_maint (i : SetIx) (w : WayIx) : (State.correctKey i s w).maint = s.maint := by
  unfold State.correctKey
  split
  · unfold State.countCorrected; dsimp only; split <;> rfl
  · rfl

theorem correctBodies_maint (i : SetIx) (ws : List WayIx) : (s.correctBodies i ws).maint = s.maint := by
  unfold State.correctBodies
  induction ws generalizing s with
  | nil => rfl
  | cons w ws ih => rw [List.foldl_cons, ih, correctBody_maint]

theorem correctKeys_maint (i : SetIx) (ws : List WayIx) : (s.correctKeys i ws).maint = s.maint := by
  unfold State.correctKeys
  induction ws generalizing s with
  | nil => rfl
  | cons w ws ih => rw [List.foldl_cons, ih, correctKey_maint]

theorem foundDamagedKey_maint (i : SetIx) (w : WayIx) (t : Option SlotIx) :
    (s.foundDamagedKey i w t).maint = s.maint := by
  unfold State.foundDamagedKey
  split
  · rfl
  · rw [fault_maint]; rfl

theorem pickFrom_maint {α : Type} (d : α) (l : List α) : (s.pickFrom d l).1.maint = s.maint := by
  unfold State.pickFrom; split <;> rfl

theorem noteDamagedKeys_maint (i : SetIx) (ws : List WayIx) : (s.noteDamagedKeys i ws).maint = s.maint := by
  unfold State.noteDamagedKeys
  split
  · rfl
  · split
    · rfl
    · exact (foundDamagedKey_maint _ _ _).trans (pickFrom_maint _ _)

theorem beginScrubStep_evolves (h : Evolves a s) {j : MaintJob} (hj : s.maint = some j) :
    Evolves a (s.beginScrubStep j).1 := by
  unfold State.beginScrubStep
  dsimp only
  generalize List.filter _ allWays = ws
  generalize s.maintSet j = i
  have h1 := correctKeys_evolves (correctBodies_evolves h i ws) i ws
  have m1 : ((s.correctBodies i ws).correctKeys i ws).maint = s.maint :=
    (correctKeys_maint i ws).trans (correctBodies_maint i ws)
  generalize State.correctKeys _ i ws = s1 at h1 m1 ⊢
  have h2 := noteDamagedKeys_evolves h1 i ws
  have m2 := (noteDamagedKeys_maint (s := s1) i ws).trans m1
  generalize s1.noteDamagedKeys i ws = s2 at h2 m2 ⊢
  have fin : ∀ s3, Evolves a s3 → s3.maint = s.maint →
      Evolves a { s3 with maintStep := some allWays, maint := some { j with interval := none } } := by
    intro s3 h3 m3
    have : Evolves a { s3 with maint := some { j with interval := none } } :=
      maint_evolves h3 (fun q w hq hw => by cases hq; exact ⟨j, m3.trans hj, hw⟩)
    exact this.plain
  split
  · split
    · rename_i ht
      exact fin _ (openSetRebuild_evolves h2 (lowestFree_getSlot ht) i) m2
    · exact fin _ h2 m2
  · exact fin _ h2 m2

theorem maintCursor_evolves (h : Evolves a s) : Evolves a s.maintCursor.1 := by
  unfold State.maintCursor
  split
  · rename_i j ws hj hw
    dsimp only
    split
    · exact endMaintStep_evolves h hj
    · rename_i w rest
      have h1 : Evolves a { s with maintStep := some rest } := h.plain
      split
      · exact h1
      · exact makeFree_evolves h1 _ _
      · exact setRelease_evolves h1 _ _
      · exact makeFree_evolves (noteDamaged_evolves h1 _ _ _ _) _ _
      · split
        · refine openRecall_evolves ?_ _ _
          exact maint_evolves h1 (m := some { j with openCount := j.openCount + 1 })
            (fun q w hq hw => by cases hq; exact ⟨j, hj, hw⟩)
        · exact h
  · exact h

theorem uncount_evolves (h : Evolves a s) : Evolves a s.uncount :=
  modSlots_evolves h _ (fun x => by split <;> rfl) (fun x => by split <;> rfl)

theorem startScrub_evolves (h : Evolves a s) : Evolves a s.startScrub := by
  unfold State.startScrub
  split
  · refine maint_evolves h ?_
    intro j w hj hw
    cases hj; cases hw
  · exact h

theorem endMaint_evolves (h : Evolves a s) : Evolves a s.endMaint := by
  refine startScrub_evolves ?_
  have : Evolves a { s.uncount with maint := none } := maint_evolves (uncount_evolves h) (fun j w hj _ => by cases hj)
  exact this.plain

/-- The end of a job whose window changes with it. -/
theorem windowEnd_evolves (h : Evolves a s) {j : MaintJob} {w : WinIx} (hj : s.maint = some j) (hw : j.window = some w)
    (f : Window → Window) (h1 : ∀ v, (f v).start = v.start) (h2 : ∀ v, (f v).limit = v.limit) (e : Event) :
    Evolves a ((s.modWindow w f).raise e).endMaint := by
  have e1 : Evolves a { s.modWindow w f with maint := none } := by
    refine h.trans ⟨rfl, id, id, id, id, fun _ => le_rfl, by simp, fun r h => ⟨r.further, h⟩, ?_, id⟩
    rintro ⟨g1, g2, g3⟩
    have hopen := (g3 j w hj hw).1
    have p1 : ∀ u, ((s.modWindow w f).getWindow u).start = (s.getWindow u).start := by
      intro u; rw [getWindow_modWindow]; split <;> simp_all
    have p2 : ∀ u, ((s.modWindow w f).getWindow u).limit = (s.getWindow u).limit := by
      intro u; rw [getWindow_modWindow]; split <;> simp_all
    have p3 : ∀ u, ((s.modWindow w f).getWindow u).state ≠ .closed → (s.getWindow u).state ≠ .closed := by
      intro u
      rw [getWindow_modWindow]; split
      · rename_i e; subst e; intro _; rw [hopen]; decide
      · exact id
    refine ⟨fun u hu => ?_, fun u v hn hu hv => ?_, fun k u hk _ => by cases hk⟩
    · have := g1 u (p3 u hu)
      rw [← p1 u, ← p2 u] at this
      exact this
    · have := g2 u v hn (p3 u hu) (p3 v hv)
      simp only [Window.shares, Window.spans, ← p1, ← p2] at this
      exact this
  have e2 := uncount_evolves (raise_evolves e1 e)
  refine startScrub_evolves ?_
  have e3 : { ((s.modWindow w f).raise e).uncount with maint := none, maintStep := none } =
      { (State.raise { s.modWindow w f with maint := none } e).uncount with maintStep := none } := by
    unfold State.uncount
    rw [modSlots_eq, modSlots_eq]
    rfl
  rw [e3]
  exact e2.plain

theorem maintEnding_evolves (h : Evolves a s) {s' : State} (e : s.maintEnding = some s') : Evolves a s' := by
  have plainEnd : ∀ ev, Evolves a (s.raise ev).endMaint := fun ev => endMaint_evolves (raise_evolves h ev)
  unfold State.maintEnding at e
  split at e
  · cases e
  · rename_i j hj
    split at e
    · split at e
      · cases e
      · split at e
        · cases e
          unfold State.walkFinished
          split
          · exact plainEnd _
          · rename_i w hw
            exact windowEnd_evolves h hj hw _ (fun v => by split <;> rfl) (fun v => by split <;> rfl) _
        · split at e
          · cases e; exact plainEnd _
          · split at e
            · cases e
            · cases e
              exact maint_evolves h (fun q w hq hw => by cases hq; exact ⟨j, hj, hw⟩)
    · split at e
      · cases e
        unfold State.walkAborted
        split
        · exact plainEnd _
        · rename_i w hw
          exact windowEnd_evolves h hj hw _ (by intro _; rfl) (by intro _; rfl) _
      · cases e
    · cases e

/-! ## Events -/

theorem perform_evolves (h : Evolves a s) (k : Task) : Evolves a (k.perform s).1 := by
  cases k with
  | activate t => exact activate_evolves h t
  | goOn t => exact goOn_evolves h t
  | resumeAllocation t => exact resumeAllocation_evolves h t
  | close t => exact close_evolves h t
  | finishClose t => exact finishClose_evolves h t
  | advance l => exact advance_evolves h l
  | handedOver t => exact handedOver_evolves h t
  | reallocate t => exact reallocate_evolves h t
  | meetObserving t => exact meetObserving_evolves h t
  | purgeEdit t n => exact purgeEdit_evolves h t n
  | purgeEnd t n => exact purgeEnd_evolves h t n
  | purgeFinish n => exact purgeFinish_evolves h n
  | declareLost n f => exact declareLost_evolves h n f
  | declareFailed f => exact declareFailed_evolves h f
  | refuseFetch t => exact refuseFetch_evolves h t
  | endSetRebuild t => exact endSetRebuild_evolves h t
  | purgeCursor => exact purgeCursor_evolves h
  | maintCursor => exact maintCursor_evolves h
  | settle => exact h

theorem settleStep_evolves (h : Evolves a s) {w : Work} (e : s.settleStep = some w) : Evolves a w.1 := by
  unfold State.settleStep at e
  split at e
  · cases e; exact beginSurrender_evolves h _
  · split at e
    · rename_i ht
      cases e; exact openSetRebuild_evolves h (lowestFree_getSlot ht) _
    · split at e
      · cases e; exact h
      · split at e
        · cases e; exact h
        · split at e
          · rename_i he; cases e; exact placeHeldOrder_evolves h he
          · split at e
            · rename_i he; cases e; exact placeHeldAnswer_evolves h he
            · split at e
              · rename_i he; cases e; exact maintEnding_evolves h he
              · split at e
                · cases e; exact endPurge_evolves h _
                · cases e

theorem carryOut_evolves (h : Evolves a s) (k : Task) : Evolves a (k.carryOut s).1 := by
  unfold Task.carryOut
  split
  · split
    · rename_i s1 ts he; exact settleStep_evolves (w := (s1, ts)) h he
    · exact h
  · exact perform_evolves h k

/-- A whole event's tasks keep the conditions. -/
theorem drain_evolves (k : Nat) (ts : List Task) : ∀ {s u : State}, Evolves a s → drain k s ts = some u → Evolves a u := by
  induction k generalizing ts with
  | zero =>
    intro s u h e
    cases ts with
    | nil => cases e; exact h
    | cons t ts => cases e
  | succ k ih =>
    intro s u h e
    cases ts with
    | nil => cases e; exact h
    | cons t ts => exact ih _ (carryOut_evolves h t) e

/-- Settling comes last: no condition is left standing. -/
theorem drain_settled (k : Nat) (ts : List Task) (p : List Task) (hp : p = ts ++ [.settle]) : ∀ {s u : State},
    drain k s p = some u → u.settled = true := by
  induction k generalizing ts p with
  | zero =>
    intro s u e
    subst hp
    cases ts <;> cases e
  | succ k ih =>
    intro s u e
    subst hp
    cases ts with
    | nil =>
      simp only [List.nil_append, drain, Task.carryOut] at e
      split at e
      · rename_i w ts' he
        exact ih ts' _ (by simp) e
      · rename_i he
        have : drain k s [] = some s := by cases k <;> rfl
        simp only [List.append_nil] at e
        rw [this] at e
        cases e
        simp [State.settled, he]
    | cons t ts =>
      simp only [List.cons_append, drain] at e
      exact ih ((t.carryOut s).2 ++ ts) _ (by simp) e

/-- What an event that ends leaves: everything `Evolves` says, settled, with EVENTn driven. -/
theorem conclude_next {w : Work} {t : State} (h : State.conclude w = .next t) :
    ∃ u, Evolves w.1 u ∧ u.settled = true ∧ t = u.driveEventN := by
  unfold State.conclude at h
  split at h
  · rename_i u hu
    cases h
    exact ⟨u, drain_evolves _ _ (Evolves.refl _) hu, drain_settled _ _ _ rfl hu, rfl⟩
  · cases h

end Sys2Proof.Machine
end

