-- ==== Sys2Proof/Laws/Events.lean ====
section
/-! SUPPORT. How an event runs: the drain of its tasks, and when a state is settled. -/

namespace Sys2Proof.Machine

set_option Elab.async false

/-! ## The drain -/

theorem drain_nil (k : Nat) (s : State) : drain k s [] = some s := by cases k <;> rfl

theorem drain_cons (k : Nat) (s : State) (t : Task) (ts : List Task) :
    drain (k + 1) s (t :: ts) = drain k (t.carryOut s).1 ((t.carryOut s).2 ++ ts) := rfl

/-- More fuel changes nothing. -/
theorem drain_mono {k j : Nat} (hkj : k ≤ j) : ∀ {s u : State} {ts : List Task},
    drain k s ts = some u → drain j s ts = some u := by
  induction k generalizing j with
  | zero =>
    intro s u ts h
    cases ts with
    | nil => cases h; exact drain_nil j s
    | cons t ts => cases h
  | succ k ih =>
    intro s u ts h
    cases ts with
    | nil => cases h; exact drain_nil j s
    | cons t ts =>
      obtain ⟨j, rfl⟩ : ∃ i, j = i + 1 := ⟨j - 1, by omega⟩
      rw [drain_cons] at h ⊢
      exact ih (by omega) h

/-- The tasks of an event run to their end in some number of steps. -/
theorem conclude_of_drain {w : Work} {k : Nat} {u : State} (hk : k ≤ Config.cascadeBound)
    (h : drain k w.1 (w.2 ++ [.settle]) = some u) : State.conclude w = .next u.driveEventN := by
  unfold State.conclude
  rw [drain_mono hk h]

theorem carryOut_settled {s : State} (h : s.settled = true) : Task.carryOut .settle s = (s, []) := by
  simp only [State.settled, Option.isNone_iff_eq_none] at h
  simp [Task.carryOut, h]

/-- Settling a settled state ends the event. -/
theorem drain_settle {s : State} (h : s.settled = true) (k : Nat) : drain (k + 1) s [.settle] = some s := by
  rw [drain_cons, carryOut_settled h]; exact drain_nil k s

/-- An event without tasks that leaves its state settled. -/
theorem conclude_settled {s : State} (h : s.settled = true) : State.conclude (s, []) = .next s.driveEventN :=
  conclude_of_drain (k := 1) (by decide) (drain_settle h 0)

theorem event_running {s : State} {w : Work} (h : s.resetN = .high) : s.event w = State.conclude w := by
  unfold State.event; rw [h]

theorem event_low {s : State} {w : Work} (h : s.resetN = .low) : s.event w = .next s := by
  unfold State.event; rw [h]

theorem event_settled {s s' : State} (h : s.resetN = .high) (h' : s'.settled = true) :
    s.event (s', []) = .next s'.driveEventN := by
  rw [event_running h, conclude_settled h']

/-! ## When a state is settled -/

/-- The conditions of settling, one by one. -/
theorem settled_iff (s : State) : s.settled = true ↔
    s.readyRebuild = none ∧ (s.dueSets = [] ∨ s.lowestFree = none) ∧ s.purgeReady = false ∧ s.maintReady = false ∧
      s.placeHeldOrder = none ∧ s.placeHeldAnswer = none ∧ s.maintEnding = none ∧ s.doneNode = none := by
  unfold State.settled State.settleStep
  cases h1 : s.readyRebuild <;> cases h2 : s.dueSets <;> cases h3 : s.lowestFree <;> cases h4 : s.purgeReady <;>
    cases h5 : s.maintReady <;> cases h6 : s.placeHeldOrder <;> cases h7 : s.placeHeldAnswer <;>
    cases h8 : s.maintEnding <;> cases h9 : s.doneNode <;> simp

theorem placeHeldOrder_none_iff (s : State) : s.placeHeldOrder = none ↔
    s.orderHeld = [] ∨ (∃ t os rest, s.orderHeld = .left t os :: rest ∧ s.orderRoom os = false) ∨
      ∃ t rest os b, s.orderHeld = .slot t :: rest ∧
        (s.getSlot t).bind Slot.pending = some (.round os b) ∧ s.orderRoom os = false := by
  unfold State.placeHeldOrder
  match h : s.orderHeld with
  | [] => simp
  | .left t os :: rest => cases hr : s.orderRoom os <;> simp [hr]
  | .slot t :: rest =>
    dsimp only
    split
    · rename_i os b hp
      split
      · rename_i hr
        simp only [reduceCtorEq, false_iff, not_or, not_exists]
        refine ⟨by simp, by simp, ?_⟩
        rintro t' rest' os' b' ⟨he, hq, hn⟩
        cases he
        rw [hp] at hq
        cases hq
        rw [hr] at hn
        cases hn
      · rename_i hr
        simp only [true_iff]
        exact Or.inr (Or.inr ⟨t, rest, os, b, rfl, hp, by simpa using hr⟩)
    · rename_i hp
      simp only [reduceCtorEq, false_iff, not_or, not_exists]
      refine ⟨by simp, by simp, ?_⟩
      rintro t' rest' os b ⟨he, hq, _⟩
      cases he
      exact hp _ _ hq

theorem placeHeldAnswer_none_iff (s : State) : s.placeHeldAnswer = none ↔
    s.answerHeld = [] ∨ Config.queueCapacity ≤ s.answerQ.length ∨
      ∃ t rest, s.answerHeld = .slot t :: rest ∧ s.roundHeld t = true := by
  unfold State.placeHeldAnswer
  cases h : s.answerHeld with
  | nil => simp
  | cons x rest =>
    dsimp only
    split
    · rename_i hlt
      have : ¬ Config.queueCapacity ≤ s.answerQ.length := by omega
      simp only [reduceCtorEq, this, false_or, List.cons.injEq]
      split
      · rename_i t
        split
        · rename_i hr
          simp only [true_iff]
          exact ⟨_, _, ⟨rfl, rfl⟩, hr⟩
        · rename_i hr
          have : ¬∃ u r, (AnswerHolder.slot t = AnswerHolder.slot u ∧ rest = r) ∧ s.roundHeld u = true := by
            rintro ⟨u, r, ⟨he, _⟩, hu⟩
            cases he
            exact hr hu
          simp only [this, iff_false]
          split <;> simp
      all_goals
        split <;> simp
    · rename_i hlt
      have : Config.queueCapacity ≤ s.answerQ.length := by omega
      simp [this]

theorem maintEnding_none_iff (s : State) : s.maintEnding = none ↔
    ∀ j, s.maint = some j →
      (j.run = .finishing → (s.anyFrozen = true ∧ j.walked = false) ∨
        (j.kind ≠ .retire ∧ j.openCount ≠ 0 ∧ j.walked = true)) ∧
      (j.run = .aborting → j.openCount ≠ 0) := by
  unfold State.maintEnding
  cases s.maint with
  | none => simp
  | some j =>
    simp only [Option.some.injEq, forall_eq']
    cases j.run <;> simp
    by_cases hc : j.openCount = 0 <;> cases s.anyFrozen <;> cases j.walked <;> cases j.kind <;> simp [hc]

/-- A part with nothing in hand is settled. -/
theorem Quiet_settled {s : State} (h : s.Quiet) : s.settled = true := by
  rw [settled_iff]
  refine ⟨?_, Or.inl ?_, ?_, ?_, ?_, ?_, h.noEnding, h.noDone⟩
  · unfold State.readyRebuild; rw [h.noRebuild]; rfl
  · unfold State.dueSets
    rw [List.map_eq_nil_iff, List.filter_eq_nil_iff]
    intro p hp
    have := h.noFrozen
    simp only [State.anyFrozen, List.any_eq_false] at this
    simp [this p hp]
  · simp [State.purgeReady, h.noPurgeStep]
  · simp [State.maintReady, h.noMaintStep]
  · exact (placeHeldOrder_none_iff s).2 (Or.inl h.noHeldOrder)
  · exact (placeHeldAnswer_none_iff s).2 (Or.inl h.noHeldAnswer)

theorem Quiet_ready {s : State} (h : s.Quiet) : s.Ready := ⟨h.running, Quiet_settled h⟩

/-- Settling reads these fields and no others. -/
theorem settled_congr {s s' : State} (h1 : s'.dir = s.dir) (h2 : s'.slots = s.slots) (h3 : s'.windows = s.windows)
    (h4 : s'.purgePos = s.purgePos) (h5 : s'.purgeJobs = s.purgeJobs) (h6 : s'.purgeStep = s.purgeStep)
    (h7 : s'.maint = s.maint) (h8 : s'.maintStep = s.maintStep) (h9 : s'.scrubPos = s.scrubPos)
    (h10 : s'.orderQ = s.orderQ) (h11 : s'.answerQ = s.answerQ) (h12 : s'.orderHeld = s.orderHeld)
    (h13 : s'.answerHeld = s.answerHeld) : s'.settled = s.settled := by
  rw [Bool.eq_iff_iff, settled_iff, settled_iff, placeHeldOrder_none_iff, placeHeldOrder_none_iff,
    placeHeldAnswer_none_iff, placeHeldAnswer_none_iff, maintEnding_none_iff, maintEnding_none_iff]
  obtain ⟨⟩ := s
  obtain ⟨⟩ := s'
  dsimp only at *
  subst h1 h2 h3 h4 h5 h6 h7 h8 h9 h10 h11 h12 h13
  exact Iff.rfl

end Sys2Proof.Machine
end

