-- ==== Sys2Proof/Laws/Commands.lean ====
section
/-! SUPPORT. What each command changes before the rest of its event runs: `Instr.work`, with `exec_work`; and what that
change keeps, `work_keeps`. -/

namespace Sys2Proof.Machine

set_option Elab.async false

/-- The change a command makes and the tasks it leaves; RESETN runs no event. -/
def work (c : Instr) (s : State) : Work :=
  match c with
  | .linkMessageReceived ch m =>
    if s.link = .up ∧ m.length = 12 then
      match ch with
      | .request => if s.reqIntake.length < Config.intakeCapacity then (s.receiveRequest m, []) else (s, [])
      | .reply => if s.replyIntake.length < Config.intakeCapacity then (s.receiveReply m, []) else (s, [])
    else (s, [])
  | .readShared => s.takeRequest .readShared
  | .readOwn => s.takeRequest .readOwn
  | .upgrade => s.takeRequest .upgrade
  | .writeback => s.takeRequest .writeback
  | .drop => s.takeRequest .drop
  | .hello =>
    match s.riHeld, s.reqIntake with
    | none, .hello (.node n) :: rest => ({ s with reqIntake := rest }).helloNode n
    | _, _ => (s, [])
  | .helloFromMemoryAgent =>
    match s.riHeld, s.reqIntake with
    | none, .hello .memory :: rest => (({ s with reqIntake := rest, mem := .live }).intakeAnswer (.welcome .memory), [])
    | _, _ => (s, [])
  | .leave =>
    match s.riHeld, s.reqIntake with
    | none, .leave n :: rest => (({ s with reqIntake := rest }).leaveNode n, [])
    | _, _ => (s, [])
  | .revokeAck =>
    match s.replyIntake with
    | .revokeAck n l :: _ => s.dropReply.revokeAck n l
    | _ => (s, [])
  | .forwardDone =>
    match s.replyIntake with
    | .forwardDone n l r :: _ => s.dropReply.forwardDone n l r
    | _ => (s, [])
  | .recallDone =>
    match s.replyIntake with
    | .recallDone n l r :: _ => s.dropReply.recallDone n l r
    | _ => (s, [])
  | .surrenderDone =>
    match s.replyIntake with
    | .surrenderDone n i d :: _ => s.dropReply.surrenderDone n i d
    | _ => (s, [])
  | .complete =>
    match s.replyIntake with
    | .complete n l :: _ => s.dropReply.complete n l
    | _ => (s, [])
  | .fetchSent =>
    match s.replyIntake with
    | .fetchSent l :: _ => s.dropReply.fetchSent l
    | _ => (s, [])
  | .fetchFailed =>
    match s.replyIntake with
    | .fetchFailed l :: _ => s.dropReply.fetchFailed l
    | _ => (s, [])
  | .absorbDone =>
    match s.replyIntake with
    | .absorbDone l n :: _ => s.dropReply.absorbDone l n
    | _ => (s, [])
  | .orderTimerExpiry t =>
    match s.expiring t with
    | some (u, x) => if x.roundTimed then s.orderExpiry u x else (s, [])
    | none => (s, [])
  | .grantTimerExpiry t =>
    match s.expiring t with
    | some (u, x) => if x.phase = .awaitComplete then s.grantExpiry u x else (s, [])
    | none => (s, [])
  | .storeWaitExpiry t =>
    match s.expiring t with
    | some (u, x) =>
      match x.memWait, x.rebuild with
      | .consuming n, none => if x.phase = .awaitStore then s.countMemTimeout.endInPoison u x n else (s, [])
      | .consuming _, some (.line _) => if x.awaited = 0#8 then s.countMemTimeout.lineLost u else (s, [])
      | _, _ => (s, [])
    | none => (s, [])
  | .observingWaitExpiry t =>
    match s.expiring t with
    | some (u, x) =>
      match x.memWait, x.line with
      | .observing n, some l => s.observingExpiry u x n l
      | _, _ => (s, [])
    | none => (s, [])
  | .collectingExpiry t =>
    match s.expiring t with
    | some (u, x) =>
      match x.rebuild with
      | some (.set .collecting _ _ _) => s.collectingStep u x
      | _ => (s, [])
    | none => (s, [])
  | .noticeAgeExpiry l n =>
    match s.noticeFor l n with
    | some v => if s.link = .up ∧ v.claimed = false then ((s.removeNotice l n).countNoticeDropped, []) else (s, [])
    | none => (s, [])
  | .purgeSetStep => if s.purgeStep.isNone ∧ s.walkingNodes ≠ 0#8 then s.beginPurgeStep else (s, [])
  | .retireSetStep =>
    match s.maint with
    | some j => if j.kind = .retire ∧ s.takesSet j = true then s.beginMaintStep j else (s, [])
    | none => (s, [])
  | .flushSetStep =>
    match s.maint with
    | some j => if j.kind = .flush ∧ s.takesSet j = true then s.beginMaintStep j else (s, [])
    | none => (s, [])
  | .scrubIntervalExpiry =>
    match s.maint with
    | some j =>
      if j.kind = .scrub ∧ s.maintStep.isNone = true ∧ j.interval.isSome = true then s.beginScrubStep j else (s, [])
    | none => (s, [])
  | .clearPoisonSetPass =>
    match s.poisonPass with
    | some p => (s.passSet p, [])
    | none => (s, [])
  | .outboundSend q =>
    if s.link = .up then
      match q with
      | .order =>
        match s.orderQ with
        | o :: rest => (({ s with orderQ := rest }).transmit o.message, [])
        | [] => (s, [])
      | .answer =>
        match s.answerQ with
        | a :: rest => (({ s with answerQ := rest }).transmit a.message, [])
        | [] => (s, [])
    else (s, [])
  | .signalDetected => if s.link = .down then ({ s with link := .training }, []) else (s, [])
  | .trainingComplete => if s.link = .training then (({ s with link := .up }).raise .linkUp, []) else (s, [])
  | .trainingFailed => if s.link = .training then ({ s with link := .down }, []) else (s, [])
  | .lossOfTraining => if s.link = .up then (s.leaveUp, []) else (s, [])
  | .resetn _ => (s, [])
  | .limitWrite k v => (s.writeLimit k v, [])
  | .eventFlagsWrite v => (s.writeFlags v, [])
  | .eventEnableWrite v => (s.writeEnables v, [])
  | .viewSnapshotRead r => (s.readFrame r, [])
  | .registerWrite f => s.takeFrame f
  | .badCommand c => s.writeCommand c
  | .setWindow => s.accept cmdSetWindow
  | .openWindow => s.accept cmdOpenWindow
  | .retireWindow => s.accept cmdRetireWindow
  | .flushAll => s.accept cmdFlushAll
  | .pauseMaint => s.accept cmdPauseMaint
  | .resumeMaint => s.accept cmdResumeMaint
  | .abortMaint => s.accept cmdAbortMaint
  | .inspectLine => s.accept cmdInspectLine
  | .inspectWay => s.accept cmdInspectWay
  | .inspectSlot => s.accept cmdInspectSlot
  | .nodeEvict => s.accept cmdNodeEvict
  | .clearPoison => s.accept cmdClearPoison
  | .clearPoisonAll => s.accept cmdClearPoison
  | .clearCapture => s.accept cmdClearCapture
  | .clearCounters => s.accept cmdClearCounters
  | .linkSet => s.accept cmdLinkSet
  | .portReset => s.accept cmdPortReset
  | .dirReset => s.accept cmdDirReset

/-- A command but RESETN is an event with its work. -/
theorem exec_work (c : Instr) (s : State) (h : ∀ v, c ≠ .resetn v) : exec c s = s.event (work c s) := by
  cases c <;> first | rfl | exact absurd rfl (h _)

/-- What a command that answers a next state has done: RESETN, nothing while RESETn is low, or its work and the rest of its
event. -/
theorem exec_next {c : Instr} {s t : State} (h : exec c s = .next t) :
    (∃ v, c = .resetn v) ∨ (s.resetN = .low ∧ t = s) ∨
      (s.resetN = .high ∧ (∀ v, c ≠ .resetn v) ∧
        ∃ u, Evolves (work c s).1 u ∧ u.settled = true ∧ t = u.driveEventN) := by
  by_cases hc : ∃ v, c = .resetn v
  · exact Or.inl hc
  · have hc' : ∀ v, c ≠ .resetn v := fun v e => hc ⟨v, e⟩
    rw [exec_work c s hc'] at h
    right
    cases hr : s.resetN with
    | low => rw [event_low hr] at h; cases h; exact Or.inl ⟨rfl, rfl⟩
    | high =>
      rw [event_running hr] at h
      exact Or.inr ⟨rfl, hc', conclude_next h⟩

/-! ## What a command's work keeps -/

/-- The conditions of Safety.lean that a command's work keeps, and the queue of commands. -/
structure Keeps (s s' : State) : Prop where
  pending : s'.pending = s.pending
  dir : s.directoryOk → s'.directoryOk
  orders : s.orderQ.length ≤ Config.queueCapacity → s'.orderQ.length ≤ Config.queueCapacity
  answers : s.answerQ.length ≤ Config.queueCapacity → s'.answerQ.length ≤ Config.queueCapacity
  intakes : s.intakesOk → s'.intakesOk
  notices : s.noticesOk → s'.noticesOk
  credits : s.creditsOk → s'.creditsOk
  limits : (∀ k, limitInRange k (s.limits.get k) = true) → ∀ k, limitInRange k (s'.limits.get k) = true
  windows : s.windowsOk → s'.windowsOk
  ranks : s.ranksOk → s'.ranksOk

variable {a s : State}

theorem Keeps.refl (s : State) : Keeps s s := ⟨rfl, id, id, id, id, id, id, id, id, id⟩

theorem Keeps.trans {a b c : State} (h : Keeps a b) (g : Keeps b c) : Keeps a c :=
  ⟨g.pending.trans h.pending, g.dir ∘ h.dir, g.orders ∘ h.orders, g.answers ∘ h.answers, g.intakes ∘ h.intakes,
    g.notices ∘ h.notices, g.credits ∘ h.credits, g.limits ∘ h.limits, g.windows ∘ h.windows, g.ranks ∘ h.ranks⟩

theorem Evolves.keeps {s s' : State} (h : Evolves s s') : Keeps s s' where
  pending := congrArg Surface.pending h.surface
  dir := h.dir
  orders := h.orders
  answers := h.answers
  intakes := by
    have h1 : s'.reqIntake = s.reqIntake := congrArg Surface.reqIntake h.surface
    have h2 : s'.replyIntake = s.replyIntake := congrArg Surface.replyIntake h.surface
    simp only [State.intakesOk, h1, h2]; exact id
  notices := h.notices
  credits g n := (h.credits n).trans (g n)
  limits := by
    have h1 : s'.limits = s.limits := congrArg Surface.limits h.surface
    rw [h1]; exact id
  windows := h.windows
  ranks := h.ranks

/-- Keeps, and then an operation of the engine. -/
theorem Keeps.andThen {s' : State} (h : Keeps a s) (g : Evolves s s') : Keeps a s' := h.trans g.keeps

/-- A change of fields none of these conditions reads. -/
theorem Keeps.plain {s s' : State} (h : Keeps a s) (h0 : s'.pending = s.pending := by rfl)
    (h2 : s'.dir = s.dir := by rfl) (h3 : s'.orderQ = s.orderQ := by rfl) (h4 : s'.answerQ = s.answerQ := by rfl)
    (h5 : s'.notices = s.notices := by rfl) (h6 : s'.nodes = s.nodes := by rfl)
    (h7 : s'.reqIntake = s.reqIntake := by rfl) (h8 : s'.replyIntake = s.replyIntake := by rfl)
    (h9 : s'.windows = s.windows := by rfl) (h10 : s'.maint = s.maint := by rfl) (h11 : s'.slots = s.slots := by rfl)
    (h12 : s'.limits = s.limits := by rfl) : Keeps a s' := by
  refine h.trans ⟨h0, ?_, ?_, ?_, ?_, ?_, ?_, ?_, ?_, ?_⟩
  · simp only [State.directoryOk, State.ordersOk, State.getSet, h2]; exact id
  · rw [h3]; exact id
  · rw [h4]; exact id
  · simp only [State.intakesOk, h7, h8]; exact id
  · simp only [State.noticesOk, h5]; exact id
  · simp only [State.creditsOk, State.getNode, h6]; exact id
  · rw [h12]; exact id
  · simp only [State.windowsOk, State.getWindow, h9, h10]; exact id
  · simp only [State.ranksOk, State.getSlot, State.onLine, State.slotsWith, h11]; exact id

theorem Keeps.maint {s : State} (h : Keeps a s) {m : Option MaintJob}
    (hm : ∀ j w, m = some j → j.window = some w → ∃ k, s.maint = some k ∧ k.window = some w) :
    Keeps a { s with maint := m } := h.andThen (maint_evolves (Evolves.refl s) hm)

/-- A queue or an intake made shorter. -/
theorem Keeps.shrink {s : State} (h : Keeps a s) {o : List Order} {r : List Answer} {q : List ReqMsg} {p : List ReplyMsg}
    (h1 : o.length ≤ s.orderQ.length) (h2 : r.length ≤ s.answerQ.length) (h3 : q.length ≤ s.reqIntake.length)
    (h4 : p.length ≤ s.replyIntake.length) :
    Keeps a { s with orderQ := o, answerQ := r, reqIntake := q, replyIntake := p } :=
  h.trans ⟨rfl, id, h1.trans, h2.trans, fun g => ⟨h3.trans g.1, h4.trans g.2⟩, id, id, id, id, id⟩

theorem Keeps.takeReq {s : State} {q : ReqMsg} {rest : List ReqMsg} (e : s.reqIntake = q :: rest) :
    Keeps s { s with reqIntake := rest } :=
  (Keeps.refl s).trans ⟨rfl, id, id, id, fun g => ⟨by
    have := g.1; rw [e] at this; simp only [List.length_cons] at this; show rest.length ≤ _; omega, g.2⟩, id, id, id, id, id⟩

theorem dropReply_keeps (s : State) : Keeps s s.dropReply :=
  (Keeps.refl s).trans ⟨rfl, id, id, id, fun g => ⟨g.1, by
    have := g.2; show s.replyIntake.tail.length ≤ _; rw [List.length_tail]; omega⟩, id, id, id, id, id⟩

/-! ### Requests -/

theorem admit_keeps {k : ReqKind} {n : Node} {l : Line} {w : WinIx} (hc : (s.getNode n).credits < Config.creditLimit) :
    Keeps s (s.takeIn k n l w).1 := by
  unfold State.takeIn
  split
  · exact Keeps.refl s
  · rename_i t ht
    have h1 := (openOnLine_evolves (Evolves.refl s) (lowestFree_getSlot ht) { newSlot k.toKind with requester := some n } l
      (some w))
    have e1 : ∀ m, ((s.openOnLine t { newSlot k.toKind with requester := some n } l (some w)).getNode m) = s.getNode m :=
      fun _ => rfl
    generalize s.openOnLine t { newSlot k.toKind with requester := some n } l (some w) = s1 at h1 e1 ⊢
    have h2 : Keeps s (s1.modNode n (fun r => { r with credits := r.credits + 1 })) := by
      refine h1.keeps.trans ⟨rfl, id, id, id, id, id, ?_, id, id, id⟩
      intro g m
      rw [getNode_modNode]; split
      · rename_i e; subst e
        show (s1.getNode m).credits + 1 ≤ _
        rw [e1]; omega
      · exact g m
    dsimp only
    split
    · exact h2.andThen (claimNotice_evolves (Evolves.refl _) l n)
    · exact h2

theorem arrive_keeps (k : ReqKind) (n : Node) (l : Line) : Keeps s (s.arrive k n l).1 := by
  unfold State.arrive
  split
  · rename_i r _
    unfold State.refuseArrival
    refine Keeps.andThen ?_ (intakeAnswer_evolves (Evolves.refl _) _)
    unfold State.countArrival
    split
    · exact (countSetFrozen_evolves (Evolves.refl s)).keeps
    · exact (countTableFull_evolves (Evolves.refl s)).keeps
    · exact Keeps.refl s
  · rename_i w hw
    refine admit_keeps ?_
    unfold State.arrivalCheck at hw
    split at hw
    · cases hw
    · split at hw
      · cases hw
      · split at hw
        · cases hw
        · split at hw
          · cases hw
          · rename_i hc; omega

theorem takeRequest_keeps (k : ReqKind) : Keeps s (s.takeRequest k).1 := by
  unfold State.takeRequest
  split
  · exact Keeps.refl s
  · split
    · rename_i e
      split
      · exact (Keeps.takeReq e).trans (arrive_keeps _ _ _)
      · exact Keeps.refl s
    · exact Keeps.refl s

theorem helloNode_keeps (n : Node) : Keeps s (s.helloNode n).1 := by
  have e := Evolves.refl s
  unfold State.helloNode
  split
  · exact (raise_evolves (intakeAnswer_evolves (modNode_evolves (dropMembership_evolves e n) n _) _) _).keeps
  · exact (raise_evolves (intakeAnswer_evolves (modNode_evolves (dropMembership_evolves e n) n _) _) _).keeps
  · exact (enterPurging_evolves e n _).keeps
  · exact (enterPurging_evolves e n _).keeps
  · exact (modNode_evolves e n (fun r => { r with reason := some .restart })).keeps

theorem leaveNode_keeps (n : Node) : Keeps s (s.leaveNode n) := by
  have e := Evolves.refl s
  unfold State.leaveNode
  split
  · split
    · exact (putJob_evolves (modNode_evolves (dropMembership_evolves e n) n _) _ _).keeps
    · exact (intakeAnswer_evolves (chargeViolation_evolves e _ _ _) _).keeps
  · exact (intakeAnswer_evolves e _).keeps

/-! ### Replies -/

theorem staleReply_evolves (n : Node) : Evolves s (s.staleReply n).1 := countStale_evolves (Evolves.refl s) n

theorem answered_evolves (t : SlotIx) (n : Node) : Evolves s (s.answered t n) := modSlot_evolves (Evolves.refl s) _ _

theorem unfitReply_evolves (n : Node) (l : Line) (t : SlotIx) : Evolves s (s.unfitReply n l t).1 :=
  chargeViolation_evolves (Evolves.refl s) _ _ _

theorem revokeAck_evolves (n : Node) (l : Line) : Evolves s (s.revokeAck n l).1 := by
  unfold State.revokeAck
  split
  · exact staleReply_evolves n
  · split
    · exact revokeAcked_evolves (Evolves.refl s) _ _
    · exact staleReply_evolves n

theorem forwardDone_evolves (n : Node) (l : Line) (r : Result) : Evolves s (s.forwardDone n l r).1 := by
  unfold State.forwardDone
  split
  · exact staleReply_evolves n
  · split
    · dsimp only
      repeat' split
      all_goals first
        | exact nextStep_evolves (answered_evolves _ _) _ | exact enterConsuming_evolves (answered_evolves _ _) _ _
        | exact notHeld_evolves (answered_evolves _ _) _ _ _
    · exact unfitReply_evolves _ _ _

theorem recallDone_evolves (n : Node) (l : Line) (r : Result) : Evolves s (s.recallDone n l r).1 := by
  unfold State.recallDone
  split
  · exact staleReply_evolves n
  · split
    · split
      · exact lineAnswer_evolves (Evolves.refl s) _ _ _ _ _
      · dsimp only
        split
        · exact recallFreed_evolves (answered_evolves _ _) _
        · exact enterConsuming_evolves (answered_evolves _ _) _ _
        · exact notHeld_evolves (answered_evolves _ _) _ _ _
    · exact unfitReply_evolves _ _ _

theorem surrenderDone_evolves (n : Node) (i : SetIx) (d : Nat) : Evolves s (s.surrenderDone n i d).1 := by
  unfold State.surrenderDone
  split
  · exact staleReply_evolves n
  · exact surrenderAnswer_evolves (Evolves.refl s) _ _ _

theorem complete_evolves (n : Node) (l : Line) : Evolves s (s.complete n l).1 := by
  unfold State.complete
  split
  · exact staleReply_evolves n
  · split
    · exact close_evolves (answered_evolves _ _) _
    · exact staleReply_evolves n

theorem fetchSent_evolves (l : Line) : Evolves s (s.fetchSent l).1 := by
  unfold State.fetchSent
  split
  · exact Evolves.refl s
  · exact nextStep_evolves (modSlot_evolves (Evolves.refl s) _ _) _

theorem fetchFailed_evolves (l : Line) : Evolves s (s.fetchFailed l).1 := by
  unfold State.fetchFailed
  split
  · exact Evolves.refl s
  · exact refuse_evolves (modSlot_evolves (Evolves.refl s) _ _) _ _

theorem absorbDone_evolves (l : Line) (n : Node) : Evolves s (s.absorbDone l n).1 := by
  unfold State.absorbDone
  split
  · exact storeConsumed_evolves (Evolves.refl s) _
  · split
    · exact countStore_evolves (Evolves.refl s) _ _
    · exact offerNotice_evolves (Evolves.refl s) _ _

/-! ### Expiries -/

theorem countExpiry_evolves (x : Slot) : Evolves s (s.countExpiry x) := by
  have h : Evolves s ((NodeSet.toList x.awaited).foldl State.countTimeout s) :=
    foldl_evolves (fun _ n h => countTimeout_evolves h n) _ (Evolves.refl s)
  unfold State.countExpiry
  dsimp only
  split
  · exact countMemTimeout_evolves h
  · exact h

theorem orderExpiry_evolves (t : SlotIx) (x : Slot) : Evolves s (s.orderExpiry t x).1 := by
  have h := countExpiry_evolves (s := s) x
  unfold State.orderExpiry
  dsimp only
  split
  · exact sendRound_evolves (modSlot_evolves h t (fun y => { y with retriesLeft := y.retriesLeft - 1, timer := none })) _ _ _
  · exact modSlot_evolves h t (fun y => { y with timer := none })

theorem grantExpiry_evolves (t : SlotIx) (x : Slot) : Evolves s (s.grantExpiry t x).1 := by
  unfold State.grantExpiry
  split
  · rename_i n _ _ _ _ _ _ _
    have h := countTimeout_evolves (Evolves.refl s) n
    dsimp only
    split
    · exact sendAnswer_evolves (modSlot_evolves h t (fun y => { y with retriesLeft := y.retriesLeft - 1, timer := none })) _ _
    · exact modSlot_evolves h t (fun y => { y with timer := none })
  · exact Evolves.refl s

theorem endInPoison_evolves (h : Evolves a s) (t : SlotIx) (x : Slot) (n : Node) : Evolves a (s.endInPoison t x n).1 := by
  have h1 : Evolves a ((s.modSlot t (fun y => { y with memWait := .noWait, timer := none })).poisonCopy t (some n)) :=
    poisonCopy_evolves (modSlot_evolves h _ _) _ _
  unfold State.endInPoison
  dsimp only
  repeat' split
  · exact close_evolves h1 t
  · exact closeWith_evolves h1 t _
  · exact refuse_evolves h1 t _

theorem observingExpiry_evolves (t : SlotIx) (x : Slot) (n : Node) (l : Line) :
    Evolves s (s.observingExpiry t x n l).1 := by
  have h1 : Evolves s ((s.modSlot t (fun y => { y with memWait := .noWait, timer := none })).poisonCopy t (some n)) :=
    poisonCopy_evolves (modSlot_evolves (Evolves.refl s) _ _) _ _
  unfold State.observingExpiry
  dsimp only
  repeat' split
  · exact endInPoison_evolves (countMemTimeout_evolves (Evolves.refl s)) _ _ _
  · exact close_evolves (chargeViolation_evolves h1 _ _ _) t
  · exact refuse_evolves (chargeViolation_evolves h1 _ _ _) t _

theorem collectingStep_evolves (t : SlotIx) (x : Slot) : Evolves s (s.collectingStep t x).1 := by
  have h := countMemTimeout_evolves (Evolves.refl s)
  unfold State.collectingStep
  dsimp only
  split
  · exact modSlot_evolves h _ _
  · exact modSlot_evolves h t (fun y => { y with timer := none })

/-! ### Cursor steps and the pass -/

theorem finish_keeps (h : Keeps a s) (c : ResultCode) : Keeps a (s.finish c) := by
  refine h.plain

theorem passWay_evolves (i : SetIx) (p : PoisonPass) (w : WayIx) (h : Evolves a s) :
    Evolves a (State.passWay i (s, p) w).1 := by
  unfold State.passWay
  dsimp only
  repeat' split
  all_goals first | exact setRelease_evolves h _ _ | exact makeFree_evolves h _ _ | exact h

theorem passWays_evolves (i : SetIx) (ws : List WayIx) : ∀ (q : State × PoisonPass), Evolves a q.1 →
    Evolves a (ws.foldl (State.passWay i) q).1 := by
  induction ws with
  | nil => exact fun _ h => h
  | cons w ws ih => exact fun q h => ih _ (passWay_evolves i q.2 w h)

/-- What the end of a set pass does with what its ways have come to. -/
theorem passEnd_keeps (p : PoisonPass) (q : State × PoisonPass) (h : Evolves s q.1) :
    Keeps s (if p.next + 1 < Config.setCount then { q.1 with poisonPass := some { q.2 with next := p.next + 1 } }
      else ({ q.1 with
        poisonPass := none
        results := ((q.1.results.set 0 (BitVec.ofNat 32 q.2.freed)).set 1 (BitVec.ofNat 32 q.2.marked)).set 2
          (BitVec.ofNat 32 q.2.skipped) }).finish .ok) := by
  split
  · exact h.keeps.plain
  · exact finish_keeps h.keeps.plain _

theorem passSet_keeps (p : PoisonPass) : Keeps s (s.passSet p) := by
  unfold State.passSet
  exact passEnd_keeps p _ (passWays_evolves _ allWays _ (readWholeSet_evolves (Evolves.refl s) _))

/-! ### The port -/

theorem malformed_evolves (m : List Byte) : Evolves s (s.malformed m) := by
  unfold State.malformed
  dsimp only
  refine fault_evolves (raise_evolves ?_ _) _ _
  split
  · exact countViolation_evolves (Evolves.refl s) _
  · exact Evolves.refl s

theorem receiveRequest_keeps {m : List Byte} (hr : s.reqIntake.length < Config.intakeCapacity) :
    Keeps s (s.receiveRequest m) := by
  unfold State.receiveRequest
  repeat' split
  · exact ⟨rfl, id, id, id, fun g => ⟨by
      show (s.reqIntake ++ [_]).length ≤ _
      rw [List.length_append, List.length_singleton]; omega, g.2⟩, id, id, id, id, id⟩
  · exact (malformed_evolves m).keeps
  · exact (countLinkCheck_evolves (Evolves.refl s)).keeps

theorem receiveReply_keeps {m : List Byte} (hr : s.replyIntake.length < Config.intakeCapacity) :
    Keeps s (s.receiveReply m) := by
  unfold State.receiveReply
  repeat' split
  · exact ⟨rfl, id, id, id, fun g => ⟨g.1, by
      show (s.replyIntake ++ [_]).length ≤ _
      rw [List.length_append, List.length_singleton]; omega⟩, id, id, id, id, id⟩
  · exact (malformed_evolves m).keeps
  · exact (countLinkCheck_evolves (Evolves.refl s)).keeps

theorem leaveUp_keeps (h : Keeps a s) : Keeps a s.leaveUp := by
  have h1 : Keeps a { s with orderQ := [], answerQ := [], reqIntake := [], replyIntake := [] } :=
    h.shrink (Nat.zero_le _) (Nat.zero_le _) (Nat.zero_le _) (Nat.zero_le _)
  exact h1.plain

/-! ### Registers -/

/-- A limit read after one is written. -/
theorem limits_get_put (l : Limits) (k j : LimitName) (v : Word32) :
    (l.put k v).get j = if j = k then v else l.get j := by
  cases k <;> cases j <;> rfl

theorem limits_keeps {k : LimitName} {v : Word32} (h : limitInRange k v = true) (b : Bool) :
    Keeps s { s with limits := s.limits.put k v, limitRejected := b } := by
  refine ⟨rfl, ?_, id, id, ?_, ?_, ?_, fun g j => ?_, ?_, ?_⟩
  · simp only [State.directoryOk, State.ordersOk, State.getSet]; exact id
  · simp only [State.intakesOk]; exact id
  · simp only [State.noticesOk]; exact id
  · simp only [State.creditsOk, State.getNode]; exact id
  · show limitInRange j ((s.limits.put k v).get j) = true
    rw [limits_get_put]
    split
    · rename_i e
      rw [e]
      exact h
    · exact g j
  · simp only [State.windowsOk, State.getWindow]; exact id
  · simp only [State.ranksOk, State.getSlot, State.onLine, State.slotsWith]; exact id

theorem rescrub_evolves (h : Evolves a s) : Evolves a s.rescrub := by
  unfold State.rescrub
  split
  · exact startScrub_evolves h
  · split
    · have : Evolves a { s.uncount with maint := none } := maint_evolves (uncount_evolves h) (fun j w hj _ => by cases hj)
      exact this.plain
    · exact h

theorem writeLimit_keeps (k : LimitName) (v : Word32) : Keeps s (s.writeLimit k v) := by
  unfold State.writeLimit
  split
  · rename_i h
    dsimp only
    split
    · exact (limits_keeps h false).andThen (rescrub_evolves (Evolves.refl _))
    · exact limits_keeps h false
  · exact (Keeps.refl s).plain

theorem keeps_ite {β : Type} {c : Prop} [Decidable c] {x y : State × β} (h : Keeps a x.1) (g : Keeps a y.1) :
    Keeps a (if c then x else y).1 := by
  split <;> assumption

theorem readRegister_keeps (r : BitVec 16) : Keeps s (s.readRegister r).1 := by
  have e := Keeps.refl s
  unfold State.readRegister
  dsimp only
  repeat' refine keeps_ite ?_ ?_
  all_goals first | exact e | exact e.plain

theorem readFrame_keeps (r : BitVec 16) : Keeps s (s.readFrame r) := by
  have h := readRegister_keeps (s := s) r
  unfold State.readFrame
  generalize s.readRegister r = q at h ⊢
  exact h.plain

end Sys2Proof.Machine
end

