-- ==== Sys2Proof/Laws/Mailbox.lean ====
section
/-! SUPPORT. What the mailbox commands and the register writes keep, and with them every command: `work_keeps`. -/

namespace Sys2Proof.Machine

set_option Elab.async false

variable {a s : State}

/-! ### Mailbox commands -/

/-- The act of a command keeps the conditions. -/
def ActKeeps (f : State → Ended) : Prop := ∀ s, Keeps s (f s).state

theorem accept_keeps {f : State → Ended} (h : ActKeeps f) : Keeps s (s.accept f).1 := by
  unfold State.accept
  split
  · exact (Keeps.refl s).plain
  · dsimp only
    have h0 : Keeps s { s with mbState := .busy, overrun := false, results := Vector.replicate 4 0#32 } :=
      (Keeps.refl s).plain
    have h1 := h0.trans (h _)
    split
    · exact finish_keeps h1 _
    · exact h1

theorem cmdSetWindow_keeps : ActKeeps cmdSetWindow := by
  intro s
  unfold cmdSetWindow ended
  split
  · exact Keeps.refl s
  · rename_i w b c k m _
    split
    · exact Keeps.refl s
    · rename_i hst
      have hst : (s.getWindow w).state = .closed := by simpa using hst
      refine ⟨rfl, id, id, id, id, id, id, id, ?_, id⟩
      rintro ⟨g1, g2, g3⟩
      have e : ∀ u, ((s.modWindow w (fun v => { v with start := b, limit := c, kind := k, allowed := m })).getWindow u).state
          ≠ .closed → u ≠ w ∧ (s.getWindow u).state ≠ .closed := by
        intro u
        rw [getWindow_modWindow]; split
        · intro h; exact absurd hst h
        · rename_i hu; exact fun h => ⟨hu, h⟩
      have o : ∀ u, u ≠ w → (s.modWindow w (fun v => { v with start := b, limit := c, kind := k, allowed := m })).getWindow u
          = s.getWindow u := by
        intro u hu; rw [getWindow_modWindow, if_neg hu]
      refine ⟨fun u hu => ?_, fun u v hn hu hv => ?_, fun j u hj hu => ?_⟩
      · rw [o u (e u hu).1]; exact g1 u (e u hu).2
      · rw [o u (e u hu).1, o v (e v hv).1]; exact g2 u v hn (e u hu).2 (e v hv).2
      · have hr := g3 j u hj hu
        have hne : u ≠ w := by
          rintro rfl; rw [hst] at hr; cases hr.1
        rw [o u hne]; exact hr

theorem not_overlaps {w u : WinIx} (h : s.overlaps w = false) (hn : u ≠ w) (hu : (s.getWindow u).state ≠ .closed) :
    ¬(s.getWindow u).shares (s.getWindow w) := by
  rintro ⟨l, h1, h2⟩
  simp only [Window.spans, decide_eq_true_eq] at h1 h2
  have := List.any_eq_false.1 h u (List.mem_finRange u)
  simp only [Bool.and_eq_true, bne_iff_ne, ne_eq, decide_eq_true_eq, not_and] at this
  exact this ⟨hn, hu⟩ (BitVec.le_trans h1.1 h2.2) (BitVec.le_trans h2.1 h1.2)

theorem cmdOpenWindow_keeps : ActKeeps cmdOpenWindow := by
  intro s
  unfold cmdOpenWindow ended
  split
  · exact Keeps.refl s
  · rename_i w _
    dsimp only
    split
    · exact Keeps.refl s
    · rename_i hst
      have hst : (s.getWindow w).state = .closed := by simpa using hst
      split
      · exact Keeps.refl s
      · rename_i hrange
        split
        · exact Keeps.refl s
        · rename_i hov
          have hov : s.overlaps w = false := by simpa using hov
          refine ⟨rfl, id, id, id, id, id, id, id, ?_, id⟩
          rintro ⟨g1, g2, g3⟩
          have o : ∀ u, (s.modWindow w (fun v => { v with state := .live })).getWindow u =
              if u = w then { s.getWindow w with state := .live } else s.getWindow u :=
            fun u => getWindow_modWindow s w u _
          refine ⟨fun u hu => ?_, fun u v hn hu hv => ?_, fun j u hj hu => ?_⟩
          · rw [o u] at hu ⊢
            split
            · exact BitVec.not_lt.1 hrange
            · rename_i hne; rw [if_neg hne] at hu; exact g1 u hu
          · rw [o u] at hu ⊢; rw [o v] at hv ⊢
            split
            · rename_i e; subst e
              have hvu : v ≠ u := Ne.symm hn
              rw [if_neg hvu] at hv ⊢
              rintro ⟨l, h1, h2⟩
              exact not_overlaps hov hvu hv ⟨l, h2, h1⟩
            · rename_i e
              rw [if_neg e] at hu
              split
              · rename_i e'; subst e'; exact not_overlaps hov e hu
              · rename_i e'; rw [if_neg e'] at hv; exact g2 u v hn hu hv
          · have hr := g3 j u hj hu
            have hne : u ≠ w := by
              rintro rfl; rw [hst] at hr; cases hr.1
            rw [o u, if_neg hne]; exact hr

theorem createMaint_evolves_none (h : Keeps a s) (k : MaintKind) : Keeps a (s.createMaint k none) := by
  have h1 := h.andThen (uncount_evolves (Evolves.refl s))
  have h2 : Keeps a { s.uncount with maint := some ⟨k, none, .running, 0, false, 0, none, false⟩ } :=
    h1.maint (fun j w hj hw => by cases hj; cases hw)
  exact h2.plain

theorem cmdRetireWindow_keeps : ActKeeps cmdRetireWindow := by
  intro s
  unfold cmdRetireWindow ended
  split
  · exact Keeps.refl s
  · rename_i w _
    dsimp only
    split
    · exact Keeps.refl s
    · exact Keeps.refl s
    · rename_i hst
      -- a window that was LIVE changes state and progress alone
      have key : ∀ (f : Window → Window) (m : Option MaintJob), (∀ v, (f v).start = v.start) → (∀ v, (f v).limit = v.limit) →
          (∀ j u, m = some j → j.window = some u →
            (∃ k, s.maint = some k ∧ k.window = some u) ∨
              (u = w ∧ ∀ v, (f v).state = .retiring ∧ (f v).progress ≠ some .draining)) →
          Keeps s { s.modWindow w f with maint := m } := by
        intro f m hs hl hm
        refine ⟨rfl, id, id, id, id, id, id, id, ?_, id⟩
        rintro ⟨g1, g2, g3⟩
        have o := fun u => getWindow_modWindow s w u f
        have es : ∀ u, ((s.modWindow w f).getWindow u).start = (s.getWindow u).start := by
          intro u; rw [o u]; split <;> simp_all
        have el : ∀ u, ((s.modWindow w f).getWindow u).limit = (s.getWindow u).limit := by
          intro u; rw [o u]; split <;> simp_all
        have eo : ∀ u, ((s.modWindow w f).getWindow u).state ≠ .closed → (s.getWindow u).state ≠ .closed := by
          intro u; rw [o u]; split
          · rename_i e; subst e; intro _; rw [hst]; decide
          · exact id
        refine ⟨fun u hu => ?_, fun u v hn hu hv => ?_, fun j u hj hu => ?_⟩
        · have := g1 u (eo u hu)
          rw [← es u, ← el u] at this
          exact this
        · have := g2 u v hn (eo u hu) (eo v hv)
          simp only [Window.shares, Window.spans, ← es, ← el] at this
          exact this
        · show ((s.modWindow w f).getWindow u).state = _ ∧ ((s.modWindow w f).getWindow u).progress ≠ _
          rcases hm j u hj hu with ⟨k, hk, hkw⟩ | ⟨rfl, hv⟩
          · have hr := g3 k u hk hkw
            have hne : u ≠ w := by rintro rfl; rw [hst] at hr; cases hr.1
            rw [o u, if_neg hne]; exact hr
          · rw [o u, if_pos rfl]; exact hv _
      split
      · split
        · exact key (fun r => { r with state := .closed, progress := none }) s.maint (fun _ => rfl) (fun _ => rfl)
            (fun j u hj hu => Or.inl ⟨j, hj, hu⟩)
        · exact key (fun r => { r with state := .retiring, progress := some .draining }) s.maint (fun _ => rfl)
            (fun _ => rfl) (fun j u hj hu => Or.inl ⟨j, hj, hu⟩)
      · split
        · exact Keeps.refl s
        · have h1 := key (fun r => { r with state := .retiring, progress := some .walking })
            (some ⟨.retire, some w, .running, 0, false, 0, none, false⟩) (fun _ => rfl) (fun _ => rfl)
            (fun j u hj hu => by cases hj; cases hu; exact Or.inr ⟨rfl, fun v => ⟨rfl, by simp⟩⟩)
          have h2 := h1.andThen (uncount_evolves (Evolves.refl _))
          have e : (s.modWindow w (fun r => { r with state := .retiring, progress := some .walking })).createMaint .retire
              (some w) =
              { State.uncount { s.modWindow w (fun r => { r with state := .retiring, progress := some .walking }) with
                maint := some ⟨.retire, some w, .running, 0, false, 0, none, false⟩ } with maintStep := none } := by
            unfold State.createMaint State.uncount
            rw [modSlots_eq, modSlots_eq]
          show Keeps s (State.createMaint _ _ _)
          rw [e]
          exact h2.plain

theorem cmdFlushAll_keeps : ActKeeps cmdFlushAll := by
  intro s
  unfold cmdFlushAll ended
  split
  · exact Keeps.refl s
  · exact createMaint_evolves_none (Keeps.refl s) .flush

theorem cmdPauseMaint_keeps : ActKeeps cmdPauseMaint := by
  intro s
  unfold cmdPauseMaint ended
  split
  · exact Keeps.refl s
  · rename_i j hj
    split
    · exact (Keeps.refl s).maint (fun q w hq hw => by cases hq; exact ⟨j, hj, hw⟩)
    · exact Keeps.refl s

theorem cmdResumeMaint_keeps : ActKeeps cmdResumeMaint := by
  intro s
  unfold cmdResumeMaint ended
  split
  · exact Keeps.refl s
  · rename_i j hj
    split
    · exact (Keeps.refl s).maint (fun q w hq hw => by cases hq; exact ⟨j, hj, hw⟩)
    · exact Keeps.refl s

theorem cmdAbortMaint_keeps : ActKeeps cmdAbortMaint := by
  intro s
  unfold cmdAbortMaint ended
  split
  · exact Keeps.refl s
  · rename_i j hj
    split
    · exact Keeps.refl s
    · have h1 : Keeps s { s with maint := some { j with run := .aborting } } :=
        (Keeps.refl s).maint (fun q w hq hw => by cases hq; exact ⟨j, hj, hw⟩)
      have h2 : Keeps s { s with maint := some { j with run := .aborting }, maintStep := none } := h1.plain
      dsimp only
      split
      · rename_i w _ hw
        refine h2.trans ⟨rfl, id, id, id, id, id, id, id, ?_, id⟩
        rintro ⟨g1, g2, g3⟩
        have o := fun u => getWindow_modWindow s w u (fun r => { r with progress := some .aborting })
        have es : ∀ u, ((s.modWindow w (fun r => { r with progress := some .aborting })).getWindow u).state =
            (s.getWindow u).state := by
          intro u; rw [o u]; split
          · rename_i e; subst e; rfl
          · rfl
        have e1 : ∀ u, ((s.modWindow w (fun r => { r with progress := some .aborting })).getWindow u).start =
            (s.getWindow u).start := by
          intro u; rw [o u]; split
          · rename_i e; subst e; rfl
          · rfl
        have e2 : ∀ u, ((s.modWindow w (fun r => { r with progress := some .aborting })).getWindow u).limit =
            (s.getWindow u).limit := by
          intro u; rw [o u]; split
          · rename_i e; subst e; rfl
          · rfl
        refine ⟨fun u hu => ?_, fun u v hn hu hv => ?_, fun k u hk hu => ?_⟩
        · change ((s.modWindow w (fun r => { r with progress := some .aborting })).getWindow u).state ≠ _ at hu
          show ((s.modWindow w (fun r => { r with progress := some .aborting })).getWindow u).start ≤
            ((s.modWindow w (fun r => { r with progress := some .aborting })).getWindow u).limit
          rw [es] at hu; rw [e1, e2]; exact g1 u hu
        · change ((s.modWindow w (fun r => { r with progress := some .aborting })).getWindow u).state ≠ _ at hu
          change ((s.modWindow w (fun r => { r with progress := some .aborting })).getWindow v).state ≠ _ at hv
          show ¬((s.modWindow w (fun r => { r with progress := some .aborting })).getWindow u).shares
            ((s.modWindow w (fun r => { r with progress := some .aborting })).getWindow v)
          rw [es] at hu hv
          have := g2 u v hn hu hv
          simp only [Window.shares, Window.spans, e1, e2] at this ⊢
          exact this
        · have hr := g3 k u hk hu
          show ((s.modWindow w (fun r => { r with progress := some .aborting })).getWindow u).state = _ ∧
            ((s.modWindow w (fun r => { r with progress := some .aborting })).getWindow u).progress ≠ _
          rw [o u]
          split
          · rename_i e; subst e; exact ⟨hr.1, by simp⟩
          · exact hr
      · exact h2

theorem inspectLineReport_evolves (h : Evolves a s) (l : Line) : Evolves a (s.inspectLineReport l).1 := by
  unfold State.inspectLineReport
  dsimp only
  split
  · exact h
  · exact h
  · split
    · exact h
    · exact pickFrom_evolves h _ _

theorem cmdInspectLine_keeps : ActKeeps cmdInspectLine := by
  intro s
  unfold cmdInspectLine ended
  split
  · exact Keeps.refl s
  · rename_i l _
    have h := inspectLineReport_evolves (Evolves.refl s) l
    generalize s.inspectLineReport l = q at h ⊢
    exact h.keeps.plain

theorem cmdInspectWay_keeps : ActKeeps cmdInspectWay := by
  intro s
  unfold cmdInspectWay ended
  split
  · exact (Keeps.refl s).plain
  · exact Keeps.refl s

theorem pendingKind_evolves (h : Evolves a s) (p : Option Pending) : Evolves a (s.pendingKind p).1 := by
  unfold State.pendingKind
  repeat' split
  all_goals first | exact h | exact h.plain

theorem cmdInspectSlot_keeps : ActKeeps cmdInspectSlot := by
  intro s
  unfold cmdInspectSlot ended
  split
  · split
    · exact (Keeps.refl s).plain
    · rename_i h0 _ x _
      have h := pendingKind_evolves (Evolves.refl s) (s.reportedPending ⟨s.args[0].toNat, h0⟩ x)
      unfold State.slotReport
      dsimp only
      generalize s.pendingKind (s.reportedPending ⟨s.args[0].toNat, h0⟩ x) = q at h ⊢
      exact h.keeps.plain
  · exact Keeps.refl s

theorem cmdNodeEvict_keeps : ActKeeps cmdNodeEvict := by
  intro s
  unfold cmdNodeEvict ended
  split
  · exact Keeps.refl s
  · split
    · exact (enterPurging_evolves (Evolves.refl s) _ _).keeps
    · exact (enterPurging_evolves (Evolves.refl s) _ _).keeps
    · exact (modNode_evolves (Evolves.refl s) _ (fun r => { r with reason := some .evicted })).keeps
    · exact Keeps.refl s
    · exact Keeps.refl s

theorem clearPoisonLine_keeps (l : Line) : Keeps s (clearPoisonLine s l).state := by
  have h1 := lookup_evolves (Evolves.refl s) l false
  unfold clearPoisonLine ended
  dsimp only
  generalize s.lookup l false = q at h1 ⊢
  obtain ⟨s1, r⟩ := q
  cases r with
  | miss => exact h1.keeps
  | damagedBody w => exact h1.keeps
  | damagedKey w => exact (foundDamagedKey_evolves h1 _ _ _).keeps
  | hit w =>
    dsimp only
    repeat' split
    · exact (setRelease_evolves h1 (setOf l) w).keeps.plain
    · exact (makeFree_evolves h1 _ _).keeps
    · exact h1.keeps

theorem cmdClearPoison_keeps : ActKeeps cmdClearPoison := by
  intro s
  unfold cmdClearPoison
  split
  · exact (Keeps.refl s).plain
  · split
    · exact Keeps.refl s
    · exact clearPoisonLine_keeps _

theorem cmdClearCapture_keeps : ActKeeps cmdClearCapture := fun s => by
  unfold cmdClearCapture ended; exact (Keeps.refl s).plain

theorem cmdClearCounters_keeps : ActKeeps cmdClearCounters := by
  intro s
  unfold cmdClearCounters ended
  have h : Evolves s ((List.finRange 8).foldl
      (fun s n => s.modNode n (fun r => { r with timeouts := 0, violations := 0, stale := 0 })) s) :=
    foldl_evolves (fun _ n h => modNode_evolves h n _) _ (Evolves.refl s)
  exact h.keeps.plain

theorem cmdLinkSet_keeps : ActKeeps cmdLinkSet := by
  intro s
  unfold cmdLinkSet ended
  split
  · exact (Keeps.refl s).plain
  · exact Keeps.refl s

theorem cmdPortReset_keeps : ActKeeps cmdPortReset := by
  intro s
  unfold cmdPortReset ended
  dsimp only
  split
  · exact leaveUp_keeps (Keeps.refl s).plain
  · exact (Keeps.refl s).plain

theorem foldl_modWindow_get (f : Window → Window) (ws : List WinIx) (hn : ws.Nodup) (s : State) (u : WinIx) :
    (ws.foldl (fun s w => s.modWindow w f) s).getWindow u = if u ∈ ws then f (s.getWindow u) else s.getWindow u := by
  induction ws generalizing s with
  | nil => simp
  | cons w ws ih =>
    have hn' := List.nodup_cons.1 hn
    rw [List.foldl_cons, ih hn'.2, getWindow_modWindow]
    by_cases hu : u = w
    · subst hu; simp [hn'.1]
    · simp [hu]

theorem foldl_modWindow_rest (f : Window → Window) (ws : List WinIx) (s : State) :
    ws.foldl (fun s w => s.modWindow w f) s = { s with windows := (ws.foldl (fun s w => s.modWindow w f) s).windows } := by
  induction ws generalizing s with
  | nil => rfl
  | cons w ws ih => rw [List.foldl_cons, ih]; rfl

theorem foldl_modNode_get (f : NodeRec → NodeRec) (ns : List Node) (hn : ns.Nodup) (s : State) (m : Node) :
    (ns.foldl (fun s n => s.modNode n f) s).getNode m = if m ∈ ns then f (s.getNode m) else s.getNode m := by
  induction ns generalizing s with
  | nil => simp
  | cons n ns ih =>
    have hn' := List.nodup_cons.1 hn
    rw [List.foldl_cons, ih hn'.2, getNode_modNode]
    by_cases hm : m = n
    · subst hm; simp [hn'.1]
    · simp [hm]

theorem foldl_modNode_rest (f : NodeRec → NodeRec) (ns : List Node) (s : State) :
    ns.foldl (fun s n => s.modNode n f) s = { s with nodes := (ns.foldl (fun s n => s.modNode n f) s).nodes } := by
  induction ns generalizing s with
  | nil => rfl
  | cons n ns ih => rw [List.foldl_cons, ih]; rfl

theorem dirReset_keeps (s : State) : Keeps s s.dirReset := by
  unfold State.dirReset
  dsimp only
  refine Keeps.andThen ?_ (startScrub_evolves (Evolves.refl _))
  rw [foldl_modNode_rest, foldl_modWindow_rest]
  have hw : ∀ u : WinIx, ((List.finRange 8).foldl (fun s w => s.modWindow w Window.afterDirReset) s).windows[u] =
      (s.getWindow u).afterDirReset := by
    intro u
    have := foldl_modWindow_get Window.afterDirReset (List.finRange 8) (List.nodup_finRange 8) s u
    rw [if_pos (List.mem_finRange u)] at this
    exact this
  generalize ((List.finRange 8).foldl (fun s w => s.modWindow w Window.afterDirReset) s).windows = W at hw ⊢
  have hn : ∀ m : Node, ((List.finRange 8).foldl (fun (s : State) n => s.modNode n NodeRec.afterDirReset)
      { s with windows := W }).nodes[m] = (s.getNode m).afterDirReset := by
    intro m
    have := foldl_modNode_get NodeRec.afterDirReset (List.finRange 8) (List.nodup_finRange 8) { s with windows := W } m
    rw [if_pos (List.mem_finRange m)] at this
    exact this
  generalize ((List.finRange 8).foldl (fun (s : State) n => s.modNode n NodeRec.afterDirReset) { s with windows := W }).nodes = N
    at hn ⊢
  have ha : ∀ v : Window, v.afterDirReset.start = v.start ∧ v.afterDirReset.limit = v.limit ∧
      (v.afterDirReset.state ≠ .closed → v.state ≠ .closed) := by
    intro v; unfold Window.afterDirReset; split
    · exact ⟨rfl, rfl, fun h => absurd rfl h⟩
    · exact ⟨rfl, rfl, id⟩
  refine ⟨rfl, fun _ => ⟨rfl, ?_⟩, id, id, id, fun _ => ⟨Nat.zero_le _, List.Pairwise.nil⟩, ?_, id, ?_, fun _ => ?_⟩
  · intro i; exact blankSet_perm
  · intro g m
    show (N[m]).credits ≤ _
    have hcr : (NodeRec.afterDirReset (s.getNode m)).credits = (s.getNode m).credits := by
      unfold NodeRec.afterDirReset; split <;> rfl
    rw [hn, hcr]; exact g m
  · rintro ⟨g1, g2, _⟩
    refine ⟨fun u hu => ?_, fun u v hne hu hv => ?_, fun j u hj _ => by cases hj⟩
    · change (W[u]).state ≠ _ at hu
      show (W[u]).start ≤ (W[u]).limit
      rw [hw] at hu ⊢
      rw [(ha _).1, (ha _).2.1]; exact g1 u ((ha _).2.2 hu)
    · change (W[u]).state ≠ _ at hu
      change (W[v]).state ≠ _ at hv
      show ¬(W[u]).shares (W[v])
      rw [hw] at hu hv ⊢
      rw [hw]
      have hx := g2 u v hne ((ha _).2.2 hu) ((ha _).2.2 hv)
      simp only [Window.shares, Window.spans, ha] at hx ⊢
      exact hx
  · have hnone : ∀ t : SlotIx, (Vector.replicate 48 (none : Option Slot))[t] = none := by
      intro t; simp
    refine ⟨fun t x l hx => ?_, fun t u x y l _ hx => ?_⟩
    · have hx : (Vector.replicate 48 (none : Option Slot))[t] = some x := hx
      rw [hnone] at hx; cases hx
    · have hx : (Vector.replicate 48 (none : Option Slot))[t] = some x := hx
      rw [hnone] at hx; cases hx

theorem cmdDirReset_keeps : ActKeeps cmdDirReset := by
  intro s
  unfold cmdDirReset ended
  split
  · exact dirReset_keeps s
  · exact Keeps.refl s

theorem cmdUnknown_keeps : ActKeeps cmdUnknown := fun s => Keeps.refl s

theorem commandOf_keeps (c : Word32) : ActKeeps (commandOf c) := by
  unfold commandOf
  split
  exacts [cmdSetWindow_keeps, cmdOpenWindow_keeps, cmdRetireWindow_keeps, cmdFlushAll_keeps, cmdPauseMaint_keeps,
    cmdResumeMaint_keeps, cmdAbortMaint_keeps, cmdInspectLine_keeps, cmdInspectWay_keeps, cmdInspectSlot_keeps,
    cmdNodeEvict_keeps, cmdClearPoison_keeps, cmdClearCapture_keeps, cmdClearCounters_keeps, cmdLinkSet_keeps,
    cmdPortReset_keeps, cmdDirReset_keeps, cmdUnknown_keeps]

theorem writeRegister_keeps (r : BitVec 16) (v : Word32) : Keeps s (s.writeRegister r v).1 := by
  have e := Keeps.refl s
  have h : Keeps s (s.writeCommand v).1 := accept_keeps (commandOf_keeps _)
  have g := fun k => writeLimit_keeps (s := s) k v
  unfold State.writeRegister
  dsimp only
  generalize s.writeCommand v = q at h ⊢
  generalize s.writeLimit = f at g ⊢
  refine keeps_ite (g _) (keeps_ite ?_ (keeps_ite ?_ (keeps_ite h (keeps_ite ?_ (keeps_ite ?_ (keeps_ite ?_
    (keeps_ite ?_ e)))))))
  all_goals exact e.plain

theorem driveTail_keeps (f : List Byte) : Keeps s (s.driveTail f) := by
  unfold State.driveTail
  split
  · exact Keeps.refl s
  · exact (Keeps.refl s).plain

theorem takeFrame_keeps (f : List Byte) : Keeps s (s.takeFrame f).1 := by
  have h := driveTail_keeps (s := s) f
  unfold State.takeFrame
  repeat' split
  · exact Keeps.refl s
  · exact h.trans (writeRegister_keeps _ _)
  · exact h.trans (readFrame_keeps _)
  · exact h

/-- Every command's work keeps the conditions. -/
theorem work_keeps (c : Instr) (s : State) : Keeps s (work c s).1 := by
  have e := Evolves.refl s
  have k := Keeps.refl s
  cases c <;> dsimp only [work]
  case linkMessageReceived ch m =>
    repeat' split
    all_goals first
      | exact k | (rename_i h; exact receiveRequest_keeps h) | (rename_i h; exact receiveReply_keeps h)
  case readShared => exact takeRequest_keeps _
  case readOwn => exact takeRequest_keeps _
  case upgrade => exact takeRequest_keeps _
  case writeback => exact takeRequest_keeps _
  case drop => exact takeRequest_keeps _
  case hello =>
    split
    · rename_i h; exact (Keeps.takeReq h).trans (helloNode_keeps _)
    · exact k
  case helloFromMemoryAgent =>
    split
    · rename_i rest _ h
      have h1 : Keeps s { s with reqIntake := rest, mem := .live } := (Keeps.takeReq h).plain
      exact h1.andThen (intakeAnswer_evolves (Evolves.refl _) _)
    · exact k
  case leave =>
    split
    · rename_i h; exact (Keeps.takeReq h).trans (leaveNode_keeps _)
    · exact k
  case revokeAck => split; exact (dropReply_keeps s).andThen (revokeAck_evolves _ _); exact k
  case forwardDone => split; exact (dropReply_keeps s).andThen (forwardDone_evolves _ _ _); exact k
  case recallDone => split; exact (dropReply_keeps s).andThen (recallDone_evolves _ _ _); exact k
  case surrenderDone => split; exact (dropReply_keeps s).andThen (surrenderDone_evolves _ _ _); exact k
  case complete => split; exact (dropReply_keeps s).andThen (complete_evolves _ _); exact k
  case fetchSent => split; exact (dropReply_keeps s).andThen (fetchSent_evolves _); exact k
  case fetchFailed => split; exact (dropReply_keeps s).andThen (fetchFailed_evolves _); exact k
  case absorbDone => split; exact (dropReply_keeps s).andThen (absorbDone_evolves _ _); exact k
  case orderTimerExpiry t => repeat' split
                             all_goals first | exact k | exact (orderExpiry_evolves _ _).keeps
  case grantTimerExpiry t => repeat' split
                             all_goals first | exact k | exact (grantExpiry_evolves _ _).keeps
  case storeWaitExpiry t =>
    repeat' split
    all_goals first
      | exact k | exact (endInPoison_evolves (countMemTimeout_evolves e) _ _ _).keeps
      | exact (lineLost_evolves (countMemTimeout_evolves e) _).keeps
  case observingWaitExpiry t => repeat' split
                                all_goals first | exact k | exact (observingExpiry_evolves _ _ _ _).keeps
  case collectingExpiry t => repeat' split
                             all_goals first | exact k | exact (collectingStep_evolves _ _).keeps
  case noticeAgeExpiry l n =>
    repeat' split
    all_goals first | exact k | exact (countNoticeDropped_evolves (removeNotice_evolves e _ _)).keeps
  case purgeSetStep => split; exact (beginPurgeStep_evolves e).keeps; exact k
  case retireSetStep => repeat' split
                        all_goals first | exact k | exact (beginMaintStep_evolves e _).keeps
  case flushSetStep => repeat' split
                       all_goals first | exact k | exact (beginMaintStep_evolves e _).keeps
  case scrubIntervalExpiry =>
    split
    · rename_i hj
      split
      · exact (beginScrubStep_evolves e hj).keeps
      · exact k
    · exact k
  case clearPoisonSetPass => split; exact passSet_keeps _; exact k
  case outboundSend q =>
    repeat' split
    · rename_i o rest h
      have h1 : Keeps s { s with orderQ := rest, answerQ := s.answerQ, reqIntake := s.reqIntake, replyIntake := s.replyIntake } :=
        k.shrink (by rw [h]; simp) le_rfl le_rfl le_rfl
      exact h1.plain
    · exact k
    · rename_i o rest h
      have h1 : Keeps s { s with orderQ := s.orderQ, answerQ := rest, reqIntake := s.reqIntake, replyIntake := s.replyIntake } :=
        k.shrink le_rfl (by rw [h]; simp) le_rfl le_rfl
      exact h1.plain
    · exact k
    · exact k
  case signalDetected => split; exact k.plain; exact k
  case trainingComplete => split; exact k.plain; exact k
  case trainingFailed => split; exact k.plain; exact k
  case lossOfTraining => split; exact leaveUp_keeps k; exact k
  case resetn v => exact k
  case limitWrite l v => exact writeLimit_keeps _ _
  case eventFlagsWrite v => exact k.plain
  case eventEnableWrite v => exact k.plain
  case viewSnapshotRead r => exact readFrame_keeps _
  case registerWrite f => exact takeFrame_keeps _
  case badCommand c => exact accept_keeps (commandOf_keeps _)
  case setWindow => exact accept_keeps cmdSetWindow_keeps
  case openWindow => exact accept_keeps cmdOpenWindow_keeps
  case retireWindow => exact accept_keeps cmdRetireWindow_keeps
  case flushAll => exact accept_keeps cmdFlushAll_keeps
  case pauseMaint => exact accept_keeps cmdPauseMaint_keeps
  case resumeMaint => exact accept_keeps cmdResumeMaint_keeps
  case abortMaint => exact accept_keeps cmdAbortMaint_keeps
  case inspectLine => exact accept_keeps cmdInspectLine_keeps
  case inspectWay => exact accept_keeps cmdInspectWay_keeps
  case inspectSlot => exact accept_keeps cmdInspectSlot_keeps
  case nodeEvict => exact accept_keeps cmdNodeEvict_keeps
  case clearPoison => exact accept_keeps cmdClearPoison_keeps
  case clearPoisonAll => exact accept_keeps cmdClearPoison_keeps
  case clearCapture => exact accept_keeps cmdClearCapture_keeps
  case clearCounters => exact accept_keeps cmdClearCounters_keeps
  case linkSet => exact accept_keeps cmdLinkSet_keeps
  case portReset => exact accept_keeps cmdPortReset_keeps
  case dirReset => exact accept_keeps cmdDirReset_keeps

end Sys2Proof.Machine
end

