-- ==== Sys2Proof/Tests/Slice0.lean ====
section
/-! SUPPORT. Tests: the well-formedness checks, formats and small runs of the spec's text, and for each statement with
hypotheses a state and operands that meet them, clause by clause. Expected values come from spec/. -/

namespace Sys2Proof.Tests

set_option Elab.async false

open Sys2Proof.Machine

/-! ## Well-formedness refuses -/

theorem test_short_message : Instr.wellFormed (.linkMessageReceived .request (List.replicate 11 0#8)) = false := by decide
theorem test_order_slot_48 : Instr.wellFormed (.orderTimerExpiry 48) = false := by decide
theorem test_grant_slot_48 : Instr.wellFormed (.grantTimerExpiry 48) = false := by decide
theorem test_store_slot_48 : Instr.wellFormed (.storeWaitExpiry 48) = false := by decide
theorem test_observing_slot_48 : Instr.wellFormed (.observingWaitExpiry 48) = false := by decide
theorem test_collecting_slot_48 : Instr.wellFormed (.collectingExpiry 48) = false := by decide
theorem test_second_word : Instr.wellFormed (.viewSnapshotRead 0x61#16) = false := by decide
theorem test_read_frame : Instr.wellFormed (.registerWrite [0#8, 1#8, 1#8, 0#8, 0#8, 0#8, 0#8]) = false := by decide
theorem test_short_frame : Instr.wellFormed (.registerWrite [1#8, 1#8, 1#8, 0#8, 0#8, 0#8]) = false := by decide
theorem test_known_code : Instr.wellFormed (.badCommand 0x11#32) = false := by decide
theorem test_no_words : decodeTableWord 8 0 = none := rfl

/-! ## Formats -/

/-- The published check value of this code (polynomial 1021H, start FFFFH, no inversion): the digits 1 to 9 give 29B1H. -/
theorem test_crc_check_value :
    crc16 [0x31#8, 0x32#8, 0x33#8, 0x34#8, 0x35#8, 0x36#8, 0x37#8, 0x38#8, 0x39#8] = 0x29B1#16 := by decide +kernel

/-- The lines of the worked examples of chapters 3 and 4. -/
theorem test_line_numbers : keyOf 0x1C2A0B5#34 = 0x3854#23 ∧ setOf 0x1C2A0B5#34 = 0xB5 ∧ keyOf 0x2D0417#34 = 0x5A0#23 ∧
    setOf 0x2D0417#34 = 0x417 := by decide +kernel

/-- Table 12-6: LINE_POISONED is bit 4 and PROTOCOL_VIOLATION bit 9. -/
theorem test_flag_bits : Event.linePoisoned.bit = 4 ∧ Event.protocolViolation.bit = 9 := by decide +kernel

/-! ## States -/

/-- Nodes N0 to N3 LIVE, the memory agent LIVE, the link UP; window 0 TRACKED, window 1 DIRECT, window 2 SHARED_ONLY; no scrub. -/
def base : State := { State.reset with
  link := .up
  mem := .live
  maint := none
  limits := { defaultLimits with scrubInterval := 0#32 }
  nodes := Vector.replicate 8 { blankNode with state := .live }
  windows := (((Vector.replicate 8 blankWindow).set 0 ⟨.live, 0x0, 0xFFFF, .tracked, 0xFF, 0, none⟩).set 1
    ⟨.live, 0x10000, 0x1FFFF, .direct, 0xFF, 0, none⟩).set 2 ⟨.live, 0x20000, 0x2FFFF, .sharedOnly, 0xFF, 0, none⟩ }

/-- The state with line 5's entry in way 3 of set 5. -/
def tracked (s : State) (c : Content) (t : Option SlotIx) : State :=
  s.putWay 5 3 ⟨coded (some 0#23), coded ⟨c, t, false⟩⟩

/-- The state with a request at the head of the REQUEST intake. -/
def asks (s : State) (k : ReqKind) (n : Node) (l : Line) : State := { s with reqIntake := [.request k n l] }

/-- The state with a reply at the head of the REPLY intake. -/
def answers (s : State) (m : ReplyMsg) : State := { s with replyIntake := [m] }

/-- An active transaction of line 5, from N1, in window 0 with the window's count and the requester's credit at one. -/
def opened (s : State) (x : Slot) : State :=
  ((s.putSlot 7 (some { x with line := some 5, window := some 0, rank := some 0 })).modWindow 0
    (fun w => { w with openCount := 1 })).modNode 1 (fun r => { r with credits := 1 })

/-- The state with an argument word and a command's other arguments 0. -/
def arguments (s : State) (a b c d : Word32) : State := { s with args := #v[a, b, c, d] }

/-! ## Conditions as tests -/

/-- Quiet, as a test. -/
def quiet (s : State) : Bool :=
  decide (s.resetN = .high ∧ s.slotsWith Slot.rebuildsSet = [] ∧ s.anyFrozen = false ∧ s.purgeStep = none ∧
    s.maintStep = none ∧ s.orderHeld = [] ∧ s.answerHeld = [] ∧ s.doneNode = none) && s.maintEnding.isNone

theorem quiet_of {s : State} (h : quiet s = true) : s.Quiet := by
  simp only [quiet, Bool.and_eq_true, decide_eq_true_eq, Option.isNone_iff_eq_none] at h
  obtain ⟨⟨h1, h2, h3, h4, h5, h6, h7, h8⟩, h9⟩ := h
  exact ⟨h1, h2, h3, h4, h5, h6, h7, h9, h8⟩

/-- Ready, as a test. -/
def ready (s : State) : Bool := decide (s.resetN = .high) && s.settled

theorem ready_of {s : State} (h : ready s = true) : s.Ready := by
  simp only [ready, Bool.and_eq_true, decide_eq_true_eq] at h
  exact h

/-- Arrives, as a test. -/
def arrives (s : State) (k : ReqKind) (n : Node) (l : Line) (v : WinIx) (rest : List ReqMsg) : Bool :=
  quiet s && dirWf s.dir && decide (s.riHeld = none ∧ s.reqIntake = .request k n l :: rest ∧ s.nodeState n = .live ∧
    s.windowOf l = some v ∧ NodeSet.has (s.getWindow v).allowed n = true ∧
    ((s.getWindow v).kind = .sharedOnly → k ≠ .readOwn ∧ k ≠ .upgrade) ∧ (s.getWindow v).state = .live ∧
    (s.getNode n).credits < 6 ∧ 5 ≤ s.freeSlots)

theorem arrives_of {s : State} {k : ReqKind} {n : Node} {l : Line} {v : WinIx} {rest : List ReqMsg}
    (h : arrives s k n l v rest = true) : s.Arrives k n l v rest := by
  simp only [arrives, Bool.and_eq_true, decide_eq_true_eq] at h
  obtain ⟨⟨h1, h2⟩, h3, h4, h5, h6, h7, h8, h9, h10, h11⟩ := h
  exact ⟨quiet_of h1, h2, h3, h4, h5, h6, h7, h8, h9, h10, h11⟩

/-- Sole, as a test. -/
def sole (s : State) (t : SlotIx) (x : Slot) (l : Line) (v : WinIx) : Bool :=
  decide (s.getSlot t = some x ∧ x.line = some l ∧ s.onLine l = [t] ∧ x.phase ≠ .parked ∧ x.rank = some 0 ∧
    x.window = some v ∧ (s.getWindow v).state = .live ∧ x.victimLink = none ∧ x.counted = false ∧ x.pending = none ∧
    x.rebuild = none)

theorem sole_of {s : State} {t : SlotIx} {x : Slot} {l : Line} {v : WinIx} (h : sole s t x l v = true) : s.Sole t x l v := by
  simp only [sole, decide_eq_true_eq] at h
  obtain ⟨h1, h2, h3, h4, h5, h6, h7, h8, h9, h10, h11⟩ := h
  exact ⟨h1, h2, h3, h4, h5, h6, h7, h8, h9, h10, h11⟩

/-- TrackedAs, as a test. -/
def names (s : State) (l : Line) (w : WayIx) (c : Content) : Bool :=
  decide ((∀ w, (s.getWay (setOf l) w).key.check = .good ∧ (s.getWay (setOf l) w).body.check = .good) ∧
    s.getWay (setOf l) w = ⟨coded (some (keyOf l)), coded ⟨c, none, false⟩⟩ ∧
    ∀ u, u ≠ w → (s.getWay (setOf l) u).body.stored.content ≠ .free →
      (s.getWay (setOf l) u).key.stored ≠ some (keyOf l))

theorem names_of {s : State} {l : Line} {w : WayIx} {c : Content} (h : names s l w c = true) : s.trackedAs l w c := by
  simp only [names, decide_eq_true_eq] at h
  exact h

/-- Untracked, as a test. -/
def unnamed (s : State) (l : Line) : Bool :=
  decide ((∀ w, (s.getWay (setOf l) w).key.check = .good ∧ (s.getWay (setOf l) w).body.check = .good) ∧
    ∀ w, (s.getWay (setOf l) w).body.stored.content ≠ .free → (s.getWay (setOf l) w).key.stored ≠ some (keyOf l))

theorem unnamed_of {s : State} {l : Line} (h : unnamed s l = true) : s.untracked l := by
  simp only [unnamed, decide_eq_true_eq] at h
  exact h

theorem base_quiet : base.Quiet := quiet_of (by decide +kernel)

theorem base_ready : base.Ready := ready_of (by decide +kernel)

/-! ## Witnesses: the machine and the port -/

/-- A microsecond with a timer, a notice's age and the scrub interval at their last. -/
def ticking : State := { opened base { newSlot .readOwn with phase := .awaitReplies, timer := some 1 } with
  notices := [⟨5, 1, false, 1⟩, ⟨6, 1, true, 1⟩]
  maint := some ⟨.scrub, none, .running, 2047, false, 0, some 1, false⟩ }

theorem witness_EmptyQueueIsAMicrosecond : ticking.pending = [] ∧ ticking.resetN = .high ∧ ticking.link = .up ∧
    State.reset.pending = [] ∧ State.reset.resetN = .high ∧ State.reset.link ≠ .up := by decide +kernel

theorem witness_StepRunsFrontCommand : ({ base with pending := [.hello, .drop] } : State).pending = .hello :: [.drop] := rfl

theorem witness_ResetnHoldsEveryBlock : ({ base with resetN := .low } : State).resetN = .low ∧
    ∀ v, Instr.hello ≠ .resetn v := ⟨by decide +kernel, nofun⟩

theorem witness_EngineInvariants : State.reset.directoryOk ∧ State.reset.atRest ∧
    State.reset.noticesOk ∧ State.reset.queuesOk ∧ State.reset.intakesOk ∧ ∃ t, step State.reset = .next t := by
  refine ⟨⟨rfl, fun i => ?_⟩, ⟨by decide +kernel, by decide +kernel⟩, ⟨by decide +kernel, List.Pairwise.nil⟩,
    ⟨by decide +kernel, by decide +kernel⟩, ⟨by decide +kernel, by decide +kernel⟩, ⟨State.reset.idle, rfl⟩⟩
  exact blankSet_perm

theorem witness_StepKeepsWindows : base.windowsOk := by
  refine ⟨by decide +kernel, ?_, nofun⟩
  have h : ∀ u w, u ≠ w → (base.getWindow u).state ≠ .closed → (base.getWindow w).state ≠ .closed →
      (base.getWindow u).limit < (base.getWindow w).start ∨ (base.getWindow w).limit < (base.getWindow u).start := by
    decide +kernel
  rintro u w hn hu hw ⟨l, h1, h2⟩
  simp only [Window.spans, decide_eq_true_eq] at h1 h2
  rcases h u w hn hu hw with h | h
  · exact absurd (BitVec.le_trans h2.1 h1.2) (BitVec.not_le.2 h)
  · exact absurd (BitVec.le_trans h1.1 h2.2) (BitVec.not_le.2 h)

/-- A message with its check code. -/
def framed (b : List Byte) : List Byte := b ++ bytes16 (crc16 b)

/-- READ_SHARED from N1 for line 3FFFFFFFFH, and with the line's highest bit too many. -/
def goodRequest : List Byte := framed [0x01#8, 0x10#8, 3#8, 0xFF#8, 0xFF#8, 0xFF#8, 0xFF#8, 0#8, 0#8, 0#8]
def badRequest : List Byte := framed [0x01#8, 0x10#8, 4#8, 0#8, 0#8, 0#8, 0#8, 0#8, 0#8, 0#8]

/-- SURRENDER_DONE from N7 for set 2047 with 16 dirty lines, and with 17. -/
def goodReply : List Byte := framed [0x44#8, 0x70#8, 0#8, 0#8, 0#8, 7#8, 0xFF#8, 16#8, 0#8, 0#8]
def badReply : List Byte := framed [0x44#8, 0x70#8, 0#8, 0#8, 0#8, 7#8, 0xFF#8, 17#8, 0#8, 0#8]

/-- The intakes with room for one more message. -/
def nearlyFull : State := { base with
  reqIntake := List.replicate 15 (.leave 1), replyIntake := List.replicate 15 (.fetchSent 0) }

theorem witness_LinkMessagesAreChecked : nearlyFull.Ready ∧ nearlyFull.link = .up ∧
    nearlyFull.reqIntake.length < 16 ∧ nearlyFull.replyIntake.length < 16 ∧
    (List.replicate 12 0#8).drop 10 ≠ bytes16 (crc16 ((List.replicate 12 0#8).take 10)) ∧
    (goodRequest.length = 12 ∧ goodRequest.drop 10 = bytes16 (crc16 (goodRequest.take 10)) ∧
      readRequest goodRequest = some (.request .readShared 1 0x3FFFFFFFF#34)) ∧
    (goodReply.length = 12 ∧ goodReply.drop 10 = bytes16 (crc16 (goodReply.take 10)) ∧
      readReply goodReply = some (.surrenderDone 7 2047 16)) ∧
    (badRequest.length = 12 ∧ badRequest.drop 10 = bytes16 (crc16 (badRequest.take 10)) ∧ readRequest badRequest = none) ∧
    (badReply.length = 12 ∧ badReply.drop 10 = bytes16 (crc16 (badReply.take 10)) ∧ readReply badReply = none) :=
  ⟨ready_of (by decide +kernel), by decide +kernel⟩

/-- Both outbound queues with one message. -/
def sending : State := { base with orderQ := [.revoke 1 5 false], answerQ := [.farewell 1] }

/-- A REVOKE round of one held behind a full ORDER queue. -/
def held : Slot :=
  { newSlot .upgrade with
    line := some 5, window := some 0, rank := some 0, phase := .awaitReplies
    pending := some (.round [.revoke 2 5 false] true) }
def holding : State := { base.putSlot 7 (some held) with
  orderQ := List.replicate 64 (.revoke 1 6 false), orderHeld := [.slot 7] }

/-- The same round of a transaction that has gone on. -/
def passed : State := { base with
  orderQ := List.replicate 64 (.revoke 1 6 false), orderHeld := [.left (some 7) [.revoke 2 5 false]] }

theorem witness_OutboundQueuesDrain : sending.Ready ∧ sending.link = .up ∧ sending.orderHeld = [] ∧ sending.answerHeld = [] ∧
    holding.Ready ∧ holding.orderQ = .revoke 1 6 false :: List.replicate 63 (.revoke 1 6 false) ∧ holding.orderHeld = [.slot 7] ∧
    holding.answerHeld = [] ∧ holding.getSlot 7 = some held ∧
    held.rebuild = none ∧ (List.replicate 63 (Order.revoke 1 6 false)).length + 1 ≤ 64 ∧
    (passed.Ready ∧ passed.orderQ = .revoke 1 6 false :: List.replicate 63 (.revoke 1 6 false) ∧
      passed.orderHeld = [.left (some 7) [.revoke 2 5 false]] ∧ passed.answerHeld = []) ∧
    State.reset.Ready ∧ State.reset.link ≠ .up ∧ base.orderQ = [] ∧ base.answerQ = [] :=
  ⟨ready_of (by decide +kernel), by decide +kernel, by decide +kernel, by decide +kernel, ready_of (by decide +kernel), by decide +kernel,
    by decide +kernel, by decide +kernel, by decide +kernel, by decide +kernel, by decide +kernel,
    ⟨ready_of (by decide +kernel), by decide +kernel⟩, ready_of (by decide +kernel), by decide +kernel, by decide +kernel,
    by decide +kernel⟩

theorem witness_LinkStates : State.reset.Ready ∧ State.reset.link = .down ∧
    ({ base with link := .training } : State).Ready ∧ base.Ready ∧ base.link = .up ∧ base.orderHeld = [] ∧
    base.answerHeld = [] :=
  ⟨ready_of (by decide +kernel), by decide +kernel, ready_of (by decide +kernel), base_ready, by decide +kernel, by decide +kernel, by decide +kernel⟩

/-! ## Witnesses: registers and mailbox -/

theorem witness_LimitWrites : base.Ready ∧ base.maintStep = none ∧ base.noneCounted ∧ State.reset.Ready ∧
    State.reset.maintStep = none ∧ State.reset.noneCounted ∧ base.maint = none ∧
    (∃ j, State.reset.maint = some j ∧ j.kind = .scrub) ∧ (1000000#32).toNat ≤ 1000000 ∧ 1000000 < (1000001#32).toNat := by
  have h : ∀ s : State, (∀ t, s.getSlot t = none) → s.noneCounted := fun s h t x hx => by rw [h] at hx; cases hx
  exact ⟨base_ready, by decide +kernel, h _ (by decide +kernel), ready_of (by decide +kernel), by decide +kernel,
    h _ (by decide +kernel), by decide +kernel, ⟨_, rfl, by decide +kernel⟩, by decide +kernel, by decide +kernel⟩

/-- Jobs whose counts are at the ends of their fields. -/
def counted : State := { base with
  nodes := base.nodes.set 7 { blankNode with state := .leaving, reason := some .leave }
  purgeJobs := (Vector.replicate 8 none).set 7 (some ⟨.messaging, 2048, 48⟩)
  maint := some ⟨.flush, none, .paused, 2047, false, 48, none, false⟩ }

theorem witness_SnapshotReads : counted.Ready ∧ (∀ n j, counted.getJob n = some j → j.setsLeft ≤ 2048 ∧ j.openRecalls ≤ 48) ∧
    (∀ j, counted.maint = some j → j.nextSet ≤ 2048 ∧ j.openCount ≤ 48) := by
  have h : ∀ n, ∀ j ∈ counted.getJob n, j.setsLeft ≤ 2048 ∧ j.openRecalls ≤ 48 := by decide +kernel
  exact ⟨ready_of (by decide +kernel), fun n j hj => h n j hj, by rintro j ⟨⟩; decide +kernel⟩

/-- The first and last numbers of every gap of Table 12-1, COMMAND and the last number read as 0. -/
theorem test_gaps_read_0 : ∀ a ∈ [0x01, 0x0F, 0x15, 0x1F, 0x22, 0x2F, 0x38, 0x3F, 0x48, 0x4F, 0x54, 0x5F, 0x71, 0x7F, 0xA1,
    0xAF, 0xBC, 0xFF, 0x100, 0x10A, 0x10F, 0x150, 0xFFFF],
    (match exec (.viewSnapshotRead (BitVec.ofNat 16 a)) { counted with sdo := 5#32 } with
      | .next t => t.sdo
      | _ => 5#32) = 0#32 := by decide +kernel

theorem witness_WriteFrames : base.resetN = .high ∧ base.Ready ∧ (0xFF#8 : Byte) ≠ 0x00#8 ∧ (0xFF#8 : Byte) ≠ 0x01#8 :=
  ⟨by decide +kernel, base_ready, by decide +kernel⟩

/-- A command taken by the mailbox: acceptance only asks that it is not BUSY. -/
theorem takes_of {s : State} (h : ready s = true) (g : s.mbState ≠ .busy) : s.TakesCommand := ⟨ready_of h, g⟩

theorem arguments_takes (a b c d : Word32) : (arguments base a b c d).TakesCommand :=
  ⟨⟨rfl, (settled_congr (s := base) (s' := arguments base a b c d) rfl rfl rfl rfl rfl rfl rfl rfl rfl rfl rfl rfl rfl).trans base_ready.2⟩, nofun⟩

theorem none_counted {s : State} (h : ∀ t, s.getSlot t = none) : s.noneCounted := fun t x hx => by rw [h] at hx; cases hx

theorem witness_MailboxTakesOneCommand : base.TakesCommand ∧ (0x12#32).toNat > 0x11 ∧
    ({ base with mbState := .busy } : State).Ready ∧ mailboxCommand .dirReset = true :=
  ⟨takes_of (by decide +kernel) (by decide +kernel), by decide +kernel, ready_of (by decide +kernel), by decide +kernel⟩

/-- SET_WINDOW for a CLOSED window, for a LIVE one, and with the kind code 3. -/
def setting7 : State := arguments base 0x00FF0207#32 0xFFFFFFFF#32 0xFFFFFFFF#32 0x00030003#32
def setting0 : State := arguments base 0x00FF0000#32 0#32 1#32 0#32
def settingBad : State := arguments base 0x00FF0300#32 0#32 1#32 0#32

theorem settingBad_word : settingBad.args[0].toNat = 0x00FF0300 := by decide +kernel

theorem witness_SetWindow : setting7.TakesCommand ∧ (setting7.windowsOk ∧ setting0.windowsOk ∧ settingBad.windowsOk) ∧
    (setting7.args[0] = BitVec.ofNat 32 ((7 : WinIx).val + WinKind.sharedOnly.code * 2 ^ 8 + (0xFF#8).toNat * 2 ^ 16) ∧
      setting7.args[1] = (0x3FFFFFFFF#34).setWidth 32 ∧ setting7.args[2] = (0x3FFFFFFFF#34).setWidth 32 ∧
      setting7.args[3] = BitVec.ofNat 32 ((0x3FFFFFFFF#34).toNat / 2 ^ 32 + (0x3FFFFFFFF#34).toNat / 2 ^ 32 * 2 ^ 16)) ∧
    (setting7.getWindow 7).state = .closed ∧
    setting0.TakesCommand ∧ setting0.args[0] = BitVec.ofNat 32 ((0 : WinIx).val + WinKind.tracked.code * 2 ^ 8 +
      (0xFF#8).toNat * 2 ^ 16) ∧ (setting0.getWindow 0).state = .live ∧
    settingBad.TakesCommand ∧ ¬∃ (w : WinIx) (k : WinKind) (m : NodeSet) (a b : Line),
      settingBad.args[0] = BitVec.ofNat 32 (w.val + k.code * 2 ^ 8 + m.toNat * 2 ^ 16) ∧
      settingBad.args[1] = a.setWidth 32 ∧ settingBad.args[2] = b.setWidth 32 ∧
      settingBad.args[3] = BitVec.ofNat 32 (a.toNat / 2 ^ 32 + b.toNat / 2 ^ 32 * 2 ^ 16) := by
  refine ⟨takes_of (by decide +kernel) (by decide +kernel),
    ⟨witness_StepKeepsWindows, witness_StepKeepsWindows, witness_StepKeepsWindows⟩, by decide +kernel, by decide +kernel,
    takes_of (by decide +kernel) (by decide +kernel), by decide +kernel, by decide +kernel,
    takes_of (by decide +kernel) (by decide +kernel), ?_⟩
  rintro ⟨w, k, m, _, _, h, _⟩
  have h1 := congrArg BitVec.toNat h
  rw [settingBad_word, BitVec.toNat_ofNat] at h1
  have hw := w.isLt
  have hm := m.isLt
  cases k <;> simp only [WinKind.code] at h1 <;> omega

/-- Window 3 set over one line that is free, over a line of window 0, and the wrong way round. -/
def opening (a b : Line) : State := arguments (base.modWindow 3 (fun w => { w with start := a, limit := b })) 3#32 0#32 0#32 0#32

theorem opening_windows (a b : Line) : (opening a b).windowsOk := by
  have h := witness_StepKeepsWindows
  have o : ∀ u, (opening a b).getWindow u = if u = 3 then { base.getWindow 3 with start := a, limit := b } else
      base.getWindow u := fun u =>
    getWindow_modWindow base 3 u (fun w => { w with start := a, limit := b })
  have c : ∀ u, ((opening a b).getWindow u).state ≠ .closed → u ≠ 3 ∧ (base.getWindow u).state ≠ .closed := by
    intro u hu
    rw [o] at hu
    split at hu
    · exact absurd rfl hu
    · rename_i e; exact ⟨e, hu⟩
  refine ⟨fun u hu => ?_, fun u v hn hu hv => ?_, nofun⟩
  · rw [o, if_neg (c u hu).1]; exact h.1 u (c u hu).2
  · rw [o, o, if_neg (c u hu).1, if_neg (c v hv).1]; exact h.2.1 u v hn (c u hu).2 (c v hv).2

theorem witness_OpenWindow :
    (opening 0x30000#34 0x30000#34).TakesCommand ∧
    (opening 0x30000#34 0x30000#34).windowsOk ∧ (opening 0x30000#34 0x30000#34).args[0].toNat = (3 : WinIx).val ∧
    (opening 0xFFFF#34 0xFFFF#34).TakesCommand ∧ (opening 0xFFFF#34 0xFFFF#34).windowsOk ∧
    (∃ u, u ≠ 3 ∧ ((opening 0xFFFF#34 0xFFFF#34).getWindow u).state ≠ .closed ∧
      ((opening 0xFFFF#34 0xFFFF#34).getWindow u).shares ((opening 0xFFFF#34 0xFFFF#34).getWindow 3)) ∧
    (opening 1#34 0#34).TakesCommand ∧ ((opening 1#34 0#34).getWindow 3).limit < ((opening 1#34 0#34).getWindow 3).start ∧
    (arguments base 0#32 0#32 0#32 0#32).TakesCommand ∧ ((arguments base 0#32 0#32 0#32 0#32).getWindow 0).state ≠ .closed ∧
    (arguments base 8#32 0#32 0#32 0#32).TakesCommand :=
  ⟨takes_of (by decide +kernel) (by decide +kernel), opening_windows _ _, by decide +kernel,
    takes_of (by decide +kernel) (by decide +kernel), opening_windows _ _, ⟨0, by decide +kernel, by decide +kernel, 0xFFFF#34,
      by decide +kernel, by decide +kernel⟩, takes_of (by decide +kernel) (by decide +kernel), by decide +kernel,
    takes_of (by decide +kernel) (by decide +kernel), by decide +kernel, takes_of (by decide +kernel) (by decide +kernel)⟩

/-- A RETIRE of window 0 and a FLUSH with a run state and an open count. -/
def retiring (r : RunState) (k : Nat) : State :=
  { base.modWindow 0 (fun w => { w with state := .retiring, progress := some .walking }) with
    maint := some ⟨.retire, some 0, r, 0, true, k, none, false⟩ }
def flushing (r : RunState) (k : Nat) : State := { base with
  maint := some ⟨.flush, none, r, 2047, false, k, none, false⟩ }

theorem witness_WalkCommandsCreateJobs : (∀ a ∈ [0#32, 1#32, 3#32, 8#32], (arguments base a 0#32 0#32 0#32).TakesCommand) ∧
    base.maintStep = none ∧ base.noneCounted ∧ (base.getWindow 0).kind ≠ .direct ∧ (base.getWindow 1).kind = .direct ∧
    (base.getWindow 3).state = .closed ∧ (retiring .running 0).TakesCommand ∧
    ((retiring .running 0).getWindow 0).state = .retiring ∧ (∃ j, (retiring .running 0).maint = some j ∧ j.kind ≠ .scrub) := by
  exact ⟨fun a _ => arguments_takes a _ _ _, by decide +kernel, none_counted (by decide +kernel), by decide +kernel,
    by decide +kernel, by decide +kernel, takes_of (by decide +kernel) (by decide +kernel), by decide +kernel,
    ⟨_, rfl, by decide +kernel⟩⟩

/-- A part with k slots in use, each by an uncounted recall on a line of its own. -/
def busySlots (s : State) (k : Nat) : State := { s with
  slots := Vector.ofFn (fun t : Fin 48 => if t.val < k then
    some { newSlot .flushRecall with
      line := some (BitVec.ofNat 34 (6 + t.val)), window := some 0, rank := some 0, phase := .awaitStore } else none) }

/-- A recall of line 5 with a RECALL outstanding to the owner N7, counted by its job or not. -/
def recalled (k : Kind) (c : Bool) : Slot := { newSlot k with
  line := some 5, window := some 0, rank := some 0, phase := .awaitReplies, awaited := 0x80#8, outstanding := .recall
  working := some ⟨3, .owned 7⟩, timer := some 9, retriesLeft := 3, counted := c
  target := if k = .leaveRecall then some 7 else none }

/-- Such a recall in slot T7, holding way 3. -/
def counting (s : State) (x : Slot) : State := ((tracked s (.owned 7) (some 7)).putSlot 7 (some x)).modWindow 0
  (fun w => { w with openCount := 1 })

/-- Forty-six slots in use: the FLUSH cursor waits at way 3 of set 2046 with its opening. -/
def starved : State := { busySlots (base.putWay 2046 3 ⟨coded (some 1#23), coded ⟨.owned 7, none, false⟩⟩) 46 with
  maint := some ⟨.flush, none, .running, 2046, false, 0, none, false⟩, maintStep := some [3] }

theorem witness_MaintenanceCommands :
    ((retiring .running 0).TakesCommand ∧ (retiring .paused 0).TakesCommand ∧ (flushing .running 0).TakesCommand ∧
      base.TakesCommand ∧ (retiring .running 0).noneCounted ∧ (flushing .running 0).noneCounted) ∧
    (counting (retiring .running 1) (recalled .retireRecall true)).TakesCommand ∧
    (counting (flushing .running 1) (recalled .flushRecall true)).TakesCommand ∧
    (counting (retiring .aborting 1) (recalled .retireRecall true)).TakesCommand ∧
    (starved.TakesCommand ∧ starved.maintStep = some [3] ∧ starved.noneCounted) := by
  have n : ∀ t, ∀ x ∈ starved.getSlot t, x.counted = false := by decide +kernel
  exact ⟨⟨takes_of (by decide +kernel) (by decide +kernel), takes_of (by decide +kernel) (by decide +kernel),
    takes_of (by decide +kernel) (by decide +kernel), takes_of (by decide +kernel) (by decide +kernel),
    none_counted (by decide +kernel), none_counted (by decide +kernel)⟩,
    takes_of (by decide +kernel) (by decide +kernel), takes_of (by decide +kernel) (by decide +kernel),
    takes_of (by decide +kernel) (by decide +kernel), takes_of (by decide +kernel) (by decide +kernel), by decide +kernel,
    fun t x hx hc => by rw [n t x hx] at hc; cases hc⟩

/-- Line 5 tracked with a content, its codes right, no transaction on it. -/
def entry (c : Content) : State := tracked base c none

theorem witness_Inspections : (arguments (tracked base (.shared 0xFF) none) 5#32 0#32 0#32 0#32).TakesCommand ∧
    (tracked base (.shared 0xFF) none).trackedAs 5 3 (.shared 0xFF) ∧ (5#32 : Word32) = (5#34 : Line).setWidth 32 ∧
    (base.untracked 0x3FFFFFFFF#34 ∧ 0xFFFFFFFF#32 = (0x3FFFFFFFF#34 : Line).setWidth 32 ∧
      (3#32).toNat = (0x3FFFFFFFF#34 : Line).toNat / 2 ^ 32 ∧ (arguments base 0xFFFFFFFF#32 3#32 0#32 0#32).TakesCommand) ∧
    ((arguments base 2047#32 15#32 0#32 0#32).TakesCommand ∧ (arguments base 2047#32 15#32 0#32 0#32).wayHolder 2047 15 = none) ∧
    (arguments base 2048#32 16#32 0#32 0#32).TakesCommand ∧ (arguments base 0#32 4#32 0#32 0#32).TakesCommand ∧
    ((arguments base 47#32 0#32 0#32 0#32).TakesCommand ∧ base.getSlot 47 = none) ∧
    (arguments (base.putSlot 7 (some held)) 7#32 0#32 0#32 0#32).TakesCommand ∧
    (arguments base 48#32 0#32 0#32 0#32).TakesCommand :=
  ⟨takes_of (by decide +kernel) (by decide +kernel), names_of (by decide +kernel), by decide +kernel,
    ⟨unnamed_of (by decide +kernel), by decide +kernel, by decide +kernel, arguments_takes _ _ _ _⟩,
    ⟨arguments_takes _ _ _ _, by decide +kernel⟩, arguments_takes _ _ _ _, arguments_takes _ _ _ _,
    ⟨arguments_takes _ _ _ _, by decide +kernel⟩, takes_of (by decide +kernel) (by decide +kernel),
    arguments_takes _ _ _ _⟩

/-- N7 in a membership state, with a purge job or none. -/
def member (m : NodeState) (j : Option PurgeJob) : State := (base.modNode 7 (fun r => { r with state := m })).putJob 7 j

theorem witness_NodeEvict : (arguments base 8#32 0#32 0#32 0#32).TakesCommand ∧
    (∀ m ∈ [NodeState.absent, .lost, .purging, .live],
      (arguments (member m none) 7#32 0#32 0#32 0#32).TakesCommand ∧
        (arguments (member m none) 7#32 0#32 0#32 0#32).nodeState 7 = m) ∧
    (arguments (member .live none) 7#32 0#32 0#32 0#32).Quiet ∧ (∀ u, (member .live none).getSlot u = none) ∧
    (member .live none).getJob 7 = none ∧
    (arguments (member .leaving (some ⟨.messaging, 1, 0⟩)) 7#32 0#32 0#32 0#32).TakesCommand ∧
    (arguments (member .leaving (some ⟨.messaging, 1, 0⟩)) 7#32 0#32 0#32 0#32).Quiet := by
  refine ⟨arguments_takes _ _ _ _, ?_, quiet_of (by decide +kernel), by decide +kernel, by decide +kernel,
    takes_of (by decide +kernel) (by decide +kernel), quiet_of (by decide +kernel)⟩
  have h : ∀ m ∈ [NodeState.absent, .lost, .purging, .live],
      ready (arguments (member m none) 7#32 0#32 0#32 0#32) = true ∧
        (arguments (member m none) 7#32 0#32 0#32 0#32).mbState ≠ .busy ∧
        (arguments (member m none) 7#32 0#32 0#32 0#32).nodeState 7 = m := by decide +kernel
  exact fun m hm => ⟨takes_of (h m hm).1 (h m hm).2.1, (h m hm).2.2⟩

theorem witness_ClearPoison :
    ((arguments (entry .poisoned) 5#32 0#32 0#32 0#32).TakesCommand ∧
      (arguments (entry .poisoned) 5#32 0#32 0#32 0#32).Quiet ∧
      (arguments (entry .poisoned) 5#32 0#32 0#32 0#32).trackedAs 5 3 .poisoned ∧ (0#32 : Word32).getLsbD 0 = false) ∧
    (arguments (entry (.owned 7)) 5#32 0#32 0#32 0#32).trackedAs 5 3 (.owned 7) ∧
    (arguments base 0xFFFFFFFF#32 3#32 0#32 0#32).untracked 0x3FFFFFFFF#34 ∧
    (arguments base 0#32 4#32 0#32 0#32).TakesCommand :=
  ⟨⟨takes_of (by decide +kernel) (by decide +kernel), quiet_of (by decide +kernel), names_of (by decide +kernel),
    by decide +kernel⟩, names_of (by decide +kernel), unnamed_of (by decide +kernel), arguments_takes _ _ _ _⟩

/-- The orders of a directory of one set listed with an order of the 16 ways. -/
theorem directory_one {s : State} {i : SetIx} {r : SetRec} (h : s.dir = [(i, r)]) (hr : r ≠ blankSet)
    (ho : r.order = List.finRange 16) : s.directoryOk := by
  have e : allWays = List.finRange 16 := by unfold allWays; rfl
  refine ⟨by rw [h]; simp [dirWf, hr], fun j => ?_⟩
  simp only [State.getSet, h, dirGet, e]
  split
  · rw [ho]
  · exact e ▸ blankSet_perm

/-- The same of the directory whose one entry is line 5's, OWNED by N7 and held by slot T7. -/
theorem directory_owned {s : State} (h : s.dir = (tracked base (.owned 7) (some 7)).dir) : s.directoryOk :=
  directory_one (i := 5) (r := { blankSet with ways := blankSet.ways.set 3 ⟨coded (some 0#23), coded ⟨.owned 7, some 7, false⟩⟩ })
    h (by decide +kernel) rfl

/-- A pass at the set before the last, and at the last, whose set has a POISONED way. -/
def passing (k : Nat) (i : SetIx) : State := { base.putWay i 3 ⟨coded (some 0#23), coded ⟨.poisoned, none, false⟩⟩ with
  mbState := .busy, poisonPass := some ⟨k, 4, 1, 2⟩ }

theorem witness_ClearPoisonAll : (arguments base 0#32 0#32 1#32 0#32).TakesCommand ∧ (1#32 : Word32).getLsbD 0 = true ∧
    ((passing 2046 2046).Quiet ∧ (passing 2046 2046).directoryOk ∧ (passing 2046 2046).soundSet 2046 ∧
      ∀ w, (passing 2046 2046).wayHolder 2046 w = none) ∧
    ((passing 2047 2047).Quiet ∧ (passing 2047 2047).directoryOk ∧ (passing 2047 2047).soundSet 2047 ∧
      ∀ w, (passing 2047 2047).wayHolder 2047 w = none) := by
  have h : ∀ i ∈ [(2046 : SetIx), 2047], ∀ w, ((passing i.val i).getWay i w).key.check = .good ∧
      ((passing i.val i).getWay i w).body.check = .good := by decide +kernel
  have d : ∀ k (i : SetIx), (passing k i).directoryOk := fun k i =>
    directory_one (i := i) (r := { blankSet with ways := blankSet.ways.set 3 ⟨coded (some 0#23), coded ⟨.poisoned, none, false⟩⟩ })
      rfl (by decide +kernel) rfl
  exact ⟨arguments_takes _ _ _ _, by decide +kernel,
    ⟨quiet_of (by decide +kernel), d _ _, h 2046 (by decide +kernel), by decide +kernel⟩,
    ⟨quiet_of (by decide +kernel), d _ _, h 2047 (by decide +kernel), by decide +kernel⟩⟩

theorem witness_LinkCommands : (∀ a ∈ [4#32, 8#32, 0#32], ∀ b ∈ [1#32, 2#32, 3#32, 4#32, 0#32],
      (arguments base a b 0#32 0#32).TakesCommand) ∧
    base.TakesCommand ∧ base.link = .up ∧ base.orderHeld = [] ∧ base.answerHeld = [] ∧
    State.reset.TakesCommand ∧ State.reset.link ≠ .up :=
  ⟨fun a _ b _ => arguments_takes a b _ _, takes_of (by decide +kernel) (by decide +kernel), by decide +kernel,
    by decide +kernel, by decide +kernel, takes_of (by decide +kernel) (by decide +kernel), by decide +kernel⟩

/-- Every node ABSENT but a LOST one, one window RETIRING. -/
def emptied : State := { State.reset with
  nodes := State.reset.nodes.set 0 { blankNode with state := .lost, reason := some .lost, stale := 3 }
  windows := State.reset.windows.set 0 ⟨.retiring, 0, 5, .direct, 1, 2, some .draining⟩ }

theorem witness_DirReset : emptied.TakesCommand ∧ emptied.Quiet ∧ (∀ n, emptied.getJob n = none) ∧
    (∀ n, emptied.nodeState n = .absent ∨ emptied.nodeState n = .lost) ∧
    (∀ j, emptied.maint = some j → j.kind = .scrub) ∧
    base.TakesCommand ∧ ¬∀ n, base.nodeState n = .absent ∨ base.nodeState n = .lost :=
  ⟨takes_of (by decide +kernel) (by decide +kernel), quiet_of (by decide +kernel), by decide +kernel,
    by decide +kernel, by rintro j ⟨⟩; rfl, takes_of (by decide +kernel) (by decide +kernel), by decide +kernel⟩

/-! ## Witnesses: node requests -/

/-- The ANSWER queue with room for one message, and full. -/
def almost (s : State) : State := { s with answerQ := List.replicate 63 (.farewell 1) }
def stuffed (s : State) : State := { s with answerQ := List.replicate 64 (.farewell 1) }

theorem witness_RequestsRefused :
    (almost (asks (base.modNode 7 (fun r => { r with state := .lost })) .drop 7 5)).Ready ∧
    (stuffed (asks base .drop 7 0x30000#34)).Ready ∧ (stuffed (asks base .drop 7 0x30000#34)).windowOf 0x30000#34 = none ∧
    (asks base .readOwn 7 0x20000#34).Ready ∧ (asks base .readOwn 7 0x20000#34).windowOf 0x20000#34 = some 2 ∧
    (base.getWindow 2).kind = .sharedOnly ∧
    (asks (base.modWindow 0 (fun w => { w with allowed := 0x7F })) .drop 7 0#34).Ready ∧
    (asks (base.modWindow 0 (fun w => { w with state := .retiring })) .drop 7 0xFFFF#34).Ready ∧
    (asks (base.modNode 7 (fun r => { r with credits := 6 })) .drop 7 5).Ready ∧
    (asks (busySlots base 44) .drop 7 5).Ready ∧ (busySlots base 44).freeSlots = 4 ∧
    (∃ s : State, s.Ready ∧ s.riHeld = none ∧ s.answerHeld = [] ∧ s.reqIntake = [.request .drop 7 5] ∧ s.frozen 5 = true) ∧
    ({ stuffed base with riHeld := some (.welcome .memory), answerHeld := [.intake] } : State).Ready := by
  refine ⟨ready_of (by decide +kernel), ready_of (by decide +kernel), by decide +kernel, ready_of (by decide +kernel),
    by decide +kernel, by decide +kernel, ready_of (by decide +kernel), ready_of (by decide +kernel),
    ready_of (by decide +kernel), ready_of (by decide +kernel), by decide +kernel,
    ⟨asks (((base.putSet 5 { blankSet with frozen := true }).putSlot 7 (some { newSlot .setRebuild with
      set := some 5, phase := .rebuild, awaited := 1#8, memWait := .counted, outstanding := .surrender
      rebuild := some (.set .surrendering true .close blankTallies) }))) .drop 7 5, ready_of (by decide +kernel),
      by decide +kernel⟩, ready_of (by decide +kernel)⟩

/-- Line 5 with an active transaction, 42 slots more in use, and N7 with 5 credits in use. -/
def crowded (k : ReqKind) : State :=
  asks ((((busySlots base 42).putSlot 42 (some { newSlot .flushRecall with
    line := some 5, window := some 0, rank := some 0, phase := .awaitStore })).modNode 7 (fun r => { r with credits := 5 }))) k 7 5

theorem witness_AdmittedRequestParks : (∀ k ∈ [ReqKind.readShared, .readOwn, .upgrade, .writeback, .drop],
    (crowded k).Arrives k 7 5 0 [] ∧ (crowded k).onLine 5 ≠ [] ∧ (crowded k).lowestFree = some 43 ∧
      (crowded k).observer 5 7 = []) ∧ (crowded .drop).freeSlots = 5 := by
  have h : ∀ k ∈ [ReqKind.readShared, .readOwn, .upgrade, .writeback, .drop], arrives (crowded k) k 7 5 0 [] = true ∧
      (crowded k).onLine 5 ≠ [] ∧ (crowded k).lowestFree = some 43 ∧ (crowded k).observer 5 7 = [] := by decide +kernel
  exact ⟨fun k hk => ⟨arrives_of (h k hk).1, (h k hk).2⟩, by decide +kernel⟩

/-- The ORDER queue with room for one message. -/
def oneOrder (s : State) : State := { s with orderQ := List.replicate 63 (.revoke 1 6 false) }

/-- The ORDER queue with room for eight messages. -/
def eightOrders (s : State) : State := { s with orderQ := List.replicate 56 (.revoke 1 6 false) }

theorem witness_UntrackedReadFetches : (∀ k ∈ [ReqKind.readShared, .readOwn, .upgrade],
      (asks (oneOrder base) k 7 0xFFFF#34).Arrives k 7 0xFFFF#34 0 []) ∧
    (asks (oneOrder base) .upgrade 7 0xFFFF#34).onLine 0xFFFF#34 = [] ∧
    (asks (oneOrder base) .upgrade 7 0xFFFF#34).lowestFree = some 0 ∧
    (asks (oneOrder base) .upgrade 7 0xFFFF#34).untracked 0xFFFF#34 ∧ base.mem = .live ∧
    (oneOrder base).orderQ.length < 64 ∧ (base.getWindow 0).kind ≠ .direct ∧
    ((base.getSet 2047).order.reverse.find? (fun y => (base.getWay 2047 y).body.stored.content == .free)) = some 15 := by
  have h : ∀ k ∈ [ReqKind.readShared, .readOwn, .upgrade],
      arrives (asks (oneOrder base) k 7 0xFFFF#34) k 7 0xFFFF#34 0 [] = true := by decide +kernel
  exact ⟨fun k hk => arrives_of (h k hk), by decide +kernel, by decide +kernel, unnamed_of (by decide +kernel),
    by decide +kernel⟩

/-- Set 2047 with every way in use: a SHARED line of all nodes' in way 3, every other way POISONED, or way 3 POISONED too. -/
def crammed (c : Content) : State := eightOrders (base.putSet 2047 { blankSet with
  ways := (Vector.ofFn (fun w : WayIx => (⟨coded (some (BitVec.ofNat 23 (40 + w.val))), coded ⟨.poisoned, none, false⟩⟩ : Way))).set 3
    ⟨coded (some 1#23), coded ⟨c, none, false⟩⟩ })

theorem witness_VictimChoice :
    (∀ k ∈ [ReqKind.readShared, .readOwn, .upgrade], (asks (crammed (.shared 0xFF)) k 7 0xFFFF#34).Arrives k 7 0xFFFF#34 0 [] ∧
      (asks (almost (crammed .poisoned)) k 7 0xFFFF#34).Arrives k 7 0xFFFF#34 0 []) ∧
    (asks (crammed (.shared 0xFF)) .upgrade 7 0xFFFF#34).untracked 0xFFFF#34 ∧
    (asks (almost (crammed .poisoned)) .upgrade 7 0xFFFF#34).untracked 0xFFFF#34 ∧
    (asks (crammed (.shared 0xFF)) .upgrade 7 0xFFFF#34).trackedAs 0xFFF#34 3 (.shared 0xFF) ∧
    (crammed (.shared 0xFF)).keepsContent (.shared 0xFF) ∧
    (crammed (.shared 0xFF)).windowOf 0xFFF#34 = some 0 ∧ (crammed (.shared 0xFF)).onLine 0xFFF#34 = [] ∧
    setOf 0xFFF#34 = setOf 0xFFFF#34 ∧
    allSlots.find? (fun t => t != 0 && ((crammed (.shared 0xFF)).getSlot t).isNone) = some 1 ∧
    (crammed (.shared 0xFF)).orderQ.length + (NodeSet.toList 0xFF#8).length ≤ 64 ∧
    (crammed (.shared 0xFF)).lowestFree = some 0 ∧
    ((crammed (.shared 0xFF)).getSet 2047).order.reverse.find? ((crammed (.shared 0xFF)).eligible 2047) = some 3 ∧
    ((crammed .poisoned).getSet 2047).order.reverse.find? ((crammed .poisoned).eligible 2047) = none ∧
    (∀ c ∈ [Content.shared 0xFF, .poisoned],
      ((crammed c).getSet 2047).order.reverse.find? (fun y => ((crammed c).getWay 2047 y).body.stored.content == .free) = none) := by
  have h : ∀ k ∈ [ReqKind.readShared, .readOwn, .upgrade],
      arrives (asks (crammed (.shared 0xFF)) k 7 0xFFFF#34) k 7 0xFFFF#34 0 [] = true ∧
      arrives (asks (almost (crammed .poisoned)) k 7 0xFFFF#34) k 7 0xFFFF#34 0 [] = true := by decide +kernel
  exact ⟨fun k hk => ⟨arrives_of (h k hk).1, arrives_of (h k hk).2⟩, unnamed_of (by decide +kernel),
    unnamed_of (by decide +kernel), names_of (by decide +kernel), ⟨nofun, nofun, by decide +kernel⟩, by decide +kernel⟩

theorem witness_OwnedLineForwards : (∀ k ∈ [ReqKind.readShared, .readOwn, .upgrade],
      (asks (oneOrder (entry (.owned 7))) k 0 5).Arrives k 0 5 0 []) ∧
    (asks (oneOrder (entry (.owned 7))) .upgrade 0 5).trackedAs 5 3 (.owned 7) ∧
    (asks (oneOrder (entry (.owned 7))) .upgrade 0 5).onLine 5 = [] ∧
    (asks (oneOrder (entry (.owned 7))) .upgrade 0 5).lowestFree = some 0 ∧ base.nodeState 7 ≠ .purging := by
  have h : ∀ k ∈ [ReqKind.readShared, .readOwn, .upgrade],
      arrives (asks (oneOrder (entry (.owned 7))) k 0 5) k 0 5 0 [] = true := by decide +kernel
  exact ⟨fun k hk => arrives_of (h k hk), names_of (by decide +kernel), by decide +kernel⟩

theorem witness_SharedLineReads :
    (∀ k ∈ [ReqKind.readShared, .readOwn], (asks (eightOrders (entry (.shared 0xFF))) k 0 5).Arrives k 0 5 0 []) ∧
    (asks (eightOrders (entry (.shared 0xFE))) .upgrade 0 5).Arrives .upgrade 0 5 0 [] ∧
    (asks (eightOrders (entry (.shared 0xFF))) .readOwn 0 5).trackedAs 5 3 (.shared 0xFF) ∧
    (asks (eightOrders (entry (.shared 0xFE))) .upgrade 0 5).trackedAs 5 3 (.shared 0xFE) ∧
    (asks (eightOrders (entry (.shared 0xFF))) .readOwn 0 5).keepsContent (.shared 0xFF) ∧
    NodeSet.has 0xFE#8 0 = false ∧
    (eightOrders base).orderQ.length + ((NodeSet.toList (NodeSet.remove 0xFF#8 0)).map
      (fun q => Order.revoke q 5 false) ++ [Order.fetch 5 0 false]).length = 64 := by
  have h : ∀ k ∈ [ReqKind.readShared, .readOwn],
      arrives (asks (eightOrders (entry (.shared 0xFF))) k 0 5) k 0 5 0 [] = true := by decide +kernel
  exact ⟨fun k hk => arrives_of (h k hk), arrives_of (by decide +kernel), names_of (by decide +kernel),
    names_of (by decide +kernel), ⟨nofun, nofun, by decide +kernel⟩, by decide +kernel⟩

theorem witness_SharerUpgrades : (asks (almost (oneOrder (entry (.shared 0x81)))) .upgrade 0 5).Arrives .upgrade 0 5 0 [] ∧
    (asks (almost (oneOrder (entry (.shared 0x81)))) .upgrade 0 5).trackedAs 5 3 (.shared 0x81) ∧
    (asks (almost (oneOrder (entry (.shared 0x80)))) .upgrade 7 5).Arrives .upgrade 7 5 0 [] ∧
    (asks (almost (oneOrder (entry (.shared 0x80)))) .upgrade 7 5).trackedAs 5 3 (.shared 0x80) ∧
    (asks (almost (oneOrder (entry (.shared 0x80)))) .upgrade 7 5).keepsContent (.shared 0x80) ∧
    NodeSet.has 0x80#8 7 = true ∧ NodeSet.remove 0x80#8 7 = 0#8 ∧ NodeSet.remove 0x81#8 0 ≠ 0#8 :=
  ⟨arrives_of (by decide +kernel), names_of (by decide +kernel), arrives_of (by decide +kernel),
    names_of (by decide +kernel), ⟨nofun, nofun, by decide +kernel⟩, by decide +kernel⟩

/-- The store of N7 for line 5 noticed, the request not yet taken. -/
def noticed (s : State) : State := { s with notices := [⟨5, 7, false, 1⟩] }

theorem witness_Writeback : (asks (entry (.owned 7)) .writeback 7 5).Arrives .writeback 7 5 0 [] ∧
    (asks (entry (.owned 7)) .writeback 7 5).trackedAs 5 3 (.owned 7) ∧
    (asks (entry (.owned 7)) .writeback 7 5).noticeFor 5 7 = none ∧
    (asks (almost (noticed (entry (.owned 7)))) .writeback 7 5).Arrives .writeback 7 5 0 [] ∧
    (asks (almost (noticed (entry (.owned 7)))) .writeback 7 5).noticeFor 5 7 ≠ none ∧
    (asks (almost (noticed base)) .writeback 7 5).untracked 5 ∧
    (asks (almost (noticed (entry .poisoned))) .writeback 7 5).Arrives .writeback 7 5 0 [] ∧
    (asks (almost (noticed (entry .poisoned))) .writeback 7 5).trackedAs 5 3 .poisoned ∧
    (asks (almost (noticed (entry .poisoned))) .writeback 7 5).keepsContent .poisoned ∧
    (asks (almost (noticed (entry .poisoned))) .writeback 7 5).onLine 5 = [] ∧
    (asks (almost (noticed (entry .poisoned))) .writeback 7 5).lowestFree = some 0 :=
  ⟨arrives_of (by decide +kernel), names_of (by decide +kernel), by decide +kernel, arrives_of (by decide +kernel),
    by decide +kernel, unnamed_of (by decide +kernel), arrives_of (by decide +kernel), names_of (by decide +kernel),
    ⟨nofun, nofun, by decide +kernel⟩, by decide +kernel, by decide +kernel⟩

theorem witness_Drop : (∀ c ∈ [Content.owned 7, .shared 0x80, .shared 0x81, .poisoned],
      (asks (almost (entry c)) .drop 7 5).Arrives .drop 7 5 0 [] ∧ (asks (almost (entry c)) .drop 7 5).trackedAs 5 3 c ∧
        (asks (almost (entry c)) .drop 7 5).keepsContent c) ∧
    (asks (almost base) .drop 7 5).untracked 5 ∧ (asks (almost base) .drop 7 5).onLine 5 = [] ∧
    (asks (almost base) .drop 7 5).lowestFree = some 0 := by
  have h : ∀ c ∈ [Content.owned 7, .shared 0x80, .shared 0x81, .poisoned],
      arrives (asks (almost (entry c)) .drop 7 5) .drop 7 5 0 [] = true ∧
      names (asks (almost (entry c)) .drop 7 5) 5 3 c = true ∧
      c ≠ .free ∧ c ≠ .reserved ∧ editContent (asks (almost (entry c)) .drop 7 5).purgingNodes c = c := by decide +kernel
  exact ⟨fun c hc => ⟨arrives_of (h c hc).1, names_of (h c hc).2.1, (h c hc).2.2⟩, unnamed_of (by decide +kernel),
    by decide +kernel⟩

theorem witness_ReadsRefused : (∀ k ∈ [ReqKind.readShared, .readOwn, .upgrade],
      (asks (almost (entry .poisoned)) k 7 5).Arrives k 7 5 0 [] ∧ (asks (almost (entry (.owned 7))) k 7 5).Arrives k 7 5 0 [] ∧
      (asks (almost { base with mem := .failed }) k 7 5).Arrives k 7 5 0 []) ∧
    (asks (almost (entry .poisoned)) .upgrade 7 5).trackedAs 5 3 .poisoned ∧
    (asks (almost (entry (.owned 7))) .upgrade 7 5).trackedAs 5 3 (.owned 7) ∧
    (asks (almost { base with mem := .failed }) .upgrade 7 5).untracked 5 := by
  have h : ∀ k ∈ [ReqKind.readShared, .readOwn, .upgrade], arrives (asks (almost (entry .poisoned)) k 7 5) k 7 5 0 [] = true ∧
      arrives (asks (almost (entry (.owned 7))) k 7 5) k 7 5 0 [] = true ∧
      arrives (asks (almost { base with mem := .failed }) k 7 5) k 7 5 0 [] = true := by decide +kernel
  exact ⟨fun k hk => ⟨arrives_of (h k hk).1, arrives_of (h k hk).2.1, arrives_of (h k hk).2.2⟩,
    names_of (by decide +kernel), names_of (by decide +kernel), unnamed_of (by decide +kernel)⟩

theorem witness_DirectWindow : (∀ k ∈ [ReqKind.readShared, .readOwn, .upgrade, .writeback, .drop],
      (asks (almost (oneOrder base)) k 7 0x1FFFF#34).Arrives k 7 0x1FFFF#34 1 []) ∧ (base.getWindow 1).kind = .direct ∧
    (asks (almost (oneOrder base)) .drop 7 0x1FFFF#34).onLine 0x1FFFF#34 = [] ∧
    (asks (almost (oneOrder base)) .drop 7 0x1FFFF#34).lowestFree = some 0 ∧
    (asks (almost (oneOrder base)) .writeback 7 0x1FFFF#34).noticeFor 0x1FFFF#34 7 = none := by
  have h : ∀ k ∈ [ReqKind.readShared, .readOwn, .upgrade, .writeback, .drop],
      arrives (asks (almost (oneOrder base)) k 7 0x1FFFF#34) k 7 0x1FFFF#34 1 [] = true := by decide +kernel
  exact ⟨fun k hk => arrives_of (h k hk), by decide +kernel⟩

/-! ## Witnesses: membership and replies -/

/-- A message of N7's at the head of the REQUEST intake, with N7 in a membership state and some credits in use. -/
def sevenSays (m : NodeState) (c : Nat) (q : ReqMsg) : State :=
  { almost (base.modNode 7 (fun r => { r with state := m, credits := c })) with reqIntake := [q] }

theorem witness_Membership : (∀ m ∈ [NodeState.absent, .live, .leaving, .purging, .lost],
      (sevenSays m 0 (.hello (.node 7))).Ready ∧ ((sevenSays m 0 (.leave 7)).getNode 7).state = m) ∧
    (sevenSays .live 0 (.hello (.node 7))).Quiet ∧ (∀ u, (sevenSays .live 0 (.hello (.node 7))).getSlot u = none) ∧
    (sevenSays .live 0 (.hello (.node 7))).getJob 7 = none ∧ (sevenSays .live 1 (.leave 7)).Ready ∧
    ((sevenSays .leaving 0 (.hello (.node 7))).putJob 7 (some ⟨.messaging, 1, 0⟩)).Ready ∧
    ((sevenSays .leaving 0 (.hello (.node 7))).putJob 7 (some ⟨.messaging, 1, 0⟩)).Quiet ∧
    (sevenSays .live 0 (.hello .memory)).riHeld = none ∧ (sevenSays .live 0 (.hello .memory)).answerHeld = [] ∧
    (sevenSays .live 0 (.hello .memory)).answerQ.length < 64 := by
  have h : ∀ m ∈ [NodeState.absent, .live, .leaving, .purging, .lost], ready (sevenSays m 0 (.hello (.node 7))) = true ∧
      ((sevenSays m 0 (.leave 7)).getNode 7).state = m := by decide +kernel
  exact ⟨fun m hm => ⟨ready_of (h m hm).1, (h m hm).2⟩, quiet_of (by decide +kernel), by decide +kernel,
    by decide +kernel, ready_of (by decide +kernel), ready_of (by decide +kernel), quiet_of (by decide +kernel),
    by decide +kernel⟩

/-- An active transaction of line 5 that awaits N3 alone. -/
def awaitsN3 : State := opened base { newSlot .readOwn with phase := .awaitReplies, awaited := 8#8, outstanding := .revoke }

theorem witness_StaleReplies : (answers awaitsN3 (.revokeAck 7 5)).Ready ∧
    (∀ t x, awaitsN3.activeOn 5 = some t → awaitsN3.getSlot t = some x → NodeSet.has x.awaited 7 = false) ∧
    base.activeOn 5 = none ∧
    (∀ t x, awaitsN3.getSlot t = some x → x.rebuildsSet = true → x.setIx = some 2047 → NodeSet.has x.awaited 7 = false) := by
  have h : awaitsN3.activeOn 5 = some 7 := by decide +kernel
  have g : ∀ t, ∀ x ∈ awaitsN3.getSlot t, NodeSet.has x.awaited 7 = false := by decide +kernel
  exact ⟨ready_of (by decide +kernel), fun t x _ hx => g t x hx, by decide +kernel, fun t x hx _ _ => g t x hx⟩

/-- N3's replies of every kind to a transaction that awaits it for another. -/
theorem witness_UnfitReplies : (answers awaitsN3 (.forwardDone 3 5 .clean)).Ready ∧ awaitsN3.activeOn 5 = some 7 ∧
    (∃ x, awaitsN3.getSlot 7 = some x ∧ NodeSet.has x.awaited 3 = true ∧ x.phase ≠ .awaitComplete ∧ x.outstanding = .revoke) ∧
    (answers (opened base { newSlot .readOwn with phase := .awaitReplies, awaited := 8#8, outstanding := .forward .move })
      (.revokeAck 3 5)).Ready :=
  ⟨ready_of (by decide +kernel), by decide +kernel, ⟨_, rfl, by decide +kernel⟩, ready_of (by decide +kernel)⟩

theorem witness_UnawaitedFetch : (answers awaitsN3 (.fetchSent 5)).Ready ∧
    (∀ t x, awaitsN3.activeOn 5 = some t → awaitsN3.getSlot t = some x → x.memWait ≠ .fetchSent) := by
  have g : ∀ t, ∀ x ∈ awaitsN3.getSlot t, x.memWait ≠ .fetchSent := by decide +kernel
  exact ⟨ready_of (by decide +kernel), fun t x _ hx => g t x hx⟩

/-- What `opened` makes of a record. -/
def onLine5 (x : Slot) : Slot := { x with line := some 5, window := some 0, rank := some 0 }

/-- An UPGRADE of N1's on line 5 with REVOKEs outstanding to a set of sharers. -/
def upgrading (m : NodeSet) : Slot := { newSlot .upgrade with
  requester := some 1, phase := .awaitReplies, awaited := m, outstanding := .revoke, timer := some 1, retriesLeft := 1
  working := some ⟨3, .shared (m ||| 2#8)⟩ }
def revoking (m : NodeSet) : State :=
  answers (almost (opened (tracked base (.shared (m ||| 2#8)) (some 7)) (upgrading m))) (.revokeAck 7 5)

theorem witness_RevokeAck : (∀ m ∈ [0x80#8, 0x81#8], (revoking m).Quiet ∧ (revoking m).activeOn 5 = some 7 ∧
      (revoking m).getSlot 7 = some (onLine5 (upgrading m)) ∧ NodeSet.has m 7 = true ∧ NodeSet.remove (m ||| 2#8) 7 ≠ 0#8) ∧
    NodeSet.remove 0x80#8 7 = 0#8 ∧ NodeSet.remove 0x81#8 7 ≠ 0#8 ∧
    (revoking 0x80).isDirect (onLine5 (upgrading 0x80)) = false := by
  have h : ∀ m ∈ [0x80#8, 0x81#8], quiet (revoking m) = true ∧ (revoking m).activeOn 5 = some 7 ∧
      (revoking m).getSlot 7 = some (onLine5 (upgrading m)) ∧ NodeSet.has m 7 = true ∧
      NodeSet.remove (m ||| 2#8) 7 ≠ 0#8 := by decide +kernel
  exact ⟨fun m hm => ⟨quiet_of (h m hm).1, (h m hm).2⟩, by decide +kernel⟩

/-- A read of N1's on line 5 with a FORWARD outstanding to its owner N7. -/
def forwarded (k : Kind) (m : Mode) : Slot := { newSlot k with
  requester := some 1, phase := .awaitReplies, awaited := 0x80#8, outstanding := .forward m, timer := some 1, retriesLeft := 1
  working := some ⟨3, .owned 7⟩ }
def forwarding (k : Kind) (m : Mode) (r : Result) : State :=
  answers (almost (opened (tracked base (.owned 7) (some 7)) (forwarded k m))) (.forwardDone 7 5 r)

theorem witness_ForwardDone : (∀ p ∈ [(Kind.readShared, Mode.share), (.readOwn, .move), (.upgrade, .move)],
      ∀ r ∈ [Result.clean, .dirty, .notHeld], (forwarding p.1 p.2 r).Quiet ∧ (forwarding p.1 p.2 r).activeOn 5 = some 7 ∧
        (forwarding p.1 p.2 r).getSlot 7 = some (onLine5 (forwarded p.1 p.2)) ∧
        (forwarding p.1 p.2 r).isDirect (onLine5 (forwarded p.1 p.2)) = false ∧
        (forwarding p.1 p.2 r).noticeFor 5 7 = none ∧ (forwarding p.1 p.2 r).requestPresent .drop 7 5 = false) ∧
    NodeSet.single 7 = 0x80#8 := by
  have h : ∀ p ∈ [(Kind.readShared, Mode.share), (.readOwn, .move), (.upgrade, .move)],
      ∀ r ∈ [Result.clean, .dirty, .notHeld], quiet (forwarding p.1 p.2 r) = true ∧
        (forwarding p.1 p.2 r).activeOn 5 = some 7 ∧
        (forwarding p.1 p.2 r).getSlot 7 = some (onLine5 (forwarded p.1 p.2)) ∧
        (forwarding p.1 p.2 r).isDirect (onLine5 (forwarded p.1 p.2)) = false ∧
        (forwarding p.1 p.2 r).noticeFor 5 7 = none ∧ (forwarding p.1 p.2 r).requestPresent .drop 7 5 = false := by
    decide +kernel
  exact ⟨fun p hp r hr => ⟨quiet_of (h p hp r hr).1, (h p hp r hr).2⟩, by decide +kernel⟩

/-- Recalls counted by a job that goes on, and a VICTIM_RECALL without its waiter in a window it leaves empty. -/
def recalls : List (State × Slot) :=
  [(flushing .running 1, recalled .flushRecall true), (retiring .aborting 2, recalled .retireRecall true),
    (member .leaving (some ⟨.messaging, 1, 1⟩), recalled .leaveRecall true),
    (member .leaving (some ⟨.messaging, 0, 2⟩), recalled .leaveRecall true),
    (base.modWindow 0 (fun w => { w with state := .retiring, progress := some .draining }), recalled .victimRecall false)]

/-- N7's answer to such a recall, its store not noticed or noticed. -/
def recalling (p : State × Slot) (r : Result) : State := answers (counting p.1 p.2) (.recallDone 7 5 r)

/-- JobsGoOn, as a test. -/
def goesOn (s : State) (x : Slot) : Bool :=
  !x.counted || ((List.finRange 8).all (fun q => match s.getJob q with
      | some j => !(decide (x.kind = .leaveRecall ∧ x.target = some q)) || j.setsLeft != 0 || j.openRecalls != 1
      | none => true) &&
    (match s.maint with
      | some j => decide ((x.kind = .leaveRecall ∧ x.target ≠ none) ∨ (j.run ≠ .finishing ∧ j.run ≠ .aborting) ∨ j.openCount ≠ 1)
      | none => true))

theorem goesOn_of {s : State} {x : Slot} (h : goesOn s x = true) : s.jobsGoOn x := by
  intro hc
  simp only [goesOn, hc, Bool.not_true, Bool.false_or, Bool.and_eq_true, List.all_eq_true] at h
  refine ⟨fun q j hk ht hj => ?_, fun j hk hj => ?_⟩
  · have := h.1 q (List.mem_finRange q)
    simpa [hj, hk, ht] using this
  · have g := h.2
    simp only [hj, decide_eq_true_eq] at g
    rcases g with ⟨g1, g2⟩ | g
    · rcases hk with hk | hk
      · exact absurd g1 hk
      · exact absurd hk g2
    · exact g

/-- A VICTIM_RECALL for the READ_OWN of N1's that waits in slot T8 for a way of set 5. -/
def victim : Slot := { recalled .victimRecall false with victimLink := some 8 }
def waiter : Slot := { newSlot .readOwn with
  requester := some 1, line := some 2053, window := some 0, rank := some 0, phase := .awaitVictim, victimLink := some 7 }
def handing (r : Result) : State := oneOrder ((recalling (base, victim) r).putSlot 8 (some waiter))

theorem witness_RecallDone :
    (∀ p ∈ recalls, ∀ r ∈ [Result.clean, .dirty, .notHeld], (recalling p r).Quiet ∧ (recalling p r).activeOn 5 = some 7 ∧
      (recalling p r).getSlot 7 = some p.2 ∧ (recalling p r).onLine 5 = [7] ∧ p.2.pending = none ∧ p.2.rebuild = none ∧
      ((recalling p r).getWay 5 3).body.check = .good ∧ (recalling p r).noticeFor 5 7 = none ∧
      (recalling p r).requestPresent .drop 7 5 = false ∧ (recalling p r).jobsGoOn p.2 ∧ p.2.victimLink = none) ∧
    (noticed (recalling (base, recalled .victimRecall false) .dirty)).Quiet ∧
    (∀ r ∈ [Result.clean, .dirty], (noticed (handing r)).Quiet ∧ (noticed (handing r)).activeOn 5 = some 7 ∧
      (handing r).getSlot 7 = some victim ∧ (handing r).getSlot 8 = some waiter ∧ (handing r).onLine 5 = [7] ∧
      (handing r).orderQ.length < 64 ∧ setOf 2053 = setOf 5 ∧ (handing r).directoryOk) := by
  have h : ∀ p ∈ recalls, ∀ r ∈ [Result.clean, .dirty, .notHeld], quiet (recalling p r) = true ∧
      goesOn (recalling p r) p.2 = true ∧ (recalling p r).activeOn 5 = some 7 ∧
      (recalling p r).getSlot 7 = some p.2 ∧ (recalling p r).onLine 5 = [7] ∧ p.2.pending = none ∧ p.2.rebuild = none ∧
      ((recalling p r).getWay 5 3).body.check = .good ∧ (recalling p r).noticeFor 5 7 = none ∧
      (recalling p r).requestPresent .drop 7 5 = false ∧ p.2.victimLink = none := by decide +kernel
  have g : ∀ r ∈ [Result.clean, .dirty], quiet (noticed (handing r)) = true ∧ (noticed (handing r)).activeOn 5 = some 7 ∧
      (handing r).getSlot 7 = some victim ∧ (handing r).getSlot 8 = some waiter ∧ (handing r).onLine 5 = [7] ∧
      (handing r).orderQ.length < 64 ∧ setOf 2053 = setOf 5 := by decide +kernel
  exact ⟨fun p hp r hr => by
      obtain ⟨h1, h2, h3, h4, h5, h6, h7, h8, h9, h10, h11⟩ := h p hp r hr
      exact ⟨quiet_of h1, h3, h4, h5, h6, h7, h8, h9, h10, goesOn_of h2, h11⟩,
    quiet_of (by decide +kernel), fun r hr => by
      obtain ⟨h1, h2, h3, h4, h5, h6, h7⟩ := g r hr
      exact ⟨quiet_of h1, h2, h3, h4, h5, h6, h7, directory_owned rfl⟩⟩

/-- A SET_REBUILD of set 2047 that awaits some nodes, one store of N7's taken, or that collects, with some retries left or with
some stores due from N7. -/
def surrendering (m : NodeSet) : Slot := { newSlot .setRebuild with
  set := some 2047, phase := .rebuild, awaited := m, memWait := .counted, outstanding := .surrender, timer := some 1
  retriesLeft := 1, rebuild := some (.set .surrendering true .close (blankTallies.set 7 ⟨none, 1⟩)) }
def collecting (k : Nat) : Slot := { newSlot .setRebuild with
  set := some 2047, phase := .rebuild, memWait := .counted, outstanding := .surrender, timer := some 1, retriesLeft := k
  rebuild := some (.set .collecting true .close (blankTallies.set 7 ⟨some 1, 1⟩)) }

def owed (k : Nat) : Slot := { collecting 1 with
  rebuild := some (.set .collecting true .close (blankTallies.set 7 ⟨some k, 1⟩)) }

/-- Set 2047 frozen and its rebuild in slot T7, with N7's count of dirty lines at the head of the REPLY intake. -/
def rebuilding (x : Slot) (d : Nat) : State :=
  answers ((base.putSet 2047 { blankSet with frozen := true }).putSlot 7 (some x)) (.surrenderDone 7 2047 d)

theorem witness_SetRebuild : (∀ m ∈ [0x80#8, 0x81#8], ∀ d ∈ [1, 2], (rebuilding (surrendering m) d).Ready ∧
      (rebuilding (surrendering m) d).surrenderTaker 7 2047 = some 7 ∧ NodeSet.has m 7 = true) ∧
    NodeSet.remove 0x80#8 7 = 0#8 ∧ NodeSet.remove 0x81#8 7 ≠ 0#8 ∧ 0 < 2 - (blankTallies.set 7 ⟨none, 1⟩)[7].taken ∧
    1 ≤ (blankTallies.set 7 ⟨none, 1⟩)[7].taken ∧
    (∀ q : Node, q ≠ 7 → ¬∃ d, (blankTallies.set 7 ⟨none, 1⟩)[q].due = some d ∧ 0 < d) ∧
    (oneOrder (rebuilding (surrendering 0x80) 1)).Ready ∧ 0 < (surrendering 0x80).retriesLeft ∧
    (∀ k ∈ [0, 1], (rebuilding (collecting k) 1).Ready ∧ (rebuilding (collecting k) 1).link = .up ∧
      (collecting k).retriesLeft = k) ∧
    (∀ x ∈ [surrendering 0x80, collecting 0], (rebuilding x 1).directoryOk ∧ (rebuilding x 1).parkedHeads 2047 = [] ∧
      (rebuilding x 1).dueSets = [] ∧ (rebuilding x 1).purgeStep = none ∧ (rebuilding x 1).maintStep = none ∧
      (rebuilding x 1).maint = none ∧ (∀ q, (rebuilding x 1).getJob q = none) ∧ (rebuilding x 1).mem = .live ∧
      (∀ u y, (rebuilding x 1).getSlot u = some y → y.memWait ≠ .fetchSent) ∧ x.working = none) ∧
    (owed 1).working = none := by
  have h : ∀ m ∈ [0x80#8, 0x81#8], ∀ d ∈ [1, 2], ready (rebuilding (surrendering m) d) = true ∧
      (rebuilding (surrendering m) d).surrenderTaker 7 2047 = some 7 ∧ NodeSet.has m 7 = true := by decide +kernel
  have c : ∀ k ∈ [0, 1], ready (rebuilding (collecting k) 1) = true ∧ (rebuilding (collecting k) 1).link = .up ∧
      (collecting k).retriesLeft = k := by decide +kernel
  have g : ∀ x ∈ [surrendering 0x80, collecting 0], (rebuilding x 1).parkedHeads 2047 = [] ∧
      (rebuilding x 1).dueSets = [] ∧ (rebuilding x 1).purgeStep = none ∧ (rebuilding x 1).maintStep = none ∧
      (rebuilding x 1).maint = none ∧ (∀ q, (rebuilding x 1).getJob q = none) ∧ (rebuilding x 1).mem = .live ∧
      (∀ u, ∀ y ∈ (rebuilding x 1).getSlot u, y.memWait ≠ .fetchSent) ∧ x.working = none := by decide +kernel
  have v : ∀ q : Node, q ≠ 7 → (blankTallies.set 7 ⟨none, 1⟩)[q].due = none := by decide +kernel
  refine ⟨fun m hm d hd => ⟨ready_of (h m hm d hd).1, (h m hm d hd).2⟩, by decide +kernel, by decide +kernel,
    by decide +kernel, by decide +kernel, fun q hq => by rw [v q hq]; rintro ⟨d, ⟨⟩, _⟩, ready_of (by decide +kernel),
    by decide +kernel, fun k hk => ⟨ready_of (c k hk).1, (c k hk).2⟩, fun x hx => ⟨?_, ?_⟩, by decide +kernel⟩
  · exact directory_one (i := 2047) (r := { blankSet with frozen := true }) rfl (by decide +kernel) rfl
  · obtain ⟨h1, h2, h3, h4, h5, h6, h7, h8, h9⟩ := g x hx
    exact ⟨h1, h2, h3, h4, h5, h6, h7, fun u y hy => h8 u y hy, h9⟩

/-- A store of N7's for a line of the rebuilt set, taken while N7 is awaited, with more due, and as the last one due. -/
def storingFor (x : Slot) : State := answers (rebuilding x 1) (.absorbDone 0x7FF#34 7)

theorem witness_StoreTaken : (∀ x ∈ [surrendering 0x80, owed 2, owed 1], (storingFor x).Ready ∧
      (storingFor x).activeOn 0x7FF#34 = none ∧ (storingFor x).storeTaker 0x7FF#34 7 = some 7) ∧
    (owed 1).awaited = 0#8 ∧ setOf 0x7FF#34 = 2047 ∧ (storingFor (owed 1)).parkedHeads 2047 = [] ∧
    (storingFor (owed 1)).dueSets = [] ∧ (storingFor (owed 1)).directoryOk := by
  have h : ∀ x ∈ [surrendering 0x80, owed 2, owed 1], ready (storingFor x) = true ∧
      (storingFor x).activeOn 0x7FF#34 = none ∧ (storingFor x).storeTaker 0x7FF#34 7 = some 7 := by decide +kernel
  exact ⟨fun x hx => ⟨ready_of (h x hx).1, (h x hx).2⟩, by decide +kernel, by decide +kernel, by decide +kernel,
    by decide +kernel, directory_one (i := 2047) (r := { blankSet with frozen := true }) rfl (by decide +kernel) rfl⟩

/-- A READ_OWN of N1's granted line 5, and one granted a line untracked. -/
def granted (k : Option Working) : Slot := { newSlot .readOwn with
  requester := some 1, phase := .awaitComplete, awaited := 2#8, outstanding := .grant .owned .memory false, timer := some 1
  working := k }
def completing (k : Option Working) : State :=
  answers (opened (tracked base .reserved (some 7)) (granted k)) (.complete 1 5)

theorem witness_Complete : (∀ k ∈ [some ⟨3, .owned 1⟩, none], (completing k).Quiet ∧ (completing k).activeOn 5 = some 7 ∧
      (completing k).Sole 7 (onLine5 (granted k)) 5 0) ∧ NodeSet.has 2#8 1 = true ∧
    (completing (some ⟨3, .owned 1⟩)).keepsContent (.owned 1) ∧
    ((completing (some ⟨3, .owned 1⟩)).getWay 5 3).body.check = .good := by
  have h : ∀ k ∈ [some ⟨3, .owned 1⟩, none], quiet (completing k) = true ∧ (completing k).activeOn 5 = some 7 ∧
      sole (completing k) 7 (onLine5 (granted k)) 5 0 = true := by decide +kernel
  exact ⟨fun k hk => ⟨quiet_of (h k hk).1, (h k hk).2.1, sole_of (h k hk).2.2⟩, by decide +kernel,
    ⟨nofun, nofun, by decide +kernel⟩, by decide +kernel⟩

/-- A read of N1's that awaits FETCH_SENT for line 5, and some nodes. -/
def fetched (k : Kind) (m : NodeSet) : Slot := { newSlot k with
  requester := some 1, phase := .awaitReplies, awaited := m, memWait := .fetchSent, timer := some 1, retriesLeft := 1
  converted := decide (k = .upgrade), working := some ⟨3, .reserved⟩ }
def fetching (k : Kind) (m : NodeSet) (r : ReplyMsg) : State :=
  answers (almost (opened (tracked base .reserved (some 7)) (fetched k m))) r

theorem witness_FetchReplies : (∀ k ∈ [Kind.readShared, .readOwn, .upgrade], ∀ m ∈ [0#8, 0x80#8],
      ∀ r ∈ [ReplyMsg.fetchSent 5, .fetchFailed 5], (fetching k m r).Quiet ∧ (fetching k m r).activeOn 5 = some 7 ∧
        (fetching k m r).Sole 7 (onLine5 (fetched k m)) 5 0) ∧
    (fetching .upgrade 0 (.fetchSent 5)).isDirect (onLine5 (fetched .upgrade 0)) = false ∧
    ((fetching .upgrade 0 (.fetchFailed 5)).getWay 5 3).body.check = .good ∧ base.nodeState 1 ≠ .purging := by
  have h : ∀ k ∈ [Kind.readShared, .readOwn, .upgrade], ∀ m ∈ [0#8, 0x80#8],
      ∀ r ∈ [ReplyMsg.fetchSent 5, .fetchFailed 5], quiet (fetching k m r) = true ∧
        (fetching k m r).activeOn 5 = some 7 ∧ sole (fetching k m r) 7 (onLine5 (fetched k m)) 5 0 = true := by
    decide +kernel
  exact ⟨fun k hk m hm r hr => ⟨quiet_of (h k hk m hm r hr).1, (h k hk m hm r hr).2.1, sole_of (h k hk m hm r hr).2.2⟩,
    by decide +kernel⟩

/-- The same with a SHARED copy, one sharer's answer not in, and in the DIRECT window, holding nothing. -/
def copied (m : NodeSet) : Slot := { fetched .readOwn m with outstanding := .revoke, working := some ⟨3, .shared 0x82⟩ }
def bare (k : Kind) : Slot := { fetched k 0 with converted := false, working := none }
def fetchingCopy (m : NodeSet) : State :=
  answers (almost (opened (tracked base (.shared 0x82) (some 7)) (copied m))) (.fetchFailed 5)
def fetchingDirect (k : Kind) (r : ReplyMsg) : State :=
  answers (almost ((opened base (bare k)).modWindow 0 (fun w => { w with kind := .direct }))) r

theorem witness_FetchRepliesElse : (∀ m ∈ [0#8, 0x80#8], (fetchingCopy m).Quiet ∧ (fetchingCopy m).activeOn 5 = some 7 ∧
      (fetchingCopy m).Sole 7 (onLine5 (copied m)) 5 0 ∧ (fetchingCopy m).isDirect (onLine5 (copied m)) = false) ∧
    (fetchingCopy 0x80).keepsContent (.shared 0x82) ∧
    (∀ k ∈ [Kind.readShared, .readOwn], ∀ r ∈ [ReplyMsg.fetchSent 5, .fetchFailed 5], (fetchingDirect k r).Quiet ∧
      (fetchingDirect k r).activeOn 5 = some 7 ∧ (fetchingDirect k r).Sole 7 (onLine5 (bare k)) 5 0 ∧
      (fetchingDirect k r).isDirect (onLine5 (bare k)) = true) := by
  have h : ∀ m ∈ [0#8, 0x80#8], quiet (fetchingCopy m) = true ∧ (fetchingCopy m).activeOn 5 = some 7 ∧
      sole (fetchingCopy m) 7 (onLine5 (copied m)) 5 0 = true ∧ (fetchingCopy m).isDirect (onLine5 (copied m)) = false := by
    decide +kernel
  have g : ∀ k ∈ [Kind.readShared, .readOwn], ∀ r ∈ [ReplyMsg.fetchSent 5, .fetchFailed 5],
      quiet (fetchingDirect k r) = true ∧ (fetchingDirect k r).activeOn 5 = some 7 ∧
      sole (fetchingDirect k r) 7 (onLine5 (bare k)) 5 0 = true ∧
      (fetchingDirect k r).isDirect (onLine5 (bare k)) = true := by decide +kernel
  exact ⟨fun m hm => ⟨quiet_of (h m hm).1, (h m hm).2.1, sole_of (h m hm).2.2.1, (h m hm).2.2.2⟩,
    ⟨nofun, nofun, by decide +kernel⟩,
    fun k hk r hr => ⟨quiet_of (g k hk r hr).1, (g k hk r hr).2.1, sole_of (g k hk r hr).2.2.1, (g k hk r hr).2.2.2⟩⟩

/-- A store of N7's for line 5 with a number of notices of other lines. -/
def storing (k : Nat) : State :=
  answers { base with notices := (List.range k).map (fun j => ⟨BitVec.ofNat 34 (6 + j), 7, true, 9⟩) } (.absorbDone 5 7)

theorem witness_StoresAndNotices : (storing 15).Quiet ∧ (storing 16).Quiet ∧
    (answers (noticed base) (.absorbDone 5 7)).Quiet ∧ (storing 15).activeOn 5 = none ∧
    (storing 15).notices.length < 16 ∧ 16 ≤ (storing 16).notices.length ∧ (storing 16).noticeFor 5 7 = none ∧
    (noticed base).Ready ∧ (noticed base).noticeFor 5 7 = some ⟨5, 7, false, 1⟩ ∧ (noticed base).link = .up ∧
    (storing 15).noticeFor 6 7 = some ⟨6, 7, true, 9⟩ :=
  ⟨quiet_of (by decide +kernel), quiet_of (by decide +kernel), quiet_of (by decide +kernel), by decide +kernel,
    by decide +kernel, by decide +kernel, by decide +kernel, ready_of (by decide +kernel), by decide +kernel,
    by decide +kernel, by decide +kernel⟩

/-- A transaction in a store wait on N7 for line 5, and N7's store arriving. -/
def awaiting (x : Slot) (m : MemWait) : Slot := { x with phase := .awaitStore, awaited := 0#8, outstanding := .nothing, memWait := m }
def storeFor (x : Slot) : State :=
  answers (almost (oneOrder (opened (tracked base (.owned 7) (some 7)) x))) (.absorbDone 5 7)

/-- The requests that wait: a WRITEBACK of N7's, a READ_SHARED of N1's, and reads that watch for N7's store. -/
def givingBack : Slot := awaiting { newSlot .writeback with requester := some 7, timer := some 1, working := some ⟨3, .owned 7⟩ } (.consuming 7)
def sharing : Slot := awaiting (forwarded .readShared .share) (.consuming 7)
def watching (k : Kind) : Slot := awaiting (forwarded k .move) (.observing 7)

/-- The WRITEBACK in the DIRECT window. -/
def storeDirect : State :=
  (storeFor { givingBack with working := none }).modWindow 0 (fun w => { w with kind := .direct })

theorem witness_StoreWaits : (∀ x ∈ [givingBack, sharing, watching .readShared, watching .readOwn, watching .upgrade],
      (storeFor x).Quiet ∧ (storeFor x).activeOn 5 = some 7 ∧ (storeFor x).Sole 7 (onLine5 x) 5 0 ∧
      (storeFor x).noticeFor 5 7 = none ∧ ((storeFor x).getWay 5 3).body.check = .good ∧
      (storeFor x).isDirect (onLine5 x) = false ∧ (storeFor x).answerQ.length < 64 ∧ (storeFor x).orderQ.length < 64 ∧
      (storeFor x).directoryOk) ∧
    ({ storeFor (watching .readOwn) with mem := .failed } : State).Quiet ∧ base.nodeState 1 ≠ .purging ∧
    storeDirect.Quiet ∧ storeDirect.activeOn 5 = some 7 ∧
    storeDirect.Sole 7 (onLine5 { givingBack with working := none }) 5 0 ∧
    storeDirect.isDirect (onLine5 { givingBack with working := none }) = true ∧ storeDirect.noticeFor 5 7 = none := by
  have h : ∀ x ∈ [givingBack, sharing, watching .readShared, watching .readOwn, watching .upgrade],
      quiet (storeFor x) = true ∧ (storeFor x).activeOn 5 = some 7 ∧ sole (storeFor x) 7 (onLine5 x) 5 0 = true ∧
      (storeFor x).noticeFor 5 7 = none ∧ ((storeFor x).getWay 5 3).body.check = .good ∧
      (storeFor x).isDirect (onLine5 x) = false ∧ (storeFor x).answerQ.length < 64 ∧ (storeFor x).orderQ.length < 64 := by
    decide +kernel
  exact ⟨fun x hx => by
      obtain ⟨h1, h2, h3, h4, h5, h6, h7, h8⟩ := h x hx
      exact ⟨quiet_of h1, h2, sole_of h3, h4, h5, h6, h7, h8, directory_owned rfl⟩,
    quiet_of (by decide +kernel), by decide +kernel, quiet_of (by decide +kernel), by decide +kernel,
    sole_of (by decide +kernel), by decide +kernel⟩

/-- Recalls in either store wait, counted by a job that goes on, and a VICTIM_RECALL whose waiter waits in slot T8. -/
def recallWaiting (p : State × Slot) (m : MemWait) : State := answers (counting p.1 (awaiting p.2 m)) (.absorbDone 5 7)
def victimWaiting (m : MemWait) : State := oneOrder ((recallWaiting (base, victim) m).putSlot 8 (some waiter))

theorem witness_RecallStoreWaits : (∀ p ∈ recalls, ∀ m ∈ [MemWait.consuming 7, .observing 7], (recallWaiting p m).Quiet ∧
      (recallWaiting p m).activeOn 5 = some 7 ∧ (recallWaiting p m).getSlot 7 = some (awaiting p.2 m) ∧
      (recallWaiting p m).onLine 5 = [7] ∧ ((recallWaiting p m).getWay 5 3).body.check = .good ∧
      (recallWaiting p m).noticeFor 5 7 = none ∧ (recallWaiting p m).jobsGoOn (awaiting p.2 m)) ∧
    (∀ m ∈ [MemWait.consuming 7, .observing 7], (victimWaiting m).Quiet ∧ (victimWaiting m).activeOn 5 = some 7 ∧
      (victimWaiting m).getSlot 7 = some (awaiting victim m) ∧ (victimWaiting m).onLine 5 = [7] ∧
      (victimWaiting m).waits 7 8 waiter 5 2053 1 ∧ (victimWaiting m).mem = .live ∧ (victimWaiting m).orderQ.length < 64 ∧
      (victimWaiting m).directoryOk) := by
  have h : ∀ p ∈ recalls, ∀ m ∈ [MemWait.consuming 7, .observing 7], quiet (recallWaiting p m) = true ∧
      goesOn (recallWaiting p m) (awaiting p.2 m) = true ∧
      (recallWaiting p m).activeOn 5 = some 7 ∧ (recallWaiting p m).getSlot 7 = some (awaiting p.2 m) ∧
      (recallWaiting p m).onLine 5 = [7] ∧ ((recallWaiting p m).getWay 5 3).body.check = .good ∧
      (recallWaiting p m).noticeFor 5 7 = none := by decide +kernel
  have g : ∀ m ∈ [MemWait.consuming 7, .observing 7], quiet (victimWaiting m) = true ∧ (victimWaiting m).activeOn 5 = some 7 ∧
      (victimWaiting m).getSlot 7 = some (awaiting victim m) ∧ (victimWaiting m).onLine 5 = [7] ∧
      (victimWaiting m).getSlot 8 = some waiter ∧ ((victimWaiting m).getWindow 0).state ≠ .retiring ∧
      (victimWaiting m).mem = .live ∧ (victimWaiting m).orderQ.length < 64 := by decide +kernel
  refine ⟨fun p hp m hm => ?_, fun m hm => ?_⟩
  · obtain ⟨h1, h2, h3, h4, h5, h6, h7⟩ := h p hp m hm
    exact ⟨quiet_of h1, h3, h4, h5, h6, h7, goesOn_of h2⟩
  · obtain ⟨h1, h2, h3, h4, h5, h6, h7, h8⟩ := g m hm
    exact ⟨quiet_of h1, h2, h3, h4,
      ⟨by decide, h5, rfl, rfl, by decide +kernel, rfl, by rintro i ⟨⟩; exact h6, rfl, rfl⟩, h7, h8, directory_owned rfl⟩

/-- N7's DROP of line 5 at the head of the REQUEST intake, with a request or a recall in an observing wait on N7. -/
def givesUp (s : State) (x : Slot) : State := asks (almost (oneOrder ((opened (tracked s (.owned 7) (some 7)) x)))) .drop 7 5
def releasing (p : State × Slot) : State := asks (oneOrder (counting p.1 (awaiting p.2 (.observing 7)))) .drop 7 5
def releasingVictim : State := (releasing (base, victim)).putSlot 8 (some waiter)

theorem witness_DropMeetsTheWait :
    (∀ x ∈ [watching .readShared, watching .readOwn, watching .upgrade],
      ∀ s ∈ [givesUp base x, { givesUp base x with mem := .failed, answerQ := List.replicate 62 (.farewell 1) }],
      s.Arrives .drop 7 5 0 [] ∧ s.onLine 5 = [7] ∧ s.lowestFree = some 0 ∧ s.observer 5 7 = [7] ∧
      s.Sole 7 (onLine5 x) 5 0 ∧ s.soundSet 5 ∧ s.orderQ.length < 64) ∧
    (∀ p ∈ [(flushing .running 1, recalled .flushRecall true), (base, victim)],
      (releasing p).Arrives .drop 7 5 0 [] ∧ (releasing p).onLine 5 = [7] ∧ (releasing p).lowestFree = some 0 ∧
      (releasing p).observer 5 7 = [7] ∧ (releasing p).getSlot 7 = some (awaiting p.2 (.observing 7)) ∧
      (releasing p).soundSet 5 ∧ (releasing p).jobsGoOn (awaiting p.2 (.observing 7))) ∧
    releasingVictim.Arrives .drop 7 5 0 [] ∧ releasingVictim.observer 5 7 = [7] ∧ releasingVictim.waits 7 8 waiter 5 2053 1 := by
  have h : ∀ x ∈ [watching .readShared, watching .readOwn, watching .upgrade],
      ∀ s ∈ [givesUp base x, { givesUp base x with mem := .failed, answerQ := List.replicate 62 (.farewell 1) }],
      arrives s .drop 7 5 0 [] = true ∧ s.onLine 5 = [7] ∧ s.lowestFree = some 0 ∧ s.observer 5 7 = [7] ∧
      sole s 7 (onLine5 x) 5 0 = true ∧ (∀ w, (s.getWay 5 w).key.check = .good ∧ (s.getWay 5 w).body.check = .good) ∧
      s.orderQ.length < 64 := by decide +kernel
  have g : ∀ p ∈ [(flushing .running 1, recalled .flushRecall true), (base, victim)],
      arrives (releasing p) .drop 7 5 0 [] = true ∧ (releasing p).onLine 5 = [7] ∧ (releasing p).lowestFree = some 0 ∧
      (releasing p).observer 5 7 = [7] ∧ (releasing p).getSlot 7 = some (awaiting p.2 (.observing 7)) ∧
      (∀ w, ((releasing p).getWay 5 w).key.check = .good ∧ ((releasing p).getWay 5 w).body.check = .good) ∧
      goesOn (releasing p) (awaiting p.2 (.observing 7)) = true := by decide +kernel
  have v : (releasingVictim.getWindow 0).state ≠ .retiring := by decide +kernel
  refine ⟨fun x hx s hs => ?_, fun p hp => ?_, arrives_of (by decide +kernel), by decide +kernel,
    ⟨by decide, by decide +kernel, rfl, rfl, by decide +kernel, rfl, by rintro i ⟨⟩; exact v, rfl, rfl⟩⟩
  · obtain ⟨h1, h2, h3, h4, h5, h6, h7⟩ := h x hx s hs
    exact ⟨arrives_of h1, h2, h3, h4, sole_of h5, h6, h7⟩
  · obtain ⟨h1, h2, h3, h4, h5, h6, h7⟩ := g p hp
    exact ⟨arrives_of h1, h2, h3, h4, h5, h6, goesOn_of h7⟩

/-! ## Witnesses: expiries and cursors -/

/-- Slots of N1's on line 5 whose timers run with one retry left. -/
def timed (o : Outstanding) (m : NodeSet) (w : MemWait) : Slot := { newSlot .readOwn with
  requester := some 1, phase := .awaitReplies, awaited := m, memWait := w, outstanding := o, timer := some 1, retriesLeft := 1 }
def timing (x : Slot) : State := almost (oneOrder (opened base x))

/-- The same with both outbound queues full. -/
def blocked (x : Slot) : State := stuffed { opened base x with orderQ := List.replicate 64 (.revoke 1 6 false) }

/-- A GRANT of N1's unanswered, and a line rebuild of a FLUSH_RECALL that awaits N7. -/
def waiting : Slot := { newSlot .readOwn with
  requester := some 1, phase := .awaitComplete, awaited := 2#8, outstanding := .grant .owned .memory false, timer := some 1
  retriesLeft := 1 }
def seeking : Slot := { newSlot .flushRecall with
  phase := .rebuild, rebuild := some (.line false), awaited := 0x80#8, outstanding := .recall, timer := some 1
  retriesLeft := 1, working := some ⟨3, .poisoned⟩ }

/-- Slots of line 5 without a retry left, holding way 3 with a copy: a GRANT to N1, a FORWARD to N7, a RECALL to N7 and a
FETCH. -/
def spent : List (Slot × Content) :=
  [({ waiting with working := some ⟨3, .owned 1⟩, retriesLeft := 0 }, .owned 1),
    ({ timed (.forward .move) 0x80 .noWait with working := some ⟨3, .owned 7⟩, retriesLeft := 0 }, .owned 7),
    ({ recalled .victimRecall false with retriesLeft := 0 }, .owned 7),
    ({ timed .nothing 0 .fetchSent with working := some ⟨3, .reserved⟩, retriesLeft := 0 }, .reserved)]
def exhausting (x : Slot) : State := almost (opened (tracked base (.owned 7) (some 7)) x)

/-- The same RECALL of a LEAVE_RECALL whose target's job counts it. -/
def leaver : Slot := { recalled .leaveRecall true with retriesLeft := 0 }
def leaving : State := opened (tracked (member .leaving (some ⟨.messaging, 1, 1⟩)) (.owned 7) (some 7)) leaver

theorem witness_ExpiriesSendAgain :
    (∀ x ∈ [timed .nothing 0 .fetchSent, timed .revoke 0x80 .noWait, timed (.forward .move) 0x80 .noWait, waiting, seeking,
      { recalled .victimRecall false with retriesLeft := 1 }], (timing x).Quiet ∧ (timing x).getSlot 7 = some (onLine5 x) ∧
      (blocked x).Quiet ∧ (blocked x).getSlot 7 = some (onLine5 x) ∧ 0 < x.retriesLeft ∧ x.timer.isSome = true) ∧
    (timing waiting).link = .up ∧ (timing waiting).orderQ.length + 1 ≤ 64 ∧ (timing waiting).answerQ.length < 64 ∧
    64 < (blocked waiting).orderQ.length + 1 ∧ 64 ≤ (blocked waiting).answerQ.length ∧
    (∀ p ∈ spent, (exhausting p.1).Quiet ∧ (exhausting p.1).getSlot 7 = some (onLine5 p.1) ∧ p.1.retriesLeft = 0 ∧
      (∀ u, u ≠ 7 → (exhausting p.1).getSlot u = none) ∧ ((exhausting p.1).getWindow 0).state = .live ∧
      p.1.working = some ⟨3, p.2⟩ ∧ ((exhausting p.1).getWay 5 3).body = coded ⟨.owned 7, some 7, false⟩ ∧
      (exhausting p.1).nodeState 1 = .live ∧ (exhausting p.1).nodeState 7 = .live ∧ (∀ q, (exhausting p.1).getJob q = none) ∧
      (exhausting p.1).answerQ.length < 64 ∧ (exhausting p.1).mem = .live ∧ (exhausting p.1).jobsGoOn (onLine5 p.1)) ∧
    (leaving.Quiet ∧ leaving.getSlot 7 = some (onLine5 leaver) ∧ leaving.nodeState 7 = .leaving ∧
      leaving.getJob 7 = some ⟨.messaging, 1, 1⟩ ∧ leaving.jobsGoOn (onLine5 leaver)) := by
  have h : ∀ x ∈ [timed .nothing 0 .fetchSent, timed .revoke 0x80 .noWait, timed (.forward .move) 0x80 .noWait, waiting,
      seeking, { recalled .victimRecall false with retriesLeft := 1 }],
      quiet (timing x) = true ∧ quiet (blocked x) = true ∧ (timing x).getSlot 7 = some (onLine5 x) ∧
        (blocked x).getSlot 7 = some (onLine5 x) ∧ 0 < x.retriesLeft ∧ x.timer.isSome = true := by decide +kernel
  have g : ∀ p ∈ spent, quiet (exhausting p.1) = true ∧ goesOn (exhausting p.1) (onLine5 p.1) = true ∧
      (exhausting p.1).getSlot 7 = some (onLine5 p.1) ∧ p.1.retriesLeft = 0 ∧
      (∀ u, u ≠ 7 → (exhausting p.1).getSlot u = none) ∧ ((exhausting p.1).getWindow 0).state = .live ∧
      p.1.working = some ⟨3, p.2⟩ ∧ ((exhausting p.1).getWay 5 3).body = coded ⟨.owned 7, some 7, false⟩ ∧
      (exhausting p.1).nodeState 1 = .live ∧ (exhausting p.1).nodeState 7 = .live ∧ (∀ q, (exhausting p.1).getJob q = none) ∧
      (exhausting p.1).answerQ.length < 64 ∧ (exhausting p.1).mem = .live := by decide +kernel
  refine ⟨fun x hx => ?_, by decide +kernel, by decide +kernel, by decide +kernel, by decide +kernel, by decide +kernel,
    fun p hp => ?_, quiet_of (by decide +kernel), by decide +kernel, by decide +kernel, by decide +kernel,
    goesOn_of (by decide +kernel)⟩
  · obtain ⟨h1, h2, h3, h4, h5⟩ := h x hx
    exact ⟨quiet_of h1, h3, quiet_of h2, h4, h5⟩
  · obtain ⟨g1, g2, g3, g4, g5, g6, g7, g8, g9, g10, g11, g12, g13⟩ := g p hp
    exact ⟨quiet_of g1, g3, g4, g5, g6, g7, g8, g9, g10, g11, g12, g13, goesOn_of g2⟩

/-- A WRITEBACK of N1's that waits for its store, and reads of N1's that wait or watch for the store of N7, with the capture
record empty or one fault short of its count's end. -/
def awaitingStore (k : Kind) (o : Node) (m : MemWait) : Slot := { newSlot k with
  requester := some 1, phase := .awaitStore, memWait := m, timer := some 1, working := some ⟨3, .owned o⟩ }
def expiring (k : Kind) (o : Node) (m : MemWait) (f : Option Capture) : State :=
  { almost (opened (tracked base (.owned o) (some 7)) (awaitingStore k o m)) with capture := f }

theorem witness_StoreExpiries : (∀ p ∈ [(Kind.writeback, (1 : Node), MemWait.consuming 1), (.readShared, 7, .consuming 7),
      (.readOwn, 7, .observing 7), (.readShared, 7, .observing 7), (.upgrade, 7, .observing 7)],
      ∀ f ∈ [none, some ⟨.setDamaged, noFields, 14⟩], (expiring p.1 p.2.1 p.2.2 f).Quiet ∧
      (expiring p.1 p.2.1 p.2.2 f).Sole 7 (onLine5 (awaitingStore p.1 p.2.1 p.2.2)) 5 0 ∧
      ((expiring p.1 p.2.1 p.2.2 f).getWay 5 3).body = coded ⟨.owned p.2.1, some 7, false⟩ ∧
      (expiring p.1 p.2.1 p.2.2 f).nodeState 1 ≠ .purging ∧ (expiring p.1 p.2.1 p.2.2 f).answerQ.length < 64 ∧
      (expiring p.1 p.2.1 p.2.2 f).link = .up ∧ (expiring p.1 p.2.1 p.2.2 f).noticeFor 5 1 = none ∧
      (expiring p.1 p.2.1 p.2.2 f).requestPresent .writeback 7 5 = false) ∧
    (opened base { awaitingStore .writeback 1 (.consuming 1) with working := none }).Sole 7
      (onLine5 { awaitingStore .writeback 1 (.consuming 1) with working := none }) 5 0 := by
  have h : ∀ p ∈ [(Kind.writeback, (1 : Node), MemWait.consuming 1), (.readShared, 7, .consuming 7),
      (.readOwn, 7, .observing 7), (.readShared, 7, .observing 7), (.upgrade, 7, .observing 7)],
      ∀ f ∈ [none, some ⟨.setDamaged, noFields, 14⟩], quiet (expiring p.1 p.2.1 p.2.2 f) = true ∧
      sole (expiring p.1 p.2.1 p.2.2 f) 7 (onLine5 (awaitingStore p.1 p.2.1 p.2.2)) 5 0 = true ∧
      ((expiring p.1 p.2.1 p.2.2 f).getWay 5 3).body = coded ⟨.owned p.2.1, some 7, false⟩ ∧
      (expiring p.1 p.2.1 p.2.2 f).nodeState 1 ≠ .purging ∧ (expiring p.1 p.2.1 p.2.2 f).answerQ.length < 64 ∧
      (expiring p.1 p.2.1 p.2.2 f).link = .up ∧ (expiring p.1 p.2.1 p.2.2 f).noticeFor 5 1 = none ∧
      (expiring p.1 p.2.1 p.2.2 f).requestPresent .writeback 7 5 = false := by decide +kernel
  exact ⟨fun p hp f hf => ⟨quiet_of (h p hp f hf).1, sole_of (h p hp f hf).2.1, (h p hp f hf).2.2⟩, sole_of (by decide +kernel)⟩

/-- The recalls in either store wait, and the VICTIM_RECALL whose waiter waits in slot T8 while way 15 of its set is FREE. -/
def overdue (p : State × Slot) (m : MemWait) : State := counting p.1 (awaiting p.2 m)
def overdueVictim (m : MemWait) : State := oneOrder ((overdue (base, victim) m).putSlot 8 (some waiter))

theorem witness_RecallStoreExpiries : (∀ p ∈ recalls, ∀ m ∈ [MemWait.consuming 7, .observing 7], (overdue p m).Quiet ∧
      (overdue p m).getSlot 7 = some (awaiting p.2 m) ∧ (overdue p m).onLine 5 = [7] ∧ (overdue p m).link = .up ∧
      ((overdue p m).getWay 5 3).body = coded ⟨.owned 7, some 7, false⟩ ∧
      (overdue p m).requestPresent .writeback 7 5 = false ∧ (overdue p m).jobsGoOn (awaiting p.2 m)) ∧
    (∀ m ∈ [MemWait.consuming 7, .observing 7], (overdueVictim m).Quiet ∧ (overdueVictim m).getSlot 7 = some (awaiting victim m) ∧
      (overdueVictim m).onLine 5 = [7] ∧ (overdueVictim m).waits 7 8 waiter 5 2053 1 ∧ (overdueVictim m).orderQ.length < 64 ∧
      (overdueVictim m).directoryOk ∧ ((overdueVictim m).getSet 5).order.reverse.find? (fun z =>
        ((overdueVictim m).bodyView 5 z).map Body.content == some .free) = some 15) := by
  have h : ∀ p ∈ recalls, ∀ m ∈ [MemWait.consuming 7, .observing 7], quiet (overdue p m) = true ∧
      goesOn (overdue p m) (awaiting p.2 m) = true ∧
      (overdue p m).getSlot 7 = some (awaiting p.2 m) ∧ (overdue p m).onLine 5 = [7] ∧ (overdue p m).link = .up ∧
      ((overdue p m).getWay 5 3).body = coded ⟨.owned 7, some 7, false⟩ ∧
      (overdue p m).requestPresent .writeback 7 5 = false := by decide +kernel
  have g : ∀ m ∈ [MemWait.consuming 7, .observing 7], quiet (overdueVictim m) = true ∧
      (overdueVictim m).getSlot 7 = some (awaiting victim m) ∧ (overdueVictim m).onLine 5 = [7] ∧
      (overdueVictim m).getSlot 8 = some waiter ∧ ((overdueVictim m).getWindow 0).state ≠ .retiring ∧
      (overdueVictim m).orderQ.length < 64 ∧ ((overdueVictim m).getSet 5).order.reverse.find? (fun z =>
        ((overdueVictim m).bodyView 5 z).map Body.content == some .free) = some 15 := by decide +kernel
  refine ⟨fun p hp m hm => ?_, fun m hm => ?_⟩
  · obtain ⟨h1, h2, h3, h4, h5, h6, h7⟩ := h p hp m hm
    exact ⟨quiet_of h1, h3, h4, h5, h6, h7, goesOn_of h2⟩
  · obtain ⟨h1, h2, h3, h4, h5, h6, h7⟩ := g m hm
    exact ⟨quiet_of h1, h2, h3,
      ⟨by decide, h4, rfl, rfl, by decide +kernel, rfl, by rintro i ⟨⟩; exact h5, rfl, rfl⟩, h6, directory_owned rfl, h7⟩

/-- N7 in PURGING with two sets left, at set 2047, where it owns a line, shares one alone and shares one with N0. -/
def purged : SetRec := { blankSet with
  ways := ((blankSet.ways.set 3 ⟨coded (some 0#23), coded ⟨.owned 7, none, false⟩⟩).set 4
    ⟨coded (some 1#23), coded ⟨.shared 0x80, none, false⟩⟩).set 5 ⟨coded (some 2#23), coded ⟨.shared 0x81, none, false⟩⟩ }
def purging : State := { base with
  dir := [(2047, purged)]
  nodes := base.nodes.set 7 { blankNode with state := .purging, reason := some .evicted }
  purgePos := 2047
  purgeJobs := (Vector.replicate 8 none).set 7 (some ⟨.silent, 2, 0⟩) }

/-- N7 LEAVING at set 2047, where it shares line 2047 alone or with N0, or owns it, or is nowhere, with sets left; 45 slots in
use. -/
def walkedBy (c : Content) : SetRec := { blankSet with ways := blankSet.ways.set 3 ⟨coded (some 0#23), coded ⟨c, none, false⟩⟩ }
def departing (c : Content) (m : NodeState) (r : PurgeReason) (j : PurgeJob) (b : State) : State := { b with
  dir := [(2047, walkedBy c)]
  nodes := base.nodes.set 7 { blankNode with state := m, reason := some r }
  purgePos := 2047
  purgeJobs := (Vector.replicate 8 none).set 7 (some j) }

theorem unheld_of {s : State} {i : SetIx} (h : ∀ w, s.wayHolder i w = none) : s.unheldSet i := h

theorem soundSet_of {s : State} {i : SetIx}
    (h : ∀ w, (s.getWay i w).key.check = .good ∧ (s.getWay i w).body.check = .good) : s.soundSet i := h

theorem witness_PurgeSetStep : (purging.Quiet ∧ purging.directoryOk ∧ purging.walkingNodes ≠ 0#8 ∧ purging.soundSet 2047 ∧
      purging.unheldSet 2047 ∧
      (∀ n j, purging.getJob n = some j → j.mode = .silent ∧ j.setsLeft ≠ 1 ∧ purging.nodeState n = .purging) ∧
      (∀ n, purging.nodeState n = .purging → NodeSet.has purging.walkingNodes n = true)) ∧
    (∀ c ∈ [Content.owned 7, .shared 0x80, .shared 0x81], ∀ k ∈ [1, 2048],
      let s := oneOrder (departing c .leaving .leave ⟨.messaging, k, 0⟩ (busySlots base 45))
      s.Quiet ∧ s.soundSet 2047 ∧ s.unheldSet 2047 ∧ s.directoryOk ∧ s.trackedAs 2047 3 c ∧ s.keepsContent c ∧
        s.onLine 2047 = [] ∧ s.windowOf 2047 = some 0 ∧ s.freeSlots = 3 ∧ s.lowestFree = some 45 ∧
        (s.getWindow 0).kind ≠ .direct) ∧
    (∀ p ∈ [(NodeState.leaving, PurgeReason.leave, PurgeMode.messaging), (.purging, .restart, .silent), (.purging, .lost, .silent),
      (.purging, .evicted, .silent)],
      let s := almost (departing (.shared 1) p.1 p.2.1 ⟨p.2.2, 1, 0⟩ base)
      s.Quiet ∧ s.soundSet 2047 ∧ s.unheldSet 2047 ∧ s.directoryOk ∧
        (∀ y, editContent (NodeSet.single 7) (s.getWay 2047 y).body.stored.content = (s.getWay 2047 y).body.stored.content) ∧
        (∀ u, s.getSlot u = none)) := by
  have h : ∀ n, ∀ j ∈ purging.getJob n, j.mode = .silent ∧ j.setsLeft ≠ 1 ∧ purging.nodeState n = .purging := by
    decide +kernel
  have g : ∀ w, (purging.getWay 2047 w).key.check = .good ∧ (purging.getWay 2047 w).body.check = .good := by decide +kernel
  have a : ∀ c ∈ [Content.owned 7, .shared 0x80, .shared 0x81], ∀ k ∈ [1, 2048],
      let s := oneOrder (departing c .leaving .leave ⟨.messaging, k, 0⟩ (busySlots base 45))
      quiet s = true ∧ (∀ w, (s.getWay 2047 w).key.check = .good ∧ (s.getWay 2047 w).body.check = .good) ∧
        (∀ w, s.wayHolder 2047 w = none) ∧ names s 2047 3 c = true ∧
        (c ≠ .free ∧ c ≠ .reserved ∧ editContent s.purgingNodes c = c) ∧
        s.onLine 2047 = [] ∧ s.windowOf 2047 = some 0 ∧ s.freeSlots = 3 ∧ s.lowestFree = some 45 ∧
        (s.getWindow 0).kind ≠ .direct := by decide +kernel
  have e : ∀ p ∈ [(NodeState.leaving, PurgeReason.leave, PurgeMode.messaging), (.purging, .restart, .silent),
      (.purging, .lost, .silent), (.purging, .evicted, .silent)],
      let s := almost (departing (.shared 1) p.1 p.2.1 ⟨p.2.2, 1, 0⟩ base)
      quiet s = true ∧ (∀ w, (s.getWay 2047 w).key.check = .good ∧ (s.getWay 2047 w).body.check = .good) ∧
        (∀ w, s.wayHolder 2047 w = none) ∧
        (∀ y, editContent (NodeSet.single 7) (s.getWay 2047 y).body.stored.content = (s.getWay 2047 y).body.stored.content) ∧
        ∀ u, s.getSlot u = none := by decide +kernel
  have d : ∀ c ∈ [Content.owned 7, .shared 0x80, .shared 0x81, .shared 1], walkedBy c ≠ blankSet := by decide +kernel
  refine ⟨⟨quiet_of (by decide +kernel), directory_one (i := 2047) (r := purged) rfl (by decide +kernel) rfl,
    by decide +kernel, g, unheld_of (by decide +kernel), fun n j hj => h n j hj, by decide +kernel⟩, fun c hc k hk => ?_, fun p hp => ?_⟩
  · obtain ⟨h1, h2, h3, h4, h5, h6⟩ := a c hc k hk
    exact ⟨quiet_of h1, soundSet_of h2, h3, directory_one (i := 2047) (r := walkedBy c) rfl
      (d c (by simp only [List.mem_cons] at hc ⊢; tauto)) rfl, names_of h4, h5, h6⟩
  · obtain ⟨h1, h2, h3, h4⟩ := e p hp
    exact ⟨quiet_of h1, soundSet_of h2, h3, directory_one (i := 2047) (r := walkedBy (.shared 1)) rfl
      (d (.shared 1) (by decide)) rfl, h4⟩

/-! ## Nodes in awaited sets, roles and DIRECT lines -/

/-- N7's purge at its last set while the line rebuild of a FLUSH_RECALL awaits N7 and N0. -/
def departed : State :=
  { (((member .leaving (some ⟨.messaging, 1, 0⟩)).putWay 5 3 ⟨coded (some 0#23), coded ⟨.poisoned, some 7, false⟩⟩).putSlot 7
      (some { seeking with line := some 5, window := some 0, rank := some 0, awaited := 0x81#8 })) with purgePos := 2047 }

/-- R25, R119, R149: the node that becomes ABSENT is awaited no more, and the rebuild ends with the line POISONED. -/
theorem test_leaver_is_awaited_no_more : (match exec .purgeSetStep departed with
    | .next t => decide (t.nodeState 7 = .absent ∧ t.getSlot 7 = none ∧ (t.getWay 5 3).body = coded ⟨.poisoned, none, false⟩)
    | _ => false) = true := by decide +kernel

/-- N1's READ_OWN waits in slot T2 for the VICTIM_RECALL of N1's own line in T7, in a full set whose rearmost way has a damaged
key. -/
def waitingOnItself : State :=
  { (((base.putSet 5 { blankSet with
      ways := ((Vector.replicate 16 (⟨coded (some 9#23), coded ⟨.owned 6, none, false⟩⟩ : Way)).set 3
        ⟨coded (some 0#23), coded ⟨.owned 1, some 7, false⟩⟩).set 15
        ⟨⟨some 8#23, .uncorrectable⟩, coded ⟨.owned 6, none, false⟩⟩ }).putSlot 7
      (some { victim with victimLink := some 2, awaited := 2#8, working := some ⟨3, .owned 1⟩ })).putSlot 2 (some waiter)) with
    args := #v[1#32, 0#32, 0#32, 0#32] }

/-- R121: the waiter that took the set rebuild role within the purge of its requester goes on with the rebuild, disowned. -/
theorem test_purge_leaves_the_role : (match exec .nodeEvict waitingOnItself with
    | .next t => decide ((t.getSlot 2).map (fun x => (x.phase, x.requester, x.awaited)) = some (.rebuild, none, 0xFD#8) ∧
        (t.getSet 5).frozen = true)
    | _ => false) = true := by decide +kernel

/-- N7 LEAVING at a set whose way with a damaged body has the key of a line in the DIRECT window. -/
def directLine : State :=
  { (member .leaving (some ⟨.messaging, 2, 0⟩)).putWay 5 4
      ⟨coded (some (keyOf 0x10005#34)), ⟨⟨.owned 6, none, false⟩, .uncorrectable⟩⟩ with purgePos := 5 }

/-- R29, R30: the LEAVE_RECALL on that line makes no lookup and closes without an order. -/
theorem test_recall_closes_in_direct_window : directLine.windowOf 0x10005#34 = some 1 ∧ (match exec .purgeSetStep directLine with
    | .next t => decide (t.getJob 7 = some ⟨.messaging, 1, 0⟩ ∧ t.orderQ = [] ∧ t.slots = base.slots ∧
        (t.getWay 5 4).body.check = .uncorrectable)
    | _ => false) = true := by decide +kernel

/-- A maintenance job before the set before the last, where a POISONED way of window 0 stands. -/
def walked : SetRec := { blankSet with ways := blankSet.ways.set 3 ⟨coded (some 31#23), coded ⟨.poisoned, none, false⟩⟩ }
def walking (k : MaintKind) (r : RunState) : State :=
  { base.modWindow 0 (fun w => { w with state := .retiring, progress := some .walking }) with
    dir := [(2046, walked)], maint := some ⟨k, some 0, r, 2046, true, 0, none, false⟩ }

/-- The scrub before the last set, with a way whose codes are both CORRECTABLE and CORRECTED one below its limit. -/
def scrubbed : SetRec := { blankSet with
  ways := blankSet.ways.set 3 ⟨⟨some 0#23, .correctable (some 1#23)⟩, ⟨⟨.poisoned, none, false⟩, .correctable ⟨.shared 1, none, false⟩⟩⟩ }
def scrubbing : State := { base with
  dir := [(2047, scrubbed)], scrubPos := 2047, maint := some ⟨.scrub, none, .running, 2047, false, 0, some 1, false⟩
  counters := { base.counters with corrected := 15 } }

/-- A maintenance job at a set with one way in use, 45 slots in use and some transactions of window 0 open. -/
def reaching (k : MaintKind) (i : SetIx) (o : Nat) (c : Content) : State :=
  { oneOrder (busySlots (base.modWindow 0 (fun w => { w with
      state := if k = .retire then .retiring else .live, openCount := o
      progress := if k = .retire then some .walking else none })) 45) with
    dir := [(i, walkedBy c)]
    maint := some ⟨k, if k = .retire then some 0 else none, .running, i.val, false, o, none, false⟩ }

theorem witness_MaintenanceSetSteps : (∀ k ∈ [MaintKind.retire, .flush], ∀ r ∈ [RunState.running, .pausing],
      (walking k r).Quiet ∧ (walking k r).directoryOk ∧ (walking k r).soundSet 2046 ∧
      (∀ w, (walking k r).wayHolder 2046 w = none) ∧
      (∀ w m o, ((walking k r).getWay 2046 w).body.stored.content ≠ .shared m ∧
        ((walking k r).getWay 2046 w).body.stored.content ≠ .owned o)) ∧
    (walked.ways[3].key.stored = some 31#23 ∧ (base.getWindow 0).spans (lineOf 31#23 2046) = true) ∧
    (∀ k ∈ [MaintKind.retire, .flush], ∀ o ∈ [0, 1], (reaching k 2047 o .poisoned).Quiet ∧
      (reaching k 2047 o .poisoned).directoryOk ∧ (reaching k 2047 o .poisoned).soundSet 2047 ∧
      (reaching k 2047 o .poisoned).unheldSet 2047 ∧
      (∀ w m o', ((reaching k 2047 o .poisoned).getWay 2047 w).body.stored.content ≠ .shared m ∧
        ((reaching k 2047 o .poisoned).getWay 2047 w).body.stored.content ≠ .owned o')) ∧
    (∀ k ∈ [MaintKind.retire, .flush], ∀ c ∈ [Content.owned 7, .shared 0x80], (reaching k 2046 0 c).Quiet ∧
      (reaching k 2046 0 c).directoryOk ∧ (reaching k 2046 0 c).soundSet 2046 ∧ (reaching k 2046 0 c).unheldSet 2046 ∧
      (reaching k 2046 0 c).trackedAs 2046 3 c ∧ (reaching k 2046 0 c).keepsContent c ∧
      (reaching k 2046 0 c).onLine 2046 = [] ∧ (reaching k 2046 0 c).windowOf 2046 = some 0 ∧
      (reaching k 2046 0 c).freeSlots = 3 ∧ (reaching k 2046 0 c).lowestFree = some 45 ∧
      ((reaching k 2046 0 c).getWindow 0).kind ≠ .direct ∧
      (∀ y, y ≠ 3 → ((reaching k 2046 0 c).getWay 2046 y).body.stored.content = .free)) ∧
    (scrubbing.Quiet ∧ scrubbing.directoryOk ∧ scrubbing.unheldSet 2047 ∧
      ∀ w, (scrubbing.getWay 2047 w).key.check ≠ .uncorrectable ∧ (scrubbing.getWay 2047 w).body.check ≠ .uncorrectable) := by
  have h : ∀ k ∈ [MaintKind.retire, .flush], ∀ r ∈ [RunState.running, .pausing], quiet (walking k r) = true ∧
      (∀ w, ((walking k r).getWay 2046 w).key.check = .good ∧ ((walking k r).getWay 2046 w).body.check = .good) ∧
      (∀ w, (walking k r).wayHolder 2046 w = none) ∧
      ∀ w, ((walking k r).getWay 2046 w).body.stored.content = .free ∨
        ((walking k r).getWay 2046 w).body.stored.content = .poisoned := by decide +kernel
  have e : ∀ k ∈ [MaintKind.retire, .flush], ∀ o ∈ [0, 1], quiet (reaching k 2047 o .poisoned) = true ∧
      (∀ w, ((reaching k 2047 o .poisoned).getWay 2047 w).key.check = .good ∧
        ((reaching k 2047 o .poisoned).getWay 2047 w).body.check = .good) ∧
      (∀ w, (reaching k 2047 o .poisoned).wayHolder 2047 w = none) ∧
      ∀ w, ((reaching k 2047 o .poisoned).getWay 2047 w).body.stored.content = .free ∨
        ((reaching k 2047 o .poisoned).getWay 2047 w).body.stored.content = .poisoned := by decide +kernel
  have g : ∀ k ∈ [MaintKind.retire, .flush], ∀ c ∈ [Content.owned 7, .shared 0x80], quiet (reaching k 2046 0 c) = true ∧
      (∀ w, ((reaching k 2046 0 c).getWay 2046 w).key.check = .good ∧
        ((reaching k 2046 0 c).getWay 2046 w).body.check = .good) ∧
      (∀ w, (reaching k 2046 0 c).wayHolder 2046 w = none) ∧ names (reaching k 2046 0 c) 2046 3 c = true ∧
      (c ≠ .free ∧ c ≠ .reserved ∧ editContent (reaching k 2046 0 c).purgingNodes c = c) ∧
      (reaching k 2046 0 c).onLine 2046 = [] ∧ (reaching k 2046 0 c).windowOf 2046 = some 0 ∧
      (reaching k 2046 0 c).freeSlots = 3 ∧ (reaching k 2046 0 c).lowestFree = some 45 ∧
      ((reaching k 2046 0 c).getWindow 0).kind ≠ .direct ∧
      (∀ y, y ≠ 3 → ((reaching k 2046 0 c).getWay 2046 y).body.stored.content = .free) := by decide +kernel
  have d : ∀ c ∈ [Content.owned 7, .shared 0x80, .poisoned], walkedBy c ≠ blankSet := by decide +kernel
  have v : ∀ {c : Content}, c = .free ∨ c = .poisoned → ∀ m o, c ≠ .shared m ∧ c ≠ .owned o := by
    rintro c (rfl | rfl) m o <;> exact ⟨nofun, nofun⟩
  refine ⟨fun k hk r hr => ?_, by decide +kernel, fun k hk o ho => ?_, fun k hk c hc => ?_, quiet_of (by decide +kernel),
    directory_one (i := 2047) (r := scrubbed) rfl (by decide +kernel) rfl,
    unheld_of (by decide +kernel), by decide +kernel⟩
  · obtain ⟨h1, h2, h3, h4⟩ := h k hk r hr
    exact ⟨quiet_of h1, directory_one (i := 2046) (r := walked) rfl (by decide +kernel) rfl, h2, h3, fun w => v (h4 w)⟩
  · obtain ⟨h1, h2, h3, h4⟩ := e k hk o ho
    exact ⟨quiet_of h1, directory_one (i := 2047) (r := walkedBy .poisoned) rfl (d _ (by decide)) rfl, soundSet_of h2, h3,
      fun w => v (h4 w)⟩
  · obtain ⟨h1, h2, h3, h4, h5, h6⟩ := g k hk c hc
    exact ⟨quiet_of h1, directory_one (i := 2046) (r := walkedBy c) rfl
      (d c (by simp only [List.mem_cons] at hc ⊢; tauto)) rfl, soundSet_of h2, h3, names_of h4, h5, h6⟩

end Sys2Proof.Tests
end

/-! # Replies of the memory agent that nobody awaits (R83) -/

namespace Sys2Proof.Machine

/-! ## A reply taken from the intake -/

theorem dropReply_of_cons {s : State} {m : ReplyMsg} {rest : List ReplyMsg} (h : s.replyIntake = m :: rest) :
    s.dropReply = { s with replyIntake := rest } := by
  unfold State.dropReply; rw [h, List.tail_cons]

/-- None of the conditions that settling looks at reads the REPLY intake. -/
@[simp] theorem dropReply_settled (s : State) : s.dropReply.settled = s.settled :=
  settled_congr rfl rfl rfl rfl rfl rfl rfl rfl rfl rfl rfl rfl rfl

@[simp] theorem dropReply_fetching (s : State) (l : Line) : s.dropReply.fetching l = s.fetching l := rfl

/-- Between two events, an event that only takes the REPLY intake's head ends at once. -/
theorem event_dropReply {s : State} {m : ReplyMsg} {rest : List ReplyMsg} (hs : s.Ready)
    (hm : s.replyIntake = m :: rest) :
    s.event (s.dropReply, []) = .next (State.driveEventN { s with replyIntake := rest }) := by
  obtain ⟨hreset, hsettled⟩ := hs
  rw [event_settled hreset ((dropReply_settled s).trans hsettled), dropReply_of_cons hm]

/-! ## FETCH_SENT and FETCH_FAILED -/

/-- No FETCH_SENT wait is found on a line: it has no active transaction, or that one waits for something else. -/
theorem fetching_eq_none_iff (s : State) (l : Line) : s.fetching l = none ↔
    ∀ t x, s.activeOn l = some t → s.getSlot t = some x → x.memWait ≠ .fetchSent := by
  unfold State.fetching
  cases s.activeOn l with
  | none => simp
  | some t =>
    have only : (∀ u x, some t = some u → s.getSlot u = some x → x.memWait ≠ .fetchSent) ↔
        ∀ x, s.getSlot t = some x → x.memWait ≠ .fetchSent :=
      ⟨fun h x => h t x rfl, by rintro h _ x ⟨⟩; exact h x⟩
    rw [only]
    cases hx : s.getSlot t <;> simp [hx]

theorem fetchSent_of_unawaited {s : State} {l : Line} (h : s.fetching l = none) : s.fetchSent l = (s, []) := by
  unfold State.fetchSent; rw [h]

theorem fetchFailed_of_unawaited {s : State} {l : Line} (h : s.fetching l = none) : s.fetchFailed l = (s, []) := by
  unfold State.fetchFailed; rw [h]

theorem exec_fetchSent_of_cons {s : State} {l : Line} {rest : List ReplyMsg}
    (h : s.replyIntake = .fetchSent l :: rest) : exec .fetchSent s = s.event (s.dropReply.fetchSent l) := by
  change execFetchSent s = _
  unfold execFetchSent; rw [h]

theorem exec_fetchFailed_of_cons {s : State} {l : Line} {rest : List ReplyMsg}
    (h : s.replyIntake = .fetchFailed l :: rest) : exec .fetchFailed s = s.event (s.dropReply.fetchFailed l) := by
  change execFetchFailed s = _
  unfold execFetchFailed; rw [h]

/-- Settles O49: with no FETCH_SENT wait found, either reply's work is the taking of the message alone, and the part stays
settled. -/
theorem unawaitedFetchRepliesDiscarded : Obligations.UnawaitedFetchRepliesDiscarded := by
  intro s l rest hs hwait
  have hnone : s.dropReply.fetching l = none :=
    (dropReply_fetching s l).trans ((fetching_eq_none_iff s l).2 hwait)
  constructor
  · intro hm
    rw [exec_fetchSent_of_cons hm, fetchSent_of_unawaited hnone, event_dropReply hs hm]
  · intro hm
    rw [exec_fetchFailed_of_cons hm, fetchFailed_of_unawaited hnone, event_dropReply hs hm]

end Sys2Proof.Machine

/-! # OPEN_WINDOW (R102) -/

namespace Sys2Proof.Machine

/-! ## A command that ends in its accepting event (R183) -/

/-- The state a command's act takes up: the part with the command accepted. -/
def State.accepted (s : State) : State :=
  { s with mbState := .busy, overrun := false, results := Vector.replicate 4 0#32 }

theorem accept_of_ended {s u : State} {act : State → Ended} {c : ResultCode} (hm : s.mbState ≠ .busy)
    (ha : act s.accepted = ended u c) : s.accept act = (u.finish c, []) := by
  unfold State.accepted at ha
  unfold State.accept
  rw [if_neg hm]
  dsimp only
  rw [ha]; rfl

/-- Settling reads nothing of the mailbox and no event flag. -/
@[simp] theorem commandEnd_settled (s : State) (c : ResultCode) : (s.commandEnd c).settled = s.settled :=
  settled_congr rfl rfl rfl rfl rfl rfl rfl rfl rfl rfl rfl rfl rfl

theorem accepted_finish (s : State) (c : ResultCode) : s.accepted.finish c = s.commandEnd c := rfl

theorem accepted_modWindow_finish (s : State) (w : WinIx) (f : Window → Window) (c : ResultCode) :
    (s.accepted.modWindow w f).finish c = (s.modWindow w f).commandEnd c := rfl

/-- A command whose act changes nothing ends with its result code. -/
theorem event_accept_unchanged {s : State} {act : State → Ended} {c : ResultCode} (hs : s.TakesCommand)
    (ha : act s.accepted = ended s.accepted c) : s.event (s.accept act) = .next (s.commandEnd c).driveEventN := by
  obtain ⟨⟨hreset, hsettled⟩, hm⟩ := hs
  rw [accept_of_ended hm ha, accepted_finish, event_settled hreset ((commandEnd_settled s c).trans hsettled)]

/-- A command whose act changes one window, and leaves the part settled, ends with its result code. -/
theorem event_accept_modWindow {s : State} {act : State → Ended} {w : WinIx} {f : Window → Window} {c : ResultCode}
    (hs : s.TakesCommand) (ha : act s.accepted = ended (s.accepted.modWindow w f) c)
    (hsettled : (s.modWindow w f).settled = true) :
    s.event (s.accept act) = .next ((s.modWindow w f).commandEnd c).driveEventN := by
  obtain ⟨⟨hreset, -⟩, hm⟩ := hs
  rw [accept_of_ended hm ha, accepted_modWindow_finish,
    event_settled hreset ((commandEnd_settled _ c).trans hsettled)]

/-! ## The argument and the checks -/

theorem windowArg_of_gt {a : Word32} (h : 7 < a.toNat) : windowArg a = none := dif_neg (by omega)

theorem windowArg_of_eq {a : Word32} {w : WinIx} (h : a.toNat = w.val) : windowArg a = some w := by
  have hlt : a.toNat < 8 := by omega
  exact (dif_pos hlt).trans (congrArg some (Fin.ext h))

section
variable {s : State} {w : WinIx}

theorem cmdOpenWindow_badArgument (ha : 7 < s.args[0].toNat) : cmdOpenWindow s = ended s .badArgument := by
  unfold cmdOpenWindow; rw [windowArg_of_gt ha]

/-- The checks after the argument's, in their order. -/
theorem cmdOpenWindow_of_window (ha : s.args[0].toNat = w.val) :
    cmdOpenWindow s =
      if (s.getWindow w).state ≠ .closed then ended s .windowBusy
      else if (s.getWindow w).limit < (s.getWindow w).start then ended s .badRange
      else if s.overlaps w then ended s .overlap
      else ended (s.modWindow w (fun v => { v with state := .live })) .ok := by
  unfold cmdOpenWindow; rw [windowArg_of_eq ha]

theorem cmdOpenWindow_windowBusy (ha : s.args[0].toNat = w.val) (hopen : (s.getWindow w).state ≠ .closed) :
    cmdOpenWindow s = ended s .windowBusy := by
  rw [cmdOpenWindow_of_window ha, if_pos hopen]

theorem cmdOpenWindow_badRange (ha : s.args[0].toNat = w.val) (hclosed : (s.getWindow w).state = .closed)
    (hrange : (s.getWindow w).limit < (s.getWindow w).start) : cmdOpenWindow s = ended s .badRange := by
  rw [cmdOpenWindow_of_window ha, if_neg (not_not.2 hclosed), if_pos hrange]

theorem cmdOpenWindow_overlap (ha : s.args[0].toNat = w.val) (hclosed : (s.getWindow w).state = .closed)
    (hrange : (s.getWindow w).start ≤ (s.getWindow w).limit) (hover : s.overlaps w = true) :
    cmdOpenWindow s = ended s .overlap := by
  rw [cmdOpenWindow_of_window ha, if_neg (not_not.2 hclosed), if_neg (BitVec.not_lt.2 hrange), if_pos hover]

theorem cmdOpenWindow_ok (ha : s.args[0].toNat = w.val) (hclosed : (s.getWindow w).state = .closed)
    (hrange : (s.getWindow w).start ≤ (s.getWindow w).limit) (hover : ¬s.overlaps w = true) :
    cmdOpenWindow s = ended (s.modWindow w (fun v => { v with state := .live })) .ok := by
  rw [cmdOpenWindow_of_window ha, if_neg (not_not.2 hclosed), if_neg (BitVec.not_lt.2 hrange), if_neg hover]

end

/-! ## Ranges that share a line -/

theorem spans_iff (v : Window) (l : Line) : v.spans l = true ↔ v.start ≤ l ∧ l ≤ v.limit := decide_eq_true_iff

/-- Two ranges of which each starts before the other ends share the later of their start lines. -/
theorem shares_of_le {v u : Window} (hv : v.start ≤ v.limit) (hu : u.start ≤ u.limit) (hvu : v.start ≤ u.limit)
    (huv : u.start ≤ v.limit) : v.shares u := by
  rcases BitVec.le_total v.start u.start with h | h
  · exact ⟨u.start, (spans_iff ..).2 ⟨h, huv⟩, (spans_iff ..).2 ⟨BitVec.le_refl _, hu⟩⟩
  · exact ⟨v.start, (spans_iff ..).2 ⟨BitVec.le_refl _, hv⟩, (spans_iff ..).2 ⟨h, hvu⟩⟩

/-- The overlap check finds the open windows that share a line with the window, whose range is not empty. -/
theorem overlaps_iff {s : State} {w : WinIx} (hok : s.windowsOk)
    (hrange : (s.getWindow w).start ≤ (s.getWindow w).limit) :
    s.overlaps w = true ↔ ∃ u, u ≠ w ∧ (s.getWindow u).state ≠ .closed ∧ (s.getWindow u).shares (s.getWindow w) := by
  obtain ⟨hranges, -, -⟩ := hok
  constructor
  · intro h
    obtain ⟨u, -, hu⟩ := List.any_eq_true.1 h
    simp only [Bool.and_eq_true, bne_iff_ne, decide_eq_true_eq] at hu
    obtain ⟨⟨hne, hopen⟩, huw, hwu⟩ := hu
    exact ⟨u, hne, hopen, shares_of_le (hranges u hopen) hrange huw hwu⟩
  · rintro ⟨u, hne, hopen, hshare⟩
    by_contra h
    exact not_overlaps (Bool.eq_false_iff.2 h) hne hopen hshare

/-! ## The window that contains a line -/

theorem contains_iff (v : Window) (l : Line) : v.contains l = true ↔ v.state ≠ .closed ∧ v.spans l = true := by
  simp [Window.contains]

theorem contains_of_windowOf {s : State} {w : WinIx} {l : Line} (h : s.windowOf l = some w) :
    (s.getWindow w).contains l = true :=
  List.find?_some (p := fun u => (s.getWindow u).contains l) h

/-- The only window that contains a line is the one found. -/
theorem windowOf_of_unique {s : State} {w : WinIx} {l : Line} (h : (s.getWindow w).contains l = true)
    (honly : ∀ u, (s.getWindow u).contains l = true → u = w) : s.windowOf l = some w := by
  have hfound : (s.windowOf l).isSome = true := List.find?_isSome.2 ⟨w, List.mem_finRange w, h⟩
  obtain ⟨u, hu⟩ := Option.isSome_iff_exists.1 hfound
  rw [hu, honly u (contains_of_windowOf hu)]

theorem windowOf_congr {s t : State} {l : Line}
    (h : ∀ u, (t.getWindow u).contains l = (s.getWindow u).contains l) : t.windowOf l = s.windowOf l :=
  congrArg (fun p => (List.finRange 8).find? p) (funext h)

/-! ## A CLOSED window made LIVE -/

/-- The state with a window LIVE. -/
def State.opened (s : State) (w : WinIx) : State := s.modWindow w (fun v => { v with state := .live })

theorem getWindow_opened_same (s : State) (w : WinIx) :
    (s.opened w).getWindow w = { s.getWindow w with state := .live } :=
  (getWindow_modWindow s w w _).trans (if_pos rfl)

theorem getWindow_opened_of_ne {s : State} {u w : WinIx} (h : u ≠ w) : (s.opened w).getWindow u = s.getWindow u :=
  (getWindow_modWindow s w u _).trans (if_neg h)

@[simp] theorem opened_spans (s : State) (u w : WinIx) (l : Line) :
    ((s.opened w).getWindow u).spans l = (s.getWindow u).spans l := by
  by_cases h : u = w
  · subst h; rw [getWindow_opened_same]; rfl
  · rw [getWindow_opened_of_ne h]

/-- A window's range has no line of another open window. -/
def State.sharesNone (s : State) (w : WinIx) : Prop :=
  ∀ u, u ≠ w → (s.getWindow u).state ≠ .closed → ¬(s.getWindow u).shares (s.getWindow w)

section
variable {s : State} {w : WinIx}

/-- The window opened contains the lines of its range. -/
theorem windowOf_opened (hnone : s.sharesNone w) {l : Line} (hl : (s.getWindow w).spans l = true) :
    (s.opened w).windowOf l = some w := by
  apply windowOf_of_unique
  · rw [contains_iff, getWindow_opened_same]
    exact ⟨nofun, hl⟩
  · intro u hu
    by_contra hne
    rw [getWindow_opened_of_ne hne, contains_iff] at hu
    obtain ⟨hopen, hspan⟩ := hu
    exact hnone u hne hopen ⟨l, hspan, hl⟩

/-- A line outside its range stays where it was. -/
theorem windowOf_opened_of_not_spans (hclosed : (s.getWindow w).state = .closed) {l : Line}
    (hl : (s.getWindow w).spans l = false) : (s.opened w).windowOf l = s.windowOf l := by
  apply windowOf_congr
  intro u
  by_cases hu : u = w
  · subst hu
    unfold Window.contains
    rw [opened_spans, hl, Bool.and_false, Bool.and_false]
  · rw [getWindow_opened_of_ne hu]

/-- A line that a TRACKED or SHARED_ONLY window contains has its window still. -/
theorem opened_trackedLine (hclosed : (s.getWindow w).state = .closed) (hnone : s.sharesNone w) {l : Line}
    (h : s.trackedLine l = true) : (s.opened w).trackedLine l = true := by
  unfold State.trackedLine at h ⊢
  cases hv : s.windowOf l with
  | none => rw [hv] at h; cases h
  | some v =>
    rw [hv] at h
    obtain ⟨hopen, hspan⟩ := (contains_iff ..).1 (contains_of_windowOf hv)
    have hne : v ≠ w := by rintro rfl; exact hopen hclosed
    have hout : (s.getWindow w).spans l = false :=
      Bool.eq_false_iff.2 fun hw => hnone v hne hopen ⟨l, hspan, hw⟩
    rw [windowOf_opened_of_not_spans hclosed hout, hv]
    dsimp only
    rw [getWindow_opened_of_ne hne]
    exact h

/-! ## What settles still -/

/-- A SCRUB's action at a way opens a recall exactly for a readable key with an unreadable body, whose line is tracked and
named by no other way (R150). -/
theorem scrubAction_opens_iff (s : State) (i : SetIx) (q : WayIx) : (s.scrubAction i q).opens = true ↔
    ¬(s.wayHeld i q ∨ (s.bodyView i q).isSome = true) ∧ ∃ k, s.keyView i q = some (some k) ∧
      s.trackedLine (lineOf k i) = true ∧ s.namedElsewhere i q (lineOf k i) = false := by
  unfold State.scrubAction
  by_cases hheld : s.wayHeld i q ∨ (s.bodyView i q).isSome = true
  · simp [hheld, WayAction.opens]
  · rw [if_neg hheld]
    rcases hk : s.keyView i q with _ | _ | k
    · simp [WayAction.opens]
    · simp [WayAction.opens]
    · by_cases ht : s.trackedLine (lineOf k i) = true ∧ s.namedElsewhere i q (lineOf k i) = false
      · simp [hheld, ht, WayAction.opens]
      · simp [ht, WayAction.opens]

/-- An action that opens a recall opens one still: a RETIRE reads its window's range, a FLUSH no window, and a SCRUB whether
the line is tracked. -/
theorem opened_maintAction_opens (hclosed : (s.getWindow w).state = .closed) (hnone : s.sharesNone w) {j : MaintJob}
    {i : SetIx} {q : WayIx} (h : (s.maintAction j i q).opens = true) :
    ((s.opened w).maintAction j i q).opens = true := by
  unfold State.maintAction at h ⊢
  cases hk : j.kind with
  | retire =>
    rw [hk] at h
    cases hv : j.window with
    | none => rw [hv] at h; cases h
    | some v =>
      rw [hv] at h
      simp only [State.retireAction, opened_spans] at h ⊢
      exact h
  | flush => rw [hk] at h; exact h
  | scrub =>
    rw [hk] at h
    obtain ⟨hheld, k, hkey, htracked, hnamed⟩ := (scrubAction_opens_iff ..).1 h
    exact (scrubAction_opens_iff ..).2 ⟨hheld, k, hkey, opened_trackedLine hclosed hnone htracked, hnamed⟩

/-- The maintenance cursor waits exactly at a way whose action opens a recall, fewer than 3 slots being free (R166). -/
theorem maintReady_eq_false_iff (s : State) : s.maintReady = false ↔
    ∀ j ways, s.maint = some j → s.maintStep = some ways →
      ∃ q rest, ways = q :: rest ∧ s.walkRoom = false ∧ (s.maintAction j (s.maintSet j) q).opens = true := by
  unfold State.maintReady
  rcases s.maint with _ | j
  · simp
  · rcases s.maintStep with _ | _ | ⟨q, rest⟩ <;> simp

/-- The part stays settled when a window is opened: of the conditions, the maintenance cursor's alone reads a window. -/
theorem opened_settled (hclosed : (s.getWindow w).state = .closed) (hnone : s.sharesNone w)
    (h : s.settled = true) : (s.opened w).settled = true := by
  rw [settled_iff] at h ⊢
  obtain ⟨hrebuild, hdue, hpurge, hmaint, horder, hanswer, hending, hdone⟩ := h
  refine ⟨hrebuild, hdue, hpurge, ?_, ?_, ?_, ?_, hdone⟩
  · rw [maintReady_eq_false_iff] at hmaint ⊢
    intro j ways hj hways
    obtain ⟨q, rest, hcons, hroom, hopens⟩ := hmaint j ways hj hways
    exact ⟨q, rest, hcons, hroom, opened_maintAction_opens hclosed hnone hopens⟩
  · exact (placeHeldOrder_none_iff _).2 ((placeHeldOrder_none_iff s).1 horder)
  · exact (placeHeldAnswer_none_iff _).2 ((placeHeldAnswer_none_iff s).1 hanswer)
  · exact (maintEnding_none_iff _).2 ((maintEnding_none_iff s).1 hending)

end

theorem exec_openWindow (s : State) : exec .openWindow s = s.event (s.accept cmdOpenWindow) := rfl

/-- Settles O27: the checks are the branches of the command's act in their order; the window opened shares no line with
another, so each line of its range finds it alone, and no walk that waits for room can go on. -/
theorem openWindowChecks : Obligations.OpenWindowChecks := by
  intro s hs hok
  rw [exec_openWindow s]
  refine ⟨fun ha => ?_, fun w ha => ⟨fun hopen => ?_, fun hclosed hrange => ?_, fun hclosed hrange =>
    ⟨fun hshare => ?_, fun hnone => ?_⟩⟩⟩
  · exact event_accept_unchanged hs (cmdOpenWindow_badArgument (s := s.accepted) ha)
  · exact event_accept_unchanged hs (cmdOpenWindow_windowBusy (s := s.accepted) ha hopen)
  · exact event_accept_unchanged hs (cmdOpenWindow_badRange (s := s.accepted) ha hclosed hrange)
  · have hover : s.overlaps w = true := (overlaps_iff hok hrange).2 hshare
    exact event_accept_unchanged hs (cmdOpenWindow_overlap (s := s.accepted) ha hclosed hrange hover)
  · have hover : ¬s.overlaps w = true := fun h => by
      obtain ⟨u, hne, hopen, hshare⟩ := (overlaps_iff hok hrange).1 h
      exact hnone u hne hopen hshare
    have hsettled : (s.opened w).settled = true := opened_settled hclosed hnone hs.1.2
    exact ⟨_, event_accept_modWindow hs (cmdOpenWindow_ok (s := s.accepted) ha hclosed hrange hover) hsettled, rfl,
      fun l hstart hlimit => windowOf_opened hnone ((spans_iff ..).2 ⟨hstart, hlimit⟩)⟩

end Sys2Proof.Machine

/-! # The part as a machine, and what every step keeps -/

namespace Sys2Proof.Machine

set_option Elab.async false

/-! ## The state after power-on reset -/

theorem reset_getSet (i : SetIx) : State.reset.getSet i = blankSet := rfl

theorem reset_getSlot (t : SlotIx) : State.reset.getSlot t = none := by
  simp [State.getSlot, State.reset]

theorem reset_getNode (n : Node) : State.reset.getNode n = blankNode := by
  simp [State.getNode, State.reset]

theorem reset_getWindow (w : WinIx) : State.reset.getWindow w = blankWindow := by
  simp [State.getWindow, State.reset]

theorem reset_getJob (n : Node) : State.reset.getJob n = none := by
  simp [State.getJob, State.reset]

theorem reset_directoryOk : State.reset.directoryOk := by
  refine ⟨rfl, fun i => ?_⟩
  rw [reset_getSet]
  unfold allWays
  exact List.Perm.refl _

theorem reset_ranksOk : State.reset.ranksOk := by
  refine ⟨fun t x l hx => ?_, fun t u x y l _ hx => ?_⟩ <;> rw [reset_getSlot] at hx <;> cases hx

theorem reset_windowsOk : State.reset.windowsOk := by
  refine ⟨fun w hw => ?_, fun u w _ hu => ?_, fun j w hj hw => ?_⟩
  · rw [reset_getWindow] at hw; exact absurd rfl hw
  · rw [reset_getWindow] at hu; exact absurd rfl hu
  · cases hj; cases hw

theorem reset_noticesOk : State.reset.noticesOk := ⟨Nat.zero_le _, List.Pairwise.nil⟩

theorem reset_creditsOk : State.reset.creditsOk := by
  intro n; rw [reset_getNode]; exact Nat.zero_le _

theorem reset_queuesOk : State.reset.queuesOk := ⟨Nat.zero_le _, Nat.zero_le _⟩

theorem reset_intakesOk : State.reset.intakesOk := ⟨Nat.zero_le _, Nat.zero_le _⟩

theorem reset_limitsInRange (k : LimitName) : limitInRange k (State.reset.limits.get k) = true := by
  cases k <;> decide

theorem reset_slotsWith (p : Slot → Bool) : State.reset.slotsWith p = [] := by
  rw [slotsWith_eq]
  simp [reset_getSlot]

theorem reset_quiet : State.reset.Quiet where
  running := rfl
  noRebuild := reset_slotsWith _
  noFrozen := rfl
  noPurgeStep := rfl
  noMaintStep := rfl
  noHeldOrder := rfl
  noHeldAnswer := rfl
  noEnding := rfl
  noDone := by
    unfold State.doneNode
    rw [List.find?_eq_none]
    intro n _
    simp [State.purgeDone, reset_getJob]

theorem reset_atRest : State.reset.atRest := ⟨Quiet_settled reset_quiet, rfl⟩

/-- Settles O10: the tables of the state after reset are empty, and nothing is in hand. -/
theorem resetMeetsInvariants : Obligations.ResetMeetsInvariants :=
  ⟨reset_directoryOk, reset_ranksOk, reset_windowsOk, reset_noticesOk, reset_creditsOk, reset_queuesOk, reset_intakesOk,
    reset_limitsInRange, reset_atRest, reset_quiet⟩

/-- Settles O4: each value is read off the state after reset. -/
theorem partAfterReset : Obligations.PartAfterReset := by
  refine ⟨fun i => ⟨fun w => ?_, rfl, rfl⟩, reset_getSlot, rfl, reset_getNode, rfl, rfl, reset_getWindow, reset_getJob, rfl, rfl,
    rfl, rfl, rfl, rfl, rfl, rfl, rfl, rfl, rfl, rfl, rfl, rfl, rfl, rfl, rfl, rfl, rfl, rfl, rfl⟩
  simp [State.getWay, reset_getSet, blankSet, freeWay]

/-! ## RESETn -/

/-- RESETn low meets every condition, since the state after reset does. -/
theorem resetn_low_keeps (s : State) :
    Keeps s { State.reset with resetN := .low, freeCount := s.freeCount, pending := s.pending } where
  pending := rfl
  dir _ := reset_directoryOk
  orders _ := reset_queuesOk.1
  answers _ := reset_queuesOk.2
  intakes _ := reset_intakesOk
  notices _ := reset_noticesOk
  credits _ := reset_creditsOk
  limits _ := reset_limitsInRange
  windows _ := reset_windowsOk
  ranks _ := reset_ranksOk

theorem exec_resetn_keeps {v : Level} {s t : State} (h : exec (.resetn v) s = .next t) : Keeps s t := by
  cases v <;> cases h
  · exact resetn_low_keeps s
  · exact (Keeps.refl s).plain

/-- While RESETn is low no command but RESETN changes anything. -/
theorem exec_of_reset_low {c : Instr} {s : State} (hc : ∀ v, c ≠ .resetn v) (hs : s.resetN = .low) :
    exec c s = .next s := by
  rw [exec_work c s hc, event_low hs]

/-- Settles O3: RESETN's two arms, and the guard of every other event. -/
theorem resetnHoldsEveryBlock : Obligations.ResetnHoldsEveryBlock :=
  ⟨fun _ => rfl, fun _ => rfl, fun _ _ hs hc => exec_of_reset_low hc hs, rfl, rfl, rfl, rfl, rfl, rfl, rfl, rfl⟩

/-! ## A command -/

/-- Driving EVENTn touches no condition. -/
theorem driveEventN_keeps {a s : State} (h : Keeps a s) : Keeps a s.driveEventN := h.plain

/-- Every command keeps the conditions of Safety.lean and the queue of commands. -/
theorem exec_keeps {c : Instr} {s t : State} (h : exec c s = .next t) : Keeps s t := by
  rcases exec_next h with ⟨v, rfl⟩ | ⟨_, rfl⟩ | ⟨_, _, u, hu, _, rfl⟩
  · exact exec_resetn_keeps h
  · exact Keeps.refl t
  · exact driveEventN_keeps ((work_keeps c s).andThen hu)

theorem step_of_cons {s : State} {c : Instr} {rest : List Instr} (h : s.pending = c :: rest) :
    step s = exec c (s.withPending rest) := by
  unfold step; rw [h]

theorem step_of_nil {s : State} (h : s.pending = []) : step s = .next s.idle := by
  unfold step; rw [h]

/-- Settles O1: the step's first branch, and the queue as a part of what every command keeps. -/
theorem stepRunsFrontCommand : Obligations.StepRunsFrontCommand :=
  ⟨fun _ _ _ h => step_of_cons h, fun _ _ _ h => (exec_keeps h).pending⟩

/-! ## A microsecond (log 2) -/

/-- A microsecond's change of the maintenance job. -/
def State.tickMaint (s : State) : State :=
  { s with maint := s.maint.map (fun j => { j with interval := j.interval.map countDown }) }

/-- A microsecond's change of the notices. -/
def tickNotice (v : Notice) : Notice := if v.claimed then v else { v with age := countDown v.age }

/-- A microsecond's change of a slot. -/
def tickSlot (x : Slot) : Slot := { x with timer := x.timer.map countDown }

theorem tick_eq (s : State) : s.tick = if s.link = .up then
    { s.tickMaint with slots := s.slots.map (Option.map tickSlot), notices := s.notices.map tickNotice }
    else s.tickMaint := by
  unfold State.tick
  dsimp only
  split
  · rw [modSlots_eq]; rfl
  · rfl

theorem tickNotice_line (v : Notice) : (tickNotice v).line = v.line := by unfold tickNotice; split <;> rfl

theorem tickNotice_node (v : Notice) : (tickNotice v).node = v.node := by unfold tickNotice; split <;> rfl

theorem tickNotices_ok {s : State} (h : s.noticesOk) : State.noticesOk { s with notices := s.notices.map tickNotice } := by
  obtain ⟨hlen, hdistinct⟩ := h
  refine ⟨by simpa using hlen, ?_⟩
  rw [List.pairwise_map]
  exact hdistinct.imp (by simp only [tickNotice_line, tickNotice_node]; exact id)

theorem tickMaint_evolves (s : State) : Evolves s s.tickMaint := by
  refine maint_evolves (Evolves.refl s) (fun j w hj hw => ?_)
  obtain ⟨k, hk, rfl⟩ := Option.map_eq_some_iff.1 hj
  exact ⟨k, hk, hw⟩

theorem tick_evolves (s : State) : Evolves s s.tick := by
  rw [tick_eq]
  split
  · have hslots : Evolves s (s.tickMaint.modSlots tickSlot) := modSlots_evolves (tickMaint_evolves s) _
    rw [modSlots_eq] at hslots
    exact notices_evolves hslots tickNotices_ok
  · exact tickMaint_evolves s

theorem idle_evolves (s : State) : Evolves s s.idle := by
  unfold State.idle
  split
  · exact Evolves.refl s
  · exact tick_evolves s

/-- Settles O2: the fields a microsecond changes, one by one. -/
theorem emptyQueueIsAMicrosecond : Obligations.EmptyQueueIsAMicrosecond := by
  intro s hnil hreset
  have hidle : s.idle = s.tick := by unfold State.idle; rw [hreset]
  refine ⟨s.tick, by rw [step_of_nil hnil, hidle], ?_⟩
  rw [tick_eq]
  by_cases hup : s.link = .up
  · simp only [if_pos hup]
    refine ⟨fun u => ?_, rfl, rfl, rfl⟩
    simp only [State.getSlot, Fin.getElem_fin, Vector.getElem_map]
    rfl
  · simp only [if_neg hup]
    exact ⟨fun _ => rfl, rfl, rfl, rfl⟩

/-! ## A step -/

/-- Each condition of Safety.lean that a step's state meets, the next state meets. -/
theorem step_keeps {s t : State} (h : step s = .next t) : ∃ rest, Keeps (s.withPending rest) t := by
  cases hp : s.pending with
  | nil =>
    rw [step_of_nil hp] at h
    cases h
    exact ⟨s.pending, (idle_evolves s).keeps⟩
  | cons c rest =>
    rw [step_of_cons hp] at h
    exact ⟨rest, exec_keeps h⟩

/-- Settles O5: the directory's part of what every step keeps. -/
theorem stepKeepsDirectory : Obligations.StepKeepsDirectory := fun _ _ hs h =>
  let ⟨_, hk⟩ := step_keeps h
  hk.dir hs

/-- Settles O6: the line orders' part of what every step keeps. -/
theorem stepKeepsLineOrders : Obligations.StepKeepsLineOrders := fun _ _ hs h =>
  let ⟨_, hk⟩ := step_keeps h
  hk.ranks hs

/-- Settles O7: the windows' part of what every step keeps. -/
theorem stepKeepsWindows : Obligations.StepKeepsWindows := fun _ _ hs h =>
  let ⟨_, hk⟩ := step_keeps h
  hk.windows hs

/-- Settles O8: the tables', intakes' and limits' parts of what every step keeps. -/
theorem stepKeepsCapacities : Obligations.StepKeepsCapacities := fun _ _ h =>
  let ⟨_, hk⟩ := step_keeps h
  ⟨hk.notices, hk.credits, hk.intakes, fun ⟨ho, ha⟩ => ⟨hk.orders ho, hk.answers ha⟩, hk.limits⟩

/-! ## The rest between two events -/

theorem eventLevel_eq_low_iff (s : State) : s.eventLevel = .low ↔ s.flags &&& s.enables ≠ 0#16 := by
  unfold State.eventLevel
  split
  · rename_i h; simp [h]
  · rename_i h; simp [h]

/-- A change of fields that no condition of settling reads. -/
theorem settled_of_same {s s' : State} (h : s.settled = true) (h1 : s'.dir = s.dir := by rfl)
    (h2 : s'.slots = s.slots := by rfl) (h3 : s'.windows = s.windows := by rfl) (h4 : s'.purgePos = s.purgePos := by rfl)
    (h5 : s'.purgeJobs = s.purgeJobs := by rfl) (h6 : s'.purgeStep = s.purgeStep := by rfl)
    (h7 : s'.maint = s.maint := by rfl) (h8 : s'.maintStep = s.maintStep := by rfl)
    (h9 : s'.scrubPos = s.scrubPos := by rfl) (h10 : s'.orderQ = s.orderQ := by rfl)
    (h11 : s'.answerQ = s.answerQ := by rfl) (h12 : s'.orderHeld = s.orderHeld := by rfl)
    (h13 : s'.answerHeld = s.answerHeld := by rfl) : s'.settled = true :=
  (settled_congr h1 h2 h3 h4 h5 h6 h7 h8 h9 h10 h11 h12 h13).trans h

theorem driveEventN_atRest {s : State} (h : s.settled = true) : s.driveEventN.atRest := ⟨settled_of_same h, rfl⟩

theorem exec_atRest {c : Instr} {s t : State} (hs : s.atRest) (h : exec c s = .next t) : t.atRest := by
  rcases exec_next h with ⟨v, rfl⟩ | ⟨_, rfl⟩ | ⟨_, _, u, _, hu, rfl⟩
  · cases v <;> cases h
    · exact ⟨settled_of_same reset_atRest.1, (reset_atRest.2 :)⟩
    · exact ⟨settled_of_same hs.1, hs.2⟩
  · exact hs
  · exact driveEventN_atRest hu

/-! ### What settling reads of the slots -/

/-- Whether a slot's set rebuild waits for the holders of its set (R153). -/
def Slot.waitsHolders (x : Slot) : Bool :=
  match x.rebuild with
  | some (.set .waitingHolders _ _ _) => true
  | _ => false

/-- What settling reads of a slot's record, but for its pending message. -/
def Slot.settling (x : Slot) : Option Line × Option SetIx × Option Working × Bool × Bool :=
  (x.line, x.set, x.working, x.rebuildsSet, x.waitsHolders)

theorem slotsWith_congr {s s' : State} {p q : Slot → Bool}
    (h : ∀ t, (s'.getSlot t).any p = (s.getSlot t).any q) : s'.slotsWith p = s.slotsWith q := by
  rw [slotsWith_eq, slotsWith_eq]
  exact List.filter_congr fun t _ => h t

section
variable {s s' : State} (hslots : ∀ t, (s'.getSlot t).map Slot.settling = (s.getSlot t).map Slot.settling)
include hslots

/-- Two records in one slot that settling reads alike. -/
theorem settling_cases (t : SlotIx) : (s'.getSlot t = none ∧ s.getSlot t = none) ∨
    ∃ x y, s'.getSlot t = some x ∧ s.getSlot t = some y ∧ x.line = y.line ∧ x.set = y.set ∧ x.working = y.working ∧
      x.rebuildsSet = y.rebuildsSet ∧ x.waitsHolders = y.waitsHolders := by
  have h := hslots t
  cases hx : s'.getSlot t with
  | none =>
    rw [hx, Option.map_none, eq_comm, Option.map_eq_none_iff] at h
    exact Or.inl ⟨rfl, h⟩
  | some x =>
    rw [hx, Option.map_some, eq_comm, Option.map_eq_some_iff] at h
    obtain ⟨y, hy, e⟩ := h
    simp only [Slot.settling, Prod.mk.injEq] at e
    obtain ⟨h1, h2, h3, h4, h5⟩ := e
    exact Or.inr ⟨x, y, rfl, hy, h1.symm, h2.symm, h3.symm, h4.symm, h5.symm⟩

omit hslots in
theorem setIx_of_settling {x y : Slot} (hl : x.line = y.line) (hs : x.set = y.set) : x.setIx = y.setIx := by
  unfold Slot.setIx
  rw [hl, hs]

theorem getSlot_isNone_of_settling (t : SlotIx) : (s'.getSlot t).isNone = (s.getSlot t).isNone := by
  rcases settling_cases hslots t with ⟨h, h'⟩ | ⟨x, y, h, h', _⟩ <;> simp [h, h']

theorem freeSlots_of_settling : s'.freeSlots = s.freeSlots := by
  unfold State.freeSlots
  simp only [getSlot_isNone_of_settling hslots]

theorem lowestFree_of_settling : s'.lowestFree = s.lowestFree := by
  unfold State.lowestFree
  simp only [getSlot_isNone_of_settling hslots]

theorem walkRoom_of_settling : s'.walkRoom = s.walkRoom := by
  unfold State.walkRoom; rw [freeSlots_of_settling hslots]

theorem any_of_settling {p q : Slot → Bool} (t : SlotIx)
    (hpq : ∀ x y : Slot, x.line = y.line → x.set = y.set → x.working = y.working → x.rebuildsSet = y.rebuildsSet →
      p x = q y) : (s'.getSlot t).any p = (s.getSlot t).any q := by
  rcases settling_cases hslots t with ⟨h, h'⟩ | ⟨x, y, h, h', h1, h2, h3, h4, _⟩
  · rw [h, h']; rfl
  · rw [h, h']; exact hpq x y h1 h2 h3 h4

theorem setHeld_of_settling (i : SetIx) (t : SlotIx) : s'.setHeld i t = s.setHeld i t := by
  unfold State.setHeld
  rw [slotsWith_congr (s := s) (q := fun x => x.working.isSome && x.setIx == some i)]
  intro u
  refine any_of_settling hslots u fun x y hl hs hw _ => ?_
  rw [hw, setIx_of_settling hl hs]

theorem rebuildInUse_of_settling (i : SetIx) : s'.rebuildInUse i = s.rebuildInUse i := by
  unfold State.rebuildInUse
  rw [slotsWith_congr (s := s) (q := fun x => x.rebuildsSet && x.setIx == some i)]
  intro u
  refine any_of_settling hslots u fun x y hl hs _ hr => ?_
  rw [hr, setIx_of_settling hl hs]

theorem dueSets_of_settling (hdir : s'.dir = s.dir) : s'.dueSets = s.dueSets := by
  unfold State.dueSets
  simp only [hdir, rebuildInUse_of_settling hslots]

end

/-- The set rebuild that may leave WAITING_HOLDERS, by what settling reads of a slot. -/
theorem readyRebuild_eq (s : State) : s.readyRebuild = (s.slotsWith Slot.rebuildsSet).find? (fun t =>
    (s.getSlot t).any (fun x => x.waitsHolders && (x.setIx.any fun i => !(s.setHeld i t)))) := by
  unfold State.readyRebuild
  congr 1
  funext t
  cases s.getSlot t with
  | none => rfl
  | some x =>
    simp only [Option.any_some, Slot.waitsHolders]
    cases x.setIx with
    | none => split <;> simp_all
    | some i =>
      split
      · rename_i h1 h2; cases h2; rw [h1]; rfl
      · rename_i h
        split
        · rename_i h'; exact absurd rfl (h _ _ _ _ h')
        · rfl

section
variable {s s' : State} (hslots : ∀ t, (s'.getSlot t).map Slot.settling = (s.getSlot t).map Slot.settling)
  (hdir : s'.dir = s.dir)
include hslots

theorem readyRebuild_of_settling : s'.readyRebuild = s.readyRebuild := by
  rw [readyRebuild_eq, readyRebuild_eq,
    slotsWith_congr (s := s) (q := Slot.rebuildsSet) fun u => any_of_settling hslots u fun _ _ _ _ _ hr => hr]
  congr 1
  funext t
  rcases settling_cases hslots t with ⟨h, h'⟩ | ⟨x, y, h, h', h1, h2, _, _, h5⟩
  · rw [h, h']; rfl
  · rw [h, h']
    simp only [Option.any_some, h5, setIx_of_settling h1 h2, setHeld_of_settling hslots]

include hdir

omit hslots in
theorem getWay_of_dir (i : SetIx) (w : WayIx) : s'.getWay i w = s.getWay i w := by
  unfold State.getWay State.getSet; rw [hdir]

omit hslots in
theorem bodyView_of_dir (i : SetIx) (w : WayIx) : s'.bodyView i w = s.bodyView i w := by
  unfold State.bodyView; rw [getWay_of_dir hdir]

omit hslots in
theorem keyView_of_dir (i : SetIx) (w : WayIx) : s'.keyView i w = s.keyView i w := by
  unfold State.keyView; rw [getWay_of_dir hdir]

omit hslots in
theorem wayLine_of_dir (i : SetIx) (w : WayIx) : s'.wayLine i w = s.wayLine i w := by
  unfold State.wayLine; rw [keyView_of_dir hdir]

theorem wayHolder_of_settling (i : SetIx) (w : WayIx) : s'.wayHolder i w = s.wayHolder i w := by
  unfold State.wayHolder
  rw [bodyView_of_dir hdir, wayLine_of_dir hdir]
  cases s.bodyView i w with
  | some b => rfl
  | none =>
    cases s.wayLine i w with
    | none => rfl
    | some l =>
      dsimp only
      rw [slotsWith_congr (s := s) (q := fun x => x.line == some l && x.working.isSome)]
      exact fun u => any_of_settling hslots u fun x y hl _ hw _ => by rw [hl, hw]

theorem wayHeld_of_settling (i : SetIx) (w : WayIx) : s'.wayHeld i w = s.wayHeld i w := by
  unfold State.wayHeld; rw [wayHolder_of_settling hslots hdir]

theorem wayContent_of_settling (i : SetIx) (w : WayIx) : s'.wayContent i w = s.wayContent i w := by
  unfold State.wayContent
  rw [wayHolder_of_settling hslots hdir, bodyView_of_dir hdir]
  cases s.wayHolder i w with
  | none => rfl
  | some t =>
    rcases settling_cases hslots t with ⟨h, h'⟩ | ⟨x, y, h, h', _, _, h3, _⟩
    · simp only [h, h']
    · simp only [h, h', Option.bind_some, h3]

theorem recordLine_of_settling (i : SetIx) (w : WayIx) : s'.recordLine i w = s.recordLine i w := by
  unfold State.recordLine
  rw [wayHolder_of_settling hslots hdir, wayLine_of_dir hdir]
  cases s.wayHolder i w with
  | none => rfl
  | some t =>
    rcases settling_cases hslots t with ⟨h, h'⟩ | ⟨x, y, h, h', h1, _⟩
    · simp only [h, h']
    · simp only [h, h', Option.bind_some, h1]

theorem leaveLine_of_settling (i : SetIx) (w : WayIx) (n : Node) : s'.leaveLine i w n = s.leaveLine i w n := by
  unfold State.leaveLine
  rw [wayContent_of_settling hslots hdir, recordLine_of_settling hslots hdir, wayHeld_of_settling hslots hdir,
    wayLine_of_dir hdir]

theorem purgeReady_of_settling (hpos : s'.purgePos = s.purgePos) (hstep : s'.purgeStep = s.purgeStep) :
    s'.purgeReady = s.purgeReady := by
  unfold State.purgeReady
  rw [hpos, hstep, walkRoom_of_settling hslots]
  cases s.purgeStep with
  | none => rfl
  | some p =>
    obtain ⟨_, todo⟩ := p
    cases todo with
    | nil => rfl
    | cons q rest => exact congrArg (fun x => s.walkRoom || Option.isNone x) (leaveLine_of_settling hslots hdir _ q.1 q.2)

omit hslots in
theorem namedElsewhere_of_dir (i : SetIx) (w : WayIx) (l : Line) : s'.namedElsewhere i w l = s.namedElsewhere i w l := by
  unfold State.namedElsewhere
  simp only [bodyView_of_dir hdir, wayLine_of_dir hdir]

theorem maintAction_of_settling (hwin : s'.windows = s.windows) {j' j : MaintJob} (hkind : j'.kind = j.kind)
    (hjwin : j'.window = j.window) (i : SetIx) (w : WayIx) : s'.maintAction j' i w = s.maintAction j i w := by
  have hget : ∀ v, s'.getWindow v = s.getWindow v := fun v => by unfold State.getWindow; rw [hwin]
  have htracked : ∀ l, s'.trackedLine l = s.trackedLine l := fun l => by
    unfold State.trackedLine State.windowOf; simp only [hget]
  unfold State.maintAction State.retireAction State.flushAction State.scrubAction
  simp only [hkind, hjwin, hget, htracked, recordLine_of_settling hslots hdir, wayContent_of_settling hslots hdir,
    wayHeld_of_settling hslots hdir, bodyView_of_dir hdir, keyView_of_dir hdir,
    namedElsewhere_of_dir hdir]

end

/-! ### A microsecond leaves the part at rest -/

theorem tickMaint_settled {s : State} (h : s.settled = true) : s.tickMaint.settled = true := by
  rw [settled_iff] at h ⊢
  obtain ⟨hrebuild, hdue, hpurge, hmaint, horder, hanswer, hending, hdone⟩ := h
  refine ⟨hrebuild, hdue, hpurge, ?_, ?_, ?_, ?_, hdone⟩
  · rw [maintReady_eq_false_iff] at hmaint ⊢
    intro j ways hj hways
    obtain ⟨k, hk, rfl⟩ := Option.map_eq_some_iff.1 hj
    exact hmaint k ways hk hways
  · exact (placeHeldOrder_none_iff _).2 ((placeHeldOrder_none_iff s).1 horder)
  · exact (placeHeldAnswer_none_iff _).2 ((placeHeldAnswer_none_iff s).1 hanswer)
  · rw [maintEnding_none_iff] at hending ⊢
    intro j hj
    obtain ⟨k, hk, rfl⟩ := Option.map_eq_some_iff.1 hj
    exact hending k hk

/-- The timers of the slots are none of what settling reads. -/
theorem tickSlots_settled {s : State} (h : s.settled = true) :
    State.settled { s with slots := s.slots.map (Option.map tickSlot) } = true := by
  have hget : ∀ t, State.getSlot { s with slots := s.slots.map (Option.map tickSlot) } t =
      (s.getSlot t).map tickSlot := fun t => by simp [State.getSlot]
  have hslots : ∀ t, (State.getSlot { s with slots := s.slots.map (Option.map tickSlot) } t).map Slot.settling =
      (s.getSlot t).map Slot.settling := fun t => by
    rw [hget, Option.map_map]; rfl
  have hpending : ∀ t, (State.getSlot { s with slots := s.slots.map (Option.map tickSlot) } t).bind Slot.pending =
      (s.getSlot t).bind Slot.pending := fun t => by
    rw [hget]; cases s.getSlot t <;> rfl
  rw [settled_iff] at h ⊢
  obtain ⟨hrebuild, hdue, hpurge, hmaint, horder, hanswer, hending, hdone⟩ := h
  refine ⟨(readyRebuild_of_settling hslots).trans hrebuild, ?_, (purgeReady_of_settling hslots rfl rfl rfl).trans hpurge,
    ?_, ?_, ?_, ?_, hdone⟩
  · rw [dueSets_of_settling hslots rfl, lowestFree_of_settling hslots]; exact hdue
  · rw [maintReady_eq_false_iff] at hmaint ⊢
    intro j ways hj hways
    obtain ⟨q, rest, hcons, hroom, hopens⟩ := hmaint j ways hj hways
    exact ⟨q, rest, hcons, (walkRoom_of_settling hslots).trans hroom, by
      rw [maintAction_of_settling hslots rfl rfl rfl rfl]; exact hopens⟩
  · rw [placeHeldOrder_none_iff] at horder ⊢
    simp only [hpending]
    exact horder
  · exact (placeHeldAnswer_none_iff _).2 ((placeHeldAnswer_none_iff s).1 hanswer)
  · exact (maintEnding_none_iff _).2 ((maintEnding_none_iff s).1 hending)

theorem tick_settled {s : State} (h : s.settled = true) : s.tick.settled = true := by
  rw [tick_eq]
  split
  · exact settled_of_same (tickSlots_settled (tickMaint_settled h))
  · exact tickMaint_settled h

theorem tick_eventLevel (s : State) : s.tick.eventN = s.eventN ∧ s.tick.eventLevel = s.eventLevel := by
  rw [tick_eq]; split <;> exact ⟨rfl, rfl⟩

theorem idle_atRest {s : State} (h : s.atRest) : s.idle.atRest := by
  unfold State.idle
  split
  · exact h
  · obtain ⟨hn, hl⟩ := tick_eventLevel s
    exact ⟨tick_settled h.1, by rw [hn, hl]; exact h.2⟩

theorem step_atRest {s t : State} (hs : s.atRest) (h : step s = .next t) : t.atRest := by
  cases hp : s.pending with
  | nil =>
    rw [step_of_nil hp] at h
    cases h
    exact idle_atRest hs
  | cons c rest =>
    rw [step_of_cons hp] at h
    exact exec_atRest (s := s.withPending rest) ⟨settled_of_same hs.1, hs.2⟩ h

/-- Settles O9: an event ends settled with EVENTn driven, and a microsecond's changes are none that settling reads. -/
theorem stepLeavesAtRest : Obligations.StepLeavesAtRest := by
  intro s t hs h
  have ht := step_atRest hs h
  refine ⟨ht, ?_⟩
  rw [ht.2]
  exact eventLevel_eq_low_iff t

end Sys2Proof.Machine

/-! # Rules over all commands: flags, the first fault, and what an inner command leaves alone -/

namespace Sys2Proof.Machine

set_option Elab.async false

/-! ## Expiries and set steps are work of the engine alone -/

/-- An expiry, or a set step of a cursor. -/
def innerCommand : Instr → Prop
  | .purgeSetStep => True
  | .retireSetStep => True
  | .flushSetStep => True
  | .scrubIntervalExpiry => True
  | .orderTimerExpiry _ => True
  | .grantTimerExpiry _ => True
  | .storeWaitExpiry _ => True
  | .observingWaitExpiry _ => True
  | .collectingExpiry _ => True
  | .noticeAgeExpiry _ _ => True
  | _ => False

/-- An inner command's work is built from the engine's operations. -/
theorem work_evolves {c : Instr} (s : State) (h : innerCommand c) : Evolves s (work c s).1 := by
  have e := Evolves.refl s
  cases c <;> dsimp only [innerCommand] at h
  case orderTimerExpiry t =>
    dsimp only [work]
    repeat' split
    exacts [orderExpiry_evolves _ _, e, e]
  case grantTimerExpiry t =>
    dsimp only [work]
    repeat' split
    exacts [grantExpiry_evolves _ _, e, e]
  case storeWaitExpiry t =>
    dsimp only [work]
    repeat' split
    exacts [endInPoison_evolves (countMemTimeout_evolves e) _ _ _, e, lineLost_evolves (countMemTimeout_evolves e) _, e, e, e]
  case observingWaitExpiry t =>
    dsimp only [work]
    repeat' split
    exacts [observingExpiry_evolves _ _ _ _, e, e]
  case collectingExpiry t =>
    dsimp only [work]
    repeat' split
    exacts [collectingStep_evolves _ _, e, e]
  case noticeAgeExpiry l n =>
    dsimp only [work]
    repeat' split
    exacts [countNoticeDropped_evolves (removeNotice_evolves e _ _), e, e]
  case purgeSetStep =>
    dsimp only [work]
    split
    exacts [beginPurgeStep_evolves e, e]
  case retireSetStep =>
    dsimp only [work]
    repeat' split
    exacts [beginMaintStep_evolves e _, e, e]
  case flushSetStep =>
    dsimp only [work]
    repeat' split
    exacts [beginMaintStep_evolves e _, e, e]
  case scrubIntervalExpiry =>
    dsimp only [work]
    split
    · rename_i hj
      split
      exacts [beginScrubStep_evolves e hj, e]
    · exact e

/-- Settles O13: the engine's operations keep the surface, and the event's end drives EVENTn alone. -/
theorem innerCommandsKeepTheSurface : Obligations.InnerCommandsKeepTheSurface := by
  intro c s t h hc
  have hin : innerCommand c := by
    rcases hc with rfl | rfl | rfl | rfl | ⟨k, rfl | rfl | rfl | rfl | rfl⟩ | ⟨l, n, rfl⟩ <;> trivial
  rcases exec_next h with ⟨v, rfl⟩ | ⟨_, rfl⟩ | ⟨_, _, u, hu, _, rfl⟩
  · exact hin.elim
  · rfl
  · have hs : u.surface = s.surface := hu.surface.trans (work_evolves s hin).surface
    rw [← hs]
    rfl

/-! ## Flags and capture record -/

/-- Every flag pending stays so, and a valid capture record keeps its cause and its fields. -/
structure Records (s t : State) : Prop where
  flags : s.flags &&& t.flags = s.flags
  capture : ∀ r, s.capture = some r → ∃ k, t.capture = some { r with further := k }

theorem Evolves.records {s t : State} (h : Evolves s t) : Records s t := ⟨h.flags, h.capture⟩

theorem Records.plain {s t : State} (hf : t.flags = s.flags := by rfl) (hc : t.capture = s.capture := by rfl) : Records s t :=
  ⟨by rw [hf, BitVec.and_self], fun r hr => ⟨r.further, by rw [hc, hr]⟩⟩

theorem Records.trans {s t u : State} (h : Records s t) (g : Records t u) : Records s u where
  flags := by
    calc s.flags &&& u.flags = (s.flags &&& t.flags) &&& u.flags := by rw [h.flags]
      _ = s.flags := by rw [BitVec.and_assoc, g.flags, h.flags]
  capture r hr := by
    obtain ⟨k, hk⟩ := h.capture r hr
    obtain ⟨j, hj⟩ := g.capture _ hk
    exact ⟨j, hj⟩

theorem Records.raised {s t : State} (h : Records s t) (e : Event) : Records s (t.raise e) :=
  h.trans (raise_evolves (Evolves.refl t) e).records

/-! ### Requests and messages -/

theorem takeIn_records (s : State) (k : ReqKind) (n : Node) (l : Line) (w : WinIx) : Records s (s.takeIn k n l w).1 := by
  unfold State.takeIn
  split
  · exact .plain
  · dsimp only
    split <;> exact .plain

theorem arrive_records (s : State) (k : ReqKind) (n : Node) (l : Line) : Records s (s.arrive k n l).1 := by
  unfold State.arrive
  split
  · rename_i r _
    refine Records.trans (t := s.countArrival r) ?_ (intakeAnswer_evolves (Evolves.refl _) _).records
    cases r <;> exact .plain
  · exact takeIn_records s _ _ _ _

theorem takeRequest_records (s : State) (k : ReqKind) : Records s (s.takeRequest k).1 := by
  unfold State.takeRequest
  split
  · exact .plain
  · split
    · split
      · rename_i rest _ _
        exact Records.trans (t := { s with reqIntake := rest }) .plain (arrive_records _ _ _ _)
      · exact .plain
    · exact .plain

theorem helloNode_records (s : State) (n : Node) : Records s (s.helloNode n).1 := by
  have hw : Records s (((s.dropMembership n).modNode n (fun r => { r with state := .live, reason := none })).intakeAnswer
      (.welcome (.node n))) :=
    Records.trans (t := (s.dropMembership n).modNode n (fun r => { r with state := .live, reason := none })) .plain
      (intakeAnswer_evolves (Evolves.refl _) _).records
  unfold State.helloNode
  split
  · exact hw.raised _
  · exact hw.raised _
  · exact (enterPurging_evolves (Evolves.refl s) n _).records
  · exact (enterPurging_evolves (Evolves.refl s) n _).records
  · exact .plain

theorem leaveNode_records (s : State) (n : Node) : Records s (s.leaveNode n) := by
  unfold State.leaveNode
  split
  · split
    · exact .plain
    · exact (intakeAnswer_evolves (chargeViolation_evolves (Evolves.refl s) _ _ _) _).records
  · exact (intakeAnswer_evolves (Evolves.refl s) _).records

theorem receiveRequest_records (s : State) (m : List Byte) : Records s (s.receiveRequest m) := by
  unfold State.receiveRequest
  repeat' split
  exacts [.plain, (malformed_evolves m).records, .plain]

theorem receiveReply_records (s : State) (m : List Byte) : Records s (s.receiveReply m) := by
  unfold State.receiveReply
  repeat' split
  exacts [.plain, (malformed_evolves m).records, .plain]

theorem leaveUp_records (s : State) : Records s s.leaveUp :=
  Records.raised (t := { s with link := .training, reqIntake := [], replyIntake := [], orderQ := [], answerQ := [] })
    .plain _

/-! ### Registers -/

theorem writeLimit_records (s : State) (k : LimitName) (v : Word32) : Records s (s.writeLimit k v) := by
  unfold State.writeLimit
  split
  · have h0 : Records s { s with limits := s.limits.put k v, limitRejected := false } := .plain
    dsimp only
    split
    · exact h0.trans (rescrub_evolves (Evolves.refl _)).records
    · exact h0
  · exact .plain

theorem records_ite {β : Type} {c : Prop} [Decidable c] {s : State} {x y : State × β} (h : Records s x.1)
    (g : Records s y.1) : Records s (if c then x else y).1 := by
  split <;> assumption

theorem readRegister_records (s : State) (r : BitVec 16) : Records s (s.readRegister r).1 := by
  unfold State.readRegister
  dsimp only
  repeat' refine records_ite ?_ ?_
  all_goals exact .plain

theorem readFrame_records (s : State) (r : BitVec 16) : Records s (s.readFrame r) := by
  have h := readRegister_records s r
  unfold State.readFrame
  generalize s.readRegister r = q at h ⊢
  exact h.trans .plain

/-! ### Mailbox commands -/

/-- The act of a command keeps the pending flags and the first fault. -/
def ActRecords (f : State → Ended) : Prop := ∀ s, Records s (f s).state

theorem finish_records (s : State) (c : ResultCode) : Records s (s.finish c) := by
  have h : Records s { s with mbState := if c = .ok then .done else .failed, mbResult := c } := .plain
  exact h.raised .commandDone

/-- A relation that the mailbox's own changes keep is kept by a command whose act keeps it. -/
theorem accept_of_act {R : State → State → Prop} (htrans : ∀ {a b c}, R a b → R b c → R a c)
    (hrec : ∀ {a b}, Records a b → R a b) (s : State) {f : State → Ended} (hf : ∀ s, R s (f s).state) :
    R s (s.accept f).1 := by
  unfold State.accept
  split
  · exact hrec .plain
  · have h0 : R s { s with mbState := .busy, overrun := false, results := Vector.replicate 4 0#32 } := hrec .plain
    dsimp only
    split
    · exact htrans (htrans h0 (hf _)) (hrec (finish_records _ _))
    · exact htrans h0 (hf _)

theorem accept_records (s : State) {f : State → Ended} (hf : ActRecords f) : Records s (s.accept f).1 :=
  accept_of_act (R := Records) Records.trans id s hf

theorem cmdSetWindow_records : ActRecords cmdSetWindow := by
  intro s
  unfold cmdSetWindow ended
  repeat' split
  all_goals exact .plain

theorem cmdOpenWindow_records : ActRecords cmdOpenWindow := by
  intro s
  unfold cmdOpenWindow ended
  dsimp only
  repeat' split
  all_goals exact .plain

theorem createMaint_records (s : State) (k : MaintKind) (w : Option WinIx) : Records s (s.createMaint k w) :=
  (uncount_evolves (Evolves.refl s)).records.trans .plain

theorem cmdRetireWindow_records : ActRecords cmdRetireWindow := by
  intro s
  unfold cmdRetireWindow ended
  split
  · exact .plain
  · dsimp only
    repeat' split
    · exact .plain
    · exact .plain
    · exact .plain
    · exact .plain
    · exact .plain
    · exact Records.trans .plain (createMaint_records _ _ _)

theorem cmdFlushAll_records : ActRecords cmdFlushAll := by
  intro s
  unfold cmdFlushAll ended
  split
  exacts [.plain, createMaint_records s _ _]

theorem cmdPauseMaint_records : ActRecords cmdPauseMaint := by
  intro s
  unfold cmdPauseMaint ended
  repeat' split
  all_goals exact .plain

theorem cmdResumeMaint_records : ActRecords cmdResumeMaint := by
  intro s
  unfold cmdResumeMaint ended
  repeat' split
  all_goals exact .plain

theorem cmdAbortMaint_records : ActRecords cmdAbortMaint := by
  intro s
  unfold cmdAbortMaint ended
  dsimp only
  repeat' split
  all_goals exact .plain

theorem cmdInspectLine_records : ActRecords cmdInspectLine := by
  intro s
  unfold cmdInspectLine ended
  split
  · exact .plain
  · exact (inspectLineReport_evolves (Evolves.refl s) _).records.trans .plain

theorem cmdInspectWay_records : ActRecords cmdInspectWay := by
  intro s
  unfold cmdInspectWay ended
  split <;> exact .plain

theorem cmdInspectSlot_records : ActRecords cmdInspectSlot := by
  intro s
  unfold cmdInspectSlot ended
  split
  · rename_i ht
    split
    · exact .plain
    · rename_i x _
      have h := (pendingKind_evolves (Evolves.refl s) (s.reportedPending ⟨s.args[0].toNat, ht⟩ x)).records
      unfold State.slotReport
      exact h.trans .plain
  · exact .plain

theorem cmdNodeEvict_records : ActRecords cmdNodeEvict := by
  intro s
  have h n := (enterPurging_evolves (Evolves.refl s) n .evicted).records
  unfold cmdNodeEvict ended
  repeat' split
  exacts [.plain, h _, h _, .plain, .plain, .plain]

theorem clearPoisonLine_records (s : State) (l : Line) : Records s (clearPoisonLine s l).state := by
  have h1 := lookup_evolves (Evolves.refl s) l false
  unfold clearPoisonLine ended
  dsimp only
  generalize s.lookup l false = q at h1 ⊢
  obtain ⟨s1, r⟩ := q
  cases r with
  | miss => exact h1.records
  | damagedBody w => exact h1.records
  | damagedKey w => exact (foundDamagedKey_evolves h1 _ _ _).records
  | hit w =>
    dsimp only
    repeat' split
    · exact (setRelease_evolves h1 (setOf l) w).records.trans .plain
    · exact (makeFree_evolves h1 _ _).records
    · exact h1.records

theorem cmdClearPoison_records : ActRecords cmdClearPoison := by
  intro s
  unfold cmdClearPoison ended
  repeat' split
  exacts [.plain, .plain, clearPoisonLine_records s _]

theorem cmdClearCounters_records : ActRecords cmdClearCounters := by
  intro s
  have h : Records s ((List.finRange 8).foldl
      (fun s n => s.modNode n (fun r => { r with timeouts := 0, violations := 0, stale := 0 })) s) := by
    rw [foldl_modNode_rest]
    exact .plain
  exact h.trans .plain

theorem cmdLinkSet_records : ActRecords cmdLinkSet := by
  intro s
  unfold cmdLinkSet ended
  split <;> exact .plain

theorem cmdPortReset_records : ActRecords cmdPortReset := by
  intro s
  unfold cmdPortReset ended
  dsimp only
  split
  · exact Records.trans (t := { s with curSetting := s.nextSetting }) .plain (leaveUp_records _)
  · exact .plain

theorem dirReset_records (s : State) : Records s s.dirReset := by
  unfold State.dirReset
  dsimp only
  rw [foldl_modNode_rest, foldl_modWindow_rest]
  exact Records.trans .plain (startScrub_evolves (Evolves.refl _)).records

theorem cmdDirReset_records : ActRecords cmdDirReset := by
  intro s
  unfold cmdDirReset ended
  split
  exacts [dirReset_records s, .plain]

theorem cmdUnknown_records : ActRecords cmdUnknown := fun _ => .plain

/-- A set pass: its walk over the ways, and what it reports. -/
theorem passSet_records (s : State) (p : PoisonPass) : Records s (s.passSet p) := by
  have h := (passWays_evolves ⟨p.next % 2048, Nat.mod_lt _ (by decide)⟩ allWays
    (s.readWholeSet ⟨p.next % 2048, Nat.mod_lt _ (by decide)⟩, p) (readWholeSet_evolves (Evolves.refl s) _)).records
  unfold State.passSet
  dsimp only
  split
  · exact h.trans .plain
  · exact (h.trans .plain).trans (finish_records _ _)

/-- The act of a command keeps the pending flags. -/
def ActFlags (f : State → Ended) : Prop := ∀ s, s.flags &&& (f s).state.flags = s.flags

theorem ActRecords.flags {f : State → Ended} (h : ActRecords f) : ActFlags f := fun s => (h s).flags

theorem cmdClearCapture_flags : ActFlags cmdClearCapture := fun _ => BitVec.and_self

theorem commandOf_flags (c : Word32) : ActFlags (commandOf c) := by
  unfold commandOf
  split
  exacts [cmdSetWindow_records.flags, cmdOpenWindow_records.flags, cmdRetireWindow_records.flags,
    cmdFlushAll_records.flags, cmdPauseMaint_records.flags, cmdResumeMaint_records.flags,
    cmdAbortMaint_records.flags, cmdInspectLine_records.flags, cmdInspectWay_records.flags,
    cmdInspectSlot_records.flags, cmdNodeEvict_records.flags, cmdClearPoison_records.flags, cmdClearCapture_flags,
    cmdClearCounters_records.flags, cmdLinkSet_records.flags, cmdPortReset_records.flags,
    cmdDirReset_records.flags, cmdUnknown_records.flags]

theorem flags_trans {a b c : State} (h : a.flags &&& b.flags = a.flags) (g : b.flags &&& c.flags = b.flags) :
    a.flags &&& c.flags = a.flags := by
  calc a.flags &&& c.flags = (a.flags &&& b.flags) &&& c.flags := by rw [h]
    _ = a.flags := by rw [BitVec.and_assoc, g, h]

theorem accept_flags (s : State) {f : State → Ended} (hf : ActFlags f) :
    s.flags &&& (s.accept f).1.flags = s.flags :=
  accept_of_act (R := fun a b => a.flags &&& b.flags = a.flags) flags_trans Records.flags s hf

/-! ### Every command -/

/-- A command that may clear neither a flag nor the capture record: no write of a register that may be anything, no RESETN, no
CLEAR_CAPTURE. -/
theorem work_records {c : Instr} (s : State) (h1 : ∀ v, c ≠ .eventFlagsWrite v) (h2 : ∀ f, c ≠ .registerWrite f)
    (h3 : ∀ v, c ≠ .badCommand v) (h4 : c ≠ .clearCapture) : Records s (work c s).1 := by
  by_cases hin : innerCommand c
  · exact (work_evolves s hin).records
  · have hd : Records s s.dropReply := .plain
    cases c
    case orderTimerExpiry | grantTimerExpiry | storeWaitExpiry | observingWaitExpiry | collectingExpiry | noticeAgeExpiry |
        purgeSetStep | retireSetStep | flushSetStep | scrubIntervalExpiry => exact absurd trivial hin
    all_goals dsimp only [work]
    case linkMessageReceived ch m =>
      repeat' split
      exacts [receiveRequest_records s m, .plain, receiveReply_records s m, .plain, .plain]
    case readShared => exact takeRequest_records s _
    case readOwn => exact takeRequest_records s _
    case upgrade => exact takeRequest_records s _
    case writeback => exact takeRequest_records s _
    case drop => exact takeRequest_records s _
    case hello =>
      split
      · exact Records.trans .plain (helloNode_records _ _)
      · exact .plain
    case helloFromMemoryAgent =>
      split
      · exact Records.trans .plain (intakeAnswer_evolves (Evolves.refl _) _).records
      · exact .plain
    case leave =>
      split
      · exact Records.trans .plain (leaveNode_records _ _)
      · exact .plain
    case revokeAck => split; exacts [hd.trans (revokeAck_evolves _ _).records, .plain]
    case forwardDone => split; exacts [hd.trans (forwardDone_evolves _ _ _).records, .plain]
    case recallDone => split; exacts [hd.trans (recallDone_evolves _ _ _).records, .plain]
    case surrenderDone => split; exacts [hd.trans (surrenderDone_evolves _ _ _).records, .plain]
    case complete => split; exacts [hd.trans (complete_evolves _ _).records, .plain]
    case fetchSent => split; exacts [hd.trans (fetchSent_evolves _).records, .plain]
    case fetchFailed => split; exacts [hd.trans (fetchFailed_evolves _).records, .plain]
    case absorbDone => split; exacts [hd.trans (absorbDone_evolves _ _).records, .plain]
    case clearPoisonSetPass => split; exacts [passSet_records s _, .plain]
    case outboundSend q =>
      repeat' split
      all_goals exact .plain
    case signalDetected => split <;> exact .plain
    case trainingComplete => split; exacts [Records.raised (t := { s with link := .up }) .plain _, .plain]
    case trainingFailed => split <;> exact .plain
    case lossOfTraining => split; exacts [leaveUp_records s, .plain]
    case resetn v => exact .plain
    case limitWrite l v => exact writeLimit_records s _ _
    case eventFlagsWrite v => exact absurd rfl (h1 v)
    case eventEnableWrite v => exact .plain
    case viewSnapshotRead r => exact readFrame_records s _
    case registerWrite f => exact absurd rfl (h2 f)
    case badCommand c => exact absurd rfl (h3 c)
    case setWindow => exact accept_records s cmdSetWindow_records
    case openWindow => exact accept_records s cmdOpenWindow_records
    case retireWindow => exact accept_records s cmdRetireWindow_records
    case flushAll => exact accept_records s cmdFlushAll_records
    case pauseMaint => exact accept_records s cmdPauseMaint_records
    case resumeMaint => exact accept_records s cmdResumeMaint_records
    case abortMaint => exact accept_records s cmdAbortMaint_records
    case inspectLine => exact accept_records s cmdInspectLine_records
    case inspectWay => exact accept_records s cmdInspectWay_records
    case inspectSlot => exact accept_records s cmdInspectSlot_records
    case nodeEvict => exact accept_records s cmdNodeEvict_records
    case clearPoison => exact accept_records s cmdClearPoison_records
    case clearPoisonAll => exact accept_records s cmdClearPoison_records
    case clearCapture => exact absurd rfl h4
    case clearCounters => exact accept_records s cmdClearCounters_records
    case linkSet => exact accept_records s cmdLinkSet_records
    case portReset => exact accept_records s cmdPortReset_records
    case dirReset => exact accept_records s cmdDirReset_records

theorem work_flags {c : Instr} (s : State) (h1 : ∀ v, c ≠ .eventFlagsWrite v) (h2 : ∀ f, c ≠ .registerWrite f) :
    s.flags &&& (work c s).1.flags = s.flags := by
  by_cases h3 : ∃ v, c = .badCommand v
  · obtain ⟨v, rfl⟩ := h3
    exact accept_flags s (commandOf_flags v)
  · by_cases h4 : c = .clearCapture
    · subst h4
      exact accept_flags s cmdClearCapture_flags
    · exact (work_records s h1 h2 (fun v e => h3 ⟨v, e⟩) h4).flags

/-- Settles O11: the work of any other command keeps the flags, and so does the rest of its event. -/
theorem flagsStayPending : Obligations.FlagsStayPending := by
  intro c s t h h1 h2 h3
  rcases exec_next h with ⟨v, rfl⟩ | ⟨_, rfl⟩ | ⟨_, _, u, hu, _, rfl⟩
  · exact absurd rfl (h3 v)
  · exact BitVec.and_self
  · exact flags_trans (work_flags s h1 h2) hu.flags

/-- Settles O12: the work of any other command keeps the record, and so does the rest of its event. -/
theorem captureKeepsFirstFault : Obligations.CaptureKeepsFirstFault := by
  intro c s t r h hr h1 h2 h3 h4
  by_cases h5 : ∃ v, c = .eventFlagsWrite v
  · obtain ⟨v, rfl⟩ := h5
    rcases exec_next h with ⟨_, hv⟩ | ⟨_, rfl⟩ | ⟨_, _, u, hu, _, rfl⟩
    · cases hv
    · exact ⟨r.further, hr⟩
    · exact hu.capture r hr
  · rcases exec_next h with ⟨v, rfl⟩ | ⟨_, rfl⟩ | ⟨_, _, u, hu, _, rfl⟩
    · exact absurd rfl (h4 v)
    · exact ⟨r.further, hr⟩
    · exact ((work_records s (fun v e => h5 ⟨v, e⟩) h2 h3 h1).trans hu.records).capture r hr

end Sys2Proof.Machine

/-! # Line numbers and message formats -/

namespace Sys2Proof.Machine

set_option Elab.async false

/-! ## Line numbers -/

theorem keyOf_toNat (l : Line) : (keyOf l).toNat = l.toNat / 2048 := by
  have := l.isLt
  rw [keyOf, BitVec.toNat_ofNat]
  omega

theorem lineOf_toNat (k : Key) (i : SetIx) : (lineOf k i).toNat = k.toNat * 2048 + i.val := by
  have := k.isLt
  have := i.isLt
  rw [lineOf, BitVec.toNat_ofNat]
  omega

theorem lineOf_keyOf_setOf (l : Line) : lineOf (keyOf l) (setOf l) = l := by
  apply BitVec.eq_of_toNat_eq
  rw [lineOf_toNat, keyOf_toNat]
  show l.toNat / 2048 * 2048 + l.toNat % 2048 = l.toNat
  omega

theorem keyOf_lineOf (k : Key) (i : SetIx) : keyOf (lineOf k i) = k := by
  have := i.isLt
  apply BitVec.eq_of_toNat_eq
  rw [keyOf_toNat, lineOf_toNat]
  omega

theorem setOf_lineOf (k : Key) (i : SetIx) : setOf (lineOf k i) = i := by
  have := i.isLt
  apply Fin.ext
  show (lineOf k i).toNat % 2048 = i.val
  rw [lineOf_toNat]
  omega

/-- Settles O14: quotient and remainder by 2048 determine a number, and are determined by it. -/
theorem lineNumberRoundTrip : Obligations.LineNumberRoundTrip :=
  ⟨fun l => ⟨lineOf_keyOf_setOf l, rfl, keyOf_toNat l⟩, fun k i => ⟨keyOf_lineOf k i, setOf_lineOf k i⟩⟩

/-! ## The bytes of an outbound message -/

theorem body_length (m : OutMsg) (k : Nat) : (m.body k).length = 10 := rfl

theorem frame_crcMatches (m : OutMsg) (k : Nat) : crcMatches (m.frame k) = true := by
  unfold crcMatches OutMsg.frame
  rw [decide_eq_true_eq, List.drop_left' (body_length m k), List.take_left' (body_length m k)]

theorem byteAt_frame_zero (m : OutMsg) (k : Nat) : byteAt (m.frame k) 0 = m.channel ++ m.kind := rfl

theorem byteAt_frame_one (m : OutMsg) (k : Nat) :
    byteAt (m.frame k) 1 = m.peer.code ++ (if m.rep then 0x8#4 else 0x0#4) := rfl

theorem byteAt_frame_seven (m : OutMsg) (k : Nat) : byteAt (m.frame k) 7 = m.p7.fill (Config.freeParameter k 7) := rfl

theorem byteAt_frame_eight (m : OutMsg) (k : Nat) : byteAt (m.frame k) 8 = m.p8.fill (Config.freeParameter k 8) := rfl

theorem byteAt_frame_nine (m : OutMsg) (k : Nat) : byteAt (m.frame k) 9 = m.p9.fill (Config.freeParameter k 9) := rfl

theorem extractLsb'_append_high {a b : Nat} (x : BitVec a) (y : BitVec b) : (x ++ y).extractLsb' b a = x := by
  apply BitVec.eq_of_getLsbD_eq
  intro i hi
  simp [BitVec.getLsbD_append, hi]

theorem extractLsb'_append_low {a b : Nat} (x : BitVec a) (y : BitVec b) : (x ++ y).extractLsb' 0 b = y := by
  apply BitVec.eq_of_getLsbD_eq
  intro i hi
  simp [BitVec.getLsbD_append, hi]

theorem channelField_frame (m : OutMsg) (k : Nat) : channelField (m.frame k) = m.channel := by
  rw [channelField, byteAt_frame_zero]
  exact extractLsb'_append_high m.channel m.kind

theorem kindField_frame (m : OutMsg) (k : Nat) : kindField (m.frame k) = m.kind.toNat := by
  rw [kindField, byteAt_frame_zero]
  exact congrArg BitVec.toNat (extractLsb'_append_low m.channel m.kind)

theorem peerField_frame (m : OutMsg) (k : Nat) : peerField (m.frame k) = m.peer.code := by
  rw [peerField, byteAt_frame_one]
  exact extractLsb'_append_high m.peer.code _

/-- The five bytes of a number below 2^40, read back (Table 11-2). -/
theorem foldl_lineBytes {v : Nat} (h : v < 2 ^ 40) : (lineBytes v).foldl (fun a b => a * 256 + b.toNat) 0 = v := by
  simp only [lineBytes, List.foldl_cons, List.foldl_nil, BitVec.toNat_ofNat]
  omega

theorem lineField_frame (m : OutMsg) (k : Nat) (h : m.line < 2 ^ 40) : lineField (m.frame k) = m.line :=
  foldl_lineBytes h

theorem fill_masked (p : ParamByte) (f : Byte) : p.fill f &&& p.mask = p.value &&& p.mask := by
  apply BitVec.eq_of_getLsbD_eq
  intro i _
  simp only [ParamByte.fill, BitVec.getLsbD_and, BitVec.getLsbD_or, BitVec.getLsbD_not]
  cases p.mask.getLsbD i <;> simp

/-- A bit the tables give a meaning has its value in the message. -/
theorem getLsbD_fill (p : ParamByte) (f : Byte) {i : Nat} (h : p.mask.getLsbD i = true) :
    (p.fill f).getLsbD i = p.value.getLsbD i := by
  simp [ParamByte.fill, h]

theorem fill_wholeParam (v f : Byte) : (wholeParam v).fill f = v := by
  apply BitVec.eq_of_getLsbD_eq
  intro i hi
  refine getLsbD_fill (wholeParam v) f ?_
  show (0xFF#8).getLsbD i = true
  interval_cases i <;> decide

/-- A field of the message all of whose bits have a meaning. -/
theorem extractLsb'_fill (p : ParamByte) (f : Byte) (start len : Nat) (h : ∀ i < len, p.mask.getLsbD (start + i) = true) :
    (p.fill f).extractLsb' start len = p.value.extractLsb' start len := by
  apply BitVec.eq_of_getLsbD_eq
  intro i hi
  rw [BitVec.getLsbD_extractLsb', BitVec.getLsbD_extractLsb', getLsbD_fill p f (h i hi)]

theorem node_low (n : Node) : ((BitVec.ofNat 8 n.val).extractLsb' 0 4).toNat = n.val := by
  revert n; decide

theorem fill_nodeParam (n : Node) (f : Byte) : (((nodeParam n).fill f).extractLsb' 0 4).toNat = n.val := by
  rw [extractLsb'_fill (nodeParam n) f 0 4 (by decide +revert)]
  exact node_low n

theorem fill_flagParam (b : Bool) (f : Byte) : ((flagParam b).fill f).getLsbD 0 = b := by
  rw [getLsbD_fill (flagParam b) f (by cases b <;> rfl)]
  cases b <;> rfl

/-! ## What an outbound message means -/

/-- Channel, kind code, peer, repeat flag and line field of a frame, with the reserved bits of byte 1 at 0. -/
def Means (f : List Byte) (channel kind peer : Nat) (rep : Bool) (line : Nat) : Prop :=
  (channelField f).toNat = channel ∧ kindField f = kind ∧ (peerField f).toNat = peer ∧ (byteAt f 1).getLsbD 3 = rep ∧
    (byteAt f 1).extractLsb' 0 3 = 0#3 ∧ lineField f = line

theorem repeat_bit (p : BitVec 4) (r : Bool) : (p ++ (if r then 0x8#4 else 0x0#4)).getLsbD 3 = r := by
  revert p r; decide

theorem repeat_rest (p : BitVec 4) (r : Bool) : (p ++ (if r then 0x8#4 else 0x0#4)).extractLsb' 0 3 = 0#3 := by
  revert p r; decide

theorem frame_means (m : OutMsg) (k : Nat) (h : m.line < 2 ^ 40) :
    Means (m.frame k) m.channel.toNat m.kind.toNat m.peer.code.toNat m.rep m.line := by
  refine ⟨by rw [channelField_frame], kindField_frame m k, by rw [peerField_frame], ?_, ?_, lineField_frame m k h⟩
  · rw [byteAt_frame_one]; exact repeat_bit _ _
  · rw [byteAt_frame_one]; exact repeat_rest _ _

theorem node_code (n : Node) : (Peer.node n).code.toNat = n.val := by
  revert n; decide

theorem line_lt (l : Line) : l.toNat < 2 ^ 40 := by
  have := l.isLt
  omega

theorem frame_means_node {m : OutMsg} {n : Node} {v : Nat} (k : Nat) (hp : m.peer = .node n) (hl : m.line = v)
    (hv : v < 2 ^ 40) : Means (m.frame k) m.channel.toNat m.kind.toNat n.val m.rep v := by
  have h := frame_means m k (by rw [hl]; exact hv)
  rwa [hp, node_code, hl] at h

theorem source_param (src : Source) (f : Byte) : match src with
    | .memory => (src.param.fill f).extractLsb' 6 2 = 0#2
    | .node q => (src.param.fill f).extractLsb' 6 2 = 1#2 ∧ ((src.param.fill f).extractLsb' 0 4).toNat = q.val
    | .noSource => (src.param.fill f).extractLsb' 6 2 = 2#2 := by
  cases src with
  | memory =>
    dsimp only
    rw [extractLsb'_fill _ f 6 2 (by decide)]; rfl
  | node q =>
    dsimp only
    rw [extractLsb'_fill _ f 6 2 (by decide +revert), extractLsb'_fill _ f 0 4 (by decide +revert)]
    revert q; decide
  | noSource =>
    dsimp only
    rw [extractLsb'_fill _ f 6 2 (by decide)]; rfl

/-- Settles O15: each order and answer is a frame whose masked bits have the values its fields give. -/
theorem outboundFrames : Obligations.OutboundFrames := by
  constructor
  · intro m k
    refine ⟨rfl, frame_crcMatches m k, channelField_frame m k, kindField_frame m k, peerField_frame m k,
      lineField_frame m k, rfl, ?_, ?_, ?_⟩
    · rw [byteAt_frame_seven]; exact fill_masked _ _
    · rw [byteAt_frame_eight]; exact fill_masked _ _
    · rw [byteAt_frame_nine]; exact fill_masked _ _
  · intro k n d l i r
    have hl := line_lt l
    have hi : i.val < 2 ^ 40 := by have := i.isLt; omega
    refine ⟨frame_means_node k rfl rfl hl, frame_means_node k rfl rfl hl, frame_means_node k rfl rfl hi, fun m => ?_, ?_,
      fun p src u => ?_, fun q e => ?_, fun e => ⟨?_, ?_⟩, ?_, ?_, frame_means_node k rfl rfl (by decide)⟩
    · exact ⟨frame_means_node k rfl rfl hl, fill_nodeParam d _, (fill_wholeParam _ _).trans (by cases m <;> rfl)⟩
    · exact ⟨frame_means _ k hl, fill_nodeParam d _⟩
    · exact ⟨frame_means_node k rfl rfl hl, (fill_wholeParam _ _).trans (by cases p <;> rfl), source_param src _,
        fill_flagParam u _⟩
    · refine ⟨frame_means_node k rfl rfl hl, (fill_wholeParam _ _).trans ?_, (fill_wholeParam _ _).trans ?_⟩
      · cases q with
        | request j => cases j <;> rfl
        | leave => rfl
      · cases e <;> rfl
    · exact ⟨frame_means_node k rfl rfl hl, fill_flagParam e _⟩
    · exact ⟨frame_means_node k rfl rfl hl, fill_flagParam e _⟩
    · exact ⟨frame_means_node k rfl rfl (by decide), fill_wholeParam _ _⟩
    · exact ⟨frame_means _ k (by decide), fill_wholeParam _ _⟩

/-! ## Reading inbound messages -/

theorem lineOfField_toNat (l : Line) : lineOfField l.toNat = some l := by
  rw [lineOfField, if_pos l.isLt, BitVec.ofNat_toNat, BitVec.setWidth_eq]

theorem lineOfField_isSome (v : Nat) : (lineOfField v).isSome = true ↔ v ≤ 0x3FFFFFFFF := by
  rw [lineOfField]
  split <;> simp <;> omega

theorem peerOf_node (n : Node) : peerOf (BitVec.ofNat 4 n.val) = some (.node n) := by
  revert n; decide

/-- The fields of a message whose bytes are written out. -/
theorem readRequest_bytes (h p a : Byte) (v : Nat) (rest : List Byte) (q : Peer)
    (hp : peerOf (p.extractLsb' 4 4) = some q) (hv : v < 2 ^ 40) :
    readRequest ([h, p] ++ lineBytes v ++ [a] ++ rest) =
      if h.extractLsb' 6 2 = 0#2 then parseRequest (h.extractLsb' 0 6).toNat q v else none := by
  have e : lineField ([h, p] ++ lineBytes v ++ [a] ++ rest) = v := foldl_lineBytes hv
  have ep : peerOf (peerField ([h, p] ++ lineBytes v ++ [a] ++ rest)) = some q := hp
  rw [readRequest, ep, e]
  rfl

theorem readReply_bytes (h p a : Byte) (v : Nat) (rest : List Byte) (q : Peer)
    (hp : peerOf (p.extractLsb' 4 4) = some q) (hv : v < 2 ^ 40) :
    readReply ([h, p] ++ lineBytes v ++ [a] ++ rest) =
      if h.extractLsb' 6 2 = 1#2 then parseReply (h.extractLsb' 0 6).toNat q v a else none := by
  have e : lineField ([h, p] ++ lineBytes v ++ [a] ++ rest) = v := foldl_lineBytes hv
  have ep : peerOf (peerField ([h, p] ++ lineBytes v ++ [a] ++ rest)) = some q := hp
  rw [readReply, ep, e]
  rfl

/-- A line field of any value: what is read does not look at it past its 40 bits. -/
theorem lineField_lineBytes (h p a : Byte) (v : Nat) (rest : List Byte) :
    lineField ([h, p] ++ lineBytes v ++ [a] ++ rest) = (lineBytes v).foldl (fun a b => a * 256 + b.toNat) 0 := rfl

theorem peerOf_nodeByte (n : Node) (x : BitVec 4) : peerOf ((BitVec.ofNat 4 n.val ++ x).extractLsb' 4 4) = some (.node n) := by
  rw [extractLsb'_append_high]; exact peerOf_node n

theorem peerOf_memByte (x : BitVec 4) : peerOf ((15#4 ++ x).extractLsb' 4 4) = some .memory := by
  rw [extractLsb'_append_high]; rfl

theorem nodeOfField_append (n : Node) (x : BitVec 4) : nodeOfField (x ++ BitVec.ofNat 4 n.val) = some n := by
  have h : ((x ++ BitVec.ofNat 4 n.val).extractLsb' 0 4).toNat = n.val := by
    rw [extractLsb'_append_low]
    exact node_code n
  have hn := n.isLt
  rw [nodeOfField]
  simp only [h, hn, dite_true, Fin.eta]

/-- HELLO and LEAVE, whose line field is not read. -/
theorem readRequest_membership (h p a : Byte) (v : Nat) (rest : List Byte) (q : Peer)
    (hp : peerOf (p.extractLsb' 4 4) = some q) :
    readRequest ([h, p] ++ lineBytes v ++ [a] ++ rest) =
      if h.extractLsb' 6 2 = 0#2 then
        parseRequest (h.extractLsb' 0 6).toNat q ((lineBytes v).foldl (fun a b => a * 256 + b.toNat) 0) else none := by
  have ep : peerOf (peerField ([h, p] ++ lineBytes v ++ [a] ++ rest)) = some q := hp
  rw [readRequest, ep, lineField_lineBytes]
  rfl

/-- Settles O16: the fields are read back from the bytes, and the parser's branch is the kind's. -/
theorem inboundMessagesAreRead : Obligations.InboundMessagesAreRead := by
  intro n l x a b c tail node mem line rest
  have hl := line_lt l
  have hn : peerOf (node.extractLsb' 4 4) = some (.node n) := peerOf_nodeByte n x
  have hm : peerOf (mem.extractLsb' 4 4) = some .memory := peerOf_memByte x
  have hf := lineOfField_toNat l
  refine ⟨fun k => ?_, fun v => ⟨?_, ?_, ?_⟩, ?_, fun r => ⟨?_, ?_⟩, fun i d hd => ?_, ?_, ?_, ?_, ?_⟩
  · rw [readRequest_bytes _ _ _ _ _ _ hn hl]
    cases k <;> simp [ReqKind.code, parseRequest, hf]
  · rw [readRequest_membership _ _ _ _ _ _ hn]; rfl
  · rw [readRequest_membership _ _ _ _ _ _ hm]; rfl
  · rw [readRequest_membership _ _ _ _ _ _ hn]; rfl
  · rw [readReply_bytes _ _ _ _ _ _ hn hl]
    simp [parseReply, hf]
  · rw [readReply_bytes _ _ _ _ _ _ hn hl]
    cases r <;> simp [parseReply, hf, resultOf]
  · rw [readReply_bytes _ _ _ _ _ _ hn hl]
    cases r <;> simp [parseReply, hf, resultOf]
  · have hi : i.val < 2 ^ 40 := by have := i.isLt; omega
    rw [readReply_bytes _ _ _ _ _ _ hn hi]
    have hd' : d % 256 = d := by omega
    simp [parseReply, hd', hd]
  · rw [readReply_bytes _ _ _ _ _ _ hn hl]
    simp [parseReply, hf]
  · rw [readReply_bytes _ _ _ _ _ _ hm hl]
    simp [parseReply, hf]
  · rw [readReply_bytes _ _ _ _ _ _ hm hl]
    simp [parseReply, hf]
  · rw [readReply_bytes _ _ _ _ _ _ hm hl]
    simp [parseReply, hf, nodeOfField_append]

/-! ## The format check -/

theorem resultOf_isSome (b : Byte) : (resultOf b).isSome = true ↔ b.toNat ≤ 2 := by
  revert b; decide

theorem nodeOfField_isSome (b : Byte) : (nodeOfField b).isSome = true ↔ b.toNat % 16 ≤ 7 := by
  revert b; decide

/-- A peer identifier names a node, the memory agent, or no partner. -/
theorem peerOf_cases (p : BitVec 4) : (∃ n, peerOf p = some (.node n) ∧ p.toNat < 8) ∨
    (peerOf p = some .memory ∧ p.toNat = 15) ∨ (peerOf p = none ∧ 8 ≤ p.toNat ∧ p.toNat ≠ 15) := by
  revert p; decide

theorem parseRequest_node_isSome (k l : Nat) (n : Node) : (parseRequest k (.node n) l).isSome = true ↔
    (1 ≤ k ∧ k ≤ 5 ∧ l ≤ 0x3FFFFFFFF) ∨ k = 8 ∨ k = 9 := by
  have hl := lineOfField_isSome l
  unfold parseRequest
  dsimp only
  split <;> simp [hl]
  grind

theorem parseRequest_memory_isSome (k l : Nat) : (parseRequest k .memory l).isSome = true ↔ k = 8 := by
  unfold parseRequest
  dsimp only
  split <;> simp_all

theorem parseReply_node_isSome (k l : Nat) (n : Node) (b : Byte) : (parseReply k (.node n) l b).isSome = true ↔
    ((k = 1 ∨ k = 5) ∧ l ≤ 0x3FFFFFFFF) ∨ ((k = 2 ∨ k = 3) ∧ l ≤ 0x3FFFFFFFF ∧ b.toNat ≤ 2) ∨
      (k = 4 ∧ l ≤ 2047 ∧ b.toNat ≤ 16) := by
  have hl := lineOfField_isSome l
  have hr := resultOf_isSome b
  unfold parseReply
  dsimp only
  split
  · simp [hl]
  · generalize lineOfField l = x, resultOf b = y at hl hr ⊢
    cases x <;> cases y <;> simp at hl hr ⊢ <;> omega
  · generalize lineOfField l = x, resultOf b = y at hl hr ⊢
    cases x <;> cases y <;> simp at hl hr ⊢ <;> omega
  · split
    · split <;> simp <;> omega
    · simp; omega
  · simp [hl]
  · simp; grind

theorem parseReply_memory_isSome (k l : Nat) (b : Byte) : (parseReply k .memory l b).isSome = true ↔
    ((k = 6 ∨ k = 7) ∧ l ≤ 0x3FFFFFFFF) ∨ (k = 8 ∧ l ≤ 0x3FFFFFFFF ∧ b.toNat % 16 ≤ 7) := by
  have hl := lineOfField_isSome l
  have hr := nodeOfField_isSome b
  unfold parseReply
  dsimp only
  split
  · simp [hl]
  · simp [hl]
  · generalize lineOfField l = x, nodeOfField b = y at hl hr ⊢
    cases x <;> cases y <;> simp at hl hr ⊢ <;> omega
  · simp; grind

/-- The REQUEST channel reads what its channel field and its parser admit of a partner's message. -/
theorem readRequest_isSome {m : List Byte} {q : Peer} (h : peerOf (peerField m) = some q) :
    (readRequest m).isSome = true ↔
      channelField m = 0#2 ∧ (parseRequest (kindField m) q (lineField m)).isSome = true := by
  rw [readRequest, h]
  show (if channelField m = 0#2 then _ else none).isSome = true ↔ _
  split <;> simp [*]

theorem readReply_isSome {m : List Byte} {q : Peer} (h : peerOf (peerField m) = some q) :
    (readReply m).isSome = true ↔
      channelField m = 1#2 ∧ (parseReply (kindField m) q (lineField m) (byteAt m 7)).isSome = true := by
  rw [readReply, h]
  show (if channelField m = 1#2 then _ else none).isSome = true ↔ _
  split <;> simp [*]

/-- Settles O17: the partner a peer identifier names decides which kinds the channel's parser takes. -/
theorem formatCheck : Obligations.FormatCheck := by
  intro m p k l b
  rcases peerOf_cases (peerField m) with ⟨n, e, hp⟩ | ⟨e, hp⟩ | ⟨e, hp, hp'⟩
  · have hp' : ¬p = 15 := by omega
    rw [readRequest_isSome e, readReply_isSome e, parseRequest_node_isSome, parseReply_node_isSome]
    exact ⟨by tauto, by tauto⟩
  · have hp' : ¬p < 8 := by omega
    rw [readRequest_isSome e, readReply_isSome e, parseRequest_memory_isSome, parseReply_memory_isSome]
    exact ⟨by tauto, by tauto⟩
  · have hp8 : ¬p < 8 := by omega
    have hn : readRequest m = none := by rw [readRequest, e]
    have hr : readReply m = none := by rw [readReply, e]
    rw [hn, hr]
    constructor <;> simp [hp8, show ¬p = 15 from hp']

end Sys2Proof.Machine

/-! # The Fabric Port -/

namespace Sys2Proof.Machine

set_option Elab.async false

/-! ## What settling does between two events -/

/-- The walks, rebuilds and jobs have nothing to do: what is left of settling is the placing of held messages. -/
structure State.WalksRest (s : State) : Prop where
  rebuild : s.readyRebuild = none
  due : s.dueSets = [] ∨ s.lowestFree = none
  purge : s.purgeReady = false
  maint : s.maintReady = false
  ending : s.maintEnding = none
  done : s.doneNode = none

theorem settled_iff_walksRest (s : State) :
    s.settled = true ↔ s.WalksRest ∧ s.placeHeldOrder = none ∧ s.placeHeldAnswer = none := by
  rw [settled_iff]
  constructor
  · rintro ⟨h1, h2, h3, h4, h5, h6, h7, h8⟩
    exact ⟨⟨h1, h2, h3, h4, h7, h8⟩, h5, h6⟩
  · rintro ⟨⟨h1, h2, h3, h4, h7, h8⟩, h5, h6⟩
    exact ⟨h1, h2, h3, h4, h5, h6, h7, h8⟩

/-- Slots that settling reads alike, the same directory, windows and jobs: the walks rest still. -/
theorem State.WalksRest.congr {s s' : State} (h : s.WalksRest)
    (hslots : ∀ t, (s'.getSlot t).map Slot.settling = (s.getSlot t).map Slot.settling)
    (hdir : s'.dir = s.dir := by rfl) (hwin : s'.windows = s.windows := by rfl) (hpos : s'.purgePos = s.purgePos := by rfl)
    (hjobs : s'.purgeJobs = s.purgeJobs := by rfl) (hstep : s'.purgeStep = s.purgeStep := by rfl)
    (hmaint : s'.maint = s.maint := by rfl) (hmstep : s'.maintStep = s.maintStep := by rfl)
    (hscrub : s'.scrubPos = s.scrubPos := by rfl) : s'.WalksRest where
  rebuild := (readyRebuild_of_settling hslots).trans h.rebuild
  due := by
    rw [dueSets_of_settling hslots hdir, lowestFree_of_settling hslots]
    exact h.due
  purge := (purgeReady_of_settling hslots hdir hpos hstep).trans h.purge
  maint := by
    have hm := h.maint
    rw [maintReady_eq_false_iff] at hm ⊢
    intro j ways hj hways
    rw [hmaint] at hj
    rw [hmstep] at hways
    obtain ⟨q, rest, hcons, hroom, hopens⟩ := hm j ways hj hways
    have hset : s'.maintSet j = s.maintSet j := by unfold State.maintSet; rw [hscrub]
    exact ⟨q, rest, hcons, (walkRoom_of_settling hslots).trans hroom, by
      rw [hset, maintAction_of_settling hslots hdir hwin rfl rfl]; exact hopens⟩
  ending := by
    have he := h.ending
    rw [maintEnding_none_iff] at he ⊢
    rw [hmaint]
    unfold State.anyFrozen
    rw [hdir]
    exact he
  done := by
    have hfrozen : s'.anyFrozen = s.anyFrozen := by unfold State.anyFrozen; rw [hdir]
    have hdone : s'.purgeDone = s.purgeDone := by
      funext n
      unfold State.purgeDone State.getJob
      rw [hjobs, hfrozen]
    have hd := h.done
    unfold State.doneNode at hd ⊢
    rw [hdone]
    exact hd

/-- The same slots as well. -/
theorem State.WalksRest.same {s s' : State} (h : s.WalksRest) (hslots : s'.slots = s.slots := by rfl)
    (hdir : s'.dir = s.dir := by rfl) (hwin : s'.windows = s.windows := by rfl) (hpos : s'.purgePos = s.purgePos := by rfl)
    (hjobs : s'.purgeJobs = s.purgeJobs := by rfl) (hstep : s'.purgeStep = s.purgeStep := by rfl)
    (hmaint : s'.maint = s.maint := by rfl) (hmstep : s'.maintStep = s.maintStep := by rfl)
    (hscrub : s'.scrubPos = s.scrubPos := by rfl) : s'.WalksRest :=
  h.congr (fun t => by unfold State.getSlot; rw [hslots]) hdir hwin hpos hjobs hstep hmaint hmstep hscrub

theorem placeHeldOrder_of_empty {s : State} (h : s.orderHeld = []) : s.placeHeldOrder = none :=
  (placeHeldOrder_none_iff s).2 (.inl h)

theorem placeHeldAnswer_of_empty {s : State} (h : s.answerHeld = []) : s.placeHeldAnswer = none :=
  (placeHeldAnswer_none_iff s).2 (.inl h)

theorem Ready.walksRest {s : State} (h : s.Ready) : s.WalksRest := ((settled_iff_walksRest s).1 h.2).1

/-- Nothing is held for room and the walks rest. -/
theorem settled_of_unheld {s : State} (h : s.WalksRest) (ho : s.orderHeld = []) (ha : s.answerHeld = []) :
    s.settled = true :=
  (settled_iff_walksRest s).2 ⟨h, placeHeldOrder_of_empty ho, placeHeldAnswer_of_empty ha⟩

/-- With the walks at rest, settling places the longest-held round there is room for. -/
theorem settleStep_placeHeldOrder {s u : State} (h : s.WalksRest) (hp : s.placeHeldOrder = some u) :
    s.settleStep = some (u, []) := by
  unfold State.settleStep
  rw [h.rebuild]
  rcases h.due with hd | hd <;> simp [hd, h.purge, h.maint, hp]

/-- An event whose settling places one held round. -/
theorem event_placeHeldOrder {s s' u : State} (hs : s.resetN = .high) (h : s'.WalksRest) (hp : s'.placeHeldOrder = some u)
    (hu : u.settled = true) : s.event (s', []) = .next u.driveEventN := by
  rw [event_running hs]
  refine conclude_of_drain (k := 2) (by decide) ?_
  have hc : Task.carryOut .settle s' = (u, [.settle]) := by
    simp [Task.carryOut, settleStep_placeHeldOrder h hp]
  rw [List.nil_append, drain_cons, hc]
  exact drain_settle hu 0

/-! ## Messages in (O18) -/

/-- What a message arriving on a channel with room does. -/
def State.receive (s : State) (ch : InChannel) (m : List Byte) : State :=
  match ch with
  | .request => s.receiveRequest m
  | .reply => s.receiveReply m

theorem exec_linkMessageReceived {s : State} (m : List Byte) (hup : s.link = .up) (hm : m.length = 12) (ch : InChannel)
    (hreq : ch = .request → s.reqIntake.length < 16) (hrep : ch = .reply → s.replyIntake.length < 16) :
    exec (.linkMessageReceived ch m) s =
      s.event (s.receive ch m, []) := by
  show execLinkMessageReceived ch m s = _
  unfold execLinkMessageReceived
  rw [if_pos ⟨hup, hm⟩]
  cases ch with
  | request => exact congrArg s.event (if_pos (hreq rfl))
  | reply => exact congrArg s.event (if_pos (hrep rfl))

theorem crcMatches_iff (m : List Byte) : crcMatches m = true ↔ m.drop 10 = bytes16 (crc16 (m.take 10)) := decide_eq_true_iff

theorem receive_of_mismatch (s : State) {m : List Byte} (h : crcMatches m = false) (ch : InChannel) :
    s.receive ch m = s.countLinkCheck := by
  cases ch
  · simp [State.receive, State.receiveRequest, h]
  · simp [State.receive, State.receiveReply, h]

/-- A fault takes an empty capture record, or counts. -/
theorem fault_capture (s : State) (c : Cause) (f : FaultFields) : (s.fault c f).capture = captured s.capture c f := by
  unfold State.fault captured
  cases s.capture <;> rfl

/-- A fault changes the capture record alone. -/
theorem fault_eq (s : State) (c : Cause) (f : FaultFields) : s.fault c f = { s with capture := captured s.capture c f } := by
  unfold State.fault captured
  cases s.capture <;> rfl

/-- The nodes after a malformed message: the node it names counts a violation. -/
theorem malformed_getNode (s : State) (m : List Byte) (k : Node) : (s.malformed m).getNode k =
    if (peerField m).toNat = k.val then { s.getNode k with violations := satInc (s.getNode k).violations }
    else s.getNode k := by
  unfold State.malformed
  rw [fault_eq]
  rcases peerOf_cases (peerField m) with ⟨n, e, hp⟩ | ⟨e, hp⟩ | ⟨e, hp, hp'⟩
  · rw [e]
    show ((s.countViolation n).getNode k) = _
    have hn : (peerField m).toNat = n.val := by
      have : (⟨(peerField m).toNat, hp⟩ : Node) = n := by
        rw [peerOf, dif_pos hp] at e
        exact Peer.node.inj (Option.some.inj e)
      rw [← this]
    rw [hn, State.countViolation, getNode_modNode]
    by_cases hk : k = n
    · subst hk; simp
    · have hk' : ¬n.val = k.val := fun h => hk (Fin.ext h.symm)
      rw [if_neg hk, if_neg hk']
  · have hk : ¬(peerField m).toNat = k.val := by have := k.isLt; omega
    rw [e, if_neg hk]; rfl
  · have hk : ¬(peerField m).toNat = k.val := by have := k.isLt; omega
    rw [e, if_neg hk]; rfl

theorem malformed_flags (s : State) (m : List Byte) : (s.malformed m).flags = s.flags ||| 0x0200#16 := by
  unfold State.malformed
  rw [fault_eq]
  rcases peerOf_cases (peerField m) with ⟨n, e, _⟩ | ⟨e, _⟩ | ⟨e, _⟩ <;> rw [e] <;> rfl

theorem malformed_capture (s : State) (m : List Byte) : (s.malformed m).capture =
    captured s.capture .violation { noFields with line := malformedLine m, node := peerOf (peerField m) } := by
  unfold State.malformed
  rw [fault_eq]
  rcases peerOf_cases (peerField m) with ⟨n, e, _⟩ | ⟨e, _⟩ | ⟨e, _⟩ <;> rw [e] <;> rfl

/-- A malformed message changes flags, nodes and capture record alone. -/
theorem malformed_eq (s : State) (m : List Byte) : s.malformed m = { s with
    flags := (s.malformed m).flags, nodes := (s.malformed m).nodes, capture := (s.malformed m).capture } := by
  unfold State.malformed
  rw [fault_eq]
  rcases peerOf_cases (peerField m) with ⟨n, e, _⟩ | ⟨e, _⟩ | ⟨e, _⟩ <;> rw [e] <;> rfl

theorem malformed_settled {s : State} (m : List Byte) (h : s.settled = true) : (s.malformed m).settled = true := by
  rw [malformed_eq]
  exact settled_of_same h

theorem receive_request {s : State} {m : List Byte} {q : ReqMsg} (h : crcMatches m = true)
    (hq : readRequest m = some q) : s.receive .request m = { s with reqIntake := s.reqIntake ++ [q] } := by
  simp [State.receive, State.receiveRequest, h, hq]

theorem receive_reply {s : State} {m : List Byte} {q : ReplyMsg} (h : crcMatches m = true)
    (hq : readReply m = some q) : s.receive .reply m = { s with replyIntake := s.replyIntake ++ [q] } := by
  simp [State.receive, State.receiveReply, h, hq]

theorem receive_malformed (s : State) {m : List Byte} {ch : InChannel} (h : crcMatches m = true)
    (hreq : ch = .request → readRequest m = none) (hrep : ch = .reply → readReply m = none) :
    s.receive ch m = s.malformed m := by
  cases ch
  · simp [State.receive, State.receiveRequest, h, hreq rfl]
  · simp [State.receive, State.receiveReply, h, hrep rfl]

/-- Settles O18: the message check, then what the channel's reader makes of the message. -/
theorem linkMessagesAreChecked : Obligations.LinkMessagesAreChecked := by
  intro s ch m hs hup hm hreq hrep c
  obtain ⟨hreset, hsettled⟩ := hs
  have hexec := exec_linkMessageReceived m hup hm ch hreq hrep
  refine ⟨fun hcrc => ?_, fun hcrc => ⟨fun q hch hq => ?_, fun q hch hq => ?_, fun hr hp => ?_⟩⟩
  · have hcrc' : crcMatches m = false := Bool.eq_false_iff.2 fun h => hcrc ((crcMatches_iff m).1 h)
    rw [hexec, receive_of_mismatch s hcrc']
    exact event_settled hreset (settled_of_same hsettled)
  · subst hch
    rw [hexec, receive_request ((crcMatches_iff m).2 hcrc) hq]
    exact event_settled hreset (settled_of_same hsettled)
  · subst hch
    rw [hexec, receive_reply ((crcMatches_iff m).2 hcrc) hq]
    exact event_settled hreset (settled_of_same hsettled)
  · refine ⟨(s.malformed m).driveEventN, ?_, malformed_flags s m, malformed_getNode s m, malformed_capture s m, ?_⟩
    · rw [hexec, receive_malformed s ((crcMatches_iff m).2 hcrc) hr hp]
      exact event_settled hreset (malformed_settled m hsettled)
    · exact congrArg State.driveEventN (malformed_eq s m)

/-! ## Messages out (O19) -/

theorem exec_outboundSend (q : OutQueue) (s : State) : exec (.outboundSend q) s = execOutboundSend q s := rfl

theorem exec_outboundSend_order {s : State} {o : Order} {rest : List Order} (hup : s.link = .up)
    (hq : s.orderQ = o :: rest) :
    exec (.outboundSend .order) s = s.event (({ s with orderQ := rest } : State).transmit o.message, []) := by
  rw [exec_outboundSend, execOutboundSend, if_pos hup, hq]

theorem exec_outboundSend_answer {s : State} {a : Answer} {rest : List Answer} (hup : s.link = .up)
    (hq : s.answerQ = a :: rest) :
    exec (.outboundSend .answer) s = s.event (({ s with answerQ := rest } : State).transmit a.message, []) := by
  rw [exec_outboundSend, execOutboundSend, if_pos hup, hq]

/-- A link that is not UP, or an empty queue, sends nothing. -/
theorem exec_outboundSend_nothing {s : State} {q : OutQueue}
    (h : s.link ≠ .up ∨ (q = .order ∧ s.orderQ = []) ∨ (q = .answer ∧ s.answerQ = [])) :
    exec (.outboundSend q) s = s.event (s, []) := by
  rw [exec_outboundSend]
  unfold execOutboundSend
  rcases h with h | ⟨rfl, h⟩ | ⟨rfl, h⟩
  · rw [if_neg h]
  · rw [h]; split <;> rfl
  · rw [h]; split <;> rfl

theorem placeHeldOrder_left {s : State} {h : Option SlotIx} {os : List Order} (hheld : s.orderHeld = [.left h os])
    (hroom : s.orderQ.length + os.length ≤ 64) :
    s.placeHeldOrder = some { s with orderQ := s.orderQ ++ os, orderHeld := [] } := by
  have hr : s.orderRoom os = true := decide_eq_true hroom
  simp [State.placeHeldOrder, hheld, hr]

/-- The placing of a round of a transaction that rebuilds nothing. -/
theorem roundPlaced_of_plain {s : State} {t : SlotIx} {x : Slot} (fresh : Bool) (hx : s.getSlot t = some x)
    (hr : x.rebuild = none) : s.roundPlaced t fresh = s.putSlot t (some { x with
      pending := none
      timer := some s.limits.orderTimeout.toNat
      retriesLeft := if fresh then s.limits.retryLimit.toNat else x.retriesLeft }) := by
  unfold State.roundPlaced State.modSlot
  rw [hx]
  dsimp only
  rw [hr]
  obtain ⟨⟩ := x
  subst hr
  rfl

theorem placeHeldOrder_slot {s : State} {t : SlotIx} {x : Slot} {os : List Order} {fresh : Bool}
    (hheld : s.orderHeld = [.slot t]) (hx : s.getSlot t = some x) (hp : x.pending = some (.round os fresh))
    (hr : x.rebuild = none) (hroom : s.orderQ.length + os.length ≤ 64) :
    s.placeHeldOrder = some { s.putSlot t (some { x with
        pending := none
        timer := some s.limits.orderTimeout.toNat
        retriesLeft := if fresh then s.limits.retryLimit.toNat else x.retriesLeft }) with
      orderQ := s.orderQ ++ os, orderHeld := [] } := by
  have hroom' : s.orderRoom os = true := decide_eq_true hroom
  have hplaced := roundPlaced_of_plain (s := { s with orderQ := s.orderQ ++ os, orderHeld := [] }) fresh hx hr
  unfold State.placeHeldOrder
  rw [hheld]
  dsimp only
  rw [hx, Option.bind_some, hp]
  dsimp only
  rw [if_pos hroom', hplaced]
  rfl

/-- A change of a slot's record in none of what settling reads. -/
theorem putSlot_settling {s : State} {t : SlotIx} {x y : Slot} (hx : s.getSlot t = some x)
    (hxy : y.settling = x.settling) (u : SlotIx) :
    ((s.putSlot t (some y)).getSlot u).map Slot.settling = (s.getSlot u).map Slot.settling := by
  rw [getSlot_putSlot]
  split
  · rename_i h
    rw [h, hx, Option.map_some, Option.map_some, hxy]
  · rfl

/-- Settles O19: the head leaves the queue, and the room it makes is the held round's. -/
theorem outboundQueuesDrain : Obligations.OutboundQueuesDrain := by
  intro s hs
  have hw := Ready.walksRest hs
  obtain ⟨hreset, hsettled⟩ := hs
  obtain ⟨-, hno, hna⟩ := (settled_iff_walksRest s).1 hsettled
  refine ⟨fun o rest hup hq hheld => ?_, fun a rest hup hq hheld => ?_,
    fun o rest os t x fresh hup hq hheld ha hx hp hr hroom => ?_, fun o rest os h hup hq hheld ha hroom => ?_,
    fun q h => ?_⟩
  · rw [exec_outboundSend_order hup hq]
    refine event_settled hreset ((settled_iff_walksRest _).2 ⟨hw.same, placeHeldOrder_of_empty hheld, ?_⟩)
    exact (placeHeldAnswer_none_iff _).2 ((placeHeldAnswer_none_iff s).1 hna)
  · rw [exec_outboundSend_answer hup hq]
    refine event_settled hreset ((settled_iff_walksRest _).2 ⟨hw.same, ?_, placeHeldAnswer_of_empty hheld⟩)
    exact (placeHeldOrder_none_iff _).2 ((placeHeldOrder_none_iff s).1 hno)
  · rw [exec_outboundSend_order hup hq]
    have hplace := placeHeldOrder_slot (s := ({ s with orderQ := rest } : State).transmit o.message) hheld hx hp hr hroom
    refine event_placeHeldOrder hreset hw.same hplace (settled_of_unheld (hw.congr ?_) rfl ha)
    exact putSlot_settling hx rfl
  · rw [exec_outboundSend_order hup hq]
    have hplace := placeHeldOrder_left (s := ({ s with orderQ := rest } : State).transmit o.message) hheld hroom
    exact event_placeHeldOrder hreset hw.same hplace (settled_of_unheld hw.same rfl ha)
  · rw [exec_outboundSend_nothing h]
    exact event_settled hreset hsettled

/-! ## The link (O20) -/

/-- Settles O20: each event changes the link's state from its own state alone, and leaving UP empties the queues. -/
theorem linkStates : Obligations.LinkStates := by
  intro s hs
  have hw := Ready.walksRest hs
  obtain ⟨hreset, hsettled⟩ := hs
  refine ⟨?_, ?_, ?_, fun hl => ?_, fun hl ho ha => ?_⟩
  · show execSignalDetected s = _
    unfold execSignalDetected
    split
    exacts [event_settled hreset (settled_of_same hsettled), event_settled hreset hsettled]
  · show execTrainingComplete s = _
    unfold execTrainingComplete
    split
    exacts [event_settled hreset (settled_of_same hsettled), event_settled hreset hsettled]
  · show execTrainingFailed s = _
    unfold execTrainingFailed
    split
    exacts [event_settled hreset (settled_of_same hsettled), event_settled hreset hsettled]
  · show execLossOfTraining s = _
    unfold execLossOfTraining
    rw [if_neg hl]
    exact event_settled hreset hsettled
  · show execLossOfTraining s = _
    unfold execLossOfTraining
    rw [if_pos hl]
    exact event_settled hreset (settled_of_unheld hw.same ho ha)

end Sys2Proof.Machine

/-! # The Management Port's registers and mailbox -/

namespace Sys2Proof.Machine

set_option Elab.async false

/-! ## Limits (O21) -/

/-- A change of the maintenance job with no set step in hand: the walks rest where the job is not at its end. -/
theorem State.WalksRest.withMaint {s s' : State} (h : s.WalksRest) (hmstep : s'.maintStep = none)
    (hending : s'.maintEnding = none) (hslots : s'.slots = s.slots := by rfl) (hdir : s'.dir = s.dir := by rfl)
    (hpos : s'.purgePos = s.purgePos := by rfl) (hjobs : s'.purgeJobs = s.purgeJobs := by rfl)
    (hstep : s'.purgeStep = s.purgeStep := by rfl) : s'.WalksRest := by
  have hget : ∀ t, (s'.getSlot t).map Slot.settling = (s.getSlot t).map Slot.settling := fun t => by
    unfold State.getSlot; rw [hslots]
  refine ⟨(readyRebuild_of_settling hget).trans h.rebuild, ?_, (purgeReady_of_settling hget hdir hpos hstep).trans h.purge,
    ?_, hending, ?_⟩
  · rw [dueSets_of_settling hget hdir, lowestFree_of_settling hget]
    exact h.due
  · unfold State.maintReady
    rw [hmstep]
    cases s'.maint <;> rfl
  · have hfrozen : s'.anyFrozen = s.anyFrozen := by unfold State.anyFrozen; rw [hdir]
    have hdone : s'.purgeDone = s.purgeDone := by
      funext n
      unfold State.purgeDone State.getJob
      rw [hjobs, hfrozen]
    have hd := h.done
    unfold State.doneNode at hd ⊢
    rw [hdone]
    exact hd

/-- With the walks at rest, the messages held and the queues as before, a change elsewhere leaves the part settled. -/
theorem settled_of_walksRest {s s' : State} (hs : s.settled = true) (h : s'.WalksRest) (hslots : s'.slots = s.slots := by rfl)
    (h1 : s'.orderQ = s.orderQ := by rfl) (h2 : s'.answerQ = s.answerQ := by rfl)
    (h3 : s'.orderHeld = s.orderHeld := by rfl) (h4 : s'.answerHeld = s.answerHeld := by rfl) : s'.settled = true := by
  obtain ⟨-, ho, ha⟩ := (settled_iff_walksRest s).1 hs
  refine (settled_iff_walksRest s').2 ⟨h, ?_, ?_⟩
  · rw [placeHeldOrder_none_iff] at ho ⊢
    unfold State.getSlot State.orderRoom at ho ⊢
    rw [hslots, h1, h3]
    exact ho
  · rw [placeHeldAnswer_none_iff] at ha ⊢
    unfold State.roundHeld at ha ⊢
    rw [h2, h3, h4]
    exact ha

theorem maintEnding_of_none {s : State} (h : s.maint = none) : s.maintEnding = none :=
  (maintEnding_none_iff s).2 fun j hj => by rw [h] at hj; cases hj

theorem maintEnding_of_running {s : State} {j : MaintJob} (h : s.maint = some j) (hr : j.run = .running) :
    s.maintEnding = none := by
  unfold State.maintEnding
  rw [h]
  dsimp only
  rw [hr]

/-- Where no slot is counted by a maintenance job, the job's end changes no slot. -/
theorem uncount_of_noneCounted {s : State} (h : s.noneCounted) : s.uncount = s := by
  have hslots : s.uncount.slots = s.slots := by
    refine slots_ext fun t => ?_
    show s.uncount.getSlot t = s.getSlot t
    unfold State.uncount
    rw [getSlot_modSlots]
    cases hx : s.getSlot t with
    | none => rfl
    | some x =>
      rw [Option.map_some]
      by_cases hk : x.kind = .leaveRecall
      · rw [if_pos hk]
      · have hc : x.counted = false := Bool.eq_false_iff.2 fun hc => hk (h t x hx hc)
        rw [if_neg hk, ← hc]
  have heq : s.uncount = { s with slots := s.uncount.slots } := by
    unfold State.uncount
    rw [modSlots_eq]
  rw [heq, hslots]

/-- The SCRUB job after a write of SCRUB_INTERVAL, with no set step in hand and no transaction counted. -/
theorem rescrub_of_noneCounted {s : State} (hstep : s.maintStep = none) (h : s.noneCounted) :
    s.rescrub = { s with maint := match s.maint with
      | none =>
        if s.limits.scrubInterval = 0#32 then none
        else some ⟨.scrub, none, .running, s.scrubPos.val, false, 0, some s.limits.scrubInterval.toNat, false⟩
      | some j => if j.kind = .scrub ∧ s.limits.scrubInterval = 0#32 then none else some j } := by
  unfold State.rescrub
  cases hm : s.maint with
  | none =>
    dsimp only
    unfold State.startScrub
    by_cases hv : s.limits.scrubInterval = 0#32
    · rw [if_neg (by simp [hv]), if_pos hv, ← hm]
    · rw [if_pos (by simp [hm, hv]), if_neg hv]
  | some j =>
    dsimp only
    split
    · rw [uncount_of_noneCounted h, hstep]
    · rw [← hm]

/-- The SCRUB job that SCRUB_INTERVAL leaves is at no end of its own. -/
theorem rescrub_maintEnding {s : State} (hs : s.WalksRest) (v : Word32) (p : Nat) (u : State)
    (hdir : u.dir = s.dir) (hm : u.maint = match s.maint with
      | none => if v = 0#32 then none else some ⟨.scrub, none, .running, p, false, 0, some v.toNat, false⟩
      | some j => if j.kind = .scrub ∧ v = 0#32 then none else some j) : u.maintEnding = none := by
  cases hj : s.maint with
  | none =>
    rw [hj] at hm
    dsimp only at hm
    split at hm
    · exact maintEnding_of_none hm
    · exact maintEnding_of_running hm rfl
  | some j =>
    rw [hj] at hm
    dsimp only at hm
    split at hm
    · exact maintEnding_of_none hm
    · have he := hs.ending
      rw [maintEnding_none_iff] at he ⊢
      unfold State.anyFrozen at he ⊢
      rw [hm, hdir, ← hj]
      exact he

theorem exec_limitWrite (k : LimitName) (v : Word32) (s : State) :
    exec (.limitWrite k v) s = s.event (s.writeLimit k v, []) := rfl

/-- A write of a limit other than SCRUB_INTERVAL changes the limit, or LIMIT_REJECTED. -/
theorem writeLimit_of_ne {s : State} {k : LimitName} (hk : k ≠ .scrubInterval) (v : Word32) : s.writeLimit k v =
    if limitInRange k v = true then { s with limits := s.limits.put k v, limitRejected := false }
    else { s with limitRejected := true } := by
  unfold State.writeLimit
  dsimp only
  rw [if_neg hk]

/-- The event of such a write, whose range is a condition on the value. -/
theorem exec_limitWrite_of_ne {s : State} (hs : s.Ready) {k : LimitName} (hk : k ≠ .scrubInterval) (v : Word32) {p : Prop}
    [Decidable p] (hp : limitInRange k v = decide p) : exec (.limitWrite k v) s = .next (State.driveEventN
      (if p then { s with limits := s.limits.put k v, limitRejected := false } else { s with limitRejected := true })) := by
  obtain ⟨hreset, hsettled⟩ := hs
  rw [exec_limitWrite, writeLimit_of_ne hk, hp]
  by_cases h : p
  · rw [if_pos (decide_eq_true h), if_pos h]
    exact event_settled hreset (settled_of_same hsettled)
  · rw [if_neg (by simpa using h), if_neg h]
    exact event_settled hreset (settled_of_same hsettled)

/-- Settles O21: four limits are taken or rejected by their range alone, and SCRUB_INTERVAL has its effect on the SCRUB job. -/
theorem limitWrites : Obligations.LimitWrites := by
  intro s v hs b
  refine ⟨exec_limitWrite_of_ne hs (by decide) v rfl, exec_limitWrite_of_ne hs (by decide) v rfl,
    exec_limitWrite_of_ne hs (by decide) v rfl, exec_limitWrite_of_ne hs (by decide) v rfl, fun hv => ?_,
    fun hv hstep hcount => ?_⟩
  · have hr : ¬limitInRange .scrubInterval v = true := by simpa [limitInRange] using hv
    rw [exec_limitWrite, State.writeLimit, if_neg hr]
    exact event_settled hs.1 (settled_of_same hs.2)
  · have hr : limitInRange .scrubInterval v = true := by simpa [limitInRange] using hv
    have hw := Ready.walksRest hs
    have hrescrub := rescrub_of_noneCounted
      (s := { s with limits := s.limits.put .scrubInterval v, limitRejected := false }) hstep hcount
    rw [exec_limitWrite, State.writeLimit, if_pos hr]
    dsimp only
    rw [if_pos rfl, hrescrub]
    refine event_settled hs.1 (settled_of_walksRest hs.2 (hw.withMaint hstep ?_))
    exact rescrub_maintEnding hw v _ _ rfl rfl

/-! ## Event flags and enables (O22) -/

theorem event_bit_lt (e : Event) : e.bit < 16 := by cases e <;> decide

/-- Settles O22: the bit of each flag or enable after the write, and EVENTn driven from them. -/
theorem eventRegisters : Obligations.EventRegisters := by
  intro s v hs
  obtain ⟨hreset, hsettled⟩ := hs
  refine ⟨⟨(s.writeFlags v).driveEventN, event_settled hreset (settled_of_same hsettled), rfl, fun e => ?_,
    eventLevel_eq_low_iff _⟩, ⟨(s.writeEnables v).driveEventN, event_settled hreset (settled_of_same hsettled), rfl,
    fun e => ?_, eventLevel_eq_low_iff _⟩⟩
  · show (s.flags &&& ~~~(v.setWidth 16)).getLsbD e.bit = _
    have := event_bit_lt e
    simp [this]
  · show (v.setWidth 16).getLsbD e.bit = _
    have := event_bit_lt e
    simp [this]

/-! ## SPI frames (O24) -/

theorem event_congr {s q : State} (h : q.resetN = s.resetN) (hs : s.resetN = .high) (w : Work) : s.event w = q.event w := by
  rw [event_running hs, event_running (h.trans hs)]

theorem bytes_register (r : BitVec 16) : r.extractLsb' 8 8 ++ r.extractLsb' 0 8 = r := by
  apply BitVec.eq_of_getLsbD_eq
  intro i hi
  rw [BitVec.getLsbD_append, BitVec.getLsbD_extractLsb', BitVec.getLsbD_extractLsb']
  by_cases h : i < 8
  · simp [h]
  · have h8 : 8 + (i - 8) = i := by omega
    have h9 : i - 8 < 8 := by omega
    simp [h, h8, h9]

theorem bytes_word (d : Word32) :
    d.extractLsb' 24 8 ++ d.extractLsb' 16 8 ++ d.extractLsb' 8 8 ++ d.extractLsb' 0 8 = d := by
  apply BitVec.eq_of_getLsbD_eq
  intro i hi
  simp only [BitVec.getLsbD_append, BitVec.getLsbD_extractLsb']
  by_cases h : i < 8
  · simp [h]
  · by_cases h2 : i - 8 < 8
    · have e : 8 + (i - 8) = i := by omega
      simp [h, h2, e]
    · by_cases h3 : i - 8 - 8 < 8
      · have e : 16 + (i - 8 - 8) = i := by omega
        simp [h, h2, h3, e]
      · have e : 24 + (i - 8 - 8 - 8) = i := by omega
        have h4 : i - 8 - 8 - 8 < 8 := by omega
        simp [h, h2, h3, h4, e]

/-- The state after the bytes clocked behind byte 6. -/
def State.tailed (s : State) (more : List Byte) : State :=
  if more = [] then s else { s with sdoTail := List.replicate more.length 0#8 }

theorem tailed_resetN (s : State) (more : List Byte) : (s.tailed more).resetN = s.resetN := by
  unfold State.tailed; split <;> rfl

theorem tailed_settled {s : State} (h : s.settled = true) (more : List Byte) : (s.tailed more).settled = true := by
  unfold State.tailed
  split
  · exact h
  · exact settled_of_same h

theorem driveTail_of_length {s : State} {f more : List Byte} (h : f.length = 7 + more.length) :
    s.driveTail f = s.tailed more := by
  unfold State.driveTail State.tailed
  rw [h]
  cases more with
  | nil => rfl
  | cons a more =>
    have h1 : ¬7 + (a :: more).length ≤ 7 := by simp
    have h2 : 7 + (a :: more).length - 7 = (a :: more).length := by omega
    rw [if_neg h1, if_neg (List.cons_ne_nil a more), h2]

/-- A frame's bytes: the operation, the register number, the data, and what is clocked behind them. -/
def frameOf (op : Byte) (r : BitVec 16) (d : Word32) (more : List Byte) : List Byte :=
  [op, r.extractLsb' 8 8, r.extractLsb' 0 8, d.extractLsb' 24 8, d.extractLsb' 16 8, d.extractLsb' 8 8,
    d.extractLsb' 0 8] ++ more

theorem frameOf_length (op : Byte) (r : BitVec 16) (d : Word32) (more : List Byte) :
    (frameOf op r d more).length = 7 + more.length := by
  rw [frameOf, List.length_append]; rfl

theorem frameOf_operation (op : Byte) (r : BitVec 16) (d : Word32) (more : List Byte) :
    byteAt (frameOf op r d more) 0 = op := rfl

theorem frameRegister_frameOf (op : Byte) (r : BitVec 16) (d : Word32) (more : List Byte) :
    frameRegister (frameOf op r d more) = r := bytes_register r

theorem frameData_frameOf (op : Byte) (r : BitVec 16) (d : Word32) (more : List Byte) :
    frameData (frameOf op r d more) = d := bytes_word d

theorem exec_registerWrite (f : List Byte) (s : State) : exec (.registerWrite f) s = s.event (s.takeFrame f) := rfl

/-- A write frame is the write of its register. -/
theorem exec_writeFrame {s : State} (hs : s.resetN = .high) (r : BitVec 16) (d : Word32) (more : List Byte) :
    exec (.registerWrite (frameOf 0x01#8 r d more)) s = (s.tailed more).event ((s.tailed more).writeRegister r d) := by
  have hl := frameOf_length 0x01#8 r d more
  rw [exec_registerWrite, event_congr (tailed_resetN s more) hs, State.takeFrame, if_neg (by omega), frameOf_operation, if_pos rfl,
    driveTail_of_length hl, frameRegister_frameOf, frameData_frameOf]

/-- A read frame is the read of its register. -/
theorem exec_readFrame {s : State} (hs : s.resetN = .high) (r : BitVec 16) (d : Word32) (more : List Byte) :
    exec (.registerWrite (frameOf 0x00#8 r d more)) s = exec (.viewSnapshotRead r) (s.tailed more) := by
  have hl := frameOf_length 0x00#8 r d more
  rw [exec_registerWrite, event_congr (tailed_resetN s more) hs, State.takeFrame, if_neg (by omega), frameOf_operation,
    if_neg (by decide), if_pos rfl, driveTail_of_length hl, frameRegister_frameOf]
  rfl

theorem writeRegister_arg (s : State) (d : Word32) (k : Fin 4) :
    s.writeRegister (BitVec.ofNat 16 (0x101 + k.val)) d = ({ s with args := s.args.set k.val d k.isLt }, []) := by
  fin_cases k <;> rfl

theorem writeRegister_command (s : State) (d : Word32) : s.writeRegister 0x100#16 d = s.accept (commandOf d) := rfl

/-- A write to a register that is read-only, or not in Table 12-1. -/
theorem writeRegister_discarded (s : State) {r : BitVec 16} (d : Word32)
    (h : r.toNat < 0x10 ∨ (0x14 < r.toNat ∧ r.toNat < 0x20) ∨ (0x21 < r.toNat ∧ r.toNat < 0x100) ∨ 0x104 < r.toNat) :
    s.writeRegister r d = (s, []) := by
  unfold State.writeRegister
  dsimp only
  rw [if_neg (by omega), if_neg (by omega), if_neg (by omega), if_neg (by omega), if_neg (by omega), if_neg (by omega),
    if_neg (by omega), if_neg (by omega)]

/-- The commands of Table 12-3 with their codes. -/
theorem exec_of_code {s : State} {p : Word32 × Instr}
    (h : p ∈ [(0x01#32, Instr.setWindow), (0x02#32, .openWindow), (0x03#32, .retireWindow), (0x04#32, .flushAll),
        (0x05#32, .pauseMaint), (0x06#32, .resumeMaint), (0x07#32, .abortMaint), (0x08#32, .inspectLine),
        (0x09#32, .inspectWay), (0x0A#32, .inspectSlot), (0x0B#32, .nodeEvict), (0x0C#32, .clearPoison),
        (0x0C#32, .clearPoisonAll), (0x0D#32, .clearCapture), (0x0E#32, .clearCounters), (0x0F#32, .linkSet),
        (0x10#32, .portReset), (0x11#32, .dirReset)]) : exec p.2 s = s.event (s.accept (commandOf p.1)) := by
  simp only [List.mem_cons, List.not_mem_nil, or_false] at h
  rcases h with rfl | rfl | rfl | rfl | rfl | rfl | rfl | rfl | rfl | rfl | rfl | rfl | rfl | rfl | rfl | rfl | rfl | rfl <;>
    rfl

/-- A frame that is no whole frame has no effect. -/
theorem takeFrame_short (s : State) {f : List Byte} (h : f.length < 7) : s.takeFrame f = (s, []) := if_pos h

/-- A frame of another operation has no effect but on SDO. -/
theorem takeFrame_other (s : State) {b : Byte} {f more : List Byte} (h0 : b ≠ 0x00#8) (h1 : b ≠ 0x01#8) (hf : f.length = 6) :
    s.takeFrame (b :: (f ++ more)) = (s.tailed more, []) := by
  have hl : (b :: (f ++ more)).length = 7 + more.length := by
    rw [List.length_cons, List.length_append, hf]; omega
  have hb : byteAt (b :: (f ++ more)) 0 = b := rfl
  rw [State.takeFrame, if_neg (by omega), hb, if_neg h1, if_neg h0, driveTail_of_length hl]

/-- Settles O24: the frame's fields are read back, and the write or read is that of the register. -/
theorem writeFrames : Obligations.WriteFrames := by
  intro s d more hs frame q
  have hw r d := exec_writeFrame hs r d more
  refine ⟨fun hr k => ?_, hw 0x10#16 d, hw 0x11#16 d, hw 0x12#16 d, hw 0x13#16 d, hw 0x14#16 d, hw 0x20#16 d, hw 0x21#16 d,
    fun hr r h => ?_, fun r => exec_readFrame hs r d more, fun p hp => ?_, fun _ => hw 0x100#16 d, fun hr f hf => ?_,
    fun hr b f h0 h1 hf => ?_⟩
  · refine (hw _ d).trans ?_
    rw [writeRegister_arg]
    have hargs : (s.tailed more).args = s.args := by unfold State.tailed; split <;> rfl
    rw [hargs]
    exact event_settled ((tailed_resetN s more).trans hs) (settled_of_same (tailed_settled hr.2 more))
  · refine (hw r d).trans ?_
    rw [writeRegister_discarded _ d h]
    exact event_settled ((tailed_resetN s more).trans hs) (tailed_settled hr.2 more)
  · refine (hw 0x100#16 p.1).trans ?_
    rw [writeRegister_command]
    exact (exec_of_code hp).symm
  · rw [exec_registerWrite, takeFrame_short s hf]
    exact event_settled hs hr.2
  · rw [exec_registerWrite, takeFrame_other s h0 h1 hf]
    exact event_settled hs (tailed_settled hr.2 more)

/-! ## The mailbox (O25) -/

theorem commandOf_unknown {c : Word32} (h : c.toNat = 0 ∨ 0x11 < c.toNat) : commandOf c = cmdUnknown := by
  unfold commandOf
  split
  iterate 17 omega
  rfl

/-- A mailbox command is the acceptance of its act. -/
theorem exec_mailboxCommand {c : Instr} (h : mailboxCommand c = true) (s : State) :
    ∃ act, exec c s = s.event (s.accept act) := by
  cases c
  case badCommand | setWindow | openWindow | retireWindow | flushAll | pauseMaint | resumeMaint | abortMaint | inspectLine |
      inspectWay | inspectSlot | nodeEvict | clearPoison | clearPoisonAll | clearCapture | clearCounters | linkSet |
      portReset | dirReset => exact ⟨_, rfl⟩
  all_goals cases h

/-- A write to COMMAND while BUSY. -/
theorem accept_of_busy {s : State} (h : s.mbState = .busy) (act : State → Ended) :
    s.accept act = ({ s with overrun := true }, []) := if_pos h

/-- Settles O25: an unknown code's act changes nothing, and no act runs while BUSY. -/
theorem mailboxTakesOneCommand : Obligations.MailboxTakesOneCommand := by
  constructor
  · intro s c hs hc
    have hact : commandOf c s.accepted = ended s.accepted .badCommand := by rw [commandOf_unknown hc]; rfl
    exact event_accept_unchanged hs hact
  · intro s c hs hb hc
    obtain ⟨act, hexec⟩ := exec_mailboxCommand hc s
    rw [hexec, accept_of_busy hb]
    exact event_settled hs.1 (settled_of_same hs.2)

end Sys2Proof.Machine

/-! # Mailbox commands: records, the link, DIR_RESET, walks -/

namespace Sys2Proof.Machine

set_option Elab.async false

/-! ## A command that ends in its event (R183) -/

/-- A command without tasks whose act leaves the part settled ends with its result code. -/
theorem event_accept_ended {s u : State} {act : State → Ended} {c : ResultCode} (hs : s.TakesCommand)
    (ha : act s.accepted = ended u c) (hu : u.settled = true) :
    s.event (s.accept act) = .next (u.finish c).driveEventN := by
  obtain ⟨⟨hreset, -⟩, hm⟩ := hs
  rw [accept_of_ended hm ha]
  exact event_settled hreset (settled_of_same hu)

theorem TakesCommand.walksRest {s : State} (h : s.TakesCommand) : s.WalksRest := Ready.walksRest h.1

/-- The argument of an event that ends with the taking of a command's act. -/
theorem exec_clearCapture (s : State) : exec .clearCapture s = s.event (s.accept cmdClearCapture) := rfl

theorem exec_clearCounters (s : State) : exec .clearCounters s = s.event (s.accept cmdClearCounters) := rfl

theorem exec_linkSet (s : State) : exec .linkSet s = s.event (s.accept cmdLinkSet) := rfl

theorem exec_portReset (s : State) : exec .portReset s = s.event (s.accept cmdPortReset) := rfl

theorem exec_dirReset (s : State) : exec .dirReset s = s.event (s.accept cmdDirReset) := rfl

/-! ## CLEAR_CAPTURE and CLEAR_COUNTERS (O34) -/

/-- The counters of the eight nodes at 0. -/
def State.nodesCleared (s : State) : State :=
  (List.finRange 8).foldl (fun s n => s.modNode n (fun r => { r with timeouts := 0, violations := 0, stale := 0 })) s

theorem nodesCleared_getNode (s : State) (n : Node) :
    s.nodesCleared.getNode n = { s.getNode n with timeouts := 0, violations := 0, stale := 0 } := by
  unfold State.nodesCleared
  rw [foldl_modNode_get _ _ (List.nodup_finRange 8), if_pos (List.mem_finRange n)]

theorem nodesCleared_eq (s : State) : s.nodesCleared = { s with nodes := s.nodesCleared.nodes } :=
  foldl_modNode_rest _ _ s

/-- CLEAR_COUNTERS changes the counters and the node records, whose counters alone change. -/
theorem cmdClearCounters_spec (s : State) : ∃ N : Vector NodeRec 8,
    cmdClearCounters s = ended { s with counters := ⟨0, 0, 0, 0, 0, 0, 0⟩, memTimeouts := 0, nodes := N } .ok ∧
      ∀ n : Node, N[n] = { s.getNode n with timeouts := 0, violations := 0, stale := 0 } := by
  refine ⟨s.nodesCleared.nodes, ?_, nodesCleared_getNode s⟩
  show ended { s.nodesCleared with counters := ⟨0, 0, 0, 0, 0, 0, 0⟩, memTimeouts := 0 } .ok = _
  rw [nodesCleared_eq]

/-- Settles O34: each act sets its records alone. -/
theorem recordsAreCleared : Obligations.RecordsAreCleared := by
  intro s hs
  constructor
  · have hact : cmdClearCapture s.accepted = ended { s.accepted with capture := none } .ok := rfl
    rw [exec_clearCapture]
    exact event_accept_ended hs hact (settled_of_same hs.1.2)
  · obtain ⟨N, hact, hN⟩ := cmdClearCounters_spec s.accepted
    rw [exec_clearCounters]
    exact ⟨_, event_accept_ended hs hact (settled_of_same hs.1.2), hN, rfl⟩

/-! ## LINK_SET and PORT_RESET (O35) -/

theorem cmdLinkSet_ok {s : State} {w : Width} {r : Rate} (hw : widthArg s.args[0] = some w)
    (hr : rateArg s.args[1] = some r) : cmdLinkSet s = ended { s with nextSetting := ⟨w, r⟩ } .ok := by
  unfold cmdLinkSet; rw [hw, hr]

theorem cmdLinkSet_bad {s : State} (h : widthArg s.args[0] = none ∨ rateArg s.args[1] = none) :
    cmdLinkSet s = ended s .badArgument := by
  unfold cmdLinkSet
  rcases h with h | h
  · rw [h]
  · rw [h]; cases widthArg s.args[0] <;> rfl

/-- Settles O35: the two acts, and the queues emptied with the walks at rest. -/
theorem linkCommands : Obligations.LinkCommands := by
  intro s hs
  have hsettled := hs.1.2
  rw [exec_linkSet, exec_portReset]
  refine ⟨fun w r hw hr => ?_, fun h => ?_, fun hl => ?_, fun hl ho ha => ?_⟩
  · refine event_accept_ended hs (cmdLinkSet_ok (s := s.accepted) (w := w) (r := r) ?_ ?_) (settled_of_same hsettled)
    · show widthArg s.args[0] = _
      rw [hw]; cases w <;> rfl
    · show rateArg s.args[1] = _
      rw [hr]; cases r <;> rfl
  · refine event_accept_unchanged hs (cmdLinkSet_bad (s := s.accepted) ?_)
    rcases h with ⟨h4, h8⟩ | h
    · left
      show widthArg s.args[0] = none
      rw [widthArg, if_neg h4, if_neg h8]
    · right
      have hn : ∀ k : Word32, k.toNat ≠ 0 → k.toNat ≤ 3 → s.args[1] ≠ k := by
        rintro k h0 h3 rfl
        rcases h with h | h
        · rw [h] at h0; exact h0 rfl
        · omega
      show rateArg s.args[1] = none
      rw [rateArg, if_neg (hn _ (by decide) (by decide)), if_neg (hn _ (by decide) (by decide)),
        if_neg (hn _ (by decide) (by decide))]
  · have hact : cmdPortReset s.accepted = ended { s.accepted with curSetting := s.nextSetting } .ok := if_neg hl
    exact event_accept_ended hs hact (settled_of_same hsettled)
  · have hact : cmdPortReset s.accepted = ended (State.leaveUp { s.accepted with curSetting := s.nextSetting }) .ok :=
      if_pos hl
    exact event_accept_ended hs hact (settled_of_unheld (TakesCommand.walksRest hs).same ho ha)

/-! ## DIR_RESET (O36) -/

/-- What DIR_RESET asks for: no node in use, and no job but a SCRUB (R190). -/
theorem dirResetAllowed_iff (s : State) : s.dirResetAllowed = true ↔
    (∀ n, s.nodeState n = .absent ∨ s.nodeState n = .lost) ∧ ∀ j, s.maint = some j → j.kind = .scrub := by
  have hb : (!s.maintBusy) = true ↔ ∀ j, s.maint = some j → j.kind = .scrub := by
    unfold State.maintBusy
    cases s.maint <;> simp
  unfold State.dirResetAllowed
  rw [Bool.and_eq_true, hb, List.all_eq_true]
  simp only [List.mem_finRange, true_implies, Bool.or_eq_true, beq_iff_eq]

/-- The windows and the node records after a DIR_RESET. -/
def State.tablesReset (s : State) : State :=
  (List.finRange 8).foldl (fun s n => s.modNode n NodeRec.afterDirReset)
    ((List.finRange 8).foldl (fun s w => s.modWindow w Window.afterDirReset) s)

theorem tablesReset_getWindow (s : State) (w : WinIx) : s.tablesReset.getWindow w = (s.getWindow w).afterDirReset := by
  have h := foldl_modWindow_get Window.afterDirReset (List.finRange 8) (List.nodup_finRange 8) s w
  rw [if_pos (List.mem_finRange w)] at h
  unfold State.tablesReset
  rw [foldl_modNode_rest]
  exact h

theorem tablesReset_getNode (s : State) (n : Node) : s.tablesReset.getNode n = (s.getNode n).afterDirReset := by
  unfold State.tablesReset
  rw [foldl_modNode_get _ _ (List.nodup_finRange 8), if_pos (List.mem_finRange n), foldl_modWindow_rest]
  generalize ((List.finRange 8).foldl (fun s w => s.modWindow w Window.afterDirReset) s).windows = W
  rfl

theorem tablesReset_eq (s : State) :
    s.tablesReset = { s with windows := s.tablesReset.windows, nodes := s.tablesReset.nodes } := by
  unfold State.tablesReset
  rw [foldl_modNode_rest, foldl_modWindow_rest]

/-- What DIR_RESET leaves, with nothing held for room, given the windows and the node records. -/
def State.emptied (s : State) (W : Vector Window 8) (N : Vector NodeRec 8) : State :=
  { s with
    dir := [], slots := Vector.replicate 48 none, notices := [], windows := W, nodes := N, scrubPos := 0
    maint := if s.limits.scrubInterval = 0#32 then none
      else some ⟨.scrub, none, .running, 0, false, 0, some s.limits.scrubInterval.toNat, false⟩ }

theorem dirReset_spec {s : State} (ho : s.orderHeld = []) (ha : s.answerHeld = []) (hm : s.maintStep = none) :
    ∃ (W : Vector Window 8) (N : Vector NodeRec 8), s.dirReset = s.emptied W N ∧
      (∀ w : WinIx, W[w] = (s.getWindow w).afterDirReset) ∧ ∀ n : Node, N[n] = (s.getNode n).afterDirReset := by
  refine ⟨s.tablesReset.windows, s.tablesReset.nodes, ?_, tablesReset_getWindow s, tablesReset_getNode s⟩
  show State.startScrub { s.tablesReset with
    dir := [], slots := Vector.replicate 48 none, notices := [], orderHeld := []
    answerHeld := s.answerHeld.filter _, maint := none, maintStep := none, scrubPos := 0 } = _
  rw [tablesReset_eq, ha]
  generalize s.tablesReset.windows = W, s.tablesReset.nodes = N
  unfold State.startScrub State.emptied
  by_cases h : s.limits.scrubInterval = 0#32
  · simp [h, ho, ha, hm]
  · simp [h, ho, ha, hm]

theorem emptied_getSlot (s : State) (W : Vector Window 8) (N : Vector NodeRec 8) (t : SlotIx) :
    (s.emptied W N).getSlot t = none := Vector.getElem_replicate _

theorem emptied_maintEnding (s : State) (W : Vector Window 8) (N : Vector NodeRec 8) : (s.emptied W N).maintEnding = none := by
  unfold State.maintEnding State.emptied
  dsimp only
  split
  · rfl
  · rename_i j hj
    split at hj
    · cases hj
    · cases hj; rfl

/-- With no slot, no job, no frozen set and nothing held, the part is quiet. -/
theorem settled_of_empty {s : State} (hslots : ∀ t, s.getSlot t = none) (hdir : s.dir = []) (hjobs : ∀ n, s.getJob n = none)
    (hp : s.purgeStep = none) (hm : s.maintStep = none) (ho : s.orderHeld = []) (ha : s.answerHeld = [])
    (he : s.maintEnding = none) : s.settled = true := by
  have hwith : ∀ p, s.slotsWith p = [] := fun p => by
    rw [slotsWith_eq]
    simp [hslots]
  rw [settled_iff]
  refine ⟨?_, .inl ?_, ?_, ?_, placeHeldOrder_of_empty ho, placeHeldAnswer_of_empty ha, he, ?_⟩
  · unfold State.readyRebuild; rw [hwith]; rfl
  · unfold State.dueSets; rw [hdir]; rfl
  · unfold State.purgeReady; rw [hp]
  · unfold State.maintReady; rw [hm]; cases s.maint <;> rfl
  · unfold State.doneNode State.purgeDone
    simp [hjobs]

/-- Settles O36: the acceptance is the two conditions, and the part after the reset has nothing in hand. -/
theorem dirResetClearsTheDirectory : Obligations.DirResetClearsTheDirectory := by
  intro s hs free
  have hfree := dirResetAllowed_iff s
  refine ⟨fun hn => ?_, fun hf hq hjobs => ?_⟩
  · have hact : cmdDirReset s.accepted = ended s.accepted .busy := if_neg fun h => hn (hfree.1 h)
    exact event_accept_unchanged hs hact
  · have hact : cmdDirReset s.accepted = ended s.accepted.dirReset .ok := if_pos (hfree.2 hf)
    obtain ⟨W, N, heq, hW, hN⟩ := dirReset_spec (s := s.accepted) hq.noHeldOrder hq.noHeldAnswer hq.noMaintStep
    rw [heq] at hact
    rw [exec_dirReset]
    refine ⟨_, event_accept_ended hs hact (settled_of_empty (emptied_getSlot _ W N) rfl hjobs hq.noPurgeStep hq.noMaintStep
      hq.noHeldOrder hq.noHeldAnswer (emptied_maintEnding _ W N)), fun _ => rfl, emptied_getSlot s.accepted W N, fun w => ?_, hN, rfl⟩
    refine (hW w).trans ?_
    show Window.afterDirReset (s.getWindow w) = _
    unfold Window.afterDirReset
    split <;> simp [*]

/-! ## RETIRE_WINDOW and FLUSH_ALL (O28) -/

theorem exec_retireWindow (s : State) : exec .retireWindow s = s.event (s.accept cmdRetireWindow) := rfl

theorem exec_flushAll (s : State) : exec .flushAll s = s.event (s.accept cmdFlushAll) := rfl

theorem maintBusy_iff (s : State) : s.maintBusy = true ↔ ∃ j, s.maint = some j ∧ j.kind ≠ .scrub := by
  unfold State.maintBusy
  cases s.maint <;> simp

theorem cmdRetireWindow_badArgument {s : State} (h : 7 < s.args[0].toNat) :
    cmdRetireWindow s = ended s .badArgument := by
  unfold cmdRetireWindow; rw [windowArg_of_gt h]

/-- A change of a window's record by a function that treats the record as it stands alike. -/
theorem modWindow_congr {s : State} {w : WinIx} {f g : Window → Window} (h : f (s.getWindow w) = g (s.getWindow w)) :
    s.modWindow w f = s.modWindow w g := by
  unfold State.modWindow; rw [h]

/-- A LIVE DIRECT window retired: CLOSED at once, or DRAINING. -/
def retireDirect (v : Window) : Window :=
  if v.openCount = 0 then { v with state := .closed, progress := none }
  else { v with state := .retiring, progress := some .draining }

theorem retireDirect_eq (s : State) (w : WinIx) :
    (if (s.getWindow w).openCount = 0 then
      ended (s.modWindow w (fun r => { r with state := .closed, progress := none })) .ok
    else ended (s.modWindow w (fun r => { r with state := .retiring, progress := some .draining })) .ok) =
      ended (s.modWindow w retireDirect) .ok := by
  split
  · rename_i h
    exact congrArg (ended · .ok) (modWindow_congr (g := retireDirect) (if_pos h).symm)
  · rename_i h
    exact congrArg (ended · .ok) (modWindow_congr (g := retireDirect) (if_neg h).symm)

/-- The checks after the argument's, by the window's state. -/
theorem cmdRetireWindow_of_window {s : State} {w : WinIx} (h : s.args[0].toNat = w.val) :
    cmdRetireWindow s = match (s.getWindow w).state with
      | .closed => ended s .notOpen
      | .retiring => ended s .windowBusy
      | .live =>
        if (s.getWindow w).kind = .direct then
          ended (s.modWindow w retireDirect) .ok
        else if s.maintBusy then ended s .maintBusy
        else
          ended ((s.modWindow w (fun r => { r with state := .retiring, progress := some .walking })).createMaint .retire
            (some w)) .ok := by
  unfold cmdRetireWindow
  rw [windowArg_of_eq h]
  dsimp only
  rw [retireDirect_eq] <;> rfl

/-- A job created where no transaction is counted. -/
theorem createMaint_of_noneCounted {s : State} (h : s.noneCounted) (hstep : s.maintStep = none) (k : MaintKind)
    (w : Option WinIx) : s.createMaint k w = { s with maint := some ⟨k, w, .running, 0, false, 0, none, false⟩ } := by
  unfold State.createMaint
  rw [uncount_of_noneCounted h]
  obtain ⟨⟩ := s
  dsimp only at hstep
  subst hstep
  rfl

/-- With no set step in hand, a window's record is none of what the walks' rest reads. -/
theorem settled_of_window {s s' : State} (hs : s.settled = true) (hmstep : s'.maintStep = none)
    (hmaint : s'.maint = s.maint ∨ ∃ j, s'.maint = some j ∧ j.run = .running) (hslots : s'.slots = s.slots := by rfl)
    (hdir : s'.dir = s.dir := by rfl) (hpos : s'.purgePos = s.purgePos := by rfl)
    (hjobs : s'.purgeJobs = s.purgeJobs := by rfl) (hpstep : s'.purgeStep = s.purgeStep := by rfl)
    (h1 : s'.orderQ = s.orderQ := by rfl) (h2 : s'.answerQ = s.answerQ := by rfl)
    (h3 : s'.orderHeld = s.orderHeld := by rfl) (h4 : s'.answerHeld = s.answerHeld := by rfl) : s'.settled = true := by
  have hw := ((settled_iff_walksRest s).1 hs).1
  refine settled_of_walksRest hs (hw.withMaint hmstep ?_ hslots hdir hpos hjobs hpstep) hslots h1 h2 h3 h4
  rcases hmaint with hm | ⟨j, hj, hr⟩
  · have he := hw.ending
    rw [maintEnding_none_iff] at he ⊢
    unfold State.anyFrozen at he ⊢
    rw [hm, hdir]
    exact he
  · exact maintEnding_of_running hj hr

/-- Settles O28: the branches of the act in their order; a window's change, or a job just begun, leaves nothing to settle. -/
theorem walkCommandsCreateJobs : Obligations.WalkCommandsCreateJobs := by
  intro s hs hstep hcount job busy
  have hsettled := hs.1.2
  have hbusy : s.accepted.maintBusy = true ↔ busy := maintBusy_iff s
  rw [exec_retireWindow, exec_flushAll]
  refine ⟨fun h => event_accept_unchanged hs (cmdRetireWindow_badArgument (s := s.accepted) h), fun w hw => ?_, fun hb => ?_,
    fun hb => ?_⟩
  · have hact := cmdRetireWindow_of_window (s := s.accepted) hw
    have hget : s.accepted.getWindow w = s.getWindow w := rfl
    rw [hget] at hact
    refine ⟨fun hc => ?_, fun hr => ?_, fun hl hd => ?_, fun hl hd hb => ?_, fun hl hd hb => ?_⟩
    · rw [hc] at hact
      exact event_accept_unchanged hs hact
    · rw [hr] at hact
      exact event_accept_unchanged hs hact
    · rw [hl] at hact
      dsimp only at hact
      rw [if_pos hd] at hact
      exact event_accept_ended hs hact (settled_of_window hsettled hstep (.inl rfl))
    · rw [hl] at hact
      dsimp only at hact
      rw [if_neg hd, if_pos (hbusy.2 hb)] at hact
      exact event_accept_unchanged hs hact
    · rw [hl] at hact
      dsimp only at hact
      rw [if_neg hd, if_neg fun h => hb (hbusy.1 h),
        createMaint_of_noneCounted (s := s.accepted.modWindow w _) hcount hstep] at hact
      exact event_accept_ended hs hact (settled_of_window hsettled hstep (.inr ⟨_, rfl, rfl⟩))
  · have hact : cmdFlushAll s.accepted = ended s.accepted .maintBusy := if_pos (hbusy.2 hb)
    exact event_accept_unchanged hs hact
  · have hact : cmdFlushAll s.accepted = ended (s.accepted.createMaint .flush none) .ok := if_neg fun h => hb (hbusy.1 h)
    rw [createMaint_of_noneCounted (s := s.accepted) hcount hstep] at hact
    exact event_accept_ended hs hact (settled_of_window hsettled hstep (.inr ⟨_, rfl, rfl⟩))

/-! ## PAUSE_MAINT, RESUME_MAINT and ABORT_MAINT (O29) -/

theorem exec_pauseMaint (s : State) : exec .pauseMaint s = s.event (s.accept cmdPauseMaint) := rfl

theorem exec_resumeMaint (s : State) : exec .resumeMaint s = s.event (s.accept cmdResumeMaint) := rfl

theorem exec_abortMaint (s : State) : exec .abortMaint s = s.event (s.accept cmdAbortMaint) := rfl

/-- A job's run state and the set it owes are none of what its cursor reads; a job neither FINISHING nor ABORTING is at no
end. -/
theorem settled_of_run {s : State} {j : MaintJob} (hs : s.settled = true) (hj : s.maint = some j) (r : RunState) (o : Bool)
    (h1 : r ≠ .finishing) (h2 : r ≠ .aborting) :
    State.settled { s with maint := some { j with run := r, owed := o } } = true := by
  have hw := ((settled_iff_walksRest s).1 hs).1
  refine settled_of_walksRest hs ⟨hw.rebuild, hw.due, hw.purge, ?_, ?_, hw.done⟩
  · have hm := hw.maint
    rw [maintReady_eq_false_iff] at hm ⊢
    rintro k ways ⟨⟩ hways
    exact hm j ways hj hways
  · unfold State.maintEnding
    dsimp only
    cases r <;> simp_all

theorem cmdPauseMaint_of_running {s : State} {j : MaintJob} (hj : s.maint = some j) (hk : j.kind ≠ .scrub)
    (hr : j.run = .running) : cmdPauseMaint s = ended { s with maint := some { j with
      run := if j.owed = true ∨ s.maintStep.isSome = true then .pausing else .paused } } .ok := by
  have hrun : (if j.owed = false ∧ s.maintStep.isNone = true then RunState.paused else .pausing) =
      if j.owed = true ∨ s.maintStep.isSome = true then .pausing else .paused := by
    cases j.owed <;> cases s.maintStep <;> rfl
  unfold cmdPauseMaint
  rw [hj]
  dsimp only
  rw [if_pos ⟨hk, hr⟩, hrun]

theorem cmdPauseMaint_of_not {s : State} (h : ∀ j, s.maint = some j → j.kind = .scrub ∨ j.run ≠ .running) :
    cmdPauseMaint s = ended s .notRunning := by
  unfold cmdPauseMaint
  cases hj : s.maint with
  | none => rfl
  | some j =>
    have hn : ¬(j.kind ≠ .scrub ∧ j.run = .running) := fun ⟨hk, hr⟩ => (h j hj).elim hk (· hr)
    exact if_neg hn

theorem cmdResumeMaint_of_paused {s : State} {j : MaintJob} (hj : s.maint = some j) (hk : j.kind ≠ .scrub)
    (hr : j.run = .paused) :
    cmdResumeMaint s = ended { s with maint := some { j with run := .running, owed := true } } .ok := by
  unfold cmdResumeMaint
  rw [hj]
  exact if_pos ⟨hk, hr⟩

theorem cmdResumeMaint_of_not {s : State} (h : ∀ j, s.maint = some j → j.kind = .scrub ∨ j.run ≠ .paused) :
    cmdResumeMaint s = ended s .notPaused := by
  unfold cmdResumeMaint
  cases hj : s.maint with
  | none => rfl
  | some j =>
    have hn : ¬(j.kind ≠ .scrub ∧ j.run = .paused) := fun ⟨hk, hr⟩ => (h j hj).elim hk (· hr)
    exact if_neg hn

theorem cmdAbortMaint_of_not {s : State} (h : ∀ j, s.maint = some j → j.kind = .scrub ∨ j.run = .aborting) :
    cmdAbortMaint s = ended s .notRunning := by
  unfold cmdAbortMaint
  cases hj : s.maint with
  | none => rfl
  | some j => exact if_pos (h j hj)

/-- The state an abort leaves in its act. -/
def State.abortBegun (s : State) (j : MaintJob) : State :=
  { s with maint := some { j with run := .aborting }, maintStep := none }

theorem cmdAbortMaint_of_retire {s : State} {j : MaintJob} {w : WinIx} (hj : s.maint = some j) (hk : j.kind = .retire)
    (hw : j.window = some w) (hr : j.run ≠ .aborting) :
    cmdAbortMaint s = ended ((s.abortBegun j).modWindow w (fun r => { r with progress := some .aborting })) .ok := by
  obtain ⟨k, o, r, _, _, _, _, _⟩ := j
  subst hk hw
  unfold cmdAbortMaint
  rw [hj]
  exact if_neg fun h => h.elim (by simp) hr

theorem cmdAbortMaint_of_flush {s : State} {j : MaintJob} (hj : s.maint = some j) (hk : j.kind = .flush)
    (hr : j.run ≠ .aborting) : cmdAbortMaint s = ended (s.abortBegun j) .ok := by
  obtain ⟨k, o, r, _, _, _, _, _⟩ := j
  subst hk
  unfold cmdAbortMaint
  rw [hj]
  exact if_neg fun h => h.elim (by simp) hr

/-- An ABORTING job with a recall open waits for it. -/
theorem maintEnding_of_waiting {s : State} {j : MaintJob} (hj : s.maint = some j) (hr : j.run = .aborting)
    (ho : 0 < j.openCount) : s.maintEnding = none := by
  unfold State.maintEnding
  rw [hj]
  dsimp only
  rw [hr]
  exact if_neg (by omega)

/-- An ABORTING job with none open ends. -/
theorem maintEnding_of_aborted {s : State} {j : MaintJob} (hj : s.maint = some j) (hr : j.run = .aborting)
    (ho : j.openCount = 0) : s.maintEnding = some ((s.walkAborted j.window).raise .maintAborted).endMaint := by
  unfold State.maintEnding
  rw [hj]
  dsimp only
  rw [hr]
  exact if_pos ho

/-- The end of a job that counts no transaction. -/
theorem endMaint_of_noneCounted {s : State} (h : s.noneCounted) :
    s.endMaint = { s with maint := s.nextMaint, maintStep := none } := by
  unfold State.endMaint State.startScrub State.nextMaint
  rw [uncount_of_noneCounted h]
  by_cases hv : s.limits.scrubInterval = 0#32
  · rw [if_neg (by simp [hv]), if_pos hv]
  · rw [if_pos ⟨rfl, hv⟩, if_neg hv]

theorem nextMaint_running {s : State} {j : MaintJob} (h : s.nextMaint = some j) : j.run = .running := by
  unfold State.nextMaint at h
  split at h
  · cases h
  · cases h; rfl

/-- The walks rest where the job that follows an ended one is in place. -/
theorem maintEnding_of_nextMaint {s : State} (h : s.maint = s.nextMaint) : s.maintEnding = none := by
  cases hm : s.maint with
  | none => exact maintEnding_of_none hm
  | some j => exact maintEnding_of_running hm (nextMaint_running (h.symm.trans hm))

/-- With the walks at rest but for the job's end, settling ends the job. -/
theorem settleStep_maintEnding {s u : State} (hrebuild : s.readyRebuild = none) (hdue : s.dueSets = [] ∨ s.lowestFree = none)
    (hpurge : s.purgeReady = false) (hmaint : s.maintReady = false) (ho : s.placeHeldOrder = none)
    (ha : s.placeHeldAnswer = none) (he : s.maintEnding = some u) : s.settleStep = some (u, []) := by
  unfold State.settleStep
  rw [hrebuild]
  rcases hdue with hd | hd <;> simp [hd, hpurge, hmaint, ho, ha, he]

/-- An event whose settling ends the maintenance job: with no set step in hand, the rest as before. -/
theorem event_maintEnding {s s' u : State} (hreset : s.resetN = .high) (hs : s.settled = true)
    (hmstep : s'.maintStep = none) (he : s'.maintEnding = some u) (hu : u.settled = true)
    (hslots : s'.slots = s.slots := by rfl) (hdir : s'.dir = s.dir := by rfl) (hpos : s'.purgePos = s.purgePos := by rfl)
    (hstep : s'.purgeStep = s.purgeStep := by rfl) (h1 : s'.orderQ = s.orderQ := by rfl)
    (h2 : s'.answerQ = s.answerQ := by rfl) (h3 : s'.orderHeld = s.orderHeld := by rfl)
    (h4 : s'.answerHeld = s.answerHeld := by rfl) : s.event (s', []) = .next u.driveEventN := by
  obtain ⟨hw, ho, ha⟩ := (settled_iff_walksRest s).1 hs
  have hget : ∀ t, (s'.getSlot t).map Slot.settling = (s.getSlot t).map Slot.settling := fun t => by
    unfold State.getSlot; rw [hslots]
  have hmaint : s'.maintReady = false := by
    unfold State.maintReady
    rw [hmstep]
    cases s'.maint <;> rfl
  have hplace : s'.placeHeldOrder = none := by
    rw [placeHeldOrder_none_iff] at ho ⊢
    unfold State.getSlot State.orderRoom at ho ⊢
    rw [hslots, h1, h3]
    exact ho
  have hplace' : s'.placeHeldAnswer = none := by
    rw [placeHeldAnswer_none_iff] at ha ⊢
    unfold State.roundHeld at ha ⊢
    rw [h2, h3, h4]
    exact ha
  have hdue : s'.dueSets = [] ∨ s'.lowestFree = none := by
    rw [dueSets_of_settling hget hdir, lowestFree_of_settling hget]
    exact hw.due
  have hsettle := settleStep_maintEnding ((readyRebuild_of_settling hget).trans hw.rebuild) hdue
    ((purgeReady_of_settling hget hdir hpos hstep).trans hw.purge) hmaint hplace hplace' he
  rw [event_running hreset]
  refine conclude_of_drain (k := 2) (by decide) ?_
  have hc : Task.carryOut .settle s' = (u, [.settle]) := by
    simp [Task.carryOut, hsettle]
  rw [List.nil_append, drain_cons, hc]
  exact drain_settle hu 0

theorem modWindow_modWindow (s : State) (w : WinIx) (f g : Window → Window) :
    (s.modWindow w f).modWindow w g = s.modWindow w (fun v => g (f v)) := by
  have h : (s.modWindow w f).getWindow w = f (s.getWindow w) := (getWindow_modWindow s w w f).trans (if_pos rfl)
  unfold State.modWindow at h ⊢
  rw [h]
  simp

/-- An aborted job's end where no transaction is counted: MAINT_ABORTED, and the SCRUB that follows. -/
theorem abortEnded_eq {s : State} (h : s.noneCounted) :
    (s.raise .maintAborted).endMaint = { s with flags := s.flags ||| 0x1000#16, maint := s.nextMaint, maintStep := none } :=
  endMaint_of_noneCounted (s := s.raise .maintAborted) h

theorem flags_finish_abort (f : BitVec 16) : f ||| 0x8000#16 ||| 0x1000#16 = f ||| 0x1000#16 ||| 0x8000#16 := by
  rw [BitVec.or_assoc, BitVec.or_assoc, BitVec.or_comm 0x8000#16]

/-- Where a job's end leaves the SCRUB that follows, the part is settled. -/
theorem settled_of_nextMaint {s s' : State} (hs : s.settled = true) (hmaint : s'.maint = s'.nextMaint)
    (hmstep : s'.maintStep = none) (hslots : s'.slots = s.slots := by rfl)
    (hdir : s'.dir = s.dir := by rfl) (hpos : s'.purgePos = s.purgePos := by rfl)
    (hjobs : s'.purgeJobs = s.purgeJobs := by rfl) (hpstep : s'.purgeStep = s.purgeStep := by rfl)
    (h1 : s'.orderQ = s.orderQ := by rfl) (h2 : s'.answerQ = s.answerQ := by rfl)
    (h3 : s'.orderHeld = s.orderHeld := by rfl) (h4 : s'.answerHeld = s.answerHeld := by rfl) : s'.settled = true :=
  settled_of_walksRest hs (((settled_iff_walksRest s).1 hs).1.withMaint hmstep (maintEnding_of_nextMaint hmaint) hslots hdir
    hpos hjobs hpstep) hslots h1 h2 h3 h4

/-- An aborted RETIRE's end, its window LIVE again. -/
theorem abortedRetire_eq (s : State) (j : MaintJob) (w : WinIx) :
    let u := (((s.accepted.abortBegun j).modWindow w (fun r => { r with progress := some .aborting })).finish .ok).walkAborted
      (some w)
    { u with flags := u.flags ||| 0x1000#16, maint := u.nextMaint, maintStep := none } =
      State.commandEnd { s.modWindow w (fun v => { v with state := .live, progress := none }) with
        flags := s.flags ||| 0x1000#16, maint := s.nextMaint, maintStep := none } .ok := by
  intro u
  have hu : u = ((s.accepted.abortBegun j).modWindow w (fun v => { v with state := .live, progress := none })).finish .ok := by
    show (((s.accepted.abortBegun j).finish .ok).modWindow w (fun r => { r with progress := some .aborting })).modWindow w
      (fun r => { r with state := .live, progress := none }) = _
    rw [modWindow_modWindow]
    rfl
  rw [hu]
  have hflags := flags_finish_abort s.flags
  generalize hf : s.flags ||| 0x1000#16 = f at hflags ⊢
  show { ((s.accepted.abortBegun j).modWindow w (fun v => { v with state := .live, progress := none })).finish .ok with
    flags := s.flags ||| 0x8000#16 ||| 0x1000#16, maint := s.nextMaint, maintStep := none } = _
  rw [hflags]
  rfl

/-- Settles O29: the branches of the acts; an abort with nothing open is ended by the settling of its event. -/
theorem maintenanceCommands : Obligations.MaintenanceCommands := by
  intro s hs
  obtain ⟨⟨hreset, hsettled⟩, hm⟩ := id hs
  have hw := TakesCommand.walksRest hs
  rw [exec_pauseMaint, exec_resumeMaint, exec_abortMaint]
  refine ⟨fun j hj hk hr => ?_, fun h => ?_, fun j hj hk hr => ?_, fun h => ?_, fun h => ?_,
    fun j w hj hk hjw hr => ⟨fun ho => ?_, fun ho hn => ?_⟩, fun j hj hk hjw hr => ⟨fun ho => ?_, fun ho hn => ?_⟩⟩
  · refine event_accept_ended hs (cmdPauseMaint_of_running (s := s.accepted) hj hk hr) (settled_of_same
      (settled_of_run hsettled hj (if j.owed = true ∨ s.maintStep.isSome = true then .pausing else .paused) j.owed ?_ ?_)) <;>
    split <;> decide
  · exact event_accept_unchanged hs (cmdPauseMaint_of_not (s := s.accepted) h)
  · exact event_accept_ended hs (cmdResumeMaint_of_paused (s := s.accepted) hj hk hr) (settled_of_same
      (settled_of_run hsettled hj .running true (by decide) (by decide)))
  · exact event_accept_unchanged hs (cmdResumeMaint_of_not (s := s.accepted) h)
  · exact event_accept_unchanged hs (cmdAbortMaint_of_not (s := s.accepted) h)
  · refine event_accept_ended hs (cmdAbortMaint_of_retire (s := s.accepted) hj hk hjw hr)
      (settled_of_walksRest hsettled (hw.withMaint rfl ?_))
    exact maintEnding_of_waiting (j := { j with run := .aborting }) rfl rfl ho
  · have hact := cmdAbortMaint_of_retire (s := s.accepted) hj hk hjw hr
    rw [accept_of_ended hm hact]
    have hend := maintEnding_of_aborted (s := (((s.accepted.abortBegun j).modWindow w
      (fun r => { r with progress := some .aborting })).finish .ok)) (j := { j with run := .aborting }) rfl rfl ho
    rw [abortEnded_eq (s := ((((s.accepted.abortBegun j).modWindow w
      (fun r => { r with progress := some .aborting })).finish .ok)).walkAborted j.window) (by rw [hjw]; exact hn)] at hend
    refine (event_maintEnding hreset hsettled rfl hend ?_).trans ?_
    · rw [hjw]
      exact settled_of_nextMaint hsettled rfl rfl
    · rw [hjw]
      exact congrArg (fun s => Host.Outcome.next (State.driveEventN s)) (abortedRetire_eq s j w)
  · refine event_accept_ended hs (cmdAbortMaint_of_flush (s := s.accepted) hj hk hr)
      (settled_of_walksRest hsettled (hw.withMaint rfl ?_))
    exact maintEnding_of_waiting (j := { j with run := .aborting }) rfl rfl ho
  · have hact := cmdAbortMaint_of_flush (s := s.accepted) hj hk hr
    rw [accept_of_ended hm hact]
    have hend := maintEnding_of_aborted (s := (s.accepted.abortBegun j).finish .ok) (j := { j with run := .aborting }) rfl rfl ho
    rw [abortEnded_eq (s := ((s.accepted.abortBegun j).finish .ok).walkAborted j.window) (by rw [hjw]; exact hn)] at hend
    refine (event_maintEnding hreset hsettled rfl hend ?_).trans ?_
    · rw [hjw]
      exact settled_of_nextMaint hsettled rfl rfl
    · rw [hjw]
      exact congrArg (fun f => Host.Outcome.next (State.driveEventN { (State.commandEnd { s with
        maint := s.nextMaint, maintStep := none } .ok) with flags := f })) (flags_finish_abort s.flags)

end Sys2Proof.Machine

/-! # SET_WINDOW and its argument words -/

namespace Sys2Proof.Machine

set_option Elab.async false

/-! ## Fields of a word -/

/-- The field of a word from a bit on. -/
def fieldOf (x : Word32) (f : Nat × Nat) : Nat := x.toNat / 2 ^ f.1 % 2 ^ f.2

theorem toNat_extractLsb' (x : Word32) (a n : Nat) : (x.extractLsb' a n).toNat = fieldOf x (a, n) := by
  rw [BitVec.extractLsb'_toNat, Nat.shiftRight_eq_div_pow]
  rfl

/-- A mask that covers some fields finds a word clear exactly where the fields are 0. -/
theorem and_eq_zero_iff_fields (x m : Word32) (fs : List (Nat × Nat))
    (h : ∀ i : Fin 32, m.getLsbD i = true ↔ ∃ f ∈ fs, f.1 ≤ i.val ∧ i.val < f.1 + f.2) :
    x &&& m = 0#32 ↔ ∀ f ∈ fs, fieldOf x f = 0 := by
  constructor
  · intro hx f hf
    have hz : x.extractLsb' f.1 f.2 = 0#f.2 := by
      apply BitVec.eq_of_getLsbD_eq
      intro i hi
      rw [BitVec.getLsbD_extractLsb', BitVec.getLsbD_zero]
      by_cases h32 : f.1 + i < 32
      · have hm : m.getLsbD (f.1 + i) = true := (h ⟨f.1 + i, h32⟩).2 ⟨f, hf, by simp, by simpa using hi⟩
        have hb := congrArg (fun y => y.getLsbD (f.1 + i)) hx
        have hx : x.getLsbD (f.1 + i) = false := by simpa [hm] using hb
        rw [hx, Bool.and_false]
      · rw [BitVec.getLsbD_of_ge _ _ (by omega), Bool.and_false]
    have ht := congrArg BitVec.toNat hz
    rwa [toNat_extractLsb', BitVec.toNat_zero] at ht
  · intro hx
    apply BitVec.eq_of_getLsbD_eq
    intro i hi
    rw [BitVec.getLsbD_and, BitVec.getLsbD_zero]
    cases hm : m.getLsbD i with
    | false => exact Bool.and_false _
    | true =>
      obtain ⟨f, hf, hlo, hhi⟩ := (h ⟨i, hi⟩).1 hm
      have hz : x.extractLsb' f.1 f.2 = 0#f.2 := BitVec.eq_of_toNat_eq
        ((toNat_extractLsb' x f.1 f.2).trans ((hx f hf).trans BitVec.toNat_zero.symm))
      have hb := congrArg (fun y => y.getLsbD (i - f.1)) hz
      dsimp only at hlo hhi
      have hi' : f.1 + (i - f.1) = i := by omega
      have hlt : i - f.1 < f.2 := by omega
      simpa [hi', hlt] using hb

theorem toNat_append {a b : Nat} (x : BitVec a) (y : BitVec b) : (x ++ y).toNat = x.toNat * 2 ^ b + y.toNat := by
  rw [BitVec.toNat_append, ← Nat.shiftLeft_add_eq_or_of_lt y.isLt, Nat.shiftLeft_eq]

/-! ## SET_WINDOW's arguments (Table 12-3) -/

/-- The unused bits of ARG0 are its bits 3 to 7, 10 to 15 and 24 to 31. -/
theorem arg0_unused (x : Word32) : x &&& 0xFF00FCF8#32 = 0#32 ↔ fieldOf x (3, 5) = 0 ∧ fieldOf x (10, 6) = 0 ∧
    fieldOf x (24, 8) = 0 := by
  rw [and_eq_zero_iff_fields x _ [(3, 5), (10, 6), (24, 8)] (by decide)]
  simp

/-- The unused bits of ARG3 are its bits 2 to 15 and 18 to 31. -/
theorem arg3_unused (x : Word32) : x &&& 0xFFFCFFFC#32 = 0#32 ↔ fieldOf x (2, 14) = 0 ∧ fieldOf x (18, 14) = 0 := by
  rw [and_eq_zero_iff_fields x _ [(2, 14), (18, 14)] (by decide)]
  simp

theorem kindArg_eq_some_iff (k : BitVec 2) (c : WinKind) : kindArg k = some c ↔ k.toNat = c.code := by
  revert k c
  have h : ∀ k : BitVec 2, ∀ c ∈ [WinKind.tracked, .direct, .sharedOnly], kindArg k = some c ↔ k.toNat = c.code := by decide
  intro k c
  exact h k c (by cases c <;> simp)

theorem windowArg_eq_some_iff (a : Word32) (w : WinIx) : windowArg a = some w ↔ a.toNat = w.val := by
  unfold windowArg
  split
  · rw [Option.some.injEq, Fin.ext_iff]
  · simp only [reduceCtorEq, false_iff]
    omega

/-- The four words that name a window, its kind, its nodes and its lines. -/
def spellsWindow (v : Vector Word32 4) (w : WinIx) (k : WinKind) (m : NodeSet) (a b : Line) : Prop :=
  v[0] = BitVec.ofNat 32 (w.val + k.code * 2 ^ 8 + m.toNat * 2 ^ 16) ∧ v[1] = a.setWidth 32 ∧
    v[2] = b.setWidth 32 ∧ v[3] = BitVec.ofNat 32 (a.toNat / 2 ^ 32 + b.toNat / 2 ^ 32 * 2 ^ 16)

theorem WinKind.code_lt (k : WinKind) : k.code < 4 := by cases k <;> decide

/-- A line is its low word under two bits of another. -/
theorem line_eq_append_iff (a : Line) (x : BitVec 2) (y : Word32) :
    x ++ y = a ↔ y = a.setWidth 32 ∧ x.toNat = a.toNat / 2 ^ 32 := by
  have hy := y.isLt
  have hx := x.isLt
  have ha := a.isLt
  constructor
  · rintro rfl
    refine ⟨BitVec.eq_of_toNat_eq ?_, ?_⟩
    · rw [BitVec.toNat_setWidth, toNat_append]; omega
    · rw [toNat_append]; omega
  · rintro ⟨h1, h2⟩
    apply BitVec.eq_of_toNat_eq
    have h3 := congrArg BitVec.toNat h1
    rw [BitVec.toNat_setWidth] at h3
    rw [toNat_append]
    omega

/-- ARG0 is its three fields exactly where its unused bits are 0. -/
theorem arg0_iff (x : Word32) (w : WinIx) (k : WinKind) (m : NodeSet) :
    (x &&& 0xFF00FCF8#32 = 0#32 ∧ (x &&& 7#32).toNat = w.val ∧ fieldOf x (8, 2) = k.code ∧ x.extractLsb' 16 8 = m) ↔
      x = BitVec.ofNat 32 (w.val + k.code * 2 ^ 8 + m.toNat * 2 ^ 16) := by
  have hx := x.isLt
  have hw := w.isLt
  have hk := k.code_lt
  have hm := m.isLt
  have h7 : (x &&& 7#32).toNat = x.toNat % 8 := by
    rw [BitVec.toNat_and]
    exact Nat.and_two_pow_sub_one_eq_mod x.toNat 3
  have hme : x.extractLsb' 16 8 = m ↔ fieldOf x (16, 8) = m.toNat := by
    rw [← toNat_extractLsb', BitVec.toNat_inj]
  have hxe : x = BitVec.ofNat 32 (w.val + k.code * 2 ^ 8 + m.toNat * 2 ^ 16) ↔
      x.toNat = w.val + k.code * 2 ^ 8 + m.toNat * 2 ^ 16 := by
    rw [← BitVec.toNat_inj, BitVec.toNat_ofNat, Nat.mod_eq_of_lt (by omega)]
  rw [arg0_unused, h7, hme, hxe]
  unfold fieldOf
  dsimp only
  omega

/-- ARG3 is its two fields exactly where its unused bits are 0. -/
theorem arg3_iff (x : Word32) (a b : Line) :
    (x &&& 0xFFFCFFFC#32 = 0#32 ∧ (x.extractLsb' 0 2).toNat = a.toNat / 2 ^ 32 ∧
      (x.extractLsb' 16 2).toNat = b.toNat / 2 ^ 32) ↔
      x = BitVec.ofNat 32 (a.toNat / 2 ^ 32 + b.toNat / 2 ^ 32 * 2 ^ 16) := by
  have hx := x.isLt
  have ha := a.isLt
  have hb := b.isLt
  have hxe : x = BitVec.ofNat 32 (a.toNat / 2 ^ 32 + b.toNat / 2 ^ 32 * 2 ^ 16) ↔
      x.toNat = a.toNat / 2 ^ 32 + b.toNat / 2 ^ 32 * 2 ^ 16 := by
    rw [← BitVec.toNat_inj, BitVec.toNat_ofNat, Nat.mod_eq_of_lt (by omega)]
  rw [arg3_unused, toNat_extractLsb', toNat_extractLsb', hxe]
  unfold fieldOf
  dsimp only
  omega

/-- The arguments are read exactly as what they spell. -/
theorem setWindowArgs_eq_some_iff (v : Vector Word32 4) (w : WinIx) (k : WinKind) (m : NodeSet) (a b : Line) :
    setWindowArgs v = some (w, a, b, k, m) ↔ spellsWindow v w k m a b := by
  have hread : setWindowArgs v = some (w, a, b, k, m) ↔
      (v[0] &&& 0xFF00FCF8#32 = 0#32 ∧ v[3] &&& 0xFFFCFFFC#32 = 0#32) ∧ windowArg (v[0] &&& 7#32) = some w ∧
        kindArg (v[0].extractLsb' 8 2) = some k ∧ v[3].extractLsb' 0 2 ++ v[1] = a ∧ v[3].extractLsb' 16 2 ++ v[2] = b ∧
        v[0].extractLsb' 16 8 = m := by
    unfold setWindowArgs
    generalize windowArg (v[0] &&& 7#32) = ow, kindArg (v[0].extractLsb' 8 2) = ok
    split
    · rename_i h
      exact ⟨nofun, fun ⟨⟨h0, h3⟩, _⟩ => absurd h (not_or.2 ⟨not_not.2 h0, not_not.2 h3⟩)⟩
    · rename_i h
      obtain ⟨h0, h3⟩ := not_or.1 h
      cases ow with
      | none => exact ⟨nofun, fun ⟨_, h, _⟩ => nomatch h⟩
      | some w' =>
        cases ok with
        | none => exact ⟨nofun, fun ⟨_, _, h, _⟩ => nomatch h⟩
        | some k' =>
          constructor
          · rintro ⟨⟩
            exact ⟨⟨not_not.1 h0, not_not.1 h3⟩, rfl, rfl, rfl, rfl, rfl⟩
          · rintro ⟨_, ⟨⟩, ⟨⟩, rfl, rfl, rfl⟩
            rfl
  rw [hread, windowArg_eq_some_iff, kindArg_eq_some_iff, line_eq_append_iff, line_eq_append_iff, toNat_extractLsb' _ 8 2]
  unfold spellsWindow
  rw [← arg0_iff, ← arg3_iff]
  tauto

/-! ## A CLOSED window's fields written -/

section
variable {s : State} {w : WinIx} {f : Window → Window}

/-- A CLOSED window that stays CLOSED contains no line before or after. -/
theorem windowOf_modWindow_of_closed (hclosed : (s.getWindow w).state = .closed)
    (hf : (f (s.getWindow w)).state = .closed) (l : Line) : (s.modWindow w f).windowOf l = s.windowOf l := by
  apply windowOf_congr
  intro u
  rw [getWindow_modWindow]
  split
  · rename_i h
    subst h
    unfold Window.contains
    rw [hclosed, hf]
    rfl
  · rfl

theorem trackedLine_modWindow_of_closed (hclosed : (s.getWindow w).state = .closed)
    (hf : (f (s.getWindow w)).state = .closed) (l : Line) : (s.modWindow w f).trackedLine l = s.trackedLine l := by
  unfold State.trackedLine
  rw [windowOf_modWindow_of_closed hclosed hf]
  cases hv : s.windowOf l with
  | none => rfl
  | some v =>
    have hne : v ≠ w := by
      rintro rfl
      exact ((contains_iff ..).1 (contains_of_windowOf hv)).1 hclosed
    dsimp only
    rw [getWindow_modWindow, if_neg hne]

/-- A CLOSED window's fields are none of what a job's actions read. -/
theorem maintAction_modWindow_of_closed (hok : s.windowsOk) (hclosed : (s.getWindow w).state = .closed)
    (hf : (f (s.getWindow w)).state = .closed) {j : MaintJob} (hj : s.maint = some j) (i : SetIx) (q : WayIx) :
    (s.modWindow w f).maintAction j i q = s.maintAction j i q := by
  unfold State.maintAction
  cases j.kind with
  | retire =>
    cases hv : j.window with
    | none => rfl
    | some v =>
      have hne : v ≠ w := by
        rintro rfl
        exact absurd ((hok.2.2 j v hj hv).1.symm.trans hclosed) nofun
      show (s.modWindow w f).retireAction i q ((s.modWindow w f).getWindow v) = s.retireAction i q (s.getWindow v)
      rw [getWindow_modWindow, if_neg hne]
      rfl
  | flush => rfl
  | scrub =>
    show (s.modWindow w f).scrubAction i q = s.scrubAction i q
    unfold State.scrubAction
    simp only [trackedLine_modWindow_of_closed hclosed hf]
    rfl

theorem modWindow_settled_of_closed (hok : s.windowsOk) (hclosed : (s.getWindow w).state = .closed)
    (hf : (f (s.getWindow w)).state = .closed) (h : s.settled = true) : (s.modWindow w f).settled = true := by
  rw [settled_iff] at h ⊢
  obtain ⟨hrebuild, hdue, hpurge, hmaint, horder, hanswer, hending, hdone⟩ := h
  refine ⟨hrebuild, hdue, hpurge, ?_, ?_, ?_, ?_, hdone⟩
  · rw [maintReady_eq_false_iff] at hmaint ⊢
    intro j ways hj hways
    obtain ⟨q, rest, hcons, hroom, hopens⟩ := hmaint j ways hj hways
    exact ⟨q, rest, hcons, hroom,
      (congrArg WayAction.opens (maintAction_modWindow_of_closed hok hclosed hf hj _ q)).trans hopens⟩
  · exact (placeHeldOrder_none_iff _).2 ((placeHeldOrder_none_iff s).1 horder)
  · exact (placeHeldAnswer_none_iff _).2 ((placeHeldAnswer_none_iff s).1 hanswer)
  · exact (maintEnding_none_iff _).2 ((maintEnding_none_iff s).1 hending)

end

theorem exec_setWindow (s : State) : exec .setWindow s = s.event (s.accept cmdSetWindow) := rfl

/-- The act on arguments that are read. -/
theorem cmdSetWindow_of_args {s : State} {w : WinIx} {k : WinKind} {m : NodeSet} {a b : Line}
    (h : setWindowArgs s.args = some (w, a, b, k, m)) :
    cmdSetWindow s = if (s.getWindow w).state ≠ .closed then ended s .windowBusy
      else ended (s.modWindow w (fun v => { v with start := a, limit := b, kind := k, allowed := m })) .ok := by
  unfold cmdSetWindow
  rw [h]

/-- Settles O26: the arguments are read as what they spell, and no part of the settling reads a CLOSED window. -/
theorem setWindowWritesAClosedWindow : Obligations.SetWindowWritesAClosedWindow := by
  intro s hs hok spells
  rw [exec_setWindow]
  refine ⟨fun w k m a b h => ?_, fun h => ?_⟩
  · have hact := cmdSetWindow_of_args (s := s.accepted) ((setWindowArgs_eq_some_iff _ w k m a b).2 h)
    by_cases hc : (s.getWindow w).state = .closed
    · rw [if_pos hc]
      exact event_accept_modWindow hs (hact.trans (if_neg (not_not.2 hc))) (modWindow_settled_of_closed hok hc hc hs.1.2)
    · rw [if_neg hc]
      exact event_accept_unchanged hs (hact.trans (if_pos hc))
  · have hnone : setWindowArgs s.args = none := by
      cases hr : setWindowArgs s.args with
      | none => rfl
      | some r =>
        obtain ⟨w, a, b, k, m⟩ := r
        exact absurd ⟨w, k, m, a, b, (setWindowArgs_eq_some_iff _ w k m a b).1 hr⟩ h
    have hact : cmdSetWindow s.accepted = ended s.accepted .badArgument := by
      unfold cmdSetWindow
      rw [show setWindowArgs s.accepted.args = none from hnone]
    exact event_accept_unchanged hs hact

end Sys2Proof.Machine

/-! # Reading a set whose codes all match -/

namespace Sys2Proof.Machine

set_option Elab.async false

theorem nodup_allWays : allWays.Nodup := by
  unfold allWays
  exact List.nodup_finRange 16

theorem view_of_good {α : Type} {c : Coded α} (h : c.check = .good) : c.view = some c.stored := by
  unfold Coded.view
  rw [h]

theorem correctBody_of_good {s : State} {i : SetIx} {w : WayIx} (h : (s.getWay i w).body.check = .good) :
    State.correctBody i s w = s := by
  unfold State.correctBody
  rw [h]

theorem correctKey_of_good {s : State} {i : SetIx} {w : WayIx} (h : (s.getWay i w).key.check = .good) :
    State.correctKey i s w = s := by
  unfold State.correctKey
  rw [h]

section
variable {s : State} {i : SetIx}

theorem bodyView_of_sound (h : s.soundSet i) (w : WayIx) : s.bodyView i w = some (s.getWay i w).body.stored :=
  view_of_good (h w).2

theorem keyView_of_sound (h : s.soundSet i) (w : WayIx) : s.keyView i w = some (s.getWay i w).key.stored :=
  view_of_good (h w).1

theorem correctBodies_of_sound (h : s.soundSet i) (ws : List WayIx) : s.correctBodies i ws = s :=
  List.foldl_fixed' (fun w => correctBody_of_good (h w).2) ws

theorem correctKeys_of_sound (h : s.soundSet i) (ws : List WayIx) : s.correctKeys i ws = s :=
  List.foldl_fixed' (fun w => correctKey_of_good (h w).1) ws

theorem readWholeSet_of_sound (h : s.soundSet i) : s.readWholeSet i = s := by
  unfold State.readWholeSet
  rw [correctBodies_of_sound h, correctKeys_of_sound h]

theorem damagedKeys_of_sound (h : s.soundSet i) (ws : List WayIx) : s.damagedKeys i ws = [] := by
  refine List.filter_eq_nil_iff.2 fun w _ => ?_
  rw [keyView_of_sound h]
  exact Bool.false_ne_true

theorem keyed_of_sound (h : s.soundSet i) (w : WayIx) : s.keyed i w = ((s.getWay i w).body.stored.content != .free) := by
  unfold State.keyed
  rw [bodyView_of_sound h]

/-- The ways in use of a set, whose keys a lookup compares. -/
def State.keyedWays (s : State) (i : SetIx) : List WayIx := allWays.filter (fun w => s.keyed i w)

theorem mem_keyedWays (h : s.soundSet i) (w : WayIx) : w ∈ s.keyedWays i ↔ (s.getWay i w).body.stored.content ≠ .free := by
  unfold State.keyedWays
  rw [List.mem_filter, keyed_of_sound h, bne_iff_ne]
  exact ⟨And.right, fun hw => ⟨mem_allWays w, hw⟩⟩

theorem wayHolder_of_sound (h : s.soundSet i) (w : WayIx) : s.wayHolder i w = (s.getWay i w).body.stored.heldBy := by
  unfold State.wayHolder
  rw [bodyView_of_sound h]

end

section
variable {s : State} {l : Line}

theorem matchKey_hits (h : s.soundSet (setOf l)) (ws : List WayIx) :
    ws.filter (fun w => s.keyView (setOf l) w == some (some (keyOf l))) =
      ws.filter (fun w => (s.getWay (setOf l) w).key.stored == some (keyOf l)) := by
  refine List.filter_congr fun w _ => ?_
  rw [keyView_of_sound h]
  rfl

/-- A key no way in use has is missed. -/
theorem matchKey_of_untracked (h : s.untracked l) : s.matchKey l (s.keyedWays (setOf l)) = .miss := by
  obtain ⟨hsound, hnone⟩ := h
  have hnil : (s.keyedWays (setOf l)).filter (fun w => s.keyView (setOf l) w == some (some (keyOf l))) = [] := by
    rw [matchKey_hits hsound, List.filter_eq_nil_iff]
    intro w hw
    rw [beq_iff_eq]
    exact hnone w ((mem_keyedWays hsound w).1 hw)
  unfold State.matchKey
  dsimp only
  rw [hnil]
  rfl

/-- A key that one way in use has is hit there. -/
theorem matchKey_of_tracked {w : WayIx} {c : Content} (h : s.trackedAs l w c) (hc : c ≠ .free) :
    s.matchKey l (s.keyedWays (setOf l)) = .hit w := by
  obtain ⟨hsound, hway, honly⟩ := h
  have hkey : (s.getWay (setOf l) w).key.stored = some (keyOf l) := by rw [hway]; rfl
  have hw : w ∈ s.keyedWays (setOf l) := (mem_keyedWays hsound w).2 (by rw [hway]; exact hc)
  have hfind : ((s.keyedWays (setOf l)).filter (fun w => s.keyView (setOf l) w == some (some (keyOf l)))).find?
      (fun w => (s.bodyView (setOf l) w).isSome) = some w := by
    rw [matchKey_hits hsound]
    cases hf : List.find? _ _ with
    | none =>
      have := List.find?_eq_none.1 hf w (List.mem_filter.2 ⟨hw, by rw [hkey]; exact beq_self_eq_true _⟩)
      rw [bodyView_of_sound hsound] at this
      exact absurd rfl this
    | some u =>
      obtain ⟨hu, hk⟩ := List.mem_filter.1 (List.mem_of_find?_eq_some hf)
      by_contra hne
      exact honly u (fun he => hne (by rw [he])) ((mem_keyedWays hsound u).1 hu) (beq_iff_eq.1 hk)
  unfold State.matchKey
  dsimp only
  rw [hfind]

theorem lookup_of_sound (h : s.soundSet (setOf l)) (p : Bool) :
    s.lookup l p = (s, s.matchKey l (s.keyedWays (setOf l))) := by
  unfold State.lookup
  dsimp only
  rw [correctBodies_of_sound h, correctKeys_of_sound h, damagedKeys_of_sound h]
  rfl

theorem lookup_of_untracked (h : s.untracked l) (p : Bool) : s.lookup l p = (s, .miss) := by
  rw [lookup_of_sound h.1, matchKey_of_untracked h]

theorem lookup_of_tracked {w : WayIx} {c : Content} (h : s.trackedAs l w c) (hc : c ≠ .free) (p : Bool) :
    s.lookup l p = (s, .hit w) := by
  rw [lookup_of_sound h.1, matchKey_of_tracked h hc]

/-- What a reader sees of the way that tracks a line. -/
theorem bodyView_of_tracked {w : WayIx} {c : Content} (h : s.trackedAs l w c) :
    s.bodyView (setOf l) w = some ⟨c, none, false⟩ := by
  rw [bodyView_of_sound h.1, h.2.1]
  rfl

theorem wayHolder_of_tracked {w : WayIx} {c : Content} (h : s.trackedAs l w c) : s.wayHolder (setOf l) w = none := by
  rw [wayHolder_of_sound h.1, h.2.1]
  rfl

theorem wayHeld_of_tracked {w : WayIx} {c : Content} (h : s.trackedAs l w c) : s.wayHeld (setOf l) w = false := by
  unfold State.wayHeld
  rw [wayHolder_of_tracked h]
  rfl

theorem wayContent_of_tracked {w : WayIx} {c : Content} (h : s.trackedAs l w c) :
    s.wayContent (setOf l) w = some c := by
  unfold State.wayContent
  rw [wayHolder_of_tracked h, bodyView_of_tracked h]
  rfl

end

/-! ## INSPECT_LINE, INSPECT_WAY and INSPECT_SLOT (O30) -/

theorem bufferOf_getElem (ws : List Word32) (i : Nat) (hi : i < 64) : (bufferOf ws)[i] = ws.getD i 0#32 := by
  have hfold : ∀ (is : List (Fin 64)) (v : Vector Word32 64), (∀ j : Fin 64, j ∈ is ∨ v[j] = ws.getD j 0#32) →
      ∀ j : Fin 64, (is.foldl (fun v i => v.set i.val (ws.getD i.val 0#32) i.isLt) v)[j] = ws.getD j 0#32 := by
    intro is
    induction is with
    | nil => exact fun v h j => (h j).resolve_left List.not_mem_nil
    | cons k is ih =>
      intro v h
      refine ih _ fun j => ?_
      by_cases hj : j = k
      · subst hj
        exact .inr (Vector.getElem_set_self ..)
      · rcases h j with hm | hv
        · exact .inl ((List.mem_cons.1 hm).resolve_left hj)
        · refine .inr (Eq.trans ?_ hv)
          exact Vector.getElem_set_ne _ _ fun he => hj (Fin.ext he.symm)
  exact hfold (List.finRange 64) _ (fun j => .inl (List.mem_finRange j)) ⟨i, hi⟩

theorem bufferOf_take {ws : List Word32} {n : Nat} (hlen : ws.length = n) (h : n ≤ 64) :
    (bufferOf ws).toList.take n = ws := by
  subst hlen
  apply List.ext_getElem
  · simp [h]
  · intro i h1 h2
    rw [List.getElem_take, Vector.getElem_toList, bufferOf_getElem _ _ (by omega), List.getD_eq_getElem _ _ h2]

theorem exec_inspectLine (s : State) : exec .inspectLine s = s.event (s.accept cmdInspectLine) := rfl

theorem exec_inspectWay (s : State) : exec .inspectWay s = s.event (s.accept cmdInspectWay) := rfl

theorem exec_inspectSlot (s : State) : exec .inspectSlot s = s.event (s.accept cmdInspectSlot) := rfl

theorem setArg_of_eq {a : Word32} {i : SetIx} (h : a.toNat = i.val) : setArg a = some i :=
  (dif_pos (by omega : a.toNat < 2048)).trans (congrArg some (Fin.ext h))

theorem wayArg_of_eq {a : Word32} {w : WayIx} (h : a.toNat = w.val) : wayArg a = some w :=
  (dif_pos (by omega : a.toNat < 16)).trans (congrArg some (Fin.ext h))

/-- The bits of a line's second word above the first two are unused. -/
theorem lineHigh_unused (x : Word32) : x &&& 0xFFFFFFFC#32 = 0#32 ↔ x.toNat < 4 := by
  have hx := x.isLt
  rw [and_eq_zero_iff_fields x _ [(2, 30)] (by decide)]
  simp only [List.mem_singleton, forall_eq, fieldOf]
  omega

theorem lineArg_of_eq {lo hi : Word32} {l : Line} (h0 : lo = l.setWidth 32) (h1 : hi.toNat = l.toNat / 2 ^ 32) :
    lineArg lo hi = some l := by
  have hl := l.isLt
  have hz : hi &&& 0xFFFFFFFC#32 = 0#32 := (lineHigh_unused hi).2 (by omega)
  unfold lineArg
  rw [if_pos hz]
  refine congrArg some ((line_eq_append_iff l _ _).2 ⟨h0, ?_⟩)
  rw [toNat_extractLsb']
  unfold fieldOf
  dsimp only
  omega

theorem lineArg_of_gt {lo hi : Word32} (h : 3 < hi.toNat) : lineArg lo hi = none :=
  if_neg fun hz => by have := (lineHigh_unused hi).1 hz; omega

theorem inspectedContent_of_unheld {s : State} {i : SetIx} {w : WayIx} (h : s.wayHolder i w = none) :
    s.inspectedContent i w = (s.getWay i w).body.stored.content := by
  unfold State.inspectedContent
  rw [h]

/-- A way report has 15 words, the content being the stored one of an unheld way. -/
theorem wayReport_take {s : State} {i : SetIx} {w : WayIx} (h : s.wayHolder i w = none) (found : Word32) :
    (bufferOf (s.wayReport found i w)).toList.take 15 = s.wayReport found i w ∧
      s.inspectedContent i w = (s.getWay i w).body.stored.content :=
  ⟨bufferOf_take rfl (by decide), inspectedContent_of_unheld h⟩

theorem cmdInspectLine_of_line {s : State} {l : Line} (h : lineArg s.args[0] s.args[1] = some l) :
    cmdInspectLine s = ended { (s.inspectLineReport l).1 with
      inspect := bufferOf (s.inspectLineReport l).2.1
      results := (s.inspectLineReport l).1.results.set 0 (boolWord (s.inspectLineReport l).2.2) } .ok := by
  unfold cmdInspectLine
  rw [h]

theorem inspectLineReport_of_tracked {s : State} {l : Line} {w : WayIx} {c : Content} (h : s.trackedAs l w c)
    (hc : c ≠ .free) : s.inspectLineReport l = (s, s.wayReport 1#32 (setOf l) w, true) := by
  unfold State.inspectLineReport
  dsimp only
  rw [show s.matchKey l (allWays.filter (fun w => s.keyed (setOf l) w)) = .hit w from matchKey_of_tracked h hc]

theorem inspectLineReport_of_untracked {s : State} {l : Line} (h : s.untracked l) :
    s.inspectLineReport l = (s, s.missReport (setOf l) none, false) := by
  unfold State.inspectLineReport
  dsimp only
  rw [show s.matchKey l (allWays.filter (fun w => s.keyed (setOf l) w)) = .miss from matchKey_of_untracked h,
    damagedKeys_of_sound h.1]

/-- The kind word of a pending message draws a free value or none. -/
theorem pendingKind_state (s : State) (p : Option Pending) : ∃ k, (s.pendingKind p).1 = { s with freeCount := k } := by
  unfold State.pendingKind
  split
  · exact ⟨s.freeCount, rfl⟩
  · exact ⟨s.freeCount, rfl⟩
  · exact ⟨s.freeCount, rfl⟩
  · split
    · exact ⟨s.freeCount, rfl⟩
    · exact ⟨s.freeCount + 1, rfl⟩

/-- A slot's report changes the count of free values alone. -/
theorem slotReport_state (s : State) (t : SlotIx) (x : Slot) : ∃ k, (s.slotReport t x).1 = { s with freeCount := k } :=
  pendingKind_state s (s.reportedPending t x)

theorem exec_inspectSlot_of_lt {s : State} {t : SlotIx} (h : s.args[0].toNat = t.val) : cmdInspectSlot s =
    match s.getSlot t with
    | none => ended { s with inspect := bufferOf freeSlotReport } .ok
    | some x => ended { (s.slotReport t x).1 with inspect := bufferOf (s.slotReport t x).2 } .ok := by
  have hlt : s.args[0].toNat < 48 := by omega
  have ht : (⟨s.args[0].toNat, hlt⟩ : SlotIx) = t := Fin.ext h
  unfold cmdInspectSlot
  rw [dif_pos hlt, ht] <;> cases s.getSlot t <;> rfl

/-- The words of a slot's report that say what its transaction is and where it stands. -/
theorem reportedSlot (s : State) (t : SlotIx) (x : Slot) : let b := bufferOf (s.slotReport t x).2
    b[0] = 1#32 ∧ b[1] = x.kind.word ∧ b[2] = optWord (fun n => natWord n.val) x.requester ∧
      b[3] = optWord lineLow x.line ∧ b[4] = optWord lineHigh x.line ∧
      b[6] = optWord (fun v => natWord v.val) x.window ∧ b[7] = x.phase.word ∧
      b[8] = (if x.phase = .parked then absentWord else maskWord x.awaited) ∧ b[13] = natWord x.retriesLeft ∧
      b[18] = optWord natWord x.rank := by
  have hawaited : (if x.phase != .parked then maskWord x.awaited else absentWord) =
      if x.phase = .parked then absentWord else maskWord x.awaited := by
    cases x.phase <;> rfl
  have word : ∀ (i : Nat) (hi : i < 64), (bufferOf (s.slotReport t x).2)[i] = (s.slotReport t x).2.getD i 0#32 :=
    fun i hi => bufferOf_getElem _ i hi
  exact ⟨word 0 _, word 1 _, word 2 _, word 3 _, word 4 _, word 6 _, word 7 _, (word 8 _).trans hawaited, word 13 _,
    word 18 _⟩

theorem cmdInspectWay_badArgument {s : State} (h : 2047 < s.args[0].toNat ∨ 15 < s.args[1].toNat) :
    cmdInspectWay s = ended s .badArgument := by
  unfold cmdInspectWay
  rcases h with h | h
  · have hset : setArg s.args[0] = none := dif_neg (by omega)
    rw [hset]
  · have hway : wayArg s.args[1] = none := dif_neg (by omega)
    rw [hway]
    cases setArg s.args[0] <;> rfl

/-- Settles O30: each report is the buffer written, word for word, and settling reads neither. -/
theorem inspectionsReport : Obligations.InspectionsReport := by
  intro s hs after failed way
  have hsettled := hs.1.2
  have hway : ∀ (found : Word32) (i : SetIx) (w : WayIx), s.wayHolder i w = none →
      way found i w (bufferOf (s.wayReport found i w)) := fun found i w h => by
    obtain ⟨htake, hcontent⟩ := wayReport_take h found
    refine htake.trans ?_
    unfold State.wayReport entryWords
    rw [hcontent]
    rfl
  have hend : ∀ {act : State → Ended} {b : Vector Word32 64} {r : Word32} {k : Nat},
      act s.accepted = ended { s.accepted with
        inspect := b, results := (Vector.replicate 4 0#32).set 0 r, freeCount := k } .ok →
      s.event (s.accept act) = .next (after b r k) := fun h => event_accept_ended hs h (settled_of_same hsettled)
  have hzero : (Vector.replicate 4 0#32).set 0 0#32 = Vector.replicate 4 0#32 := by decide
  rw [exec_inspectLine, exec_inspectWay, exec_inspectSlot]
  refine ⟨fun i w hi hw hh => ⟨_, hend ?_, hway _ i w hh⟩, fun h => event_accept_unchanged hs ?_,
    fun l h0 h1 => ⟨fun w c ht hc => ⟨_, hend ?_, hway _ _ w (wayHolder_of_tracked ht)⟩, fun hu => ⟨bufferOf (s.missReport (setOf l) none), hend ?_, ?_⟩⟩,
    fun h => event_accept_unchanged hs ?_, fun t ht => ⟨fun hn => ⟨bufferOf freeSlotReport, hend ?_, ?_⟩, fun x hx => ?_⟩,
    fun h => event_accept_unchanged hs ?_⟩
  · rw [hzero]
    unfold cmdInspectWay
    rw [setArg_of_eq (a := s.accepted.args[0]) hi, wayArg_of_eq (a := s.accepted.args[1]) hw]
    rfl
  · exact cmdInspectWay_badArgument (s := s.accepted) h
  · rw [cmdInspectLine_of_line (s := s.accepted) (lineArg_of_eq h0 h1), inspectLineReport_of_tracked (s := s.accepted) ht hc]
    rfl
  · rw [cmdInspectLine_of_line (s := s.accepted) (lineArg_of_eq h0 h1), inspectLineReport_of_untracked (s := s.accepted) hu]
    rfl
  · exact bufferOf_take (ws := s.missReport (setOf l) none) rfl (by decide)
  · unfold cmdInspectLine
    rw [lineArg_of_gt (hi := s.accepted.args[1]) h]
  · rw [hzero, exec_inspectSlot_of_lt (s := s.accepted) ht, show s.accepted.getSlot t = none from hn]
    rfl
  · exact bufferOf_take (ws := freeSlotReport) rfl (by decide)
  · obtain ⟨k, hk⟩ := slotReport_state s.accepted t x
    refine ⟨bufferOf (s.accepted.slotReport t x).2, k, hend ?_, ?_⟩
    · rw [hzero, exec_inspectSlot_of_lt (s := s.accepted) ht, show s.accepted.getSlot t = some x from hx]
      dsimp only
      rw [hk]
      rfl
    · exact reportedSlot s.accepted t x
  · unfold cmdInspectSlot
    rw [dif_neg (by show ¬ s.args[0].toNat < 48; omega)]

end Sys2Proof.Machine

/-! # Chains of tasks, and what keeps a part quiet -/

namespace Sys2Proof.Machine

set_option Elab.async false

/-! ## Chains of tasks -/

/-- One task of an event, and the rest from there. -/
theorem drain_step {k : Nat} {s s' u : State} {t : Task} {ts ts' : List Task} (hc : t.carryOut s = (s', ts'))
    (h : drain k s' (ts' ++ ts) = some u) : drain (k + 1) s (t :: ts) = some u := by
  rw [drain_cons, hc]
  exact h

/-- Tasks that find nothing to do. -/
theorem drain_idle {k : Nat} {s u : State} {ts us : List Task} (hts : ∀ t ∈ ts, t.carryOut s = (s, []))
    (h : drain k s us = some u) : drain (ts.length + k) s (ts ++ us) = some u := by
  induction ts with
  | nil => exact (Nat.zero_add k).symm ▸ h
  | cons t ts ih =>
    have hrest := ih fun t ht => hts t (List.mem_cons_of_mem _ ht)
    rw [List.length_cons, Nat.add_right_comm]
    exact drain_step (hts t List.mem_cons_self) hrest

/-- An event whose tasks are carried out within some steps, its settling included. -/
theorem event_of_drain {s u : State} {w : Work} (k : Nat) (hk : k ≤ Config.cascadeBound) (hreset : s.resetN = .high)
    (h : drain k w.1 (w.2 ++ [.settle]) = some u) : s.event w = .next u.driveEventN := by
  rw [event_running hreset]
  exact conclude_of_drain hk h

/-! ## What keeps a part quiet -/

theorem slotsWith_eq_nil_iff (s : State) (p : Slot → Bool) :
    s.slotsWith p = [] ↔ ∀ t x, s.getSlot t = some x → p x = false := by
  rw [slotsWith_eq, List.filter_eq_nil_iff]
  constructor
  · intro h t x hx
    have := h t (by unfold allSlots; exact List.mem_finRange t)
    rw [hx] at this
    exact Bool.eq_false_iff.2 this
  · intro h t _
    cases hx : s.getSlot t with
    | none => exact Bool.false_ne_true
    | some x => exact Bool.eq_false_iff.1 (h t x hx)

/-- A quiet part stays quiet where no slot takes up a set rebuild, no set is frozen and the walks stay as they are. -/
theorem State.Quiet.congr {s s' : State} (h : s.Quiet)
    (hslots : ∀ t x, s'.getSlot t = some x → x.rebuildsSet = false) (hfrozen : s'.anyFrozen = false)
    (hreset : s'.resetN = s.resetN := by rfl) (hpstep : s'.purgeStep = s.purgeStep := by rfl)
    (hmstep : s'.maintStep = s.maintStep := by rfl) (horder : s'.orderHeld = s.orderHeld := by rfl)
    (hanswer : s'.answerHeld = s.answerHeld := by rfl) (hmaint : s'.maint = s.maint := by rfl)
    (hjobs : s'.purgeJobs = s.purgeJobs := by rfl) : s'.Quiet where
  running := hreset.trans h.running
  noRebuild := (slotsWith_eq_nil_iff ..).2 hslots
  noFrozen := hfrozen
  noPurgeStep := hpstep.trans h.noPurgeStep
  noMaintStep := hmstep.trans h.noMaintStep
  noHeldOrder := horder.trans h.noHeldOrder
  noHeldAnswer := hanswer.trans h.noHeldAnswer
  noEnding := by
    have he := h.noEnding
    rw [maintEnding_none_iff] at he ⊢
    rw [hmaint, hfrozen]
    rw [h.noFrozen] at he
    exact he
  noDone := by
    have hd := h.noDone
    unfold State.doneNode State.purgeDone State.getJob at hd ⊢
    rw [hjobs, hfrozen]
    rw [h.noFrozen] at hd
    exact hd

theorem State.Quiet.slot {s : State} (h : s.Quiet) {t : SlotIx} {x : Slot} (hx : s.getSlot t = some x) :
    x.rebuildsSet = false :=
  (slotsWith_eq_nil_iff ..).1 h.noRebuild t x hx

theorem modNode_modNode (s : State) (n : Node) (f g : NodeRec → NodeRec) :
    (s.modNode n f).modNode n g = s.modNode n (fun v => g (f v)) := by
  have h : (s.modNode n f).getNode n = f (s.getNode n) := (getNode_modNode s n n f).trans (if_pos rfl)
  unfold State.modNode at h ⊢
  rw [h]
  simp

/-! ## Entry into PURGING with no slot in use (R118) -/

section
variable {s : State} (n : Node) (r : PurgeReason)

/-- The first step of an entry into PURGING. -/
def State.purgeBegun (s : State) (n : Node) (r : PurgeReason) : State :=
  { s.modNode n (fun v => { v with state := .purging, reason := some r }) with ntHeld := s.ntHeld.set n.val none n.isLt }

/-- The tasks of an entry into PURGING before its last. -/
def purgeTasks (n : Node) : List Task :=
  allSlots.map (fun t => Task.purgeEdit t n) ++ allSlots.map (fun t => Task.purgeEnd t n)

theorem purgeTasks_length : (purgeTasks n).length = 96 := by
  unfold purgeTasks allSlots
  simp

theorem endParked_of_empty (h : ∀ t, s.getSlot t = none) (t : SlotIx) : State.endParked n s t = s := by
  unfold State.endParked
  rw [h]

theorem enterPurging_of_empty (h : ∀ t, s.getSlot t = none) (ho : s.orderHeld = []) (ha : s.answerHeld = []) :
    s.enterPurging n r = (s.purgeBegun n r, purgeTasks n ++ [.purgeFinish n]) := by
  have hbegun : ((s.dropMembership n).dropOrdersTo n).modNode n (fun v => { v with state := .purging, reason := some r }) =
      s.purgeBegun n r := by
    unfold State.dropOrdersTo State.dropMembership State.purgeBegun
    dsimp only
    rw [ho, ha]
    obtain ⟨⟩ := s
    dsimp only at ho ha
    subst ho ha
    rfl
  unfold State.enterPurging purgeTasks
  dsimp only
  rw [hbegun, List.foldl_fixed' fun t => endParked_of_empty (s := s.purgeBegun n r) n h t]

theorem purgeTasks_idle (h : ∀ t, s.getSlot t = none) : ∀ t ∈ purgeTasks n, t.carryOut s = (s, []) := by
  intro t ht
  have hedit : ∀ u, s.purgeEdit u n = (s, []) := fun u => by
    unfold State.purgeEdit State.dropPendingTo
    simp only [h, Option.bind_none]
  have hend : ∀ u, s.purgeEnd u n = (s, []) := fun u => by
    unfold State.purgeEnd
    rw [h]
  rcases List.mem_append.1 ht with ht | ht
  · obtain ⟨u, -, rfl⟩ := List.mem_map.1 ht
    exact hedit u
  · obtain ⟨u, -, rfl⟩ := List.mem_map.1 ht
    exact hend u

/-- The last step of the entry, with no set step of the purge cursor in hand. -/
theorem purgeFinish_of_noStep (h : s.purgeStep = none) : s.purgeFinish n =
    { s.modNode n (fun v => { v with credits := 0 }) with
      purgeJobs := s.purgeJobs.set n.val (some (match s.getJob n with
        | none => ⟨.silent, 2048, 0⟩
        | some j => { j with mode := .silent })) n.isLt } := by
  unfold State.purgeFinish
  dsimp only
  cases hj : s.getJob n with
  | none =>
    rw [show (s.modNode n (fun v => { v with credits := 0 })).getJob n = none from hj]
    rfl
  | some j =>
    rw [show (s.modNode n (fun v => { v with credits := 0 })).getJob n = some j from hj]
    dsimp only
    rw [show ((s.modNode n (fun v => { v with credits := 0 })).putJob n (some { j with mode := .silent })).purgeStep = none
      from h]
    rfl

/-- The two steps of the entry together. -/
theorem purgeFinish_purgeBegun (h : s.purgeStep = none) : (s.purgeBegun n r).purgeFinish n = s.purged n r := by
  rw [purgeFinish_of_noStep (s := s.purgeBegun n r) n h]
  have hnode : (s.purgeBegun n r).modNode n (fun v => { v with credits := 0 }) =
      { s.modNode n (fun v => { v with state := .purging, reason := some r, credits := 0 }) with
        ntHeld := s.ntHeld.set n.val none n.isLt } := by
    have h2 := modNode_modNode s n (fun v => { v with state := .purging, reason := some r }) (fun v => { v with credits := 0 })
    exact congrArg (fun u : State => { u with ntHeld := s.ntHeld.set n.val none n.isLt }) h2
  rw [hnode]
  rfl

/-- A purge job made SILENT with its walk not over is not done. -/
theorem purged_doneNode (hd : s.doneNode = none) (hj : ∀ j, s.getJob n = some j → 0 < j.setsLeft) :
    (s.purged n r).doneNode = none := by
  unfold State.doneNode at hd ⊢
  rw [List.find?_eq_none] at hd ⊢
  intro m hm
  have hget : (s.purged n r).getJob m = if m = n then some (match s.getJob n with
      | none => ⟨.silent, 2048, 0⟩
      | some j => { j with mode := .silent }) else s.getJob m :=
    getJob_putJob s n m _
  unfold State.purgeDone
  rw [hget]
  by_cases hmn : m = n
  · rw [if_pos hmn]
    cases hjn : s.getJob n with
    | none => exact Bool.false_ne_true
    | some j =>
      have := hj j hjn
      simp
      omega
  · rw [if_neg hmn]
    exact hd m hm

theorem purged_settled (h : s.Quiet) (hj : ∀ j, s.getJob n = some j → 0 < j.setsLeft) : (s.purged n r).settled = true :=
  Quiet_settled ⟨h.running, h.noRebuild, h.noFrozen, h.noPurgeStep, h.noMaintStep, h.noHeldOrder, h.noHeldAnswer, (maintEnding_none_iff _).2
    ((maintEnding_none_iff s).1 h.noEnding), purged_doneNode n r h.noDone hj⟩

/-- The tasks of the entry, and the settling that finds nothing. -/
theorem drain_purgeBegun (h : ∀ t, s.getSlot t = none) (hstep : s.purgeStep = none) (hs : (s.purged n r).settled = true) :
    drain 98 (s.purgeBegun n r) ((purgeTasks n ++ [.purgeFinish n]) ++ [.settle]) = some (s.purged n r) := by
  have hidle := drain_idle (k := 2) (us := [.purgeFinish n] ++ [.settle]) (u := s.purged n r)
    (purgeTasks_idle (s := s.purgeBegun n r) n h) (drain_step (s' := s.purged n r) (ts' := []) ?_ (drain_settle hs 0))
  · rw [purgeTasks_length] at hidle
    rw [List.append_assoc]
    exact hidle
  · exact Prod.ext (purgeFinish_purgeBegun n r hstep) rfl

end

/-! ## NODE_EVICT (O31) -/

theorem exec_nodeEvict (s : State) : exec .nodeEvict s = s.event (s.accept cmdNodeEvict) := rfl

theorem nodeArg_of_eq {a : Word32} {n : Node} (h : a.toNat = n.val) : nodeArg a = some n :=
  (dif_pos (by omega : a.toNat < 8)).trans (congrArg some (Fin.ext h))

theorem cmdNodeEvict_of_node {s : State} {n : Node} (h : s.args[0].toNat = n.val) : cmdNodeEvict s =
    match s.nodeState n with
    | .live => ⟨(s.enterPurging n .evicted).1, (s.enterPurging n .evicted).2, some .ok⟩
    | .leaving => ⟨(s.enterPurging n .evicted).1, (s.enterPurging n .evicted).2, some .ok⟩
    | .purging => ended (s.modNode n (fun r => { r with reason := some .evicted })) .ok
    | .absent => ended s .nodeState
    | .lost => ended s .nodeState := by
  unfold cmdNodeEvict
  rw [nodeArg_of_eq h] <;> rfl

/-- Settles O31: the branches of the act; with no slot in use the tasks of an entry into PURGING but the last find nothing. -/
theorem nodeEvictPurges : Obligations.NodeEvictPurges := by
  intro s hs
  obtain ⟨⟨hreset, hsettled⟩, hm⟩ := id hs
  rw [exec_nodeEvict]
  refine ⟨fun h => event_accept_unchanged hs ?_, fun n hn => ?_⟩
  · unfold cmdNodeEvict
    rw [show nodeArg s.accepted.args[0] = none from dif_neg (by show ¬ s.args[0].toNat < 8; omega)]
  · have hact := cmdNodeEvict_of_node (s := s.accepted) hn
    have hstate : s.accepted.nodeState n = s.nodeState n := rfl
    rw [hstate] at hact
    refine ⟨fun h => event_accept_unchanged hs ?_, fun h => ?_, fun h hq hslots hj => ?_⟩
    · rcases h with h | h <;> rw [hact, h]
    · rw [h] at hact
      exact event_accept_ended hs hact (settled_of_same hsettled)
    · have henter := enterPurging_of_empty (s := s.accepted) n .evicted hslots hq.noHeldOrder hq.noHeldAnswer
      have hact' : cmdNodeEvict s.accepted = ⟨s.accepted.purgeBegun n .evicted, purgeTasks n ++ [.purgeFinish n], some .ok⟩ := by
        rcases h with h | h <;> rw [hact, h] <;> dsimp only <;> rw [henter]
      have haccept : s.accept cmdNodeEvict = ((s.commandEnd .ok).purgeBegun n .evicted, purgeTasks n ++ [.purgeFinish n]) := by
        unfold State.accepted at hact'
        unfold State.accept
        rw [if_neg hm]
        dsimp only
        rw [hact']
        rfl
      rw [haccept]
      refine (event_of_drain 98 (by decide) hreset (drain_purgeBegun (s := s.commandEnd .ok) n .evicted hslots hq.noPurgeStep
        ?_)).trans rfl
      exact settled_of_same (purged_settled n .evicted hq hj)

end Sys2Proof.Machine

/-! # Ways freed, and CLEAR_POISON -/

namespace Sys2Proof.Machine

set_option Elab.async false

/-! ## Freeze marks -/

theorem dirGet_frozen {d : List (SetIx × SetRec)} (h : d.any (fun p => p.2.frozen) = false) (i : SetIx) :
    (dirGet d i).frozen = false := by
  induction d with
  | nil => rfl
  | cons p d ih =>
    obtain ⟨j, r⟩ := p
    rw [List.any_cons, Bool.or_eq_false_iff] at h
    unfold dirGet
    split
    · exact h.1
    · exact ih h.2

/-- With no set frozen, no set's record has the mark. -/
theorem getSet_frozen {s : State} (h : s.anyFrozen = false) (i : SetIx) : (s.getSet i).frozen = false := dirGet_frozen h i

theorem frozen_of_anyFrozen {s : State} (h : s.anyFrozen = false) (i : SetIx) : s.frozen i = false := dirGet_frozen h i

/-- A record without the mark freezes no set. -/
theorem putSet_anyFrozen {s : State} (h : s.anyFrozen = false) (i : SetIx) {r : SetRec} (hr : r.frozen = false) :
    (s.putSet i r).anyFrozen = false := by
  unfold State.anyFrozen State.putSet at *
  rw [List.any_eq_false] at h ⊢
  intro p hp
  rcases dirPut_mem hp with rfl | hp
  · exact Bool.eq_false_iff.1 hr
  · exact h p hp

theorem makeFree_anyFrozen {s : State} (h : s.anyFrozen = false) (i : SetIx) (w : WayIx) :
    (s.makeFree i w).anyFrozen = false := putSet_anyFrozen h i (getSet_frozen h i)

/-- A quiet part stays quiet where a set takes a record without the mark. -/
theorem State.Quiet.putSet {s : State} (h : s.Quiet) (i : SetIx) {r : SetRec} (hr : r.frozen = false) :
    (s.putSet i r).Quiet := h.congr (fun _ _ hx => h.slot hx) (putSet_anyFrozen h.noFrozen i hr)

theorem makeFree_quiet {s : State} (h : s.Quiet) (i : SetIx) (w : WayIx) : (s.makeFree i w).Quiet :=
  h.putSet i (getSet_frozen h.noFrozen i)

/-! ## CLEAR_POISON naming a line (O32) -/

theorem exec_clearPoison_or {c : Instr} (h : c = .clearPoison ∨ c = .clearPoisonAll) (s : State) :
    exec c s = s.event (s.accept cmdClearPoison) := by
  rcases h with rfl | rfl <;> rfl

theorem cmdClearPoison_of_bit {s : State} (h : s.args[2].getLsbD 0 = true) :
    cmdClearPoison s = ⟨{ s with poisonPass := some ⟨0, 0, 0, 0⟩ }, [], none⟩ := if_pos h

theorem cmdClearPoison_of_gt {s : State} (hb : s.args[2].getLsbD 0 = false) (h : 3 < s.args[1].toNat) :
    cmdClearPoison s = ended s .badArgument := by
  unfold cmdClearPoison
  rw [hb, lineArg_of_gt h]
  rfl

theorem cmdClearPoison_of_line {s : State} {l : Line} (hb : s.args[2].getLsbD 0 = false) (h0 : s.args[0] = l.setWidth 32)
    (h1 : s.args[1].toNat = l.toNat / 2 ^ 32) : cmdClearPoison s = clearPoisonLine s l := by
  unfold cmdClearPoison
  rw [hb, lineArg_of_eq h0 h1]
  rfl

theorem clearPoisonLine_of_tracked {s : State} {l : Line} {w : WayIx} {c : Content} (h : s.trackedAs l w c) (hc : c ≠ .free) :
    clearPoisonLine s l = if c = .poisoned then ended (s.makeFree (setOf l) w) .ok else ended s .notPoisoned := by
  unfold clearPoisonLine
  rw [lookup_of_tracked h hc]
  dsimp only
  rw [wayContent_of_tracked h, wayHeld_of_tracked h]
  by_cases hp : c = .poisoned
  · rw [if_pos hp, if_pos (congrArg some hp)]
    rfl
  · rw [if_neg hp, if_neg fun he => hp (Option.some.inj he)]

theorem clearPoisonLine_of_untracked {s : State} {l : Line} (h : s.untracked l) :
    clearPoisonLine s l = ended s .notPoisoned := by
  unfold clearPoisonLine
  rw [lookup_of_untracked h]

/-- Settles O32: the lookup finds the way that tracks the line, whose content decides. -/
theorem clearPoisonFreesALine : Obligations.ClearPoisonFreesALine := by
  intro s c hs hq hc hb
  rw [exec_clearPoison_or hc]
  refine ⟨fun h => event_accept_unchanged hs (cmdClearPoison_of_gt (s := s.accepted) hb h), fun l h0 h1 => ?_⟩
  have hact := cmdClearPoison_of_line (s := s.accepted) hb h0 h1
  refine ⟨fun w ht => ?_, fun w k ht hf hp => ?_, fun hu => ?_⟩
  · rw [clearPoisonLine_of_tracked (s := s.accepted) ht nofun, if_pos rfl] at hact
    exact event_accept_ended hs hact (settled_of_same (Quiet_settled (makeFree_quiet hq (setOf l) w)))
  · rw [clearPoisonLine_of_tracked (s := s.accepted) ht hf, if_neg hp] at hact
    exact event_accept_unchanged hs hact
  · exact event_accept_unchanged hs (hact.trans (clearPoisonLine_of_untracked (s := s.accepted) hu))

/-! ## Several ways of a set freed -/

/-- The ways of a list that a test names, freed one after another. -/
def State.freeWays (i : SetIx) (p : WayIx → Bool) (ws : List WayIx) (s : State) : State :=
  ws.foldl (fun s w => if p w then s.makeFree i w else s) s

/-- What freeing some ways of a set leaves of a directory in canonical form. -/
structure FreesWays (i : SetIx) (p : WayIx → Bool) (ws : List WayIx) (s t : State) : Prop where
  same : t = { s with dir := t.dir }
  canonical : dirWf t.dir = true
  ways : ∀ v, t.getWay i v = if v ∈ ws ∧ p v = true then freeWay else s.getWay i v
  others : ∀ j, j ≠ i → t.getSet j = s.getSet j
  frozen : (t.getSet i).frozen = (s.getSet i).frozen
  order : (t.getSet i).order = ws.foldl (fun o w => if p w then o.erase w ++ [w] else o) (s.getSet i).order

theorem getSet_makeFree {s : State} (h : dirWf s.dir = true) (i j : SetIx) (w : WayIx) :
    (s.makeFree i w).getSet j = if j = i then { s.getSet i with
      ways := (s.getSet i).ways.set w.val freeWay w.isLt, order := toBack w (s.getSet i).order } else s.getSet j :=
  getSet_putSet h i j _

theorem getWay_makeFree {s : State} (h : dirWf s.dir = true) (i : SetIx) (w v : WayIx) :
    (s.makeFree i w).getWay i v = if v = w then freeWay else s.getWay i v := by
  unfold State.getWay
  rw [getSet_makeFree h, if_pos rfl]
  dsimp only
  by_cases hv : v = w
  · subst hv
    rw [if_pos rfl]
    exact Vector.getElem_set_self ..
  · rw [if_neg hv]
    exact Vector.getElem_set_ne _ _ fun he => hv (Fin.ext he.symm)

theorem freeWays_spec (i : SetIx) (p : WayIx → Bool) (ws : List WayIx) :
    ∀ s : State, dirWf s.dir = true → FreesWays i p ws s (s.freeWays i p ws) := by
  induction ws with
  | nil => exact fun s h => ⟨rfl, h, fun v => (if_neg fun hv => List.not_mem_nil hv.1).symm, fun _ _ => rfl, rfl, rfl⟩
  | cons w ws ih =>
    intro s h
    by_cases hp : p w = true
    · have hstep : s.freeWays i p (w :: ws) = (s.makeFree i w).freeWays i p ws := by
        unfold State.freeWays
        rw [List.foldl_cons, if_pos hp]
      have hwf : dirWf (s.makeFree i w).dir = true := dirPut_wf h
      obtain ⟨hsame, hcanon, hways, hothers, hfrozen, horder⟩ := ih (s.makeFree i w) hwf
      rw [hstep]
      refine ⟨hsame, hcanon, fun v => ?_, fun j hj => ?_, ?_, ?_⟩
      · rw [hways, getWay_makeFree h]
        by_cases hv : v = w
        · subst hv
          simp [hp]
        · rw [if_neg hv]
          simp only [List.mem_cons, hv, false_or]
      · rw [hothers j hj, getSet_makeFree h, if_neg hj]
      · rw [hfrozen, getSet_makeFree h, if_pos rfl]
      · rw [horder, getSet_makeFree h, if_pos rfl, List.foldl_cons, if_pos hp]
        rfl
    · have hstep : s.freeWays i p (w :: ws) = s.freeWays i p ws := by
        unfold State.freeWays
        rw [List.foldl_cons, if_neg hp]
      obtain ⟨hsame, hcanon, hways, hothers, hfrozen, horder⟩ := ih s h
      rw [hstep]
      refine ⟨hsame, hcanon, fun v => ?_, hothers, hfrozen, ?_⟩
      · rw [hways]
        by_cases hv : v = w
        · subst hv
          rw [if_neg fun hc => hp hc.2, if_neg fun hc => hp hc.2]
        · simp only [List.mem_cons, hv, false_or]
      · rw [horder, List.foldl_cons, if_neg hp]

theorem freeWays_anyFrozen (i : SetIx) (p : WayIx → Bool) (ws : List WayIx) :
    ∀ s : State, s.anyFrozen = false → (s.freeWays i p ws).anyFrozen = false := by
  induction ws with
  | nil => exact fun s h => h
  | cons w ws ih =>
    intro s h
    refine ih _ ?_
    show State.anyFrozen (if p w = true then s.makeFree i w else s) = false
    split
    · exact makeFree_anyFrozen h i w
    · exact h

/-- A quiet part stays quiet as ways of a set become FREE. -/
theorem State.Quiet.freeWays {s : State} (h : s.Quiet) (hd : dirWf s.dir = true) (i : SetIx) (p : WayIx → Bool)
    (ws : List WayIx) : (s.freeWays i p ws).Quiet := by
  have hf := freeWays_anyFrozen i p ws s h.noFrozen
  rw [(freeWays_spec i p ws s hd).same] at hf ⊢
  exact h.congr (fun _ _ hx => h.slot hx) hf

/-! ## CLEAR_POISON naming ALL (O33) -/

/-- A way that can be read, is not held, and is POISONED exactly where a test says so. -/
structure PoisonTest (s : State) (i : SetIx) (p : WayIx → Bool) (w : WayIx) : Prop where
  key : (s.getWay i w).key.check = .good
  body : (s.getWay i w).body.check = .good
  unheld : (s.getWay i w).body.stored.heldBy = none
  poisoned : p w = ((s.getWay i w).body.stored.content == .poisoned)

theorem passWay_of_test {s : State} {i : SetIx} {p : WayIx → Bool} {w : WayIx} (h : PoisonTest s i p w) (a : PoisonPass) :
    State.passWay i (s, a) w =
      if p w then (s.makeFree i w, { a with freed := a.freed + 1 }) else (s, a) := by
  have hk : s.keyView i w = some (s.getWay i w).key.stored := view_of_good h.key
  have hb : s.bodyView i w = some (s.getWay i w).body.stored := view_of_good h.body
  unfold State.passWay
  dsimp only
  rw [hk, hb]
  dsimp only
  rw [h.unheld, h.poisoned]
  simp only [Option.isSome_none, Bool.false_eq_true, if_false, beq_iff_eq]

/-- The pass over the ways of a set frees the POISONED ones and counts them. -/
theorem foldl_passWay (i : SetIx) (p : WayIx → Bool) (ws : List WayIx) (hnodup : ws.Nodup) :
    ∀ (s : State) (a : PoisonPass), dirWf s.dir = true → (∀ w ∈ ws, PoisonTest s i p w) →
      ws.foldl (State.passWay i) (s, a) = (s.freeWays i p ws, { a with freed := a.freed + ws.countP p }) := by
  induction ws with
  | nil => exact fun s a _ _ => rfl
  | cons w ws ih =>
    intro s a hd htest
    obtain ⟨hw, hnodup⟩ := List.nodup_cons.1 hnodup
    rw [List.foldl_cons, passWay_of_test (htest w List.mem_cons_self)]
    by_cases hp : p w = true
    · have hrest : ∀ v ∈ ws, PoisonTest (s.makeFree i w) i p v := fun v hv => by
        obtain ⟨h1, h2, h3, h4⟩ := htest v (List.mem_cons_of_mem _ hv)
        have hway : (s.makeFree i w).getWay i v = s.getWay i v :=
          (getWay_makeFree hd i w v).trans (if_neg fun he : v = w => hw (he ▸ hv))
        exact ⟨by rw [hway]; exact h1, by rw [hway]; exact h2, by rw [hway]; exact h3, by rw [hway]; exact h4⟩
      rw [if_pos hp, ih hnodup _ _ (dirPut_wf hd) hrest, List.countP_cons_of_pos hp]
      unfold State.freeWays
      rw [List.foldl_cons, if_pos hp]
      exact Prod.ext rfl (by dsimp only; congr 1; omega)
    · rw [if_neg hp, ih hnodup _ _ hd (fun v hv => htest v (List.mem_cons_of_mem _ hv)), List.countP_cons_of_neg hp]
      unfold State.freeWays
      rw [List.foldl_cons, if_neg hp]

theorem exec_clearPoisonSetPass {s : State} {p : PoisonPass} (h : s.poisonPass = some p) :
    exec .clearPoisonSetPass s = s.event (s.passSet p, []) := by
  show s.event (match s.poisonPass with
    | some p => (s.passSet p, [])
    | none => (s, [])) = _
  rw [h]

/-- The POISONED ways of a set, as stored. -/
def State.poisonedWay (s : State) (i : SetIx) (w : WayIx) : Bool := (s.getWay i w).body.stored.content == .poisoned

/-- A pass over a set that can be read and has no held way. -/
theorem passSet_of_sound {s : State} {p : PoisonPass} {i : SetIx} (hd : dirWf s.dir = true) (hi : p.next = i.val)
    (hsound : s.soundSet i) (hheld : ∀ w, s.wayHolder i w = none) :
    let u := s.freeWays i (s.poisonedWay i) allWays
    let q := { p with freed := p.freed + allWays.countP (s.poisonedWay i) }
    s.passSet p = if p.next + 1 < Config.setCount then { u with poisonPass := some { q with next := p.next + 1 } }
      else State.finish { u with
        poisonPass := none
        results := ((u.results.set 0 (natWord q.freed)).set 1 (natWord q.marked)).set 2 (natWord q.skipped) } .ok := by
  have hix : (⟨p.next % 2048, Nat.mod_lt _ (by decide)⟩ : SetIx) = i := Fin.ext (by rw [hi]; exact Nat.mod_eq_of_lt i.isLt)
  have htest : ∀ w ∈ allWays, PoisonTest s i (s.poisonedWay i) w := fun w _ =>
    ⟨(hsound w).1, (hsound w).2, (wayHolder_of_sound hsound w).symm.trans (hheld w), rfl⟩
  have hfold := foldl_passWay i (s.poisonedWay i) allWays nodup_allWays s p hd htest
  unfold State.passSet
  dsimp only
  rw [hix, readWholeSet_of_sound hsound, hfold]
  rfl

/-- Settles O33: the pass over a set is the freeing of its POISONED ways, one after another. -/
theorem clearPoisonAllPasses : Obligations.ClearPoisonAllPasses := by
  refine ⟨fun s c hs hc hb => ?_, fun s p i hq hd hp hi hsound hheld => ?_⟩
  · obtain ⟨⟨hreset, hsettled⟩, hm⟩ := hs
    have haccept : s.accept cmdClearPoison = ({ s.accepted with poisonPass := some ⟨0, 0, 0, 0⟩ }, []) := by
      have hact := cmdClearPoison_of_bit (s := s.accepted) hb
      unfold State.accepted at hact
      unfold State.accept
      rw [if_neg hm]
      dsimp only
      rw [hact]
      rfl
    rw [exec_clearPoison_or hc, haccept]
    exact event_settled hreset (settled_of_same hsettled)
  · have hspec := freeWays_spec i (s.poisonedWay i) allWays s hd.1
    have hsettled : (s.freeWays i (s.poisonedWay i) allWays).settled = true :=
      Quiet_settled (hq.freeWays hd.1 i (s.poisonedWay i) allWays)
    have hpass := passSet_of_sound hd.1 hi hsound hheld
    dsimp only at hpass
    obtain ⟨hsame, -, hways, hothers, hfrozen, horder⟩ := hspec
    generalize s.freeWays i (s.poisonedWay i) allWays = u at *
    have hway : ∀ w, u.getWay i w = if (s.getWay i w).body.stored.content = .poisoned then freeWay else s.getWay i w :=
      fun w => by
        rw [hways]
        unfold State.poisonedWay
        simp only [mem_allWays, true_and, beq_iff_eq]
    rw [exec_clearPoisonSetPass hp]
    by_cases hlast : p.next + 1 < Config.setCount
    · rw [if_pos hlast] at hpass
      rw [hpass]
      refine ⟨_, event_settled hq.running (settled_of_same hsettled), hway, hothers, hfrozen, horder, fun _ => ?_, fun h => ?_⟩
      · rw [hsame]
        rfl
      · rw [h] at hlast
        exact absurd hlast (by decide)
    · rw [if_neg hlast] at hpass
      rw [hpass]
      refine ⟨_, event_settled hq.running (settled_of_same hsettled), hway, hothers, hfrozen, horder, fun h => ?_, fun _ => ?_⟩
      · exact absurd (show p.next + 1 < 2048 by omega) hlast
      · rw [hsame]
        rfl

end Sys2Proof.Machine

/-! # HELLO and LEAVE (O47) -/

namespace Sys2Proof.Machine

set_option Elab.async false

theorem answerRoom_of {s : State} (ha : s.answerHeld = []) (h : s.answerQ.length < 64) : s.answerRoom = true := by
  unfold State.answerRoom
  rw [ha]
  exact decide_eq_true h

theorem intakeAnswer_of_room {s : State} (ha : s.answerHeld = []) (h : s.answerQ.length < 64) (a : Answer) :
    s.intakeAnswer a = { s with answerQ := s.answerQ ++ [a] } := if_pos (answerRoom_of ha h)

/-- A violation charged: the node's counter, PROTOCOL_VIOLATION and the capture record. -/
theorem chargeViolation_eq (s : State) (n : Node) (l : Option Line) (t : Option SlotIx) :
    s.chargeViolation n l t = { s.modNode n (fun r => { r with violations := satInc r.violations }) with
      flags := s.flags ||| 0x0200#16
      capture := captured s.capture .violation ⟨l, some (.node n), none, none, t⟩ } :=
  fault_eq _ _ _

/-- With no answer held for room, the ANSWER queue is none of what settling reads. -/
theorem settled_of_answered {s s' : State} (hs : s.settled = true) (hanswer : s'.answerHeld = [])
    (hdone : s'.doneNode = none) (hslots : s'.slots = s.slots := by rfl) (hdir : s'.dir = s.dir := by rfl)
    (hwin : s'.windows = s.windows := by rfl) (hpos : s'.purgePos = s.purgePos := by rfl)
    (hstep : s'.purgeStep = s.purgeStep := by rfl) (hmaint : s'.maint = s.maint := by rfl)
    (hmstep : s'.maintStep = s.maintStep := by rfl) (hscrub : s'.scrubPos = s.scrubPos := by rfl)
    (hq : s'.orderQ = s.orderQ := by rfl) (ho : s'.orderHeld = s.orderHeld := by rfl) : s'.settled = true := by
  obtain ⟨hw, hheld, -⟩ := (settled_iff_walksRest s).1 hs
  have hjobs : State.WalksRest { s' with purgeJobs := s.purgeJobs } :=
    hw.same hslots hdir hwin hpos rfl hstep hmaint hmstep hscrub
  refine (settled_iff_walksRest s').2 ⟨⟨hjobs.rebuild, hjobs.due, hjobs.purge, hjobs.maint, ?_, hdone⟩, ?_,
    placeHeldAnswer_of_empty hanswer⟩
  · have he := (maintEnding_none_iff _).1 hjobs.ending
    exact (maintEnding_none_iff s').2 he
  · rw [placeHeldOrder_none_iff] at hheld ⊢
    unfold State.getSlot State.orderRoom at hheld ⊢
    rw [hslots, hq, ho]
    exact hheld

theorem dropMembership_of_unheld {s : State} (h : s.answerHeld = []) (n : Node) :
    s.dropMembership n = { s with ntHeld := s.ntHeld.set n.val none n.isLt } := by
  unfold State.dropMembership
  obtain ⟨⟩ := s
  dsimp only at h
  subst h
  rfl

/-- The state with a request taken from its intake. -/
def State.reqTaken (s : State) (rest : List ReqMsg) : State := { s with reqIntake := rest }

theorem exec_hello {s : State} {n : Node} {rest : List ReqMsg} (hri : s.riHeld = none)
    (h : s.reqIntake = .hello (.node n) :: rest) : exec .hello s = s.event ((s.reqTaken rest).helloNode n) := by
  show execHello s = _
  unfold execHello
  split
  · rename_i heq
    rw [h] at heq
    cases heq
    rfl
  · rename_i hno
    exact absurd h (hno n rest hri)

theorem exec_helloFromMemoryAgent {s : State} {rest : List ReqMsg} (hri : s.riHeld = none)
    (h : s.reqIntake = .hello .memory :: rest) : exec .helloFromMemoryAgent s =
      s.event (({ s with reqIntake := rest, mem := .live }).intakeAnswer (.welcome .memory), []) := by
  show execHelloFromMemoryAgent s = _
  unfold execHelloFromMemoryAgent
  split
  · rename_i heq
    rw [h] at heq
    cases heq
    rfl
  · rename_i hno
    exact absurd h (hno rest hri)

theorem exec_leave {s : State} {n : Node} {rest : List ReqMsg} (hri : s.riHeld = none)
    (h : s.reqIntake = .leave n :: rest) : exec .leave s = s.event ((s.reqTaken rest).leaveNode n, []) := by
  show execLeave s = _
  unfold execLeave
  split
  · rename_i heq
    rw [h] at heq
    cases heq
    rfl
  · rename_i hno
    exact absurd h (hno n rest hri)

/-- A purge job just begun is not done. -/
theorem doneNode_putJob {s : State} (h : s.doneNode = none) (n : Node) (j : PurgeJob) (hj : 0 < j.setsLeft) :
    (s.putJob n (some j)).doneNode = none := by
  unfold State.doneNode at h ⊢
  rw [List.find?_eq_none] at h ⊢
  intro m hm
  unfold State.purgeDone
  rw [getJob_putJob]
  by_cases hmn : m = n
  · rw [if_pos hmn]
    simp
    omega
  · rw [if_neg hmn]
    exact h m hm

/-- A node that joins or restarts is LIVE and answered WELCOME. -/
theorem helloNode_of_joining {s : State} {n : Node} {e : Event} (ha : s.answerHeld = []) (hroom : s.answerQ.length < 64)
    (h : (s.nodeState n = .absent ∧ e = .joined) ∨ (s.nodeState n = .lost ∧ e = .restarted)) :
    s.helloNode n = ({ s.modNode n (fun r => { r with state := .live, reason := none }) with
      ntHeld := s.ntHeld.set n.val none n.isLt
      answerQ := s.answerQ ++ [.welcome (.node n)]
      flags := s.flags ||| (1#16 <<< e.bit) }, []) := by
  have hanswer : ((s.dropMembership n).modNode n (fun r => { r with state := .live, reason := none })).intakeAnswer
      (.welcome (.node n)) = { s.modNode n (fun r => { r with state := .live, reason := none }) with
        ntHeld := s.ntHeld.set n.val none n.isLt, answerQ := s.answerQ ++ [.welcome (.node n)] } := by
    rw [dropMembership_of_unheld ha]
    exact intakeAnswer_of_room (s := State.modNode { s with ntHeld := s.ntHeld.set n.val none n.isLt } n
      (fun r => { r with state := .live, reason := none })) ha hroom _
  unfold State.helloNode
  rcases h with ⟨h, rfl⟩ | ⟨h, rfl⟩ <;> rw [h] <;> dsimp only <;> rw [hanswer] <;> rfl

theorem helloNode_of_purging {s : State} {n : Node} (h : s.nodeState n = .purging) :
    s.helloNode n = (s.modNode n (fun r => { r with reason := some .restart }), []) := by
  unfold State.helloNode
  rw [h]

theorem helloNode_of_member {s : State} {n : Node} (h : s.nodeState n = .live ∨ s.nodeState n = .leaving) :
    s.helloNode n = s.enterPurging n .restart := by
  unfold State.helloNode
  rcases h with h | h <;> rw [h]

theorem leaveNode_of_idle {s : State} {n : Node} (ha : s.answerHeld = []) (h : s.nodeState n = .live)
    (hc : (s.getNode n).credits = 0) : s.leaveNode n =
      ({ s.modNode n (fun r => { r with state := .leaving, reason := some .leave }) with
        ntHeld := s.ntHeld.set n.val none n.isLt }).putJob n (some ⟨.messaging, 2048, 0⟩) := by
  unfold State.leaveNode
  rw [if_pos h, if_pos hc, dropMembership_of_unheld ha]
  rfl

theorem leaveNode_of_credit {s : State} {n : Node} (ha : s.answerHeld = []) (hroom : s.answerQ.length < 64) (h : s.nodeState n = .live)
    (hc : (s.getNode n).credits ≠ 0) : s.leaveNode n =
      { s.modNode n (fun r => { r with violations := satInc r.violations }) with
        flags := s.flags ||| 0x0200#16
        answerQ := s.answerQ ++ [.refuse n 0#34 .leave .violation]
        capture := captured s.capture .violation ⟨none, some (.node n), none, none, none⟩ } := by
  unfold State.leaveNode
  rw [if_pos h, if_neg hc]
  rw [chargeViolation_eq]
  exact intakeAnswer_of_room (s := { s.modNode n _ with flags := _, capture := _ }) ha hroom _

theorem leaveNode_of_other {s : State} {n : Node} (ha : s.answerHeld = []) (hroom : s.answerQ.length < 64) (h : s.nodeState n ≠ .live) :
    s.leaveNode n = { s with answerQ := s.answerQ ++ [.refuse n 0#34 .leave .notLive] } := by
  unfold State.leaveNode
  rw [if_neg h, intakeAnswer_of_room ha hroom]
  rfl

/-- Settles O47: the branches of each message; a member's entry into PURGING runs its tasks over no slot in use. -/
theorem membershipMessages : Obligations.MembershipMessages := by
  intro s n rest hs hri ha hroom r t
  obtain ⟨hreset, hsettled⟩ := id hs
  have hdone : s.doneNode = none := (Ready.walksRest hs).done
  refine ⟨fun hm => ?_, fun hm => ?_, fun hm => ?_⟩
  · rw [exec_hello hri hm]
    refine ⟨fun e he => ?_, fun hp => ?_, fun hl hq hslots hj => ?_⟩
    · rw [helloNode_of_joining (s := s.reqTaken rest) ha hroom he]
      exact event_settled hreset (settled_of_answered hsettled ha hdone)
    · rw [helloNode_of_purging (s := s.reqTaken rest) hp]
      exact event_settled hreset (settled_of_same hsettled)
    · rw [helloNode_of_member (s := s.reqTaken rest) hl,
        enterPurging_of_empty (s := s.reqTaken rest) n .restart hslots hq.noHeldOrder hq.noHeldAnswer]
      refine event_of_drain 98 (by decide) hreset (drain_purgeBegun (s := s.reqTaken rest) n .restart hslots hq.noPurgeStep ?_)
      exact settled_of_same (purged_settled n .restart hq hj)
  · rw [exec_helloFromMemoryAgent hri hm, intakeAnswer_of_room (s := { s with reqIntake := rest, mem := .live }) ha hroom]
    exact event_settled hreset (settled_of_answered hsettled ha hdone)
  · rw [exec_leave hri hm]
    refine ⟨fun hl hc => ?_, fun hl hc => ?_, fun hl => ?_⟩
    · rw [leaveNode_of_idle (s := s.reqTaken rest) ha hl hc]
      exact event_settled hreset (settled_of_answered hsettled ha (doneNode_putJob (s := s) hdone n _ (by decide)))
    · rw [leaveNode_of_credit (s := s.reqTaken rest) ha hroom hl hc]
      exact event_settled hreset (settled_of_answered hsettled ha hdone)
    · rw [leaveNode_of_other (s := s.reqTaken rest) ha hroom hl]
      exact event_settled hreset (settled_of_answered hsettled ha hdone)

end Sys2Proof.Machine

/-! # What each operation on a transaction does -/

namespace Sys2Proof.Machine

set_option Elab.async false

/-! ## Slots and the directory's store -/

section
variable {s : State} {t : SlotIx}

theorem getSlot_putSlot_self (s : State) (t : SlotIx) (v : Option Slot) : (s.putSlot t v).getSlot t = v :=
  (getSlot_putSlot s t t v).trans (if_pos rfl)

theorem getSlot_putSlot_of_ne {u : SlotIx} (h : u ≠ t) (v : Option Slot) : (s.putSlot t v).getSlot u = s.getSlot u :=
  (getSlot_putSlot s t u v).trans (if_neg h)

theorem putSlot_putSlot (s : State) (t : SlotIx) (v w : Option Slot) : (s.putSlot t v).putSlot t w = s.putSlot t w := by
  unfold State.putSlot
  dsimp only
  rw [Vector.set_set]

theorem putSlot_self {v : Option Slot} (h : s.getSlot t = v) : s.putSlot t v = s := by
  have hslots : (s.putSlot t v).slots = s.slots := slots_ext fun u => by
    show (s.putSlot t v).getSlot u = s.getSlot u
    rw [getSlot_putSlot]
    split
    · rename_i hu
      rw [hu, h]
    · rfl
  show ({ s with slots := (s.putSlot t v).slots } : State) = s
  rw [hslots]

theorem putSlot_comm {u : SlotIx} (h : u ≠ t) (v w : Option Slot) :
    (s.putSlot t v).putSlot u w = (s.putSlot u w).putSlot t v := by
  unfold State.putSlot
  dsimp only
  rw [Vector.set_comm _ _ fun he => h (Fin.ext he.symm)]

theorem modSlot_of_slot {x : Slot} (h : s.getSlot t = some x) (f : Slot → Slot) :
    s.modSlot t f = s.putSlot t (some (f x)) := by
  unfold State.modSlot
  rw [h]

theorem modSlot_putSlot_self (s : State) (t : SlotIx) (x : Slot) (f : Slot → Slot) :
    (s.putSlot t (some x)).modSlot t f = s.putSlot t (some (f x)) := by
  rw [modSlot_of_slot (getSlot_putSlot_self s t (some x)), putSlot_putSlot]

end

/-- A store in canonical form is what its sets read. -/
theorem dir_ext : ∀ {d e : List (SetIx × SetRec)}, dirWf d = true → dirWf e = true → (∀ i, dirGet d i = dirGet e i) → d = e
  | [], [], _, _, _ => rfl
  | [], (i, r) :: e, _, he, h => by
    have hi := h i
    rw [dirGet, dirGet, if_pos rfl] at hi
    exact absurd hi.symm (dirWf_head he)
  | (i, r) :: d, [], hd, _, h => by
    have hi := h i
    rw [dirGet, dirGet, if_pos rfl] at hi
    exact absurd hi (dirWf_head hd)
  | (i, r) :: d, (j, q) :: e, hd, he, h => by
    have below : ∀ {a b : SetIx} {x : SetRec} {f : List (SetIx × SetRec)}, dirWf ((b, x) :: f) = true → a < b →
        dirGet ((b, x) :: f) a = blankSet := fun hf hab => dirGet_absent fun p hp => by
      rcases List.mem_cons.1 hp with rfl | hp
      · exact hab
      · exact lt_trans hab (dirWf_rising hf p hp)
    have first : ∀ {b : SetIx} {x : SetRec} {f : List (SetIx × SetRec)}, dirGet ((b, x) :: f) b = x := by
      intro b x f
      rw [dirGet, if_pos rfl]
    have hij : i = j := by
      rcases lt_trichotomy i j with hlt | heq | hgt
      · exact absurd (first.symm.trans ((h i).trans (below he hlt))) (dirWf_head hd)
      · exact heq
      · exact absurd (first.symm.trans ((h j).symm.trans (below hd hgt))) (dirWf_head he)
    subst hij
    have hrq : r = q := first.symm.trans ((h i).trans first)
    subst hrq
    have hde : d = e := dir_ext (dirWf_tail hd) (dirWf_tail he) fun k => by
      by_cases hk : i = k
      · subst hk
        rw [dirGet_absent (dirWf_rising hd), dirGet_absent (dirWf_rising he)]
      · have hrest := h k
        rw [dirGet, dirGet, if_neg hk, if_neg hk] at hrest
        exact hrest
    rw [hde]

section
variable {s : State} (h : dirWf s.dir = true) (i : SetIx)
include h

theorem putSet_putSet (r q : SetRec) : (s.putSet i r).putSet i q = s.putSet i q := by
  have hdir : dirPut i q (dirPut i r s.dir) = dirPut i q s.dir := dir_ext (dirPut_wf (dirPut_wf h)) (dirPut_wf h) fun j => by
    rw [dirGet_dirPut (dirPut_wf h), dirGet_dirPut h, dirGet_dirPut h]
    by_cases hj : j = i
    · rw [if_pos hj, if_pos hj]
    · rw [if_neg hj, if_neg hj, if_neg hj]
  show ({ s with dir := dirPut i q (dirPut i r s.dir) } : State) = _
  rw [hdir]
  rfl

theorem putSet_self {r : SetRec} (hr : s.getSet i = r) : s.putSet i r = s := by
  have hdir : dirPut i r s.dir = s.dir := dir_ext (dirPut_wf h) h fun j => by
    rw [dirGet_dirPut h]
    by_cases hj : j = i
    · rw [if_pos hj, hj, ← hr]
      rfl
    · rw [if_neg hj]
  show ({ s with dir := dirPut i r s.dir } : State) = s
  rw [hdir]

theorem getSet_putSet_self (r : SetRec) : (s.putSet i r).getSet i = r := (getSet_putSet h i i r).trans (if_pos rfl)

theorem getWay_putWay_self (w : WayIx) (y : Way) : (s.putWay i w y).getWay i w = y := by
  unfold State.putWay State.getWay
  rw [getSet_putSet_self h]
  exact Vector.getElem_set_self ..

theorem getSet_putWay_self (w : WayIx) (y : Way) : (s.putWay i w y).getSet i =
    { s.getSet i with ways := (s.getSet i).ways.set w.val y w.isLt } := getSet_putSet_self h i _

theorem putWay_putWay (w : WayIx) (y z : Way) : (s.putWay i w y).putWay i w z = s.putWay i w z := by
  have hset := getSet_putWay_self h i w y
  show (s.putWay i w y).putSet i { (s.putWay i w y).getSet i with
    ways := ((s.putWay i w y).getSet i).ways.set w.val z w.isLt } = _
  rw [hset]
  dsimp only
  rw [Vector.set_set]
  exact putSet_putSet h i _ _

theorem putWay_self {w : WayIx} {y : Way} (hy : s.getWay i w = y) : s.putWay i w y = s := by
  refine putSet_self h i ?_
  have hways : (s.getSet i).ways.set w.val y w.isLt = (s.getSet i).ways := by
    subst hy
    exact Vector.set_getElem_self ..
  rw [hways]

/-- A way just written becomes FREE as it would have before. -/
theorem makeFree_putWay (w : WayIx) (y : Way) : (s.putWay i w y).makeFree i w = s.makeFree i w := by
  have hset := getSet_putWay_self h i w y
  show (s.putWay i w y).putSet i { (s.putWay i w y).getSet i with
    ways := ((s.putWay i w y).getSet i).ways.set w.val freeWay w.isLt
    order := toBack w ((s.putWay i w y).getSet i).order } = _
  rw [hset]
  dsimp only
  rw [Vector.set_set]
  exact putSet_putSet h i _ _

end

theorem modNode_self {s : State} {n : Node} {f : NodeRec → NodeRec} (h : f (s.getNode n) = s.getNode n) : s.modNode n f = s := by
  have hnodes : s.nodes.set n.val (f (s.getNode n)) n.isLt = s.nodes := by
    rw [h]
    exact Vector.set_getElem_self ..
  show ({ s with nodes := s.nodes.set n.val (f (s.getNode n)) n.isLt } : State) = s
  rw [hnodes]

theorem modWindow_self {s : State} {w : WinIx} {f : Window → Window} (h : f (s.getWindow w) = s.getWindow w) :
    s.modWindow w f = s := by
  have hwindows : s.windows.set w.val (f (s.getWindow w)) w.isLt = s.windows := by
    rw [h]
    exact Vector.set_getElem_self ..
  show ({ s with windows := s.windows.set w.val (f (s.getWindow w)) w.isLt } : State) = s
  rw [hwindows]

theorem modNode_comm {s : State} {n m : Node} (h : n ≠ m) (f g : NodeRec → NodeRec) :
    (s.modNode n f).modNode m g = (s.modNode m g).modNode n f := by
  have h1 : (s.modNode n f).getNode m = s.getNode m := (getNode_modNode s n m f).trans (if_neg h.symm)
  have h2 : (s.modNode m g).getNode n = s.getNode n := (getNode_modNode s m n g).trans (if_neg h)
  unfold State.modNode at h1 h2 ⊢
  rw [h1, h2]
  dsimp only
  rw [Vector.set_comm _ _ fun he => h (Fin.ext he)]

/-! ## Transactions of a line -/

/-- No slot but one is on a line. -/
def State.onlyOn (s : State) (l : Line) (t : SlotIx) : Prop := ∀ u y, s.getSlot u = some y → y.line = some l → u = t

theorem onlyOn_of_alone {s : State} {l : Line} {t : SlotIx} (h : s.onLine l = [t]) : s.onlyOn l t := fun u y hy hl => by
  have hu : u ∈ s.onLine l := mem_slotsWith.2 ⟨y, hy, by rw [hl]; exact beq_self_eq_true _⟩
  rw [h] at hu
  exact List.mem_singleton.1 hu

theorem onlyOn_of_none {s : State} {l : Line} (h : s.onLine l = []) (t : SlotIx) : s.onlyOn l t := fun u y hy hl => by
  have hu : u ∈ s.onLine l := mem_slotsWith.2 ⟨y, hy, by rw [hl]; exact beq_self_eq_true _⟩
  rw [h] at hu
  exact absurd hu List.not_mem_nil

theorem onlyOn_putSlot {s : State} {l : Line} {t : SlotIx} (h : s.onlyOn l t) (v : Option Slot) :
    (s.putSlot t v).onlyOn l t := fun u y hy hl => by
  by_contra hne
  rw [getSlot_putSlot_of_ne hne] at hy
  exact hne (h u y hy hl)

/-- A test that no slot of another line passes finds the slot alone. -/
theorem slotsWith_eq_nil_of_only {s : State} {l : Line} {t : SlotIx} (h : s.onlyOn l t) (ht : s.getSlot t = none)
    {p : Slot → Bool} (hp : ∀ y, p y = true → y.line = some l) : s.slotsWith p = [] :=
  (slotsWith_eq_nil_iff s p).2 fun u y hy => by
    by_contra hpy
    have hu := h u y hy (hp y (Bool.eq_true_of_not_eq_false hpy))
    rw [hu, ht] at hy
    cases hy

theorem advance_of_only {s : State} {l : Line} {t : SlotIx} (h : s.onlyOn l t) (ht : s.getSlot t = none) :
    s.advance l = (s, []) := by
  unfold State.advance
  rw [slotsWith_eq_nil_of_only h ht fun y hy => by simp only [Bool.and_eq_true, beq_iff_eq] at hy; exact hy.1.1]
  rfl

/-! ## Nothing held for room -/

/-- No message is held for room in an outbound queue. -/
structure State.NoneHeld (s : State) : Prop where
  order : s.orderHeld = []
  answer : s.answerHeld = []

theorem State.Quiet.noneHeld {s : State} (h : s.Quiet) : s.NoneHeld := ⟨h.noHeldOrder, h.noHeldAnswer⟩

section
variable {s : State} {t : SlotIx} {x : Slot}

theorem State.NoneHeld.eta (h : s.NoneHeld) : { s with orderHeld := [], answerHeld := [] } = s := by
  obtain ⟨ho, ha⟩ := h
  obtain ⟨⟩ := s
  dsimp only at ho ha
  subst ho ha
  rfl

/-- A slot with nothing pending. -/
theorem Slot.pending_none (h : x.pending = none) : { x with pending := none } = x := by
  obtain ⟨⟩ := x
  dsimp only at h
  subst h
  rfl

theorem setAside_of_clear (hn : s.NoneHeld) (hx : s.getSlot t = some x) (hp : x.pending = none) : s.setAside t = s := by
  unfold State.setAside
  dsimp only
  rw [modSlot_of_slot hx, Slot.pending_none hp, putSlot_self hx, hn.order, hn.answer]
  exact hn.eta

theorem roundHeld_of_none (hn : s.NoneHeld) (t : SlotIx) : s.roundHeld t = false := by
  unfold State.roundHeld
  rw [hn.order]
  rfl

theorem dropPending_of_clear (hn : s.NoneHeld) (hx : s.getSlot t = some x) (hp : x.pending = none) :
    s.dropPending t = s := by
  unfold State.dropPending
  rw [modSlot_of_slot hx, Slot.pending_none hp, putSlot_self hx, hn.order, hn.answer]
  exact hn.eta

/-! ## Orders and answers with room in their queue -/

theorem sendRound_of_room (hn : s.NoneHeld) (hx : s.getSlot t = some x) (hr : x.rebuild = none) {os : List Order}
    (hroom : s.orderQ.length + os.length ≤ 64) (fresh : Bool) : s.sendRound t os fresh =
      { s.putSlot t (some { x with
          pending := none
          timer := some s.limits.orderTimeout.toNat
          retriesLeft := if fresh then s.limits.retryLimit.toNat else x.retriesLeft }) with
        orderQ := s.orderQ ++ os } := by
  have hcond : (s.orderHeld.isEmpty && s.orderRoom os) = true := by
    rw [hn.order]
    exact decide_eq_true hroom
  unfold State.sendRound
  rw [if_pos hcond]
  exact roundPlaced_of_plain (s := { s with orderQ := s.orderQ ++ os }) fresh hx hr

/-- A decision's round placed at once. -/
theorem startRound_of_room (hn : s.NoneHeld) (hx : s.getSlot t = some x) (hp : x.pending = none) (hr : x.rebuild = none)
    {os : List Order} (hroom : s.orderQ.length + os.length ≤ 64) (m : NodeSet) (w : MemWait) (o : Outstanding) :
    s.startRound t os m w o = { s.putSlot t (some { x with
        phase := .awaitReplies, awaited := m, memWait := w, outstanding := o
        timer := some s.limits.orderTimeout.toNat
        retriesLeft := s.limits.retryLimit.toNat }) with
      orderQ := s.orderQ ++ os } := by
  unfold State.startRound
  rw [setAside_of_clear hn hx hp, modSlot_of_slot hx]
  have hn' : (s.putSlot t (some { x with phase := .awaitReplies, awaited := m, memWait := w, outstanding := o })).NoneHeld :=
    ⟨hn.order, hn.answer⟩
  rw [sendRound_of_room hn' (getSlot_putSlot_self ..) hr hroom, putSlot_putSlot]
  obtain ⟨⟩ := x
  dsimp only at hp
  subst hp
  rfl

theorem sendAnswer_of_room (hn : s.NoneHeld) (hx : s.getSlot t = some x) (hp : x.pending = none)
    (hroom : s.answerQ.length < 64) (a : Answer) :
    s.sendAnswer t a = ({ s with answerQ := s.answerQ ++ [a] }).answerPlaced t a := by
  have hcond : (s.answerRoom && !s.roundHeld t) = true := by
    rw [answerRoom_of hn.answer hroom, roundHeld_of_none hn]
    rfl
  unfold State.sendAnswer
  rw [setAside_of_clear hn hx hp, if_pos hcond]

/-- A closing answer placed at once. -/
theorem sendAnswer_closing (hn : s.NoneHeld) (hx : s.getSlot t = some x) (hp : x.pending = none)
    (hroom : s.answerQ.length < 64) {a : Answer} (ha : a.closing = true) :
    s.sendAnswer t a = ({ s with answerQ := s.answerQ ++ [a] }, [.close t]) := by
  have hmod : ({ s with answerQ := s.answerQ ++ [a] } : State).modSlot t (fun x => { x with pending := none }) =
      { s with answerQ := s.answerQ ++ [a] } := by
    rw [modSlot_of_slot (s := { s with answerQ := s.answerQ ++ [a] }) hx, Slot.pending_none hp]
    exact congrArg (fun u : State => { u with answerQ := s.answerQ ++ [a] }) (putSlot_self hx)
  rw [sendAnswer_of_room hn hx hp hroom]
  cases a with
  | grant => cases ha
  | _ => exact Prod.ext hmod rfl

/-- A first GRANT placed at once, on a way that a transaction holds. -/
theorem sendAnswer_grant (hn : s.NoneHeld) (hx : s.getSlot t = some x) (hp : x.pending = none)
    (hroom : s.answerQ.length < 64) {k : Working} {i : SetIx} (hw : x.working = some k) (hi : x.setIx = some i) (n : Node)
    (l : Line) (p : Permission) (src : Source) (b : Bool) :
    s.sendAnswer t (.grant n l p src b false) =
      ({ (s.putSlot t (some (x.granted s n p src b))).putSet i
            { s.getSet i with order := k.way :: (s.getSet i).order.erase k.way } with
          answerQ := s.answerQ ++ [.grant n l p src b false] }, []) := by
  rw [sendAnswer_of_room hn hx hp hroom]
  refine Prod.ext ?_ rfl
  show State.grantPlaced { s with answerQ := s.answerQ ++ [.grant n l p src b false] } t n p src b = _
  unfold State.grantPlaced
  rw [show State.getSlot { s with answerQ := s.answerQ ++ [.grant n l p src b false] } t = some x from hx]
  dsimp only
  rw [hw, hi]
  dsimp only
  rw [modSlot_of_slot (s := State.moveFront { s with answerQ := s.answerQ ++ [.grant n l p src b false] } i k.way) hx]
  rfl

/-- A first GRANT placed at once, with no way held. -/
theorem sendAnswer_grant_unheld (hn : s.NoneHeld) (hx : s.getSlot t = some x) (hp : x.pending = none)
    (hroom : s.answerQ.length < 64) (hw : x.working = none) (n : Node) (l : Line) (p : Permission) (src : Source) (b : Bool) :
    s.sendAnswer t (.grant n l p src b false) =
      ({ s.putSlot t (some (x.granted s n p src b)) with answerQ := s.answerQ ++ [.grant n l p src b false] }, []) := by
  rw [sendAnswer_of_room hn hx hp hroom]
  refine Prod.ext ?_ rfl
  show State.grantPlaced { s with answerQ := s.answerQ ++ [.grant n l p src b false] } t n p src b = _
  unfold State.grantPlaced
  rw [show State.getSlot { s with answerQ := s.answerQ ++ [.grant n l p src b false] } t = some x from hx]
  dsimp only
  rw [hw]
  dsimp only
  rw [modSlot_of_slot (s := { s with answerQ := s.answerQ ++ [.grant n l p src b false] }) hx]
  rfl

/-! ## Copies -/

theorem editWorking_of_none (hx : s.getSlot t = some x) (hw : x.working = none) (p : NodeSet) : s.editWorking t p = s := by
  unfold State.editWorking
  rw [hx]
  dsimp only
  rw [hw]

/-- A copy that names none of the nodes taken out stays as it is. -/
theorem editWorking_of_keeps {k : Working} {p : NodeSet} (hx : s.getSlot t = some x) (hw : x.working = some k)
    (hk : editContent p k.content = k.content) : s.editWorking t p = s := by
  have hmod : s.modSlot t (fun y => { y with working := some { k with content := k.content } }) = s := by
    rw [modSlot_of_slot hx]
    refine putSlot_self (hx.trans (congrArg some ?_))
    obtain ⟨⟩ := x
    dsimp only at hw
    subst hw
    rfl
  unfold State.editWorking
  rw [hx]
  dsimp only
  rw [hw]
  dsimp only
  rw [hk, hmod, if_neg fun h => h.2 h.1]

theorem copyEmptied_of_slot (hx : s.getSlot t = some x) :
    s.copyEmptied t = (x.working.map Working.content == some .free) := by
  unfold State.copyEmptied
  rw [hx]
  rfl

theorem freeHeld_of_none (hx : s.getSlot t = some x) (hw : x.working = none) : s.freeHeld t = s := by
  unfold State.freeHeld
  rw [hx]
  dsimp only
  rw [hw]

/-- A freeing write-back of a way whose stored body can be read. -/
theorem freeHeld_of_held {k : Working} {i : SetIx} (hx : s.getSlot t = some x) (hw : x.working = some k)
    (hi : x.setIx = some i) (hb : (s.bodyView i k.way).isSome = true) :
    s.freeHeld t = (s.makeFree i k.way).putSlot t (some { x with working := none }) := by
  have hb' : ¬(s.bodyView i k.way).isNone = true := by
    rw [Option.isNone_iff_eq_none]
    intro h
    rw [h] at hb
    cases hb
  unfold State.freeHeld
  rw [hx]
  dsimp only
  rw [hw, hi]
  dsimp only
  rw [if_neg hb', modSlot_of_slot (s := s.makeFree i k.way) hx]

/-! ## The write-back at close (Table 1-6) -/

theorem writeBack_of_none (hx : s.getSlot t = some x) (hw : x.working = none) : s.writeBack t = s := by
  unfold State.writeBack
  dsimp only
  rw [editWorking_of_none hx hw, hx]
  dsimp only
  rw [hw]

/-- The write-back of a way whose stored body matches its code and has no release mark, of a copy the purge edit leaves as it
is. -/
theorem writeBack_of_held {k : Working} {i : SetIx} (hx : s.getSlot t = some x) (hw : x.working = some k)
    (hi : x.setIx = some i) (hk : editContent s.purgingNodes k.content = k.content)
    (hb : (s.getWay i k.way).body.check = .good) :
    s.writeBack t =
      (if k.content = .free ∨ k.content = .reserved ∨
          (k.content = .poisoned ∧ ((s.getWay i k.way).body.stored.release = true ∨ x.kind = .retireRecall)) then
        s.makeFree i k.way
      else s.putWay i k.way { s.getWay i k.way with body := coded ⟨k.content,
        if s.frozen i = true ∨ x.kind = .victimRecall then none else s.nextBehind x, false⟩ }).putSlot t
          (some { x with working := none }) := by
  have hview : s.bodyView i k.way = some (s.getWay i k.way).body.stored := view_of_good hb
  unfold State.writeBack
  dsimp only
  rw [editWorking_of_keeps hx hw hk, hx]
  dsimp only
  rw [hw, hi]
  dsimp only
  rw [correctBody_of_good hb, hview]
  simp only [Option.isNone_some, Bool.false_eq_true, if_false, Option.map_some, Option.getD_some]
  split
  · exact modSlot_of_slot (s := s.makeFree i k.way) hx _
  · exact modSlot_of_slot (s := s.putWay i k.way _) hx _

/-- The only transaction of a line has none behind it. -/
theorem nextBehind_of_only {l : Line} (h : s.onlyOn l t) (hx : s.getSlot t = some x) (hl : x.line = some l)
    (hr : x.rank = some 0) : s.nextBehind x = none := by
  unfold State.nextBehind
  rw [hl, hr]
  dsimp only
  have hnil : s.slotsWith (fun y => y.line == some l && y.rank == some (0 + 1)) = [] :=
    (slotsWith_eq_nil_iff ..).2 fun u y hy => by
      by_contra hne
      have hp := Bool.eq_true_of_not_eq_false hne
      simp only [Bool.and_eq_true, beq_iff_eq] at hp
      have hu := h u y hy hp.1
      rw [hu, hx] at hy
      cases hy
      rw [hr] at hp
      exact absurd hp.2 (by decide)
  rw [hnil]
  rfl

end

end Sys2Proof.Machine

/-! # The close of a transaction, and what a request decides -/

namespace Sys2Proof.Machine

set_option Elab.async false

/-! ## The close of the only transaction of a line (R39) -/

/-- The state with another directory. -/
def State.withDir (s : State) (d : List (SetIx × SetRec)) : State := { s with dir := d }

/-- A transaction that is alone on its line, at its head, with nothing pending and no recall linked to it; a WRITEBACK has no
notice present. -/
structure State.Closing (s : State) (t : SlotIx) (x : Slot) (l : Line) (v : WinIx) : Prop where
  held : s.NoneHeld
  slot : s.getSlot t = some x
  line : x.line = some l
  only : s.onlyOn l t
  rank : x.rank = some 0
  window : x.window = some v
  unlinked : x.victimLink = none
  sent : x.pending = none
  claim : ∀ n, x.kind = .writeback → x.requester = some n → s.noticeFor l n = none

section
variable {s : State} {t : SlotIx} {x : Slot} {l : Line} {v : WinIx}

/-- With no transaction behind it on its line, no rank falls. -/
theorem closeRanks_of_only (h : s.onlyOn l t) (hx : s.getSlot t = some x) (hl : x.line = some l) (hr : x.rank = some 0) :
    s.closeRanks x = s := by
  unfold State.closeRanks
  rw [hl, hr]
  dsimp only
  have hslots : (s.modSlots (fun y => if y.line = some l then
      { y with rank := y.rank.map (fun q => if 0 < q then q - 1 else q) } else y)).slots = s.slots := slots_ext fun u => by
    show State.getSlot _ u = s.getSlot u
    rw [getSlot_modSlots]
    cases hu : s.getSlot u with
    | none => rfl
    | some y =>
      refine congrArg some ?_
      dsimp only
      split
      · rename_i hy
        have hut := h u y hu hy
        rw [hut, hx] at hu
        cases hu
        rw [hr]
        obtain ⟨⟩ := x
        dsimp only at hr
        subst hr
        rfl
      · rfl
  rw [modSlots_eq] at hslots ⊢
  dsimp only at hslots ⊢
  rw [hslots]

theorem releaseClaim_of_absent {n : Node} (h : s.noticeFor l n = none) : s.releaseClaim l n = s := by
  have hmap : s.notices.map (fun v => if v.isFor l n then
      (if v.claimed then { v with claimed := false, age := s.noticeLifetime } else v) else v) = s.notices := by
    refine (List.map_congr_left fun w hw => ?_).trans (List.map_id _)
    have hno := List.find?_eq_none.1 h w hw
    exact if_neg hno
  unfold State.releaseClaim State.modNotice
  rw [hmap, ite_self]

/-- Steps 2 to 4 of such a close: the window's count, the credit, the job's count, and the slot free. -/
theorem leaveTable_of_closing (h : s.Closing t x l v) : s.leaveTable t x =
    (((s.countClosed (some v)).returnCredit x.requester).countRecallClosed x).putSlot t none := by
  obtain ⟨hheld, hslot, hline, honly, hrank, hwindow, hunlinked, hsent, hclaim⟩ := h
  have hc : ((s.countClosed (some v)).returnCredit x.requester).countRecallClosed x =
      { ((s.countClosed (some v)).returnCredit x.requester).countRecallClosed x with
        slots := s.slots, notices := s.notices, orderHeld := s.orderHeld, answerHeld := s.answerHeld } := by
    unfold State.countRecallClosed State.returnCredit
    cases x.requester <;> split <;> [split; skip; split; skip] <;> rfl
  unfold State.leaveTable
  rw [hwindow]
  generalize ((s.countClosed (some v)).returnCredit x.requester).countRecallClosed x = c at hc
  have hcslot : c.getSlot t = some x := by
    unfold State.getSlot
    rw [hc]
    exact hslot
  have hconly : c.onlyOn l t := fun u y hy hl => by
    unfold State.getSlot at hy
    rw [hc] at hy
    exact honly u y hy hl
  have hcheld : c.NoneHeld := ⟨by rw [hc]; exact hheld.order, by rw [hc]; exact hheld.answer⟩
  have hcnotice : ∀ n, c.noticeFor l n = s.noticeFor l n := fun n => by
    unfold State.noticeFor
    rw [hc]
  have hfree : c.freeSlot t x = c.putSlot t none := by
    have hdisown : c.disownRounds t = c := by
      unfold State.disownRounds
      rw [hcheld.order]
      exact congrArg (fun o => { c with orderHeld := o }) hcheld.order.symm
    unfold State.freeSlot
    dsimp only
    rw [setAside_of_clear hcheld hcslot hsent, hdisown, hunlinked]
  dsimp only
  rw [closeRanks_of_only hconly hcslot hline hrank, hfree, hline]
  split
  · rename_i n l' hk hn hl
    cases hl
    exact releaseClaim_of_absent (s := c.putSlot t none) ((hcnotice n).trans (hclaim n hk hn))
  · rfl

theorem finishClose_of_closing (h : s.Closing t x l v) : s.finishClose t = (s.leaveTable t x, [.advance l]) := by
  unfold State.finishClose
  rw [h.slot]
  dsimp only
  rw [h.unlinked, h.line]
  cases x.kind <;> rfl

theorem countClosed_some (s : State) (v : WinIx) : s.countClosed (some v) = s.modWindow v (fun r =>
    if r.state = .retiring ∧ r.progress = some .draining ∧ r.openCount - 1 = 0 then
      { r with openCount := r.openCount - 1, state := .closed, progress := none }
    else { r with openCount := r.openCount - 1 }) := rfl

/-- A request whose window is LIVE, which no job counts. -/
theorem leaveTable_closed (h : s.Closing t x l v) (hlive : (s.getWindow v).state = .live) (hc : x.counted = false) :
    s.leaveTable t x = s.closed t x.requester v := by
  have hwin : s.countClosed (some v) = s.modWindow v (fun r => { r with openCount := r.openCount - 1 }) := by
    rw [countClosed_some]
    refine modWindow_congr (if_neg ?_)
    rintro ⟨hret, -⟩
    rw [hlive] at hret
    cases hret
  rw [leaveTable_of_closing h, hwin]
  unfold State.countRecallClosed State.returnCredit State.closed
  rw [hc]
  cases x.requester <;> rfl

theorem leaveTable_recallClosed (h : s.Closing t x l v) (hr : x.requester = none) :
    s.leaveTable t x = s.recallClosed t x v := by
  have hwin : s.countClosed (some v) = s.modWindow v (fun r =>
      if r.state = .retiring ∧ r.progress = some .draining ∧ r.openCount ≤ 1 then
        { r with state := .closed, progress := none, openCount := 0 }
      else { r with openCount := r.openCount - 1 }) := by
    rw [countClosed_some]
    refine modWindow_congr ?_
    by_cases hcond : (s.getWindow v).state = .retiring ∧ (s.getWindow v).progress = some .draining ∧
        (s.getWindow v).openCount ≤ 1
    · have hzero : (s.getWindow v).openCount - 1 = 0 := by omega
      rw [if_pos hcond, if_pos ⟨hcond.1, hcond.2.1, hzero⟩, hzero]
    · rw [if_neg hcond, if_neg fun hc => hcond ⟨hc.1, hc.2.1, by omega⟩]
  rw [leaveTable_of_closing h, hwin, hr]
  unfold State.countRecallClosed State.recallClosed State.returnCredit
  dsimp only
  split
  · cases x.kind <;> cases x.target <;> rfl
  · rfl

/-- Freed of its copy and with another directory, the transaction closes as before. -/
theorem State.Closing.released (h : s.Closing t x l v) (d : List (SetIx × SetRec)) :
    ((s.withDir d).putSlot t (some { x with working := none })).Closing t { x with working := none } l v where
  held := ⟨h.held.order, h.held.answer⟩
  slot := getSlot_putSlot_self ..
  line := h.line
  only := onlyOn_putSlot (s := s.withDir d) h.only _
  rank := h.rank
  window := h.window
  unlinked := h.unlinked
  sent := h.sent
  claim := h.claim

/-- A close whose write-back changes the directory alone. -/
theorem drain_close {d : List (SetIx × SetRec)} {k : Nat} {ts : List Task} {c u : State} (h : s.Closing t x l v)
    (hwb : s.writeBack t = (s.withDir d).putSlot t (some { x with working := none }))
    (hc : ((s.withDir d).putSlot t (some { x with working := none })).leaveTable t { x with working := none } = c)
    (hgone : c.getSlot t = none) (honly : c.onlyOn l t) (hrest : drain k c ts = some u) :
    drain (k + 3) s (.close t :: ts) = some u := by
  refine drain_step (s' := s.writeBack t) (ts' := [.finishClose t]) rfl ?_
  rw [hwb]
  refine drain_step (s' := c) (ts' := [.advance l]) ?_ ?_
  · exact (finishClose_of_closing (h.released d)).trans (congrArg (fun q => (q, [Task.advance l])) hc)
  · exact drain_step (s' := c) (ts' := []) (advance_of_only honly hgone) hrest

theorem closed_getSlot (s : State) (t : SlotIx) (n : Option Node) (v : WinIx) (u : SlotIx) :
    (s.closed t n v).getSlot u = (s.putSlot t none).getSlot u := by
  unfold State.closed
  cases n <;> rfl

theorem closed_putSlot (s : State) (t : SlotIx) (y : Option Slot) (n : Option Node) (v : WinIx) :
    (s.putSlot t y).closed t n v = s.closed t n v := by
  unfold State.closed
  rw [putSlot_putSlot]

theorem drain_close_request {d : List (SetIx × SetRec)} {k : Nat} {ts : List Task} {u : State} (h : s.Closing t x l v)
    (hlive : (s.getWindow v).state = .live) (hc : x.counted = false)
    (hwb : s.writeBack t = (s.withDir d).putSlot t (some { x with working := none }))
    (hrest : drain k ((s.withDir d).closed t x.requester v) ts = some u) : drain (k + 3) s (.close t :: ts) = some u := by
  refine drain_close h hwb ((leaveTable_closed (h.released d) hlive hc).trans (closed_putSlot ..)) ?_ ?_ hrest
  · rw [closed_getSlot]
    exact getSlot_putSlot_self ..
  · intro w y hy
    rw [closed_getSlot] at hy
    exact onlyOn_putSlot (s := s.withDir d) h.only none w y hy

theorem recallClosed_getSlot (s : State) (t : SlotIx) (x : Slot) (v : WinIx) (u : SlotIx) :
    (s.recallClosed t x v).getSlot u = (s.putSlot t none).getSlot u := by
  unfold State.recallClosed
  dsimp only
  split
  · split <;> rfl
  · rfl

theorem recallClosed_putSlot (s : State) (t : SlotIx) (y : Option Slot) (x : Slot) (v : WinIx) :
    (s.putSlot t y).recallClosed t x v = s.recallClosed t x v := by
  unfold State.recallClosed
  rw [putSlot_putSlot]

theorem drain_close_recall {d : List (SetIx × SetRec)} {k : Nat} {ts : List Task} {u : State} (h : s.Closing t x l v)
    (hr : x.requester = none)
    (hwb : s.writeBack t = (s.withDir d).putSlot t (some { x with working := none }))
    (hrest : drain k ((s.withDir d).recallClosed t x v) ts = some u) : drain (k + 3) s (.close t :: ts) = some u := by
  refine drain_close h hwb ((leaveTable_recallClosed (h.released d) hr).trans (recallClosed_putSlot ..)) ?_ ?_ hrest
  · rw [recallClosed_getSlot]
    exact getSlot_putSlot_self ..
  · intro w y hy
    rw [recallClosed_getSlot] at hy
    exact onlyOn_putSlot (s := s.withDir d) h.only none w y hy

end

/-! ## Refusals after admission (R38) -/

theorem refuse_of_room {s s' : State} {t : SlotIx} {x : Slot} {n : Node} {l : Line} {r : Reason}
    (hx : s.getSlot t = some x) (hq : x.requester = some n) (hl : x.line = some l) (hn : s.nodeState n ≠ .purging)
    (hcount : s.countRefusal r n l t = s') (hheld : s'.NoneHeld) (hx' : s'.getSlot t = some x) (hp : x.pending = none)
    (hroom : s'.answerQ.length < 64) :
    s.refuse t r = ({ s' with answerQ := s'.answerQ ++ [.refuse n l (.request x.kind.toReqKind) r] }, [.close t]) := by
  unfold State.refuse
  rw [hx]
  dsimp only
  rw [hq, hl]
  dsimp only
  rw [if_neg hn, hcount]
  exact sendAnswer_closing hheld hx' hp hroom rfl

/-! ## Activation (R29, R30) -/

section
variable {s : State} {t : SlotIx} {x : Slot} {l : Line}

/-- Active: the first step of an activation. -/
def Slot.begun (x : Slot) : Slot := { x with phase := .awaitReplies }

theorem begin_eq (hx : s.getSlot t = some x) :
    s.modSlot t (fun y => { y with phase := .awaitReplies }) = s.putSlot t (some x.begun) := modSlot_of_slot hx _

theorem activate_of_direct (hx : s.getSlot t = some x) (hl : x.line = some l) (hd : s.isDirect x = true)
    (hk : x.kind ≠ .victimRecall) : s.activate t = (s.putSlot t (some x.begun), [.goOn t]) := by
  have hline : x.begun.line = some l := hl
  have hcond : (s.putSlot t (some x.begun)).isDirect x.begun = true ∧ x.begun.kind ≠ .victimRecall := ⟨hd, hk⟩
  unfold State.activate
  dsimp only
  rw [begin_eq hx, getSlot_putSlot_self]
  dsimp only
  rw [hline]
  dsimp only
  rw [if_pos hcond]

/-- Outside a DIRECT window the line is looked up. -/
theorem lookup_cond (hd : s.isDirect x = false) :
    ¬((s.putSlot t (some x.begun)).isDirect x.begun = true ∧ x.begun.kind ≠ .victimRecall) := fun h =>
  Bool.false_ne_true (hd.symm.trans h.1)

theorem activate_of_untracked (hx : s.getSlot t = some x) (hl : x.line = some l) (hd : s.isDirect x = false)
    (hu : s.untracked l) : s.activate t = (s.putSlot t (some x.begun), [.goOn t]) := by
  have hline : x.begun.line = some l := hl
  unfold State.activate
  dsimp only
  rw [begin_eq hx, getSlot_putSlot_self]
  dsimp only
  rw [hline]
  dsimp only
  rw [if_neg (lookup_cond hd), lookup_of_untracked (s := s.putSlot t (some x.begun)) hu]

/-- The way that tracks a line, held. -/
def heldWay (l : Line) (c : Content) (t : SlotIx) : Way := ⟨coded (some (keyOf l)), coded ⟨c, some t, false⟩⟩

/-- Active, with a copy of a way's content. -/
def Slot.taken (x : Slot) (w : WayIx) (c : Content) : Slot := { x with phase := .awaitReplies, working := some ⟨w, c⟩ }

theorem activate_of_tracked {w : WayIx} {c : Content} (hx : s.getSlot t = some x) (hl : x.line = some l)
    (hd : ¬(s.isDirect x = true ∧ x.kind ≠ .victimRecall)) (ht : s.trackedAs l w c) (hc : c ≠ .free) : s.activate t =
      ((s.putWay (setOf l) w (heldWay l c t)).putSlot t (some (x.taken w c)), [.goOn t]) := by
  have hline : x.begun.line = some l := hl
  unfold State.activate
  dsimp only
  rw [begin_eq hx, getSlot_putSlot_self]
  dsimp only
  rw [hline]
  dsimp only
  rw [if_neg (show ¬((s.putSlot t (some x.begun)).isDirect x.begun = true ∧ x.begun.kind ≠ .victimRecall) from hd), lookup_of_tracked (s := s.putSlot t (some x.begun)) ht hc]
  dsimp only
  rw [bodyView_of_tracked (s := s.putSlot t (some x.begun)) ht]
  dsimp only
  unfold State.takeHold
  rw [modSlot_of_slot (s := (s.putSlot t (some x.begun)).putWay (setOf l) w _) (getSlot_putSlot_self s t _)]
  have hway : ({ (s.putSlot t (some x.begun)).getWay (setOf l) w with body := coded ⟨c, some t, false⟩ } : Way) =
      heldWay l c t := by
    rw [show (s.putSlot t (some x.begun)).getWay (setOf l) w = ⟨coded (some (keyOf l)), coded ⟨c, none, false⟩⟩ from ht.2.1]
    rfl
  rw [hway]
  exact Prod.ext (putSlot_putSlot (s.putWay (setOf l) w (heldWay l c t)) t _ _) rfl

/-! ## From step 3 of an activation on -/

theorem goOn_of_none (hx : s.getSlot t = some x) (hw : x.working = none) : s.goOn t = s.decision t := by
  unfold State.goOn
  dsimp only
  rw [editWorking_of_none hx hw, copyEmptied_of_slot hx, hw]
  rfl

theorem goOn_of_keeps {k : Working} (hx : s.getSlot t = some x) (hw : x.working = some k)
    (hk : editContent s.purgingNodes k.content = k.content) (hc : k.content ≠ .free) : s.goOn t = s.decision t := by
  have hempty : s.copyEmptied t = false := by
    rw [copyEmptied_of_slot hx, hw]
    exact beq_eq_false_iff_ne.2 fun h => hc (Option.some.inj h)
  unfold State.goOn
  dsimp only
  rw [editWorking_of_keeps hx hw hk, hempty]
  rfl

theorem decision_of_request {n : Node} (hx : s.getSlot t = some x) (hl : x.line = some l) (hk : x.kind.recall = false)
    (hn : x.requester = some n) (hr : s.windowRetiring x = false) : s.decision t = s.decideNode t x n l := by
  unfold State.decision
  rw [hx]
  dsimp only
  rw [hl]
  dsimp only
  rw [hk, hn]
  dsimp only
  rw [hr]
  rfl

theorem decision_of_recall (hx : s.getSlot t = some x) (hl : x.line = some l) (hk : x.kind.recall = true) :
    s.decision t = s.decideRecall t x l := by
  unfold State.decision
  rw [hx]
  dsimp only
  rw [hl]
  dsimp only
  rw [if_pos hk]

end

end Sys2Proof.Machine

/-! # A node request taken in, and its activation -/

namespace Sys2Proof.Machine

set_option Elab.async false

theorem exec_command (k : ReqKind) (s : State) : exec k.command s = s.event (s.takeRequest k) := by cases k <;> rfl

/-! ## Admission (R32) -/

/-- The state in which a request admitted finds itself, beside its slot. -/
def State.entered (s : State) (k : ReqKind) (n : Node) (l : Line) (v : WinIx) (rest : List ReqMsg) : State :=
  if k = .writeback then (s.admitted n v rest).claimNotice l n else s.admitted n v rest

section
variable {s : State} {k : ReqKind} {n : Node} {l : Line} {v : WinIx} {rest : List ReqMsg} {u : SlotIx}

theorem takeRequest_of_head (hri : s.riHeld = none) (hm : s.reqIntake = .request k n l :: rest) :
    s.takeRequest k = (s.reqTaken rest).arrive k n l := by
  have hri' : ¬s.riHeld.isSome = true := by
    rw [hri]
    exact Bool.noConfusion
  unfold State.takeRequest
  rw [if_neg hri', hm]
  exact if_pos rfl

/-- A request that passes the checks of its window (Table 6-2). -/
theorem windowVerdict_of_home (hv : s.windowOf l = some v) (hallowed : NodeSet.has (s.getWindow v).allowed n = true)
    (hreads : ¬((s.getWindow v).kind = .sharedOnly ∧ (k = .readOwn ∨ k = .upgrade)))
    (hstate : (s.getWindow v).state ≠ .retiring) : s.windowVerdict k n l = .ok v := by
  have hallowed' : ¬NodeSet.has (s.getWindow v).allowed n = false := fun h => Bool.false_ne_true (h.symm.trans hallowed)
  unfold State.windowVerdict
  rw [hv]
  dsimp only
  rw [if_neg hallowed', if_neg hreads, if_neg hstate]

/-- A request that passes every check (Table 2-4). -/
theorem arrivalCheck_of_verdict (hlive : s.nodeState n = .live) (hv : s.windowVerdict k n l = .ok v)
    (hfrozen : ¬(s.frozen (setOf l) = true ∧ (s.getWindow v).kind ≠ .direct)) (hcredit : (s.getNode n).credits < 6)
    (hroom : 5 ≤ s.freeSlots) : s.arrivalCheck k n l = .ok v := by
  have hcredit' : ¬Config.creditLimit ≤ (s.getNode n).credits := not_le.2 hcredit
  have hroom' : ¬s.freeSlots < Config.admissionSlots := not_lt.2 hroom
  unfold State.arrivalCheck
  rw [if_neg (not_not.2 hlive), hv]
  dsimp only
  rw [if_neg hfrozen, if_neg hcredit', if_neg hroom']

theorem arrivalCheck_of_arrives (h : s.Arrives k n l v rest) : (s.reqTaken rest).arrivalCheck k n l = .ok v := by
  have hfrozen : s.frozen (setOf l) = false := frozen_of_anyFrozen h.quiet.noFrozen (setOf l)
  have hverdict := windowVerdict_of_home (s := s.reqTaken rest) (k := k) h.home h.allowed
    (fun hk => hk.2.elim (h.writable hk.1).1 (h.writable hk.1).2)
    (fun hr => nomatch (show WinState.live = .retiring from h.windowLive.symm.trans hr))
  exact arrivalCheck_of_verdict (s := s.reqTaken rest) h.live hverdict
    (fun hf => Bool.false_ne_true (hfrozen.symm.trans hf.1)) h.credit h.room

/-- The taking in of a request: its slot, the tail of its line's order, the credit and the window's count. -/
theorem takeRequest_of_arrives (h : s.Arrives k n l v rest) (hfree : s.lowestFree = some u) :
    let q := (s.entered k n l v rest).putSlot u (some (requestSlot k n l v (s.onLine l).length))
    s.takeRequest k = (q, q.startIfHead u ++ (if k = .drop then (q.observer l n).map Task.meetObserving else [])) := by
  rw [takeRequest_of_head h.unheld h.head]
  unfold State.arrive
  rw [arrivalCheck_of_arrives h]
  dsimp only
  unfold State.takeIn
  rw [show (s.reqTaken rest).lowestFree = some u from hfree]
  dsimp only
  have hstate : (if k = .writeback then (((s.reqTaken rest).openOnLine u { newSlot k.toKind with requester := some n } l
        (some v)).modNode n (fun r => { r with credits := r.credits + 1 })).claimNotice l n
      else ((s.reqTaken rest).openOnLine u { newSlot k.toKind with requester := some n } l (some v)).modNode n
        (fun r => { r with credits := r.credits + 1 })) =
      (s.entered k n l v rest).putSlot u (some (requestSlot k n l v (s.onLine l).length)) := by
    unfold State.entered
    split <;> rfl
  rw [hstate]

theorem startIfHead_of_slot {q : State} {x : Slot} (hx : q.getSlot u = some x) (hl : x.line = some l)
    (hf : q.frozen (setOf l) = false) : q.startIfHead u = if x.rank = some 0 then [.activate u] else [] := by
  unfold State.startIfHead
  rw [hx]
  dsimp only
  rw [hl]
  dsimp only
  rw [hf]
  simp

theorem entered_slots (s : State) (k : ReqKind) (n : Node) (l : Line) (v : WinIx) (rest : List ReqMsg) :
    (s.entered k n l v rest).slots = s.slots := by
  unfold State.entered
  split <;> rfl

theorem entered_dir (s : State) (k : ReqKind) (n : Node) (l : Line) (v : WinIx) (rest : List ReqMsg) :
    (s.entered k n l v rest).dir = s.dir := by
  unfold State.entered
  split <;> rfl

/-- What an admission leaves as it was. -/
theorem entered_eq (s : State) (k : ReqKind) (n : Node) (l : Line) (v : WinIx) (rest : List ReqMsg) :
    s.entered k n l v rest = { s with
      reqIntake := rest, nodes := (s.entered k n l v rest).nodes, windows := (s.entered k n l v rest).windows
      notices := (s.entered k n l v rest).notices } := by
  unfold State.entered
  split <;> rfl

theorem admitted_nodeState (s : State) (n m : Node) (v : WinIx) (rest : List ReqMsg) :
    (s.admitted n v rest).nodeState m = s.nodeState m := by
  show ((s.reqTaken rest).modNode n (fun r => { r with credits := r.credits + 1 })).nodeState m = s.nodeState m
  unfold State.nodeState
  rw [getNode_modNode]
  split
  · rename_i hm
    subst hm
    rfl
  · rfl

theorem entered_nodeState (s : State) (k : ReqKind) (n m : Node) (l : Line) (v : WinIx) (rest : List ReqMsg) :
    (s.entered k n l v rest).nodeState m = s.nodeState m := by
  unfold State.entered
  split
  · exact admitted_nodeState s n m v rest
  · exact admitted_nodeState s n m v rest

theorem purgingNodes_congr {s q : State} (h : ∀ m, q.nodeState m = s.nodeState m) : q.purgingNodes = s.purgingNodes := by
  unfold State.purgingNodes
  simp only [h]

theorem entered_getWindow (s : State) (k : ReqKind) (n : Node) (l : Line) (v w : WinIx) (rest : List ReqMsg) :
    (s.entered k n l v rest).getWindow w =
      if w = v then { s.getWindow v with openCount := (s.getWindow v).openCount + 1 } else s.getWindow w := by
  have h : (s.entered k n l v rest).getWindow w = (s.admitted n v rest).getWindow w := by
    unfold State.entered
    split <;> rfl
  rw [h]
  exact getWindow_modWindow ((s.reqTaken rest).modNode n _) v w _

/-- The window of a request just admitted, as it was but for its count. -/
theorem entered_window (s : State) (k : ReqKind) (n : Node) (l : Line) (v : WinIx) (rest : List ReqMsg) :
    ((s.entered k n l v rest).getWindow v).kind = (s.getWindow v).kind ∧
      ((s.entered k n l v rest).getWindow v).state = (s.getWindow v).state := by
  rw [entered_getWindow, if_pos rfl]
  exact ⟨rfl, rfl⟩

/-! ## Activation at the head of a line -/

theorem rank_zero (hline : s.onLine l = []) : (s.onLine l).length = 0 := by rw [hline]; rfl

/-- A request on a line without a transaction activates at once. -/
theorem takeRequest_at_head (h : s.Arrives k n l v rest) (hfree : s.lowestFree = some u) (hline : s.onLine l = []) :
    s.takeRequest k = ((s.entered k n l v rest).putSlot u (some (requestSlot k n l v 0)), [.activate u]) := by
  have htake := takeRequest_of_arrives h hfree
  rw [rank_zero hline] at htake
  have hslot : ((s.entered k n l v rest).putSlot u (some (requestSlot k n l v 0))).getSlot u =
      some (requestSlot k n l v 0) := getSlot_putSlot_self ..
  have hfrozen : ((s.entered k n l v rest).putSlot u (some (requestSlot k n l v 0))).frozen (setOf l) = false := by
    unfold State.frozen State.getSet
    rw [show ((s.entered k n l v rest).putSlot u (some (requestSlot k n l v 0))).dir = s.dir from entered_dir ..]
    exact frozen_of_anyFrozen h.quiet.noFrozen _
  have hobserver : ((s.entered k n l v rest).putSlot u (some (requestSlot k n l v 0))).observer l n = [] := by
    refine (slotsWith_eq_nil_iff ..).2 fun t y hy => ?_
    by_cases ht : t = u
    · subst ht
      rw [hslot] at hy
      cases hy
      exact Bool.and_false _
    · rw [getSlot_putSlot_of_ne ht] at hy
      have hno := onlyOn_of_none hline u t y (by unfold State.getSlot at hy ⊢; rwa [entered_slots] at hy)
      by_contra hp
      have hp := Bool.eq_true_of_not_eq_false hp
      simp only [Bool.and_eq_true, beq_iff_eq] at hp
      exact ht (hno hp.1)
  refine htake.trans (Prod.ext rfl ?_)
  dsimp only
  rw [startIfHead_of_slot hslot rfl hfrozen, hobserver, List.map_nil, ite_self]
  rfl

/-- The state in which an untracked line's request, or one in a DIRECT window, decides. -/
def State.decidesUnheld (s : State) (k : ReqKind) (n : Node) (l : Line) (v : WinIx) (rest : List ReqMsg) (u : SlotIx) : State :=
  (s.entered k n l v rest).putSlot u (some (requestSlot k n l v 0).begun)

/-- The state in which a request on a tracked line decides, the way held as it stands. -/
def State.decidesHeld (s : State) (k : ReqKind) (n : Node) (l : Line) (v : WinIx) (rest : List ReqMsg) (u : SlotIx) (w : WayIx)
    (c : Content) : State :=
  ((s.entered k n l v rest).putWay (setOf l) w (heldWay l c u)).putSlot u (some ((requestSlot k n l v 0).taken w c))

theorem requestSlot_recall (k : ReqKind) (n : Node) (l : Line) (v : WinIx) (r : Nat) :
    (requestSlot k n l v r).kind.recall = false := by cases k <;> rfl

/-- The request's window is not RETIRING. -/
theorem windowRetiring_of_arrives (h : s.Arrives k n l v rest) {q : State} {x : Slot} (hx : x.window = some v)
    (hq : q.getWindow v = (s.entered k n l v rest).getWindow v) : q.windowRetiring x = false := by
  unfold State.windowRetiring
  rw [hx]
  dsimp only
  rw [hq, (entered_window ..).2, h.windowLive]
  rfl

/-- A request on an untracked line decides, and its tasks follow. -/
theorem event_untracked (h : s.Arrives k n l v rest) (hd : (s.getWindow v).kind ≠ .direct) (hline : s.onLine l = [])
    (hfree : s.lowestFree = some u) (hu : s.untracked l) {j : Nat} {t : State} (hj : j + 2 ≤ Config.cascadeBound)
    {d : Work} (hwork : (s.decidesUnheld k n l v rest u).decideNode u (requestSlot k n l v 0).begun n l = d)
    (hrest : drain j d.1 (d.2 ++ [.settle]) = some t) :
    exec k.command s = .next t.driveEventN := by
  have hslot := getSlot_putSlot_self (s.entered k n l v rest) u (some (requestSlot k n l v 0))
  have hdirect : ((s.entered k n l v rest).putSlot u (some (requestSlot k n l v 0))).isDirect (requestSlot k n l v 0) =
      false := by
    show (((s.entered k n l v rest).getWindow v).kind == .direct) = false
    rw [(entered_window ..).1]
    exact beq_eq_false_iff_ne.2 hd
  have huntracked : ((s.entered k n l v rest).putSlot u (some (requestSlot k n l v 0))).untracked l := by
    unfold State.untracked State.soundSet State.getWay State.getSet
    rw [show ((s.entered k n l v rest).putSlot u (some (requestSlot k n l v 0))).dir = s.dir from entered_dir ..]
    exact hu
  have hactivate := activate_of_untracked hslot rfl hdirect huntracked
  rw [putSlot_putSlot] at hactivate
  have hgo := (goOn_of_none (getSlot_putSlot_self (s.entered k n l v rest) u (some (requestSlot k n l v 0).begun)) rfl).trans
    (decision_of_request (getSlot_putSlot_self ..) rfl (requestSlot_recall k n l v 0) rfl
      (windowRetiring_of_arrives h rfl rfl))
  subst hwork
  rw [exec_command, takeRequest_at_head h hfree hline]
  refine event_of_drain (j + 2) hj h.quiet.running ?_
  refine drain_step (t := .activate u) hactivate ?_
  exact drain_step (t := .goOn u) hgo hrest

/-- A request in a DIRECT window decides without a lookup. -/
theorem event_direct (h : s.Arrives k n l v rest) (hd : (s.getWindow v).kind = .direct) (hline : s.onLine l = [])
    (hfree : s.lowestFree = some u) {j : Nat} {t : State} (hj : j + 2 ≤ Config.cascadeBound)
    {d : Work} (hwork : (s.decidesUnheld k n l v rest u).decideNode u (requestSlot k n l v 0).begun n l = d)
    (hrest : drain j d.1 (d.2 ++ [.settle]) = some t) :
    exec k.command s = .next t.driveEventN := by
  have hslot := getSlot_putSlot_self (s.entered k n l v rest) u (some (requestSlot k n l v 0))
  have hdirect : ((s.entered k n l v rest).putSlot u (some (requestSlot k n l v 0))).isDirect (requestSlot k n l v 0) =
      true := by
    show (((s.entered k n l v rest).getWindow v).kind == .direct) = true
    rw [(entered_window ..).1, hd]
    rfl
  have hactivate := activate_of_direct hslot rfl hdirect (by cases k <;> nofun)
  rw [putSlot_putSlot] at hactivate
  have hgo := (goOn_of_none (getSlot_putSlot_self (s.entered k n l v rest) u (some (requestSlot k n l v 0).begun)) rfl).trans
    (decision_of_request (getSlot_putSlot_self ..) rfl (requestSlot_recall k n l v 0) rfl
      (windowRetiring_of_arrives h rfl rfl))
  subst hwork
  rw [exec_command, takeRequest_at_head h hfree hline]
  refine event_of_drain (j + 2) hj h.quiet.running ?_
  refine drain_step (t := .activate u) hactivate ?_
  exact drain_step (t := .goOn u) hgo hrest

/-- A request on a tracked line decides with the way held. -/
theorem event_tracked {w : WayIx} {c : Content} (h : s.Arrives k n l v rest) (hd : (s.getWindow v).kind ≠ .direct)
    (hline : s.onLine l = []) (hfree : s.lowestFree = some u) (ht : s.trackedAs l w c) (hc : c ≠ .free)
    (hkeep : editContent s.purgingNodes c = c) {j : Nat} {t : State} (hj : j + 2 ≤ Config.cascadeBound)
    {d : Work} (hwork : (s.decidesHeld k n l v rest u w c).decideNode u ((requestSlot k n l v 0).taken w c) n l = d)
    (hrest : drain j d.1 (d.2 ++ [.settle]) = some t) :
    exec k.command s = .next t.driveEventN := by
  have hslot := getSlot_putSlot_self (s.entered k n l v rest) u (some (requestSlot k n l v 0))
  have hdirect : ((s.entered k n l v rest).putSlot u (some (requestSlot k n l v 0))).isDirect (requestSlot k n l v 0) =
      false := by
    show (((s.entered k n l v rest).getWindow v).kind == .direct) = false
    rw [(entered_window ..).1]
    exact beq_eq_false_iff_ne.2 hd
  have htracked : ((s.entered k n l v rest).putSlot u (some (requestSlot k n l v 0))).trackedAs l w c := by
    unfold State.trackedAs State.soundSet State.getWay State.getSet
    rw [show ((s.entered k n l v rest).putSlot u (some (requestSlot k n l v 0))).dir = s.dir from entered_dir ..]
    exact ht
  have hactivate := activate_of_tracked hslot rfl (fun hq => Bool.false_ne_true (hdirect.symm.trans hq.1)) htracked hc
  have hheld : (((s.entered k n l v rest).putSlot u (some (requestSlot k n l v 0))).putWay (setOf l) w (heldWay l c u)).putSlot u
      (some ((requestSlot k n l v 0).taken w c)) = s.decidesHeld k n l v rest u w c :=
    putSlot_putSlot ((s.entered k n l v rest).putWay (setOf l) w (heldWay l c u)) u _ _
  rw [hheld] at hactivate
  have hpurging : (s.decidesHeld k n l v rest u w c).purgingNodes = s.purgingNodes :=
    purgingNodes_congr fun m => entered_nodeState s k n m l v rest
  have hslot' : (s.decidesHeld k n l v rest u w c).getSlot u = some ((requestSlot k n l v 0).taken w c) :=
    getSlot_putSlot_self ..
  have hgo := (goOn_of_keeps hslot' rfl (by rw [hpurging]; exact hkeep) hc).trans
    (decision_of_request hslot' rfl (requestSlot_recall k n l v 0) rfl (windowRetiring_of_arrives h rfl rfl))
  subst hwork
  rw [exec_command, takeRequest_at_head h hfree hline]
  refine event_of_drain (j + 2) hj h.quiet.running ?_
  refine drain_step (t := .activate u) hactivate ?_
  exact drain_step (t := .goOn u) hgo hrest

end

end Sys2Proof.Machine

/-! # What node requests decide -/

namespace Sys2Proof.Machine

set_option Elab.async false

/-! ## Quiet parts -/

/-- Fields that quiet does not read. -/
theorem State.Quiet.same {s s' : State} (h : s.Quiet) (hslots : s'.slots = s.slots := by rfl) (hdir : s'.dir = s.dir := by rfl)
    (hreset : s'.resetN = s.resetN := by rfl) (hpstep : s'.purgeStep = s.purgeStep := by rfl)
    (hmstep : s'.maintStep = s.maintStep := by rfl) (horder : s'.orderHeld = s.orderHeld := by rfl)
    (hanswer : s'.answerHeld = s.answerHeld := by rfl) (hmaint : s'.maint = s.maint := by rfl)
    (hjobs : s'.purgeJobs = s.purgeJobs := by rfl) : s'.Quiet :=
  h.congr (fun t x hx => h.slot (t := t) (x := x) (by unfold State.getSlot at hx ⊢; rwa [hslots] at hx))
    (by unfold State.anyFrozen; rw [hdir]; exact h.noFrozen) hreset hpstep hmstep horder hanswer hmaint hjobs

theorem State.Quiet.putSlot {s : State} (h : s.Quiet) (t : SlotIx) {v : Option Slot}
    (hv : ∀ x, v = some x → x.rebuildsSet = false) : (s.putSlot t v).Quiet := by
  refine h.congr (fun u x hx => ?_) h.noFrozen
  rw [getSlot_putSlot] at hx
  split at hx
  · exact hv x hx
  · exact h.slot hx

theorem putWay_anyFrozen {s : State} (h : s.anyFrozen = false) (i : SetIx) (w : WayIx) (y : Way) :
    (s.putWay i w y).anyFrozen = false := putSet_anyFrozen h i (getSet_frozen h i)

theorem State.Quiet.putWay {s : State} (h : s.Quiet) (i : SetIx) (w : WayIx) (y : Way) : (s.putWay i w y).Quiet :=
  h.putSet i (getSet_frozen h.noFrozen i)

theorem State.Quiet.admitted {s : State} (h : s.Quiet) (n : Node) (v : WinIx) (rest : List ReqMsg) :
    (s.admitted n v rest).Quiet := h.same

theorem rebuildsSet_of_none {x : Slot} (h : x.rebuild = none) : x.rebuildsSet = false := by
  unfold Slot.rebuildsSet
  rw [h]

/-- A slot without a rebuild leaves a quiet part quiet. -/
theorem State.Quiet.putPlain {s : State} (h : s.Quiet) (t : SlotIx) {x : Slot} (hx : x.rebuild = none) :
    (s.putSlot t (some x)).Quiet := h.putSlot t fun y hy => by
  cases hy
  exact rebuildsSet_of_none hx

/-- A quiet part in which one slot took up a record without a rebuild. -/
theorem State.Quiet.slotted {s s' : State} (h : s.Quiet) {u : SlotIx} {y : Slot}
    (hslots : s'.slots = (s.putSlot u (some y)).slots) (hy : y.rebuild = none) (hdir : s'.dir = s.dir := by rfl)
    (hreset : s'.resetN = s.resetN := by rfl) (hpstep : s'.purgeStep = s.purgeStep := by rfl)
    (hmstep : s'.maintStep = s.maintStep := by rfl) (horder : s'.orderHeld = s.orderHeld := by rfl)
    (hanswer : s'.answerHeld = s.answerHeld := by rfl) (hmaint : s'.maint = s.maint := by rfl)
    (hjobs : s'.purgeJobs = s.purgeJobs := by rfl) : s'.Quiet :=
  (h.putPlain u hy).same hslots hdir hreset hpstep hmstep horder hanswer hmaint hjobs

/-! ## A request just admitted that closes again -/

/-- What an admitted request's slot keeps until its close. -/
structure Slot.Asks (x : Slot) (n : Node) (l : Line) (v : WinIx) : Prop where
  requester : x.requester = some n
  line : x.line = some l
  window : x.window = some v
  rank : x.rank = some 0
  unlinked : x.victimLink = none
  sent : x.pending = none
  uncounted : x.counted = false

theorem begun_asks (k : ReqKind) (n : Node) (l : Line) (v : WinIx) : (requestSlot k n l v 0).begun.Asks n l v :=
  ⟨rfl, rfl, rfl, rfl, rfl, rfl, rfl⟩

theorem taken_asks (k : ReqKind) (n : Node) (l : Line) (v : WinIx) (w : WayIx) (c : Content) :
    ((requestSlot k n l v 0).taken w c).Asks n l v := ⟨rfl, rfl, rfl, rfl, rfl, rfl, rfl⟩

section
variable {s : State} {n : Node} {l : Line} {v : WinIx} {rest : List ReqMsg} {u : SlotIx}

/-- The close of a request takes back what its admission gave. -/
theorem admitted_closed (hu : s.getSlot u = none) : (s.admitted n v rest).closed u (some n) v = s.reqTaken rest := by
  have hnode := modNode_modNode ((s.reqTaken rest).putSlot u none) n (fun r => { r with credits := r.credits + 1 })
    (fun r => { r with credits := r.credits - 1 })
  have hcredit : ((s.reqTaken rest).putSlot u none).modNode n (fun r => { r with credits := r.credits + 1 - 1 }) =
      (s.reqTaken rest).putSlot u none := modNode_self rfl
  have hwindow := modWindow_modWindow ((s.reqTaken rest).putSlot u none) v (fun r => { r with openCount := r.openCount + 1 })
    (fun r => { r with openCount := r.openCount - 1 })
  have hcount : ((s.reqTaken rest).putSlot u none).modWindow v (fun r => { r with openCount := r.openCount + 1 - 1 }) =
      (s.reqTaken rest).putSlot u none := modWindow_self rfl
  have hself : (s.reqTaken rest).putSlot u none = s.reqTaken rest := putSlot_self (s := s.reqTaken rest) hu
  have hclosed : (s.admitted n v rest).closed u (some n) v =
      { (s.reqTaken rest).putSlot u none with
        nodes := ((((s.reqTaken rest).putSlot u none).modNode n (fun r => { r with credits := r.credits + 1 })).modNode n
          (fun r => { r with credits := r.credits - 1 })).nodes
        windows := ((((s.reqTaken rest).putSlot u none).modWindow v (fun r => { r with openCount := r.openCount + 1 })).modWindow v
          (fun r => { r with openCount := r.openCount - 1 })).windows } := rfl
  rw [hclosed, hnode, hwindow, hcredit, hcount, hself]

/-- A change of the requester's record beside its credits may come before the admission. -/
theorem admitted_modNode (f : NodeRec → NodeRec)
    (hf : ∀ r, f { r with credits := r.credits + 1 } = { f r with credits := (f r).credits + 1 }) :
    (s.admitted n v rest).modNode n f = (s.modNode n f).admitted n v rest := by
  have h1 := modNode_modNode (s.reqTaken rest) n (fun r => { r with credits := r.credits + 1 }) f
  have h2 := modNode_modNode (s.reqTaken rest) n f (fun r => { r with credits := r.credits + 1 })
  have h3 : (fun r : NodeRec => f { r with credits := r.credits + 1 }) =
      fun r => { f r with credits := (f r).credits + 1 } := funext hf
  rw [h3] at h1
  exact congrArg (fun q : State => q.modWindow v (fun r => { r with openCount := r.openCount + 1 })) (h1.trans h2.symm)

/-- The close of a request just admitted, whose write-back changes the directory alone. -/
theorem drain_close_admitted {x : Slot} {d e : List (SetIx × SetRec)} {k : Nat} {ts : List Task} {t : State} (hn : s.NoneHeld)
    (hu : s.getSlot u = none) (honly : s.onlyOn l u) (hlive : (s.getWindow v).state = .live) (hx : x.Asks n l v)
    (hclaim : x.kind = .writeback → s.noticeFor l n = none)
    (hwb : (((s.admitted n v rest).withDir d).putSlot u (some x)).writeBack u =
      ((s.admitted n v rest).withDir e).putSlot u (some { x with working := none }))
    (hrest : drain k ((s.reqTaken rest).withDir e) ts = some t) :
    drain (k + 3) (((s.admitted n v rest).withDir d).putSlot u (some x)) (.close u :: ts) = some t := by
  have hwindow : ((s.admitted n v rest).getWindow v).state = .live := by
    have h := getWindow_modWindow ((s.reqTaken rest).modNode n (fun r => { r with credits := r.credits + 1 })) v v
      (fun r => { r with openCount := r.openCount + 1 })
    rw [if_pos rfl] at h
    exact (congrArg Window.state h).trans hlive
  have hclosing : (((s.admitted n v rest).withDir d).putSlot u (some x)).Closing u x l v :=
    { held := ⟨hn.order, hn.answer⟩
      slot := getSlot_putSlot_self ..
      line := hx.line
      only := onlyOn_putSlot (s := (s.admitted n v rest).withDir d) honly _
      rank := hx.rank
      window := hx.window
      unlinked := hx.unlinked
      sent := hx.sent
      claim := fun m hk hm => by
        rw [hx.requester] at hm
        cases hm
        exact hclaim hk }
  refine drain_close_request (d := e) hclosing hwindow hx.uncounted ?_ ?_
  · rw [hwb]
    exact (putSlot_putSlot ((s.admitted n v rest).withDir e) u _ _).symm
  · have hclosed : ((((s.admitted n v rest).withDir d).putSlot u (some x)).withDir e).closed u x.requester v =
        (s.reqTaken rest).withDir e := by
      rw [hx.requester]
      refine (closed_putSlot ((s.admitted n v rest).withDir e) u (some x) (some n) v).trans ?_
      exact congrArg (fun q : State => q.withDir e) (admitted_closed hu)
    rw [hclosed]
    exact hrest

/-- The write-back of a request's copy under the hold it took, where it keeps the way in use. -/
theorem writeBack_of_request {x : Slot} {w : WayIx} {c c' : Content} (hwf : dirWf s.dir = true) (honly : s.onlyOn l u)
    (hfrozen : s.anyFrozen = false)
    (hx : x.Asks n l v) (hw : x.working = some ⟨w, c'⟩) (hk : x.kind.recall = false)
    (hc : c' ≠ .free ∧ c' ≠ .reserved) (hkeep : editContent s.purgingNodes c' = c') :
    let q := (s.putWay (setOf l) w (heldWay l c u)).putSlot u (some x)
    q.writeBack u = (s.putWay (setOf l) w ⟨coded (some (keyOf l)), coded ⟨c', none, false⟩⟩).putSlot u
      (some { x with working := none }) := by
  intro q
  have hslot : q.getSlot u = some x := getSlot_putSlot_self ..
  have hway : q.getWay (setOf l) w = heldWay l c u := getWay_putWay_self hwf (setOf l) w _
  have hset : x.setIx = some (setOf l) := by unfold Slot.setIx; rw [hx.line]
  have hfr : ¬(q.frozen (setOf l) = true ∨ x.kind = .victimRecall) := by
    rintro (h | h)
    · exact Bool.false_ne_true ((frozen_of_anyFrozen (putWay_anyFrozen hfrozen (setOf l) w (heldWay l c u))
        (setOf l)).symm.trans h)
    · rw [h] at hk
      cases hk
  have hfrees : ¬(c' = .free ∨ c' = .reserved ∨ (c' = .poisoned ∧
      ((q.getWay (setOf l) w).body.stored.release = true ∨ x.kind = .retireRecall))) := by
    rw [hway]
    rintro (h | h | ⟨-, h | h⟩)
    · exact hc.1 h
    · exact hc.2 h
    · cases h
    · rw [h] at hk
      cases hk
  have hnext : q.nextBehind x = none :=
    nextBehind_of_only (onlyOn_putSlot (s := s.putWay (setOf l) w (heldWay l c u)) honly _) hslot hx.line hx.rank
  have hwb := writeBack_of_held hslot hw hset hkeep (by dsimp only; rw [hway]; rfl)
  dsimp only at hwb
  rw [if_neg hfrees, if_neg hfr, hnext, hway] at hwb
  rw [hwb]
  have hput : q.putWay (setOf l) w ⟨coded (some (keyOf l)), coded ⟨c', none, false⟩⟩ =
      (s.putWay (setOf l) w ⟨coded (some (keyOf l)), coded ⟨c', none, false⟩⟩).putSlot u (some x) :=
    congrArg (fun p : State => p.putSlot u (some x)) (putWay_putWay hwf (setOf l) w _ _)
  show (q.putWay (setOf l) w ⟨coded (some (keyOf l)), coded ⟨c', none, false⟩⟩).putSlot u _ = _
  rw [hput]
  exact putSlot_putSlot _ u _ _

end

/-! ## Reads of owned and shared lines (O40, O41, O42) -/

section
variable {s : State} {k : ReqKind} {n : Node} {l : Line} {v : WinIx} {rest : List ReqMsg} {u : SlotIx}

theorem entered_of_read (hk : k = .readShared ∨ k = .readOwn ∨ k = .upgrade) :
    s.entered k n l v rest = s.admitted n v rest := by
  unfold State.entered
  rcases hk with rfl | rfl | rfl <;> rfl

/-- A tracked line's request, outside a DIRECT window. -/
theorem isDirect_decidesHeld (hd : (s.getWindow v).kind ≠ .direct) (w : WayIx) (c : Content) (x : Slot) (hx : x.window = some v) :
    (s.decidesHeld k n l v rest u w c).isDirect x = false := by
  unfold State.isDirect
  rw [hx]
  show (((s.entered k n l v rest).getWindow v).kind == .direct) = false
  rw [(entered_window ..).1]
  exact beq_eq_false_iff_ne.2 hd

/-! ### Each kind on its line's condition (Table 3-1) -/

section
variable {q : State} {t : SlotIx} {x : Slot} {o : Node} {m : NodeSet}

theorem decideNode_readShared (hd : q.isDirect x = false) (hk : x.kind = .readShared) :
    q.decideNode t x n l = q.decideReadShared t (x.working.map Working.content) n l := by
  unfold State.decideNode
  rw [hd, hk] <;> rfl

theorem decideNode_readOwn (hd : q.isDirect x = false) (hk : x.kind = .readOwn) :
    q.decideNode t x n l = q.decideReadOwn t (x.working.map Working.content) n l := by
  unfold State.decideNode
  rw [hd, hk] <;> rfl

theorem decideNode_upgrade (hd : q.isDirect x = false) (hk : x.kind = .upgrade) :
    q.decideNode t x n l = q.decideUpgrade t (x.working.map Working.content) n l := by
  unfold State.decideNode
  rw [hd, hk] <;> rfl

theorem decideNode_writeback (hd : q.isDirect x = false) (hk : x.kind = .writeback) :
    q.decideNode t x n l = q.decideWriteback t (x.working.map Working.content) n l := by
  unfold State.decideNode
  rw [hd, hk] <;> rfl

theorem decideNode_drop (hd : q.isDirect x = false) (hk : x.kind = .drop) :
    q.decideNode t x n l = q.decideDrop t (x.working.map Working.content) n l := by
  unfold State.decideNode
  rw [hd, hk] <;> rfl

theorem decideNode_direct (hd : q.isDirect x = true) : q.decideNode t x n l = q.decideDirect t x.kind n l := if_pos hd

theorem decideReadShared_owned (h : o ≠ n) : q.decideReadShared t (some (.owned o)) n l =
    (q.startRound t [.forward o l n .share false] (NodeSet.single o) .noWait (.forward .share), []) := if_neg h

theorem decideReadOwn_owned (h : o ≠ n) : q.decideReadOwn t (some (.owned o)) n l =
    (q.startRound t [.forward o l n .move false] (NodeSet.single o) .noWait (.forward .move), []) := if_neg h

theorem decideUpgrade_owned (h : o ≠ n) : q.decideUpgrade t (some (.owned o)) n l = q.convert t (some (.owned o)) n l := if_neg h

theorem decideReadShared_own : q.decideReadShared t (some (.owned n)) n l = q.refuse t .violation := if_pos rfl

theorem decideReadOwn_own : q.decideReadOwn t (some (.owned n)) n l = q.refuse t .violation := if_pos rfl

theorem decideUpgrade_own : q.decideUpgrade t (some (.owned n)) n l = q.refuse t .violation := if_pos rfl

theorem decideReadShared_shared (h : q.memLive = true) :
    q.decideReadShared t (some (.shared m)) n l = (q.sendFetch t l n, []) := if_pos h

theorem decideReadOwn_shared (h : q.memLive = true) : q.decideReadOwn t (some (.shared m)) n l =
    (q.startRound t (revokes l (NodeSet.remove m n) false ++ [.fetch l n false]) (NodeSet.remove m n) .fetchSent .revoke, []) :=
  if_pos h

theorem decideUpgrade_notSharer (h : NodeSet.has m n = false) :
    q.decideUpgrade t (some (.shared m)) n l = q.convert t (some (.shared m)) n l :=
  if_neg fun h' => Bool.false_ne_true (h.symm.trans h')

theorem decideUpgrade_several (h : NodeSet.has m n = true) (hm : NodeSet.remove m n ≠ 0#8) :
    q.decideUpgrade t (some (.shared m)) n l =
      (q.startRound t (revokes l (NodeSet.remove m n) false) (NodeSet.remove m n) .noWait .revoke, []) :=
  (if_pos h).trans (if_neg hm)

theorem decideUpgrade_only (h : NodeSet.has m n = true) (hm : NodeSet.remove m n = 0#8) :
    q.decideUpgrade t (some (.shared m)) n l = q.nextStep t := (if_pos h).trans (if_pos hm)

end

/-- A round started at a decision, with the way held, ends the event. -/
theorem drain_round {w : WayIx} {c : Content} {q : State} {x : Slot} {os : List Order} {m : NodeSet} {mw : MemWait} {o : Outstanding}
    (h : s.Arrives k n l v rest) (hx : x.rebuild = none) (hp : x.pending = none)
    (hq : q = ((s.admitted n v rest).putWay (setOf l) w (heldWay l c u)).putSlot u (some x))
    (hroom : s.orderQ.length + os.length ≤ 64) :
    drain 1 (q.startRound u os m mw o) [.settle] = some
      { ((s.admitted n v rest).putWay (setOf l) w (heldWay l c u)).putSlot u (some { x with
          phase := .awaitReplies, awaited := m, memWait := mw, outstanding := o
          timer := some s.limits.orderTimeout.toNat
          retriesLeft := s.limits.retryLimit.toNat }) with
        orderQ := s.orderQ ++ os } := by
  have hn : q.NoneHeld := by
    rw [hq]
    exact ⟨h.quiet.noHeldOrder, h.quiet.noHeldAnswer⟩
  have hslot : q.getSlot u = some x := by
    rw [hq]
    exact getSlot_putSlot_self ..
  have hround := startRound_of_room hn hslot hp hx (os := os) (by rw [hq]; exact hroom) m mw o
  rw [hround, hq, putSlot_putSlot]
  refine drain_settle (Quiet_settled ?_) 0
  exact ((h.quiet.admitted n v rest).putWay (setOf l) w (heldWay l c u)).slotted rfl hx

theorem keeps_owned {p : NodeSet} {o : Node} (h : NodeSet.has p o = false) : editContent p (.owned o) = .owned o := by
  show (if NodeSet.has p o = true then Content.poisoned else Content.owned o) = _
  rw [h]
  rfl

end

theorem has_single (m n : Node) : NodeSet.has (NodeSet.single m) n = decide (m = n) := by
  revert m n
  decide

theorem has_add (m : NodeSet) (k n : Node) : NodeSet.has (NodeSet.add m k) n = (NodeSet.has m n || decide (k = n)) := by
  rw [← has_single]
  exact BitVec.getLsbD_or

/-- A set built by a test names the nodes that pass it. -/
theorem has_ofTest (p : Node → Bool) (n : Node) : NodeSet.has (NodeSet.ofTest p) n = p n := by
  have hfold : ∀ (ns : List Node) (m : NodeSet),
      NodeSet.has (ns.foldl (fun m n => if p n then NodeSet.add m n else m) m) n = (NodeSet.has m n || (ns.contains n && p n)) := by
    intro ns
    induction ns with
    | nil => exact fun m => (Bool.or_false _).symm
    | cons k ns ih =>
      intro m
      rw [List.foldl_cons, ih, List.contains_cons]
      by_cases hk : n = k
      · subst hk
        cases hp : p n <;> simp [has_add]
      · have hne : ¬k = n := fun h => hk h.symm
        have hbeq : (n == k) = false := beq_eq_false_iff_ne.2 hk
        rw [hbeq]
        cases hp : p k <;> simp [has_add, hne]
  have h := hfold (List.finRange 8) 0#8
  have hmem : (List.finRange 8).contains n = true := List.contains_iff_mem.2 (List.mem_finRange n)
  have hzero : NodeSet.has 0#8 n = false := BitVec.getLsbD_zero
  rw [hmem, hzero, Bool.true_and, Bool.false_or] at h
  exact h

theorem has_purgingNodes (s : State) (n : Node) : NodeSet.has s.purgingNodes n = (s.nodeState n == .purging) :=
  has_ofTest _ n

section
variable {s : State} {k : ReqKind} {n : Node} {l : Line} {v : WinIx} {rest : List ReqMsg} {u : SlotIx}

theorem decidesHeld_of_read (hk : k = .readShared ∨ k = .readOwn ∨ k = .upgrade) (w : WayIx) (c : Content) :
    s.decidesHeld k n l v rest u w c = ((s.admitted n v rest).putWay (setOf l) w (heldWay l c u)).putSlot u
      (some ((requestSlot k n l v 0).taken w c)) := by
  unfold State.decidesHeld
  rw [entered_of_read hk]

/-- The record of an UPGRADE converted. -/
def Slot.asReadOwn (x : Slot) : Slot := { x with converted := true }

theorem convert_decidesHeld (w : WayIx) (c : Content) (co : Option Content) :
    (s.decidesHeld k n l v rest u w c).convert u co n l =
      (((s.entered k n l v rest).putWay (setOf l) w (heldWay l c u)).putSlot u
        (some ((requestSlot k n l v 0).taken w c).asReadOwn)).decideReadOwn u co n l := by
  unfold State.convert
  rw [modSlot_of_slot (s := s.decidesHeld k n l v rest u w c) (getSlot_putSlot_self ..)]
  exact congrArg (fun q : State => q.decideReadOwn u co n l) (putSlot_putSlot ..)

end

/-- Settles O40: the request takes the way up as it stands and forwards to its owner. -/
theorem ownedLineForwards : Obligations.OwnedLineForwards := by
  intro s k n o l v rest u w h hd hline hfree ht hne hpurging hroom hk mode
  have hkeep : editContent s.purgingNodes (.owned o) = .owned o :=
    keeps_owned ((has_purgingNodes s o).trans (beq_eq_false_iff_ne.2 hpurging))
  have hdirect := isDirect_decidesHeld (k := k) (n := n) (l := l) (rest := rest) (u := u) hd w (.owned o)
    ((requestSlot k n l v 0).taken w (.owned o)) rfl
  have hheld := decidesHeld_of_read (s := s) (n := n) (l := l) (v := v) (rest := rest) (u := u) hk w (.owned o)
  rcases hk with rfl | rfl | rfl
  · exact event_tracked h hd hline hfree ht nofun hkeep (j := 1) (by decide)
      ((decideNode_readShared hdirect rfl).trans (decideReadShared_owned hne)) (drain_round h rfl rfl hheld hroom)
  · exact event_tracked h hd hline hfree ht nofun hkeep (j := 1) (by decide)
      ((decideNode_readOwn hdirect rfl).trans (decideReadOwn_owned hne)) (drain_round h rfl rfl hheld hroom)
  · exact event_tracked h hd hline hfree ht nofun hkeep (j := 1) (by decide)
      ((decideNode_upgrade hdirect rfl).trans ((decideUpgrade_owned hne).trans
        ((convert_decidesHeld w _ _).trans (decideReadOwn_owned hne)))) (drain_round h rfl rfl rfl hroom)

theorem toList_zero : NodeSet.toList 0#8 = [] := by decide

/-- Settles O41: the request takes the way up as it stands and sends its round. -/
theorem sharedLineReads : Obligations.SharedLineReads := by
  intro s k n m l v rest u w h hd hline hfree ht hkeep hmem hk others orders hroom
  have hlive : (s.decidesHeld k n l v rest u w (.shared m)).memLive = true := by
    show ((s.entered k n l v rest).mem == .live) = true
    rw [entered_eq]
    exact beq_iff_eq.2 hmem
  have hdirect := isDirect_decidesHeld (k := k) (n := n) (l := l) (rest := rest) (u := u) hd w (.shared m)
    ((requestSlot k n l v 0).taken w (.shared m)) rfl
  have hread : k = .readShared ∨ k = .readOwn ∨ k = .upgrade := hk.imp_right fun hk => hk.imp_right And.left
  have hheld := decidesHeld_of_read (s := s) (n := n) (l := l) (v := v) (rest := rest) (u := u) hread w (.shared m)
  rcases hk with rfl | rfl | ⟨rfl, hno⟩
  · have horders : orders = [.fetch l n false] := by simp [orders, others, toList_zero]
    rw [horders] at hroom ⊢
    exact event_tracked h hd hline hfree ht nofun hkeep.2.2 (j := 1) (by decide)
      ((decideNode_readShared hdirect rfl).trans (decideReadShared_shared hlive)) (drain_round h rfl rfl hheld hroom)
  · exact event_tracked h hd hline hfree ht nofun hkeep.2.2 (j := 1) (by decide)
      ((decideNode_readOwn hdirect rfl).trans (decideReadOwn_shared hlive)) (drain_round h rfl rfl hheld hroom)
  · exact event_tracked h hd hline hfree ht nofun hkeep.2.2 (j := 1) (by decide)
      ((decideNode_upgrade hdirect rfl).trans ((decideUpgrade_notSharer hno).trans
        ((convert_decidesHeld w _ _).trans (decideReadOwn_shared hlive)))) (drain_round h rfl rfl rfl hroom)

/-- The next step of a request with nothing awaited is its GRANT (R50). -/
theorem nextStep_of_request {s : State} {t : SlotIx} {x : Slot} {n : Node} {l : Line} (hn : s.NoneHeld)
    (hx : s.getSlot t = some x) (hp : x.pending = none) (ha : x.awaited = 0#8) (hm : x.memWait = .noWait)
    (hk : x.kind.recall = false) (hq : x.requester = some n) (hl : x.line = some l) :
    s.nextStep t = (s.putSlot t (some { x with timer := none })).sendAnswer t
      (.grant n l x.kind.permission x.grantSource (s.isDirect x) false) := by
  have hcond : ¬(x.awaited ≠ 0#8 ∨ x.memWait ≠ .noWait ∨ x.answerPending = true) := by
    rintro (h | h | h)
    · exact h ha
    · exact h hm
    · unfold Slot.answerPending at h
      rw [hp] at h
      cases h
  have hfalse : ¬x.kind.recall = true := fun h => Bool.false_ne_true (hk.symm.trans h)
  unfold State.nextStep
  rw [hx]
  dsimp only
  rw [if_neg hcond, if_neg hfalse, setAside_of_clear hn hx hp, modSlot_of_slot hx, hq, hl]

/-- Settles O42: the other sharers are revoked, or the GRANT goes at once. -/
theorem sharerUpgrades : Obligations.SharerUpgrades := by
  intro s n m l v rest u w h hd hline hfree ht hkeep hhas x others held
  have hdirect := isDirect_decidesHeld (k := .upgrade) (n := n) (l := l) (rest := rest) (u := u) hd w (.shared m)
    ((requestSlot .upgrade n l v 0).taken w (.shared m)) rfl
  have hslot : (s.decidesHeld .upgrade n l v rest u w (.shared m)).getSlot u =
    some ((requestSlot .upgrade n l v 0).taken w (.shared m)) := getSlot_putSlot_self ..
  refine ⟨fun hothers hroom => ?_, fun hothers hroom => ?_⟩
  · exact event_tracked h hd hline hfree ht nofun hkeep.2.2 (j := 1) (by decide)
      ((decideNode_upgrade hdirect rfl).trans (decideUpgrade_several hhas hothers))
      (drain_round h rfl rfl rfl (by simpa [revokes] using hroom))
  · have hheld : (s.decidesHeld .upgrade n l v rest u w (.shared m)).NoneHeld := ⟨h.quiet.noHeldOrder, h.quiet.noHeldAnswer⟩
    have hcanon := h.canonical
    have hself : (s.decidesHeld .upgrade n l v rest u w (.shared m)).putSlot u
        (some ((requestSlot .upgrade n l v 0).taken w (.shared m))) = s.decidesHeld .upgrade n l v rest u w (.shared m) :=
      putSlot_self hslot
    have hnext := nextStep_of_request (n := n) (l := l) hheld hslot rfl rfl rfl rfl rfl rfl
    have hgrant := sendAnswer_grant (i := setOf l) hheld hslot rfl hroom rfl rfl n l .owned .noSource false
    have hset := getSet_putWay_self (s := s.admitted n v rest) hcanon (setOf l) w (heldWay l (.shared m) u)
    have horder : ((s.decidesHeld .upgrade n l v rest u w (.shared m)).getSet (setOf l)).order = (s.getSet (setOf l)).order :=
      (congrArg SetRec.order hset).trans rfl
    have hput : ∀ y, (s.decidesHeld .upgrade n l v rest u w (.shared m)).putSlot u y = held.putSlot u y :=
      putSlot_putSlot held u _
    have hsent := (hnext.trans (congrArg (fun q : State => q.sendAnswer u _) hself)).trans
      ((congrArg (fun b => State.sendAnswer _ u (.grant n l .owned .noSource b false)) hdirect).trans hgrant)
    rw [horder, hput] at hsent
    refine event_tracked h hd hline hfree ht nofun hkeep.2.2 (j := 1) (by decide)
      ((decideNode_upgrade hdirect rfl).trans ((decideUpgrade_only hhas hothers).trans hsent))
      (drain_settle (Quiet_settled ?_) 0)
    refine ((((h.quiet.admitted n v rest).putWay (setOf l) w (heldWay l (.shared m) u)).putPlain u rfl).putSet (setOf l)
      ?_).same
    exact getSet_frozen (putWay_anyFrozen h.quiet.noFrozen (setOf l) w (heldWay l (.shared m) u)) (setOf l)

end Sys2Proof.Machine

/-! # Requests answered at their decision -/

namespace Sys2Proof.Machine

set_option Elab.async false

/-! ## A request just admitted, with some directory and some record of its own -/

/-- A part in which a request has just been admitted to a slot, with a directory and the record it has come to. -/
def State.asking (q : State) (n : Node) (v : WinIx) (rest : List ReqMsg) (u : SlotIx) (d : List (SetIx × SetRec)) (x : Slot) :
    State := ((q.admitted n v rest).withDir d).putSlot u (some x)

/-- What a request admitted to a free slot on a line of its own needs of the part it closes in. -/
structure State.Opens (q : State) (l : Line) (v : WinIx) (u : SlotIx) : Prop where
  quiet : q.Quiet
  canonical : dirWf q.dir = true
  free : q.getSlot u = none
  only : q.onlyOn l u
  windowLive : (q.getWindow v).state = .live

section
variable {s q q' : State} {k : ReqKind} {n : Node} {l : Line} {v : WinIx} {rest : List ReqMsg} {u : SlotIx} {x : Slot}
  {d e : List (SetIx × SetRec)}

theorem State.Arrives.opens (h : s.Arrives k n l v rest) (hline : s.onLine l = []) (hfree : s.lowestFree = some u) :
    s.Opens l v u := ⟨h.quiet, h.canonical, lowestFree_getSlot hfree, onlyOn_of_none hline u, h.windowLive⟩

/-- Fields that neither quiet nor the close of a request reads. -/
theorem State.Opens.same (h : q.Opens l v u) (hslots : q'.slots = q.slots := by rfl) (hdir : q'.dir = q.dir := by rfl)
    (hreset : q'.resetN = q.resetN := by rfl) (hpstep : q'.purgeStep = q.purgeStep := by rfl)
    (hmstep : q'.maintStep = q.maintStep := by rfl) (horder : q'.orderHeld = q.orderHeld := by rfl)
    (hanswer : q'.answerHeld = q.answerHeld := by rfl) (hmaint : q'.maint = q.maint := by rfl)
    (hjobs : q'.purgeJobs = q.purgeJobs := by rfl) (hwin : q'.windows = q.windows := by rfl) : q'.Opens l v u where
  quiet := h.quiet.same hslots hdir hreset hpstep hmstep horder hanswer hmaint hjobs
  canonical := hdir ▸ h.canonical
  free := by unfold State.getSlot; rw [hslots]; exact h.free
  only := fun t y hy hl => h.only t y (by unfold State.getSlot at hy ⊢; rwa [hslots] at hy) hl
  windowLive := by unfold State.getWindow; rw [hwin]; exact h.windowLive

theorem asking_getSlot : (q.asking n v rest u d x).getSlot u = some x := getSlot_putSlot_self ..

theorem asking_noneHeld (h : q.NoneHeld) : (q.asking n v rest u d x).NoneHeld := ⟨h.order, h.answer⟩

theorem asking_nodeState (m : Node) : (q.asking n v rest u d x).nodeState m = q.nodeState m := admitted_nodeState q n m v rest

theorem asking_putSlot (y : Slot) : (q.asking n v rest u d x).putSlot u (some y) = q.asking n v rest u d y :=
  putSlot_putSlot ((q.admitted n v rest).withDir d) u _ _

theorem asking_modNode (f : NodeRec → NodeRec)
    (hf : ∀ r, f { r with credits := r.credits + 1 } = { f r with credits := (f r).credits + 1 }) :
    (q.asking n v rest u d x).modNode n f = (q.modNode n f).asking n v rest u d x :=
  congrArg (fun p : State => (p.withDir d).putSlot u (some x)) (admitted_modNode (s := q) (n := n) (v := v) (rest := rest) f hf)

theorem chargeViolation_asking (a : Option Line) (b : Option SlotIx) :
    (q.asking n v rest u d x).chargeViolation n a b = (q.chargeViolation n a b).asking n v rest u d x := by
  rw [chargeViolation_eq, chargeViolation_eq, asking_modNode (fun r => { r with violations := satInc r.violations }) fun _ => rfl]
  rfl

theorem countStale_asking : (q.asking n v rest u d x).countStale n = (q.countStale n).asking n v rest u d x :=
  asking_modNode _ fun _ => rfl

/-- A closing answer of such a request, with room. -/
theorem sendAnswer_asking (hn : q.NoneHeld) (hp : x.pending = none) (hroom : q.answerQ.length < 64) {a : Answer}
    (ha : a.closing = true) : (q.asking n v rest u d x).sendAnswer u a =
      (({ q with answerQ := q.answerQ ++ [a] }).asking n v rest u d x, [.close u]) :=
  sendAnswer_closing (asking_noneHeld hn) asking_getSlot hp hroom ha

theorem refuse_asking {r : Reason} (hx : x.Asks n l v) (hlive : q.nodeState n = .live)
    (hcount : (q.asking n v rest u d x).countRefusal r n l u = q'.asking n v rest u d x) (hn : q'.NoneHeld)
    (hroom : q'.answerQ.length < 64) : (q.asking n v rest u d x).refuse u r =
      (({ q' with answerQ := q'.answerQ ++ [Answer.refuse n l (.request x.kind.toReqKind) r] }).asking n v rest u d x, [.close u]) :=
  refuse_of_room asking_getSlot hx.requester hx.line
    (fun h => nomatch (show NodeState.live = .purging from (hlive.symm.trans (asking_nodeState n).symm).trans h)) hcount
    (asking_noneHeld hn) asking_getSlot hx.sent hroom

/-- The close of such a request. -/
theorem drain_asking (h : q.Opens l v u) (hx : x.Asks n l v) (hclaim : x.kind = .writeback → q.noticeFor l n = none)
    (hwb : (q.asking n v rest u d x).writeBack u = q.asking n v rest u e { x with working := none })
    (hquiet : ((q.reqTaken rest).withDir e).Quiet) :
    drain 4 (q.asking n v rest u d x) [.close u, .settle] = some ((q.reqTaken rest).withDir e) :=
  drain_close_admitted (k := 1) h.quiet.noneHeld h.free h.only h.windowLive hx hclaim hwb (drain_settle (Quiet_settled hquiet) 0)

theorem writeBack_asking_none (hw : x.working = none) :
    (q.asking n v rest u d x).writeBack u = q.asking n v rest u d { x with working := none } := by
  rw [writeBack_of_none asking_getSlot hw]
  obtain ⟨⟩ := x
  dsimp only at hw
  subst hw
  rfl

/-- The close of a request that holds no way. -/
theorem drain_asking_unheld (h : q.Opens l v u) (hx : x.Asks n l v) (hclaim : x.kind = .writeback → q.noticeFor l n = none)
    (hw : x.working = none) : drain 4 (q.asking n v rest u q.dir x) [.close u, .settle] = some (q.reqTaken rest) :=
  drain_asking h hx hclaim (writeBack_asking_none hw) h.quiet.same

/-- The close of a request that has freed its way. -/
theorem drain_asking_freed (h : q.Opens l v u) (hx : x.Asks n l v) (hclaim : x.kind = .writeback → q.noticeFor l n = none)
    (hw : x.working = none) (w : WayIx) : drain 4 (q.asking n v rest u (q.makeFree (setOf l) w).dir x) [.close u, .settle] =
      some ((q.makeFree (setOf l) w).reqTaken rest) :=
  drain_asking h hx hclaim (writeBack_asking_none hw) (makeFree_quiet h.quiet (setOf l) w).same

/-- The close of a request that writes its copy back to the way it holds. -/
theorem drain_asking_held {w : WayIx} {c c' : Content} (h : q.Opens l v u) (hx : x.Asks n l v)
    (hclaim : x.kind = .writeback → q.noticeFor l n = none) (hw : x.working = some ⟨w, c'⟩) (hk : x.kind.recall = false)
    (hc : c' ≠ .free ∧ c' ≠ .reserved) (hkeep : editContent q.purgingNodes c' = c') :
    drain 4 (q.asking n v rest u (q.putWay (setOf l) w (heldWay l c u)).dir x) [.close u, .settle] =
      some ((q.putWay (setOf l) w ⟨coded (some (keyOf l)), coded ⟨c', none, false⟩⟩).reqTaken rest) := by
  have hpurging : (q.admitted n v rest).purgingNodes = q.purgingNodes :=
    purgingNodes_congr fun m => admitted_nodeState q n m v rest
  exact drain_asking h hx hclaim
    (writeBack_of_request (s := q.admitted n v rest) h.canonical h.only h.quiet.noFrozen hx hw hk hc (by rw [hpurging]; exact hkeep))
    (h.quiet.putWay (setOf l) w _).same

/-- A way written back as it was. -/
theorem putWay_of_tracked {w : WayIx} {c : Content} (hcanon : dirWf q.dir = true) (ht : q.trackedAs l w c) :
    q.putWay (setOf l) w ⟨coded (some (keyOf l)), coded ⟨c, none, false⟩⟩ = q := putWay_self hcanon (setOf l) ht.2.1

end

/-! ## Requests refused at their decision (O45) -/

section
variable {s : State} {k : ReqKind} {n : Node} {l : Line} {v : WinIx} {rest : List ReqMsg} {u : SlotIx}

theorem toReqKind_requestSlot (k : ReqKind) (n : Node) (l : Line) (v : WinIx) (r : Nat) :
    (requestSlot k n l v r).kind.toReqKind = k := by cases k <;> rfl

theorem entered_of_notWriteback (hk : k ≠ .writeback) : s.entered k n l v rest = s.admitted n v rest := if_neg hk

theorem decidesHeld_asking (hk : k ≠ .writeback) (w : WayIx) (c : Content) : s.decidesHeld k n l v rest u w c =
    s.asking n v rest u (s.putWay (setOf l) w (heldWay l c u)).dir ((requestSlot k n l v 0).taken w c) := by
  unfold State.decidesHeld
  rw [entered_of_notWriteback hk]
  rfl

theorem decidesUnheld_asking (hk : k ≠ .writeback) :
    s.decidesUnheld k n l v rest u = s.asking n v rest u s.dir (requestSlot k n l v 0).begun := by
  unfold State.decidesUnheld
  rw [entered_of_notWriteback hk]
  rfl

theorem notWriteback_of_read (hk : k = .readShared ∨ k = .readOwn ∨ k = .upgrade) : k ≠ .writeback := by
  rcases hk with rfl | rfl | rfl <;> nofun

/-- An untracked line's request, outside a DIRECT window. -/
theorem isDirect_decidesUnheld (hd : (s.getWindow v).kind ≠ .direct) (x : Slot) (hx : x.window = some v) :
    (s.decidesUnheld k n l v rest u).isDirect x = false := by
  unfold State.isDirect
  rw [hx]
  show (((s.entered k n l v rest).getWindow v).kind == .direct) = false
  rw [(entered_window ..).1]
  exact beq_eq_false_iff_ne.2 hd

/-- Every kind of read refuses a POISONED line. -/
theorem decideNode_poisoned {q : State} {x : Slot} (hd : q.isDirect x = false)
    (hk : x.kind = .readShared ∨ x.kind = .readOwn ∨ x.kind = .upgrade) (hw : x.working.map Working.content = some .poisoned) :
    q.decideNode u x n l = q.refuse u .poisoned := by
  rcases hk with hk | hk | hk
  · rw [decideNode_readShared hd hk, hw]; rfl
  · rw [decideNode_readOwn hd hk, hw]; rfl
  · rw [decideNode_upgrade hd hk, hw]; rfl

/-- Every kind of read refuses the owner's own line. -/
theorem decideNode_own {q : State} {x : Slot} (hd : q.isDirect x = false)
    (hk : x.kind = .readShared ∨ x.kind = .readOwn ∨ x.kind = .upgrade) (hw : x.working.map Working.content = some (.owned n)) :
    q.decideNode u x n l = q.refuse u .violation := by
  rcases hk with hk | hk | hk
  · rw [decideNode_readShared hd hk, hw, decideReadShared_own]
  · rw [decideNode_readOwn hd hk, hw, decideReadOwn_own]
  · rw [decideNode_upgrade hd hk, hw, decideUpgrade_own]

theorem kind_of_read (hk : k = .readShared ∨ k = .readOwn ∨ k = .upgrade) :
    k.toKind = .readShared ∨ k.toKind = .readOwn ∨ k.toKind = .upgrade := by
  rcases hk with rfl | rfl | rfl
  · exact .inl rfl
  · exact .inr (.inl rfl)
  · exact .inr (.inr rfl)

theorem toKind_ne_writeback (hk : k ≠ .writeback) : k.toKind ≠ .writeback := by
  cases k with
  | writeback => exact absurd rfl hk
  | _ => nofun

/-- The record with which a read request on an untracked line goes on: an UPGRADE is converted (R61). -/
def readSlot (k : ReqKind) (n : Node) (l : Line) (v : WinIx) : Slot :=
  { (requestSlot k n l v 0).begun with converted := decide (k = .upgrade) }

theorem readSlot_asks (k : ReqKind) (n : Node) (l : Line) (v : WinIx) : (readSlot k n l v).Asks n l v :=
  ⟨rfl, rfl, rfl, rfl, rfl, rfl, rfl⟩

/-- Every kind of read goes to memory for an untracked line. -/
theorem decideNode_untracked (hd : (s.getWindow v).kind ≠ .direct) (hk : k = .readShared ∨ k = .readOwn ∨ k = .upgrade) :
    (s.decidesUnheld k n l v rest u).decideNode u (requestSlot k n l v 0).begun n l =
      (s.asking n v rest u s.dir (readSlot k n l v)).untrackedRead u n l := by
  have hdirect := isDirect_decidesUnheld (k := k) (n := n) (l := l) (rest := rest) (u := u) hd (requestSlot k n l v 0).begun rfl
  have hasking := decidesUnheld_asking (s := s) (n := n) (l := l) (v := v) (rest := rest) (u := u) (notWriteback_of_read hk)
  rw [hasking] at hdirect ⊢
  rcases hk with rfl | rfl | rfl
  · exact decideNode_readShared hdirect rfl
  · exact decideNode_readOwn hdirect rfl
  · refine (decideNode_upgrade hdirect rfl).trans ?_
    show (State.modSlot _ u (fun y => { y with converted := true })).decideReadOwn u none n l = _
    rw [modSlot_of_slot asking_getSlot, asking_putSlot]
    rfl

end

/-- A violation charged to a request's sender, with the line and the slot. -/
def State.charged (s : State) (n : Node) (l : Line) (u : SlotIx) : State :=
  { s.modNode n (fun r => { r with violations := satInc r.violations }) with
    flags := s.flags ||| 0x0200#16
    capture := captured s.capture .violation ⟨some l, some (.node n), none, none, some u⟩ }

theorem chargeViolation_charged (s : State) (n : Node) (l : Line) (u : SlotIx) :
    s.chargeViolation n (some l) (some u) = s.charged n l u := chargeViolation_eq ..

theorem refuse_violation_asking {q : State} {n : Node} {l : Line} {v : WinIx} {rest : List ReqMsg} {u : SlotIx} {x : Slot}
    {d : List (SetIx × SetRec)} (hx : x.Asks n l v) (hlive : q.nodeState n = .live) (hn : q.NoneHeld) (hroom : q.answerQ.length < 64) :
    (q.asking n v rest u d x).refuse u .violation =
      (({ q.charged n l u with answerQ := q.answerQ ++ [Answer.refuse n l (.request x.kind.toReqKind) .violation] }).asking
        n v rest u d x, [.close u]) :=
  refuse_asking hx hlive ((chargeViolation_asking ..).trans (by rw [chargeViolation_charged])) ⟨hn.order, hn.answer⟩ hroom

/-- The states of the nodes are as before a violation is charged. -/
theorem charged_purgingNodes (s : State) (n : Node) (l : Line) (u : SlotIx) : (s.charged n l u).purgingNodes = s.purgingNodes :=
  purgingNodes_congr fun m => by
    have hm := getNode_modNode s n m (fun r => { r with violations := satInc r.violations })
    refine (congrArg NodeRec.state hm).trans ?_
    split
    · rename_i heq
      subst heq
      rfl
    · rfl

/-- Settles O45: each refusal leaves the request to close with the way as it was taken up. -/
theorem readsRefusedAtDecision : Obligations.ReadsRefusedAtDecision := by
  intro s k n l v rest u h hd hline hfree hroom hk refused
  have hopens := h.opens hline hfree
  have hwb := notWriteback_of_read hk
  have hkind := toReqKind_requestSlot k n l v 0
  have hnever := toKind_ne_writeback hwb
  have hrecall := requestSlot_recall k n l v 0
  refine ⟨fun w ht => ?_, fun w ht => ?_, fun ht hmem => ?_⟩
  · have hrefuse := refuse_asking (d := (s.putWay (setOf l) w (heldWay l .poisoned u)).dir) (rest := rest) (u := u) (r := .poisoned)
      (taken_asks k n l v w .poisoned) h.live rfl h.quiet.noneHeld hroom
    have hclose := drain_asking_held (rest := rest) (q := { s with answerQ := s.answerQ ++ [.refuse n l (.request k) .poisoned] })
      (c := .poisoned) hopens.same (taken_asks k n l v w .poisoned) (fun hk => absurd hk hnever) rfl hrecall ⟨nofun, nofun⟩ rfl
    rw [show ((requestSlot k n l v 0).taken w .poisoned).kind.toReqKind = k from hkind] at hrefuse
    rw [putWay_of_tracked (q := { s with answerQ := s.answerQ ++ [.refuse n l (.request k) .poisoned] }) h.canonical ht] at hclose
    have hdirect := isDirect_decidesHeld (k := k) (n := n) (l := l) (rest := rest) (u := u) hd w .poisoned
      ((requestSlot k n l v 0).taken w .poisoned) rfl
    rw [← decidesHeld_asking hwb] at hrefuse
    exact event_tracked h hd hline hfree ht nofun rfl (j := 4) (by decide)
      ((decideNode_poisoned hdirect (kind_of_read hk) rfl).trans hrefuse) hclose
  · have hkeep : editContent s.purgingNodes (.owned n) = .owned n :=
      keeps_owned ((has_purgingNodes s n).trans (by rw [h.live]; rfl))
    have hrefuse := refuse_violation_asking (d := (s.putWay (setOf l) w (heldWay l (.owned n) u)).dir) (rest := rest) (u := u)
      (taken_asks k n l v w (.owned n)) h.live h.quiet.noneHeld hroom
    have hclose := drain_asking_held (rest := rest) (c := .owned n)
      (q := { s.charged n l u with answerQ := s.answerQ ++ [.refuse n l (.request k) .violation] })
      hopens.same (taken_asks k n l v w (.owned n)) (fun hk => absurd hk hnever) rfl hrecall ⟨nofun, nofun⟩
      ((congrArg (fun p => editContent p (.owned n)) (charged_purgingNodes s n l u)).trans hkeep)
    rw [show ((requestSlot k n l v 0).taken w (.owned n)).kind.toReqKind = k from hkind, ← decidesHeld_asking hwb] at hrefuse
    rw [putWay_of_tracked (q := { s.charged n l u with answerQ := s.answerQ ++ [.refuse n l (.request k) .violation] })
      h.canonical ht] at hclose
    have hdirect := isDirect_decidesHeld (k := k) (n := n) (l := l) (rest := rest) (u := u) hd w (.owned n)
      ((requestSlot k n l v 0).taken w (.owned n)) rfl
    exact event_tracked h hd hline hfree ht nofun hkeep (j := 4) (by decide)
      ((decideNode_own hdirect (kind_of_read hk) rfl).trans hrefuse) hclose
  · have hmem' : ¬(s.asking n v rest u s.dir (readSlot k n l v)).memLive = true := fun hm => hmem (beq_iff_eq.1 hm)
    have hrefuse := refuse_asking (d := s.dir) (rest := rest) (u := u) (r := .memoryFault) (readSlot_asks k n l v) h.live rfl
      h.quiet.noneHeld hroom
    have hclose := drain_asking_unheld (rest := rest) (q := { s with answerQ := s.answerQ ++ [.refuse n l (.request k) .memoryFault] })
      hopens.same (readSlot_asks k n l v) (fun hk => absurd hk hnever) rfl
    rw [show (readSlot k n l v).kind.toReqKind = k from hkind] at hrefuse
    exact event_untracked h hd hline hfree ht (j := 4) (by decide)
      ((decideNode_untracked hd hk).trans ((if_neg hmem').trans hrefuse)) hclose

/-! ## Requests in a DIRECT window (O46) -/

section
variable {q : State} {k : ReqKind} {n : Node} {l : Line} {v : WinIx} {rest : List ReqMsg} {u : SlotIx} {x : Slot}
  {d : List (SetIx × SetRec)}

/-- A round of orders of such a request, with room, ends the event. -/
theorem drain_asking_round {os : List Order} {m : NodeSet} {mw : MemWait} {o : Outstanding} (h : q.Quiet)
    (hquiet : (q.withDir d).Quiet) (hp : x.pending = none) (hr : x.rebuild = none) (hroom : q.orderQ.length + os.length ≤ 64) :
    drain 1 ((q.asking n v rest u d x).startRound u os m mw o) [.settle] = some
      { q.asking n v rest u d { x with
          phase := .awaitReplies, awaited := m, memWait := mw, outstanding := o
          timer := some q.limits.orderTimeout.toNat
          retriesLeft := q.limits.retryLimit.toNat } with
        orderQ := q.orderQ ++ os } := by
  have hround := startRound_of_room (asking_noneHeld (n := n) (v := v) (rest := rest) (u := u) (d := d) (x := x) h.noneHeld)
    asking_getSlot hp hr hroom m mw o
  rw [hround, asking_putSlot]
  refine drain_settle (Quiet_settled ?_) 0
  exact hquiet.slotted rfl hr

/-- A WRITEBACK that waits for its store. -/
def Slot.consuming (x : Slot) (q : State) (n : Node) : Slot :=
  { x with phase := .awaitStore, awaited := 0#8, memWait := .consuming n, outstanding := .nothing, timer := some q.orderTimeout }

theorem enterConsuming_of_slot {s : State} {t : SlotIx} (hn : s.NoneHeld) (hx : s.getSlot t = some x) (hp : x.pending = none)
    (hl : x.line = some l) {b : Bool} (hb : s.takesNotice x l n = b) : s.enterConsuming t n =
      if b then ((s.putSlot t (some (x.consuming s n))).removeNotice l n).storeConsumed t
      else (s.putSlot t (some (x.consuming s n)), []) := by
  unfold State.enterConsuming
  rw [hx]
  dsimp only
  rw [hl]
  dsimp only
  rw [hb, setAside_of_clear hn hx hp, modSlot_of_slot hx]
  rfl

theorem takesNotice_of_none {s : State} (h : s.noticeFor l n = none) : s.takesNotice x l n = false := by
  unfold State.takesNotice
  rw [h]

/-- With no notice of a line and node, none is claimed. -/
theorem claimNotice_of_none (h : q.noticeFor l n = none) : q.claimNotice l n = q := by
  have hmap : q.notices.map (fun v => if v.isFor l n then { v with claimed := true } else v) = q.notices := by
    refine (List.map_congr_left fun w hw => ?_).trans (List.map_id _)
    exact if_neg (List.find?_eq_none.1 h w hw)
  unfold State.claimNotice State.modNotice
  rw [hmap]

theorem entered_of_noNotice (h : q.noticeFor l n = none) : q.entered k n l v rest = q.admitted n v rest := by
  unfold State.entered
  split
  · exact claimNotice_of_none h
  · rfl

/-- A WRITEBACK whose store has no notice waits for it. -/
theorem enterConsuming_asking (hn : q.NoneHeld) (hx : x.Asks n l v) (hno : q.noticeFor l n = none) :
    (q.asking n v rest u d x).enterConsuming u n = (q.asking n v rest u d (x.consuming q n), []) := by
  have hwait := enterConsuming_of_slot (asking_noneHeld (n := n) (v := v) (rest := rest) (u := u) (d := d) (x := x) hn)
    asking_getSlot hx.sent hx.line (takesNotice_of_none hno)
  rw [asking_putSlot] at hwait
  exact hwait

end

/-- A request in a DIRECT window decides by its kind alone. -/
theorem isDirect_asking {q : State} {n : Node} {v : WinIx} {rest : List ReqMsg} {u : SlotIx} {d : List (SetIx × SetRec)} {y x : Slot}
    (hd : (q.getWindow v).kind = .direct) (hx : x.window = some v) : (q.asking n v rest u d y).isDirect x = true := by
  unfold State.isDirect
  rw [hx]
  have hkind := (entered_window q .drop n 0#34 v rest).1
  exact beq_iff_eq.2 (hkind.trans hd)

/-- Settles O46: no way is taken, so each close leaves the directory as it was. -/
theorem directWindowRequests : Obligations.DirectWindowRequests := by
  intro s k n l v rest u h hd hline hfree
  have hopens := h.opens hline hfree
  have hx := begun_asks k n l v
  have hdirect := isDirect_asking (n := n) (rest := rest) (u := u) (d := s.dir) (y := (requestSlot k n l v 0).begun)
    (x := (requestSlot k n l v 0).begun) hd rfl
  refine ⟨fun hk hmem hroom => ?_, fun hk hno => ?_, fun hk hroom => ?_, fun hk hroom => ?_⟩
  · have hwb : k ≠ .writeback := by rcases hk with rfl | rfl <;> nofun
    have hlive : (s.asking n v rest u s.dir (requestSlot k n l v 0).begun).memLive = true := beq_iff_eq.2 hmem
    refine event_direct h hd hline hfree (j := 1) (by decide) (?_ : _ = ((s.asking n v rest u s.dir (requestSlot k n l v 0).begun).sendFetch u l n, []))
      (drain_asking_round (os := [.fetch l n false]) h.quiet h.quiet.same rfl rfl hroom)
    rw [decidesUnheld_asking hwb, decideNode_direct hdirect]
    rcases hk with rfl | rfl
    · exact if_pos hlive
    · exact if_pos hlive
  · subst hk
    refine event_direct h hd hline hfree (j := 1) (by decide)
      (?_ : _ = (s.asking n v rest u s.dir ((requestSlot .writeback n l v 0).begun.consuming s n), []))
      (drain_settle (Quiet_settled ?_) 0)
    swap
    · exact h.quiet.slotted rfl rfl
    unfold State.decidesUnheld
    rw [entered_of_noNotice hno]
    exact (decideNode_direct hdirect).trans (enterConsuming_asking h.quiet.noneHeld hx hno)
  · subst hk
    have hsend := sendAnswer_asking (n := n) (v := v) (rest := rest) (u := u) (d := s.dir) (x := (requestSlot .drop n l v 0).begun)
      h.quiet.noneHeld rfl hroom (a := .dropped n l false) rfl
    exact event_direct h hd hline hfree (j := 4) (by decide) ((decideNode_direct hdirect).trans hsend)
      (drain_asking_unheld (rest := rest) (q := { s with answerQ := s.answerQ ++ [.dropped n l false] }) hopens.same hx nofun rfl)
  · subst hk
    have hrefuse := refuse_violation_asking (rest := rest) (u := u) (d := s.dir) hx h.live h.quiet.noneHeld hroom
    exact event_direct h hd hline hfree (j := 4) (by decide) ((decideNode_direct hdirect).trans hrefuse)
      (drain_asking_unheld (rest := rest) (q := { s.charged n l u with
        answerQ := s.answerQ ++ [.refuse n l (.request .upgrade) .violation] }) hopens.same hx nofun rfl)

/-! ## DROP (O44) -/

section
variable {q : State} {k : ReqKind} {n : Node} {l : Line} {v : WinIx} {rest : List ReqMsg} {u : SlotIx} {x : Slot} {w : WayIx}
  {c c' : Content}

/-- A request frees the way it holds. -/
theorem freeHeld_asking (hcanon : dirWf q.dir = true) (hx : x.Asks n l v) (hw : x.working = some ⟨w, c'⟩) :
    (q.asking n v rest u (q.putWay (setOf l) w (heldWay l c u)).dir x).freeHeld u =
      q.asking n v rest u (q.makeFree (setOf l) w).dir { x with working := none } := by
  have hway : (q.asking n v rest u (q.putWay (setOf l) w (heldWay l c u)).dir x).getWay (setOf l) w = heldWay l c u :=
    getWay_putWay_self (s := q.admitted n v rest) hcanon (setOf l) w _
  have hset : x.setIx = some (setOf l) := by unfold Slot.setIx; rw [hx.line]
  have hview : ((q.asking n v rest u (q.putWay (setOf l) w (heldWay l c u)).dir x).bodyView (setOf l) w).isSome = true := by
    unfold State.bodyView
    rw [hway]
    rfl
  have hfree := freeHeld_of_held asking_getSlot hw hset hview
  have hmade := makeFree_putWay (s := q.admitted n v rest) hcanon (setOf l) w (heldWay l c u)
  refine hfree.trans ?_
  refine (congrArg (fun p : State => (p.putSlot u (some x)).putSlot u (some { x with working := none })) hmade).trans ?_
  exact putSlot_putSlot ((q.admitted n v rest).makeFree (setOf l) w) u _ _

theorem dropSharerOf_asking {d : List (SetIx × SetRec)} (hw : x.working = some ⟨w, c⟩) (m : Node) :
    (q.asking n v rest u d x).dropSharerOf u m = q.asking n v rest u d { x with working := some ⟨w, dropSharer m c⟩ } := by
  unfold State.dropSharerOf
  rw [modSlot_of_slot asking_getSlot, asking_putSlot, hw]
  rfl

end

/-- A SHARED record the purge edit keeps names no node taken out. -/
theorem sharers_of_keeps {p m : NodeSet} (h : editContent p (.shared m) = .shared m) : m &&& p = 0#8 := by
  by_contra hne
  have hedit : editContent p (.shared m) = if m &&& ~~~p = 0#8 then .free else .shared (m &&& ~~~p) := if_neg hne
  rw [hedit] at h
  split at h
  · cases h
  · have hm : m &&& ~~~p = m := Content.shared.inj h
    refine hne ?_
    calc m &&& p = m &&& ~~~p &&& p := by rw [hm]
      _ = 0#8 := by rw [BitVec.and_assoc, BitVec.and_comm (~~~p), BitVec.and_not_self]; exact BitVec.and_zero

theorem keeps_shared {p m : NodeSet} (h : m &&& p = 0#8) : editContent p (.shared m) = .shared m := if_pos h

theorem keeps_remove {p m : NodeSet} (h : editContent p (.shared m) = .shared m) (n : Node) :
    editContent p (.shared (NodeSet.remove m n)) = .shared (NodeSet.remove m n) := by
  refine keeps_shared ?_
  unfold NodeSet.remove
  rw [BitVec.and_assoc, BitVec.and_comm (~~~_), ← BitVec.and_assoc, sharers_of_keeps h, BitVec.zero_and]

section
variable {s : State} {n : Node} {l : Line} {v : WinIx} {rest : List ReqMsg} {u : SlotIx} {w : WayIx} {m : NodeSet} {c : Content}

/-- The state in which a DROP on a tracked line decides, and the record it decides with. -/
theorem decideNode_drop_asking (hd : (s.getWindow v).kind ≠ .direct) (c : Content) :
    (s.decidesHeld .drop n l v rest u w c).decideNode u ((requestSlot .drop n l v 0).taken w c) n l =
      (s.asking n v rest u (s.putWay (setOf l) w (heldWay l c u)).dir ((requestSlot .drop n l v 0).taken w c)).decideDrop u
        (some c) n l := by
  have hdirect := isDirect_decidesHeld (k := .drop) (n := n) (l := l) (rest := rest) (u := u) hd w c
    ((requestSlot .drop n l v 0).taken w c) rfl
  rw [decideNode_drop hdirect rfl, decidesHeld_asking (k := .drop) nofun]
  rfl

theorem decideDrop_owned {q : State} : q.decideDrop u (some (.owned n)) n l = (q.freeHeld u).sendAnswer u (.dropped n l false) :=
  if_pos rfl

theorem decideDrop_shared {q : State} {x : Slot} {d : List (SetIx × SetRec)} (hw : x.working = some ⟨w, .shared m⟩)
    (hm : NodeSet.has m n = true) :
    (q.asking n v rest u d x).decideDrop u (some (.shared m)) n l =
      (if NodeSet.remove m n = 0#8 then
        (q.asking n v rest u d { x with working := some ⟨w, .free⟩ }).freeHeld u
      else q.asking n v rest u d { x with working := some ⟨w, .shared (NodeSet.remove m n)⟩ }).sendAnswer u
        (.dropped n l false) := by
  unfold State.decideDrop
  dsimp only
  rw [if_pos hm, dropSharerOf_asking hw, copyEmptied_of_slot asking_getSlot]
  by_cases h0 : NodeSet.remove m n = 0#8
  · have hdrop : dropSharer n (.shared m) = .free := if_pos h0
    rw [hdrop, if_pos h0]
    rfl
  · have hdrop : dropSharer n (.shared m) = .shared (NodeSet.remove m n) := if_neg h0
    rw [hdrop, if_neg h0]
    rfl

/-- Counting for a node leaves the states of the nodes. -/
theorem countStale_purgingNodes (s : State) (n : Node) : (s.countStale n).purgingNodes = s.purgingNodes :=
  purgingNodes_congr fun m => by
    refine (congrArg NodeRec.state (getNode_modNode s n m _)).trans ?_
    split
    · rename_i heq
      subst heq
      rfl
    · rfl

/-- A DROP from a node the line's record does not name is stale. -/
theorem decideDrop_stale {q : State} (hown : c ≠ .owned n) (hsharer : NodeSet.has (Content.sharers c) n = false) :
    q.decideDrop u (some c) n l = q.staleDrop u n l := by
  cases c with
  | shared m => exact if_neg fun h => Bool.false_ne_true (hsharer.symm.trans h)
  | owned o => exact if_neg fun h => hown (congrArg Content.owned h)
  | _ => rfl

theorem staleDrop_asking {x : Slot} {d : List (SetIx × SetRec)} (hn : s.NoneHeld) (hx : x.Asks n l v)
    (hroom : s.answerQ.length < 64) : (s.asking n v rest u d x).staleDrop u n l =
      (({ s.countStale n with answerQ := s.answerQ ++ [Answer.dropped n l true] }).asking n v rest u d x, [.close u]) := by
  unfold State.staleDrop
  rw [countStale_asking]
  exact sendAnswer_asking (q := s.countStale n) (a := .dropped n l true) ⟨hn.order, hn.answer⟩ hx.sent hroom rfl

/-- A DROP that frees its way is answered and closes. -/
theorem exec_drop_freed (h : s.Arrives .drop n l v rest) (hd : (s.getWindow v).kind ≠ .direct) (hline : s.onLine l = [])
    (hfree : s.lowestFree = some u) (ht : s.trackedAs l w c) (hkeep : s.keepsContent c) (hroom : s.answerQ.length < 64) {x : Slot}
    (hx : x.Asks n l v) (hk : x.kind = .drop) (hw : x.working = none)
    (hdecide : (s.decidesHeld .drop n l v rest u w c).decideNode u ((requestSlot .drop n l v 0).taken w c) n l =
      (s.asking n v rest u (s.makeFree (setOf l) w).dir x).sendAnswer u (.dropped n l false)) :
    exec .drop s = .next (State.driveEventN { (s.makeFree (setOf l) w).reqTaken rest with
      answerQ := s.answerQ ++ [.dropped n l false] }) := by
  have hsend := sendAnswer_asking (n := n) (v := v) (rest := rest) (u := u) (d := (s.makeFree (setOf l) w).dir)
    h.quiet.noneHeld hx.sent hroom (a := .dropped n l false) rfl
  exact event_tracked h hd hline hfree ht hkeep.1 hkeep.2.2 (j := 4) (by decide) (hdecide.trans hsend)
    (drain_asking_freed (q := { s with answerQ := s.answerQ ++ [.dropped n l false] }) (h.opens hline hfree).same hx
      (fun h => nomatch hk.symm.trans h) hw w)

end

/-- Settles O44: the copy given up, then the answer and the close. -/
theorem dropGivesUpACopy : Obligations.DropGivesUpACopy := by
  intro s n l v rest u h hd hline hfree hroom
  have hopens := h.opens hline hfree
  refine ⟨fun w c ht hkeep => ⟨?_, fun m hc hhas hrem => ?_⟩, ?_⟩
  · rintro (rfl | ⟨m, rfl, hhas, hrem⟩)
    · refine exec_drop_freed h hd hline hfree ht hkeep hroom (x := (requestSlot .drop n l v 0).begun) (begun_asks ..) rfl rfl ?_
      rw [decideNode_drop_asking hd, decideDrop_owned, freeHeld_asking h.canonical (taken_asks .drop n l v w (.owned n)) rfl]
      rfl
    · refine exec_drop_freed h hd hline hfree ht hkeep hroom (x := (requestSlot .drop n l v 0).begun) (begun_asks ..) rfl rfl ?_
      rw [decideNode_drop_asking hd, decideDrop_shared rfl hhas, if_pos hrem]
      exact congrArg (fun p : State => p.sendAnswer u (.dropped n l false))
        (freeHeld_asking (x := (requestSlot .drop n l v 0).taken w .free) h.canonical (taken_asks .drop n l v w .free) rfl)
  · subst hc
    have hsend := sendAnswer_asking (n := n) (v := v) (rest := rest) (u := u)
      (d := (s.putWay (setOf l) w (heldWay l (.shared m) u)).dir)
      (x := (requestSlot .drop n l v 0).taken w (.shared (NodeSet.remove m n))) h.quiet.noneHeld rfl hroom
      (a := .dropped n l false) rfl
    have hdecide := decideDrop_shared (q := s) (n := n) (u := u) (rest := rest)
      (x := (requestSlot .drop n l v 0).taken w (.shared m)) (v := v)
      (d := (s.putWay (setOf l) w (heldWay l (.shared m) u)).dir) (l := l) rfl hhas
    rw [if_neg hrem] at hdecide
    exact event_tracked h hd hline hfree ht nofun hkeep.2.2 (j := 4) (by decide)
      ((decideNode_drop_asking hd _).trans (hdecide.trans hsend))
      (drain_asking_held (q := { s with answerQ := s.answerQ ++ [.dropped n l false] }) (c := .shared m) hopens.same
        (taken_asks .drop n l v w (.shared (NodeSet.remove m n))) nofun rfl rfl ⟨nofun, nofun⟩ (keeps_remove hkeep.2.2 n))
  · rintro (ht | ⟨w, c, ht, hkeep, hown, hsharer⟩)
    · have hdirect := isDirect_decidesUnheld (k := .drop) (n := n) (l := l) (rest := rest) (u := u) hd
        (requestSlot .drop n l v 0).begun rfl
      have hsend := staleDrop_asking (rest := rest) (u := u) (d := s.dir) h.quiet.noneHeld (begun_asks .drop n l v) hroom
      have hclose := drain_asking_unheld (rest := rest) (q := { s.countStale n with answerQ := s.answerQ ++ [.dropped n l true] })
        hopens.same (begun_asks .drop n l v) nofun rfl
      exact event_untracked h hd hline hfree ht (j := 4) (by decide) ((decideNode_drop hdirect rfl).trans hsend) hclose
    · have hsend := staleDrop_asking (rest := rest) (u := u) (d := (s.putWay (setOf l) w (heldWay l c u)).dir) h.quiet.noneHeld
        (taken_asks .drop n l v w c) hroom
      have hclose := drain_asking_held (rest := rest) (q := { s.countStale n with answerQ := s.answerQ ++ [.dropped n l true] })
        (c := c) hopens.same (taken_asks .drop n l v w c) nofun rfl rfl ⟨hkeep.1, hkeep.2.1⟩
        ((congrArg (fun p => editContent p c) (countStale_purgingNodes s n)).trans hkeep.2.2)
      rw [putWay_of_tracked (q := { s.countStale n with answerQ := s.answerQ ++ [.dropped n l true] }) h.canonical ht] at hclose
      exact event_tracked h hd hline hfree ht hkeep.1 hkeep.2.2 (j := 4) (by decide)
        ((decideNode_drop_asking hd c).trans ((decideDrop_stale hown hsharer).trans hsend)) hclose

end Sys2Proof.Machine

/-! # WRITEBACK, and reads of untracked lines -/

namespace Sys2Proof.Machine

set_option Elab.async false

/-! ## Notices -/

section
variable {s : State} {l : Line} {n : Node}

theorem removeNotice_eq : s.removeNotice l n =
    { s with notices := s.notices.filter (fun m => !decide (m.line = l ∧ m.node = n)) } := by
  have htest : (fun v : Notice => !(v.isFor l n)) = fun m => !decide (m.line = l ∧ m.node = n) := by
    funext v
    unfold Notice.isFor
    rw [Bool.decide_and]
    rfl
  unfold State.removeNotice
  rw [htest]

theorem noticeFor_removeNotice : (s.removeNotice l n).noticeFor l n = none :=
  List.find?_eq_none.2 fun v hv h => by
    have hno := (List.mem_filter.1 hv).2
    rw [h] at hno
    cases hno

/-- A notice's claim does not change what it is for. -/
theorem isFor_claimed (v : Notice) (a : Line) (m : Node) :
    Notice.isFor (if v.isFor l n then { v with claimed := true } else v) a m = v.isFor a m := by
  split <;> rfl

theorem noticeFor_claimNotice : ((s.claimNotice l n).noticeFor l n).isSome = (s.noticeFor l n).isSome := by
  unfold State.claimNotice State.modNotice State.noticeFor
  rw [List.find?_map, Option.isSome_map]
  refine congrArg (fun p => (s.notices.find? p).isSome) (funext fun v => ?_)
  exact isFor_claimed v l n

/-- A notice that goes is not claimed first. -/
theorem removeNotice_claimNotice : (s.claimNotice l n).removeNotice l n = s.removeNotice l n := by
  have hfilter : ((s.notices.map (fun v => if v.isFor l n then { v with claimed := true } else v)).filter
      (fun v => !(v.isFor l n))) = s.notices.filter (fun v => !(v.isFor l n)) := by
    rw [List.filter_map]
    have htest : ((fun v : Notice => !(v.isFor l n)) ∘ fun v : Notice => if v.isFor l n then { v with claimed := true } else v) =
        fun v => !(v.isFor l n) := funext fun v => congrArg not (isFor_claimed v l n)
    rw [htest]
    refine (List.map_congr_left fun w hw => ?_).trans (List.map_id _)
    have hno := (List.mem_filter.1 hw).2
    exact if_neg fun h => by rw [h] at hno; cases hno
  exact congrArg (fun ns => { s with notices := ns }) hfilter

end

/-! ## WRITEBACK (O43) -/

/-- A store consumed: the wait is over and the timer stops. -/
def Slot.stored (x : Slot) : Slot := { x with memWait := .noWait, timer := none }

theorem storeConsumed_of_plain {s : State} {t : SlotIx} {x : Slot} (hx : s.getSlot t = some x) (hr : x.rebuild = none) :
    s.storeConsumed t =
      if x.kind.recall then (s.putSlot t (some x.stored)).recallFreed t
      else if x.kind = .writeback then ((s.putSlot t (some x.stored)).freeHeld t).closeWith t (fun n l => .wbDone n l false)
      else (s.putSlot t (some x.stored)).nextStep t := by
  have hstored : s.modSlot t (fun y => { y with memWait := .noWait, timer := none }) = s.putSlot t (some x.stored) :=
    modSlot_of_slot hx _
  unfold State.storeConsumed
  dsimp only
  rw [hstored, getSlot_putSlot_self]
  dsimp only
  rw [show x.stored.rebuild = none from hr]
  rfl

section
variable {s q : State} {n : Node} {l : Line} {v : WinIx} {rest : List ReqMsg} {u : SlotIx} {x : Slot} {w : WayIx} {c : Content}
  {d : List (SetIx × SetRec)}

theorem closeWith_asking (hx : x.Asks n l v) (a : Node → Line → Answer) :
    (q.asking n v rest u d x).closeWith u a = (q.asking n v rest u d x).sendAnswer u (a n l) := by
  unfold State.closeWith
  rw [asking_getSlot]
  dsimp only
  rw [hx.requester, hx.line]

theorem decidesHeld_writeback (w : WayIx) (c : Content) : s.decidesHeld .writeback n l v rest u w c =
    (s.claimNotice l n).asking n v rest u (s.putWay (setOf l) w (heldWay l c u)).dir ((requestSlot .writeback n l v 0).taken w c) :=
  rfl

theorem decidesUnheld_writeback : s.decidesUnheld .writeback n l v rest u =
    (s.claimNotice l n).asking n v rest u s.dir (requestSlot .writeback n l v 0).begun := rfl

theorem takesNotice_of_writeback (hk : x.kind = .writeback) (h : (s.noticeFor l n).isSome = true) : s.takesNotice x l n = true := by
  obtain ⟨v, hv⟩ := Option.isSome_iff_exists.1 h
  unfold State.takesNotice
  rw [hv, hk]
  rfl

/-- The owner's WRITEBACK takes its notice. -/
theorem enterConsuming_takes (hn : s.NoneHeld) (hx : x.Asks n l v) (hk : x.kind = .writeback) (hr : x.rebuild = none)
    (h : s.noticeFor l n ≠ none) : ((s.claimNotice l n).asking n v rest u d x).enterConsuming u n =
      (((s.removeNotice l n).asking n v rest u d (x.consuming s n).stored).freeHeld u).closeWith u
        (fun n l => .wbDone n l false) := by
  have hsome : ((s.claimNotice l n).noticeFor l n).isSome = true := by
    rw [noticeFor_claimNotice]
    exact Option.isSome_iff_ne_none.2 h
  have htake := enterConsuming_of_slot (n := n)
    (asking_noneHeld (q := s.claimNotice l n) (n := n) (v := v) (rest := rest) (u := u) (d := d) (x := x) ⟨hn.order, hn.answer⟩)
    asking_getSlot hx.sent hx.line (takesNotice_of_writeback hk hsome)
  rw [asking_putSlot] at htake
  have hremove : ((s.claimNotice l n).asking n v rest u d (x.consuming s n)).removeNotice l n =
      (s.removeNotice l n).asking n v rest u d (x.consuming s n) :=
    congrArg (fun p : State => p.asking n v rest u d (x.consuming s n)) removeNotice_claimNotice
  have hconsumed := storeConsumed_of_plain (s := (s.removeNotice l n).asking n v rest u d (x.consuming s n)) (t := u)
    asking_getSlot hr
  have hkind : (x.consuming s n).kind = .writeback := hk
  rw [if_neg (by rw [hkind]; nofun), if_pos hkind, asking_putSlot] at hconsumed
  exact (htake.trans (congrArg (fun p : State => p.storeConsumed u) hremove)).trans hconsumed

/-- A WRITEBACK from a node that is not the owner is stale. -/
theorem decideWriteback_stale (hc : c ≠ .owned n) : q.decideWriteback u (some c) n l = q.staleWriteback u n l := by
  cases c with
  | owned o => exact if_neg fun h => hc (congrArg Content.owned h)
  | _ => rfl

/-- What a stale WRITEBACK leaves (R64, R80). -/
def State.staleStored (s : State) (n : Node) (l : Line) : State :=
  { (s.removeNotice l n).countStale n with answerQ := s.answerQ ++ [.wbDone n l true] }

theorem staleWriteback_asking (hn : s.NoneHeld) (hx : x.Asks n l v) (hroom : s.answerQ.length < 64) :
    ((s.claimNotice l n).asking n v rest u d x).staleWriteback u n l =
      ((s.staleStored n l).asking n v rest u d x, [.close u]) := by
  have hremove : ((s.claimNotice l n).asking n v rest u d x).removeNotice l n = (s.removeNotice l n).asking n v rest u d x :=
    congrArg (fun p : State => p.asking n v rest u d x) removeNotice_claimNotice
  unfold State.staleWriteback
  rw [hremove, countStale_asking]
  exact sendAnswer_asking (q := (s.removeNotice l n).countStale n) (a := .wbDone n l true) ⟨hn.order, hn.answer⟩ hx.sent hroom rfl

end

/-- Settles O43: the store awaited, taken from its notice, or not the sender's to give. -/
theorem writebackWaitsForItsStore : Obligations.WritebackWaitsForItsStore := by
  intro s n l v rest u h hd hline hfree
  have hopens := h.opens hline hfree
  have hkeep : editContent s.purgingNodes (.owned n) = .owned n :=
    keeps_owned ((has_purgingNodes s n).trans (by rw [h.live]; rfl))
  refine ⟨fun w ht => ⟨fun hno => ?_, fun hsome hroom => ?_⟩, ?_⟩
  · have hdirect := isDirect_decidesHeld (k := .writeback) (n := n) (l := l) (rest := rest) (u := u) hd w (.owned n)
      ((requestSlot .writeback n l v 0).taken w (.owned n)) rfl
    have hwait := enterConsuming_asking (rest := rest) (u := u) (d := (s.putWay (setOf l) w (heldWay l (.owned n) u)).dir)
      h.quiet.noneHeld (taken_asks .writeback n l v w (.owned n)) hno
    have hstart : s.decidesHeld .writeback n l v rest u w (.owned n) = s.asking n v rest u
        (s.putWay (setOf l) w (heldWay l (.owned n) u)).dir ((requestSlot .writeback n l v 0).taken w (.owned n)) := by
      rw [decidesHeld_writeback, claimNotice_of_none hno]
    refine event_tracked h hd hline hfree ht nofun hkeep (j := 1) (by decide)
      ((decideNode_writeback hdirect rfl).trans ((if_pos rfl).trans
        ((congrArg (fun p : State => p.enterConsuming u n) hstart).trans hwait))) (drain_settle (Quiet_settled ?_) 0)
    exact (h.quiet.putWay (setOf l) w (heldWay l (.owned n) u)).slotted rfl rfl
  · have hdirect := isDirect_decidesHeld (k := .writeback) (n := n) (l := l) (rest := rest) (u := u) hd w (.owned n)
      ((requestSlot .writeback n l v 0).taken w (.owned n)) rfl
    let x := ((requestSlot .writeback n l v 0).taken w (.owned n)).consuming s n
    have hx : x.stored.Asks n l v := ⟨rfl, rfl, rfl, rfl, rfl, rfl, rfl⟩
    have hx' : ({ x.stored with working := none } : Slot).Asks n l v := ⟨rfl, rfl, rfl, rfl, rfl, rfl, rfl⟩
    have htake := enterConsuming_takes (rest := rest) (u := u) (d := (s.putWay (setOf l) w (heldWay l (.owned n) u)).dir)
      h.quiet.noneHeld (taken_asks .writeback n l v w (.owned n)) rfl rfl hsome
    have hfreed := freeHeld_asking (q := s.removeNotice l n) (rest := rest) (u := u) (c := .owned n) h.canonical hx rfl
    have hsend := sendAnswer_asking (q := s.removeNotice l n) (n := n) (v := v) (rest := rest) (u := u)
      (d := (s.makeFree (setOf l) w).dir) (x := { x.stored with working := none }) ⟨h.quiet.noHeldOrder, h.quiet.noHeldAnswer⟩ rfl hroom
      (a := .wbDone n l false) rfl
    have hanswer := (htake.trans (congrArg (fun p : State => p.closeWith u (fun n l => .wbDone n l false)) hfreed)).trans
      ((closeWith_asking hx' _).trans hsend)
    have hclose := drain_asking_freed (rest := rest)
      (q := { s.removeNotice l n with answerQ := s.answerQ ++ [.wbDone n l false] }) hopens.same hx'
      (fun _ => noticeFor_removeNotice) rfl w
    have hdone := event_tracked h hd hline hfree ht nofun hkeep (j := 4) (by decide)
      ((decideNode_writeback hdirect rfl).trans ((if_pos rfl).trans hanswer)) hclose
    rw [removeNotice_eq] at hdone
    exact hdone
  · rintro (ht | ⟨w, c, ht, hkeep, hown⟩) hroom
    · have hdirect := isDirect_decidesUnheld (k := .writeback) (n := n) (l := l) (rest := rest) (u := u) hd
        (requestSlot .writeback n l v 0).begun rfl
      have hsend := staleWriteback_asking (rest := rest) (u := u) (d := s.dir) h.quiet.noneHeld (begun_asks .writeback n l v) hroom
      have hclose := drain_asking_unheld (rest := rest) (q := s.staleStored n l) hopens.same (begun_asks .writeback n l v)
        (fun _ => noticeFor_removeNotice) rfl
      have hdone := event_untracked h hd hline hfree ht (j := 4) (by decide)
        ((decideNode_writeback hdirect rfl).trans hsend) hclose
      unfold State.staleStored at hdone
      rw [removeNotice_eq] at hdone
      exact hdone
    · have hdirect := isDirect_decidesHeld (k := .writeback) (n := n) (l := l) (rest := rest) (u := u) hd w c
        ((requestSlot .writeback n l v 0).taken w c) rfl
      have hsend := staleWriteback_asking (rest := rest) (u := u) (d := (s.putWay (setOf l) w (heldWay l c u)).dir)
        h.quiet.noneHeld (taken_asks .writeback n l v w c) hroom
      have hclose := drain_asking_held (rest := rest) (q := s.staleStored n l) (c := c) hopens.same
        (taken_asks .writeback n l v w c) (fun _ => noticeFor_removeNotice) rfl rfl ⟨hkeep.1, hkeep.2.1⟩
        ((congrArg (fun p => editContent p c) (countStale_purgingNodes s n)).trans hkeep.2.2)
      rw [putWay_of_tracked (q := s.staleStored n l) h.canonical ht] at hclose
      have hdone := event_tracked h hd hline hfree ht hkeep.1 hkeep.2.2 (j := 4) (by decide)
        ((decideNode_writeback hdirect rfl).trans ((decideWriteback_stale hown).trans hsend)) hclose
      unfold State.staleStored at hdone
      rw [removeNotice_eq] at hdone
      exact hdone

end Sys2Proof.Machine

/-! # Reads of untracked lines: a FREE way, a victim's recall, or SET_FULL -/

namespace Sys2Proof.Machine

set_option Elab.async false

/-! ## The opening of a recall (R28, R89) -/

/-- What a recall awaits of the nodes it withdraws a line with some content from. -/
def Content.withdrawal (c : Content) : Outstanding :=
  match c with
  | .owned _ => .recall
  | _ => .revoke

/-- The orders that withdraw a line with some content from some nodes. -/
def withdrawals (c : Content) (l : Line) (m : NodeSet) : List Order :=
  match c with
  | .owned _ => (NodeSet.toList m).map (fun n => .recall n l false)
  | _ => (NodeSet.toList m).map (fun n => .revoke n l false)

theorem withdrawals_length (c : Content) (l : Line) (m : NodeSet) : (withdrawals c l m).length = (NodeSet.toList m).length := by
  cases c <;> exact List.length_map _

/-- A recall's record once its round has gone out. -/
def Slot.withdraws (x : Slot) (s : State) (w : WayIx) (c : Content) (m : NodeSet) : Slot :=
  { x with
    phase := .awaitReplies
    awaited := m
    memWait := .noWait
    outstanding := c.withdrawal
    working := some ⟨w, c⟩
    timer := some s.limits.orderTimeout.toNat
    retriesLeft := s.limits.retryLimit.toNat }

section
variable {s : State} {t : SlotIx} {x : Slot} {l : Line} {w : WayIx} {c : Content} {m : NodeSet}

/-- A recall that has taken up its line's way withdraws the line. -/
theorem decideRecall_withdraws (hn : s.NoneHeld) (hx : s.getSlot t = some x) (hw : x.working = some ⟨w, c⟩)
    (hc : (∃ m, c = .shared m) ∨ ∃ o, c = .owned o) (hp : x.pending = none) (hr : x.rebuild = none)
    (hfrom : s.recallFrom x = m) (hm : m ≠ 0#8) (hroom : s.orderQ.length + (NodeSet.toList m).length ≤ 64) :
    s.decideRecall t x l =
      ({ s.putSlot t (some (x.withdraws s w c m)) with orderQ := s.orderQ ++ withdrawals c l m }, []) := by
  have hround := startRound_of_room hn hx hp hr (os := withdrawals c l m) (by rw [withdrawals_length]; exact hroom) m .noWait
    c.withdrawal
  have hrecord : x.withdraws s w c m = { x with
      phase := .awaitReplies, awaited := m, memWait := .noWait, outstanding := c.withdrawal
      timer := some s.limits.orderTimeout.toNat
      retriesLeft := s.limits.retryLimit.toNat } := by
    unfold Slot.withdraws
    rw [hw]
  rw [hrecord, ← hround]
  unfold State.decideRecall
  dsimp only
  rw [hfrom, if_neg hm, hw]
  rcases hc with ⟨m', rfl⟩ | ⟨o, rfl⟩
  · rfl
  · rfl

/-- A recall at the head of its line takes the way up and withdraws the line. -/
theorem drain_recall_activates {k : Nat} {us : List Task} {q : State} (hn : s.NoneHeld) (hx : s.getSlot t = some x)
    (hl : x.line = some l) (hd : ¬(s.isDirect x = true ∧ x.kind ≠ .victimRecall)) (hk : x.kind.recall = true)
    (hp : x.pending = none) (hr : x.rebuild = none) (ht : s.trackedAs l w c)
    (hc : (∃ m, c = .shared m) ∨ ∃ o, c = .owned o) (hkeep : editContent s.purgingNodes c = c)
    (hfrom : s.recallFrom (x.taken w c) = m) (hm : m ≠ 0#8) (hroom : s.orderQ.length + (NodeSet.toList m).length ≤ 64)
    (hrest : drain k { (s.putWay (setOf l) w (heldWay l c t)).putSlot t (some (x.withdraws s w c m)) with
      orderQ := s.orderQ ++ withdrawals c l m } us = some q) : drain (k + 2) s (.activate t :: us) = some q := by
  have hfree : c ≠ .free := by rcases hc with ⟨m', rfl⟩ | ⟨o, rfl⟩ <;> nofun
  let s1 := (s.putWay (setOf l) w (heldWay l c t)).putSlot t (some (x.taken w c))
  have hslot : s1.getSlot t = some (x.taken w c) := getSlot_putSlot_self ..
  have hgo := (goOn_of_keeps hslot rfl hkeep hfree).trans ((decision_of_recall hslot hl hk).trans
    (decideRecall_withdraws (s := s1) (l := l) ⟨hn.order, hn.answer⟩ hslot rfl hc hp hr hfrom hm hroom))
  refine drain_step (t := .activate t) (activate_of_tracked hx hl hd ht hfree) ?_
  refine drain_step (t := .goOn t) hgo ?_
  have hput : s1.putSlot t (some ((x.taken w c).withdraws s1 w c m)) =
      (s.putWay (setOf l) w (heldWay l c t)).putSlot t (some (x.withdraws s w c m)) := putSlot_putSlot _ _ _ _
  rw [hput]
  exact hrest

/-- A recall's record at the head of its line. -/
def Slot.opensOn (x : Slot) (l : Line) (v : WinIx) : Slot := { x with line := some l, window := some v, rank := some 0 }

/-- What the opening of a recall leaves, as its parts. -/
theorem recallOpened_eq (v : WinIx) (hc : (∃ m, c = .shared m) ∨ ∃ o, c = .owned o) (y : Slot) (hmem : y.memWait = .noWait) :
    s.recallOpened t y l v w c m = { ((s.putWay (setOf l) w (heldWay l c t)).modWindow v (fun r =>
        { r with openCount := r.openCount + 1 })).putSlot t (some ((y.opensOn l v).withdraws s w c m)) with
      orderQ := s.orderQ ++ withdrawals c l m } := by
  obtain ⟨⟩ := y
  dsimp only at hmem
  subst hmem
  rcases hc with ⟨m', rfl⟩ | ⟨o, rfl⟩
  · rfl
  · rfl

end

/-! ## Victim choice (R9) -/

section
variable {s : State} {i : SetIx}

/-- Whether the line a key names has no transaction. -/
def State.keyIdle (s : State) (i : SetIx) : Option Key → Bool
  | some k => (s.onLine (lineOf k i)).isEmpty
  | none => false

theorem eligible_eq (s : State) (i : SetIx) (w : WayIx) : s.eligible i w =
    (!ruledOut (s.getWay i w).body.stored && s.keyIdle i (s.getWay i w).key.stored) := by
  unfold State.eligible ruledOut State.keyIdle
  rw [Bool.not_or]
  refine congrArg₂ and ?_ ?_
  · rw [Bool.and_comm]
    refine congrArg₂ and ?_ ?_
    · cases (s.getWay i w).body.stored.heldBy <;> rfl
    · cases (s.getWay i w).body.stored.content <;> rfl
  · cases (s.getWay i w).key.stored <;> rfl

/-- Victim choice over a set whose codes match names the first way that may be a victim. -/
theorem victimScan_of_sound (h : s.soundSet i) : ∀ ws : List WayIx,
    State.victimScan i ws s = (s, ((ws.find? (s.eligible i)).map VictimResult.victim).getD .noVictim)
  | [] => rfl
  | w :: ws => by
    have ih := victimScan_of_sound h ws
    have hbody := correctBody_of_good (h w).2
    have hkey := correctKey_of_good (h w).1
    rw [List.find?_cons, eligible_eq]
    unfold State.victimScan
    dsimp only
    rw [hbody, hkey, bodyView_of_sound h, keyView_of_sound h]
    cases hruled : ruledOut (s.getWay i w).body.stored with
    | true =>
      rw [Option.map_some, hruled]
      exact ih
    | false =>
      rw [Option.map_some, hruled]
      cases hk : (s.getWay i w).key.stored with
      | none => exact ih
      | some k =>
        rw [if_neg (show ¬(some false == some true) = true from Bool.noConfusion)]
        dsimp only
        by_cases hidle : (s.onLine (lineOf k i)).isEmpty = true
        · have htest : (!false && s.keyIdle i (some k)) = true := hidle
          rw [htest]
          rw [if_pos ⟨hidle, fun h => nomatch h⟩] <;> rfl
        · have htest : (!false && s.keyIdle i (some k)) = false := Bool.eq_false_of_not_eq_true hidle
          rw [htest]
          rw [if_neg fun h => hidle h.1]
          exact ih

end

/-! ## Allocation (R8) -/

/-- The rearmost FREE way of a set whose codes match. -/
theorem rearmostFree_of_sound {s : State} {i : SetIx} (h : s.soundSet i) : s.rearmostFree i =
    (s.getSet i).order.reverse.find? (fun w => (s.getWay i w).body.stored.content == .free) := by
  unfold State.rearmostFree
  refine congrArg (fun p => (s.getSet i).order.reverse.find? p) (funext fun w => ?_)
  rw [bodyView_of_sound h]
  rfl

section
variable {s : State} {k : ReqKind} {n : Node} {l : Line} {v : WinIx} {rest : List ReqMsg} {u : SlotIx} {x : Slot}

theorem allocate_asking {w : WayIx} (h : s.rearmostFree (setOf l) = some w) :
    (s.asking n v rest u s.dir x).allocate u l = some (s.asking n v rest u
      (s.putWay (setOf l) w ⟨coded (some (keyOf l)), coded ⟨.reserved, some u, false⟩⟩).dir
      { x with working := some ⟨w, .reserved⟩ }) := by
  have hfound : (s.asking n v rest u s.dir x).rearmostFree (setOf l) = some w := h
  unfold State.allocate
  rw [hfound]
  dsimp only
  unfold State.reserve
  rw [modSlot_of_slot (s := (s.asking n v rest u s.dir x).putWay (setOf l) w _) (asking_getSlot (q := s) (n := n) (v := v)
    (rest := rest) (d := s.dir) (x := x))]
  exact congrArg some (putSlot_putSlot ((s.admitted n v rest).putWay (setOf l) w _) u _ _)

theorem allocate_asking_none (h : s.rearmostFree (setOf l) = none) : (s.asking n v rest u s.dir x).allocate u l = none := by
  have hnone : (s.asking n v rest u s.dir x).rearmostFree (setOf l) = none := h
  unfold State.allocate
  rw [hnone]

/-- A line other than the request's has a transaction exactly where it had one before. -/
theorem onLine_asking (hu : s.getSlot u = none) (hx : x.line = some l) {d : List (SetIx × SetRec)} {b : Line} (hb : b ≠ l) :
    ((s.asking n v rest u d x).onLine b).isEmpty = (s.onLine b).isEmpty := by
  rw [Bool.eq_iff_iff, List.isEmpty_iff, List.isEmpty_iff]
  unfold State.onLine
  rw [slotsWith_eq_nil_iff, slotsWith_eq_nil_iff]
  constructor
  · intro h t y hy
    refine h t y ?_
    have ht : t ≠ u := fun ht => nomatch (ht ▸ hu).symm.trans hy
    exact (getSlot_putSlot_of_ne ht _).trans hy
  · intro h t y hy
    by_cases ht : t = u
    · subst ht
      rw [asking_getSlot] at hy
      cases hy
      rw [hx]
      exact beq_eq_false_iff_ne.2 fun he => hb (Option.some.inj he).symm
    · exact h t y ((getSlot_putSlot_of_ne (s := (s.admitted n v rest).withDir d) ht (some x)).symm.trans hy)

/-- Admission of a request on an untracked line leaves what may be a victim. -/
theorem eligible_asking (hu : s.getSlot u = none) (hx : x.line = some l) (h : s.untracked l) :
    (s.asking n v rest u s.dir x).eligible (setOf l) = s.eligible (setOf l) := by
  funext w
  have heq := eligible_eq (s.asking n v rest u s.dir x) (setOf l) w
  have hway : (s.asking n v rest u s.dir x).getWay (setOf l) w = s.getWay (setOf l) w := rfl
  rw [heq, eligible_eq, hway]
  cases hruled : ruledOut (s.getWay (setOf l) w).body.stored with
  | true => rfl
  | false =>
    cases hk : (s.getWay (setOf l) w).key.stored with
    | none => rfl
    | some q =>
      have hne : lineOf q (setOf l) ≠ l := by
        intro he
        have hkey : keyOf l = q := by rw [← he]; exact keyOf_lineOf q (setOf l)
        refine h.2 w (fun hfree => ?_) (hk.trans (congrArg some hkey.symm))
        unfold ruledOut at hruled
        rw [hfree] at hruled
        exact Bool.false_ne_true (((Bool.or_eq_false_iff.1 hruled).2).symm)
      exact onLine_asking hu hx hne

theorem victimChoice_asking (hu : s.getSlot u = none) (hx : x.line = some l) (h : s.untracked l) :
    (s.asking n v rest u s.dir x).victimChoice (setOf l) = (s.asking n v rest u s.dir x,
      (((s.getSet (setOf l)).order.reverse.find? (s.eligible (setOf l))).map VictimResult.victim).getD .noVictim) := by
  have hsound : (s.asking n v rest u s.dir x).soundSet (setOf l) := h.1
  unfold State.victimChoice
  rw [victimScan_of_sound hsound, eligible_asking hu hx h]
  rfl

/-- An untracked line's read in a set with a FREE way. -/
theorem untrackedRead_of_free {q p : State} (hmem : q.memLive = true) (halloc : q.allocate u l = some p) :
    q.untrackedRead u n l = (p.sendFetch u l n, []) := by
  unfold State.untrackedRead
  rw [if_pos hmem, halloc]

/-- An untracked line's read in a set without one. -/
theorem untrackedRead_of_full {q : State} (hmem : q.memLive = true) (halloc : q.allocate u l = none) :
    q.untrackedRead u n l = q.chooseVictim u l := by
  unfold State.untrackedRead
  rw [if_pos hmem, halloc]

theorem chooseVictim_of_none {q : State} (h : q.victimChoice (setOf l) = (q, .noVictim)) : q.chooseVictim u l = q.refuse u .setFull := by
  unfold State.chooseVictim
  dsimp only
  rw [h]

/-- The waiter of a VICTIM_RECALL just opened. -/
def Slot.waiting (x : Slot) (e : SlotIx) : Slot :=
  { x with phase := .awaitVictim, victimLink := some e, awaited := 0#8, memWait := .noWait, timer := none }

/-- The record of a VICTIM_RECALL. -/
def victimSlot (u : SlotIx) : Slot := { newSlot .victimRecall with victimLink := some u }

theorem chooseVictim_of_victim {q : State} {w : WayIx} {b : Line} {a : WinIx} {e : SlotIx}
    (hchoice : q.victimChoice (setOf l) = (q, .victim w)) (hline : q.wayLine (setOf l) w = some b) (hfree : q.lowestFree = some e)
    (hx : q.getSlot u = some x) (hne : e ≠ u) (hwin : q.windowOf b = some a) (halone : q.onLine b = []) :
    q.chooseVictim u l = (((q.modWindow a (fun r => { r with openCount := r.openCount + 1 })).putSlot u
      (some (x.waiting e))).putSlot e (some ((victimSlot u).opensOn b a)), [.activate e]) := by
  have hopen : q.openOnLine e (victimSlot u) b (some a) =
      (q.modWindow a (fun r => { r with openCount := r.openCount + 1 })).putSlot e (some ((victimSlot u).opensOn b a)) := by
    unfold State.openOnLine
    rw [halone]
    rfl
  let q2 := (q.modWindow a (fun r => { r with openCount := r.openCount + 1 })).putSlot e (some ((victimSlot u).opensOn b a))
  have hslot : q2.getSlot u = some x := (getSlot_putSlot_of_ne (s := q.modWindow a _) hne.symm _).trans hx
  have hwaiting : q2.modSlot u (fun y => { y with
      phase := .awaitVictim, victimLink := some e, awaited := 0#8, memWait := .noWait, timer := none }) =
      ((q.modWindow a (fun r => { r with openCount := r.openCount + 1 })).putSlot u (some (x.waiting e))).putSlot e
        (some ((victimSlot u).opensOn b a)) := (modSlot_of_slot hslot _).trans (putSlot_comm hne.symm _ _)
  unfold State.chooseVictim
  dsimp only
  rw [hchoice]
  dsimp only
  rw [hline]
  dsimp only
  rw [hfree]
  dsimp only
  rw [hwin]
  refine Prod.ext ((congrArg (fun p : State => p.modSlot u _) hopen).trans hwaiting) ?_
  refine (congrArg (fun p : State => p.startIfHead e) ((congrArg (fun p : State => p.modSlot u _) hopen).trans hwaiting)).trans ?_
  unfold State.startIfHead
  rw [getSlot_putSlot_self]
  rfl

end

/-! ## Settling (O39) -/

section
variable {s : State} {k : ReqKind} {n : Node} {l : Line} {v : WinIx} {rest : List ReqMsg} {u : SlotIx}

theorem admitted_contains (a : WinIx) (b : Line) :
    ((s.admitted n v rest).getWindow a).contains b = (s.getWindow a).contains b := by
  have h : (s.admitted n v rest).getWindow a = _ := entered_getWindow s .drop n b v a rest
  rw [h]
  split
  · rename_i ha
    rw [ha]
    rfl
  · rfl

theorem asking_windowOf {d : List (SetIx × SetRec)} {x : Slot} (b : Line) : (s.asking n v rest u d x).windowOf b = s.windowOf b :=
  windowOf_congr fun a => admitted_contains a b

/-- The next free slot behind the one just taken. -/
theorem asking_lowestFree {d : List (SetIx × SetRec)} {x : Slot} : (s.asking n v rest u d x).lowestFree =
    allSlots.find? (fun t => t != u && (s.getSlot t).isNone) := by
  refine congrArg (fun p => allSlots.find? p) (funext fun t => ?_)
  by_cases ht : t = u
  · subst ht
    rw [asking_getSlot, bne_self_eq_false]
    rfl
  · have hslot : (s.asking n v rest u d x).getSlot t = s.getSlot t :=
      getSlot_putSlot_of_ne (s := (s.admitted n v rest).withDir d) ht (some x)
    rw [hslot, bne_iff_ne.2 ht, Bool.true_and]

end

/-- A VICTIM_RECALL just opened takes its line's way up and withdraws the line. -/
theorem drain_victim_opened {s : State} {e u : SlotIx} {b : Line} {a : WinIx} {w : WayIx} {c : Content} {m : NodeSet} (h : s.Quiet)
    (ht : s.trackedAs b w c) (hc : c = .shared m ∨ ∃ o, c = .owned o ∧ m = NodeSet.single o)
    (hkeep : editContent s.purgingNodes c = c) (hm : m ≠ 0#8) (hroom : s.orderQ.length + (NodeSet.toList m).length ≤ 64) :
    drain 3 ((s.modWindow a (fun r => { r with openCount := r.openCount + 1 })).putSlot e (some ((victimSlot u).opensOn b a)))
      ([.activate e] ++ [.settle]) = some (s.recallOpened e (victimSlot u) b a w c m) := by
  have hc' : (∃ m, c = .shared m) ∨ ∃ o, c = .owned o := hc.imp (fun hc => ⟨m, hc⟩) fun ⟨o, hc, _⟩ => ⟨o, hc⟩
  let s1 := s.modWindow a (fun r => { r with openCount := r.openCount + 1 })
  have hfrom : (s1.putSlot e (some ((victimSlot u).opensOn b a))).recallFrom (((victimSlot u).opensOn b a).taken w c) = m := by
    rcases hc with rfl | ⟨o, rfl, rfl⟩
    · rfl
    · rfl
  refine drain_recall_activates (k := 1) ⟨h.noHeldOrder, h.noHeldAnswer⟩ (getSlot_putSlot_self ..) rfl (fun h => h.2 rfl) rfl rfl rfl
    ht hc' hkeep hfrom hm hroom ?_
  have hput : ((s1.putSlot e (some ((victimSlot u).opensOn b a))).putWay (setOf b) w (heldWay b c e)).putSlot e
      (some (((victimSlot u).opensOn b a).withdraws s w c m)) = (s1.putWay (setOf b) w (heldWay b c e)).putSlot e
      (some (((victimSlot u).opensOn b a).withdraws s w c m)) := putSlot_putSlot (s1.putWay (setOf b) w (heldWay b c e)) e _ _
  rw [recallOpened_eq a hc' (victimSlot u) rfl]
  refine Eq.trans ?_ (drain_settle (Quiet_settled ?_) 0)
  · exact congrArg (fun p : State => drain 1 { p with orderQ := s.orderQ ++ withdrawals c b m } [.settle]) hput
  · exact (h.putWay (setOf b) w (heldWay b c e)).slotted rfl rfl

/-- Settles O39: the request takes a FREE way, waits for a victim's recall, or is refused. -/
theorem untrackedReadFetches : Obligations.UntrackedReadFetches := by
  intro s k n l v rest u h hd hline hfree ht hmem hk content ways
  have hopens := h.opens hline hfree
  have hwb := notWriteback_of_read hk
  have hrear : s.rearmostFree (setOf l) = ways.find? (fun y => content y == .free) := rearmostFree_of_sound ht.1
  have hlive : (s.asking n v rest u s.dir (readSlot k n l v)).memLive = true := beq_iff_eq.2 hmem
  have hread := decideNode_untracked (s := s) (n := n) (l := l) (v := v) (rest := rest) (u := u) hd hk
  refine ⟨fun w hw hroom => ?_, fun hnone => ⟨?_, fun hno hroom => ?_⟩⟩
  · have halloc := allocate_asking (n := n) (v := v) (rest := rest) (u := u) (x := readSlot k n l v) (hrear.trans hw)
    have hround := drain_asking_round (n := n) (v := v) (rest := rest) (u := u) (os := [.fetch l n false]) (m := 0#8)
      (mw := .fetchSent) (o := .nothing) (x := { readSlot k n l v with working := some ⟨w, .reserved⟩ }) h.quiet
      (h.quiet.putWay (setOf l) w ⟨coded (some (keyOf l)), coded ⟨.reserved, some u, false⟩⟩).same rfl rfl hroom
    exact event_untracked h hd hline hfree ht (j := 1) (by decide) (hread.trans (untrackedRead_of_free hlive halloc)) hround
  · intro w c b a m e hvictim htb hset hkeep hm hc hwin he hroom
    have halloc := allocate_asking_none (n := n) (v := v) (rest := rest) (u := u) (x := readSlot k n l v) (hrear.trans hnone)
    have hchoice := victimChoice_asking (n := n) (v := v) (rest := rest) (x := readSlot k n l v) hopens.free rfl ht
    rw [hvictim] at hchoice
    have hfound := List.find?_some he
    rw [Bool.and_eq_true, bne_iff_ne] at hfound
    have hway : s.getWay (setOf l) w = ⟨coded (some (keyOf b)), coded ⟨c, none, false⟩⟩ := hset ▸ htb.2.1
    have hback : lineOf (keyOf b) (setOf l) = b := hset ▸ lineOf_keyOf_setOf b
    have hline' : (s.asking n v rest u s.dir (readSlot k n l v)).wayLine (setOf l) w = some b := by
      have hkey : (s.asking n v rest u s.dir (readSlot k n l v)).keyView (setOf l) w = some (some (keyOf b)) :=
        (keyView_of_sound (s := s) ht.1 w).trans (by rw [hway]; rfl)
      unfold State.wayLine
      rw [hkey]
      exact congrArg some hback
    have hne : b ≠ l := fun hbl => ht.2 w (by rw [hway]; exact hkeep.1) (by rw [hway, hbl]; rfl)
    have halone : (s.asking n v rest u s.dir (readSlot k n l v)).onLine b = [] := by
      have helig := List.find?_some hvictim
      rw [eligible_eq, Bool.and_eq_true, hway] at helig
      have hidle : (s.onLine (lineOf (keyOf b) (setOf l))).isEmpty = true := helig.2
      rw [hback] at hidle
      exact List.isEmpty_iff.1 ((onLine_asking hopens.free rfl hne).trans hidle)
    have hvict := chooseVictim_of_victim hchoice hline' (asking_lowestFree.trans he) asking_getSlot hfound.1
      ((asking_windowOf b).trans hwin) halone
    let s1 : State := (s.admitted n v rest).putSlot u (some ((readSlot k n l v).waiting e))
    have hwaiting : ((s.asking n v rest u s.dir (readSlot k n l v)).modWindow a (fun r =>
        { r with openCount := r.openCount + 1 })).putSlot u (some ((readSlot k n l v).waiting e)) =
        s1.modWindow a (fun r => { r with openCount := r.openCount + 1 }) :=
      congrArg (fun p : State => p.modWindow a (fun r => { r with openCount := r.openCount + 1 }))
        (putSlot_putSlot (s.admitted n v rest) u (some (readSlot k n l v)) (some ((readSlot k n l v).waiting e)))
    rw [hwaiting] at hvict
    have hquiet : s1.Quiet := (h.quiet.admitted n v rest).slotted rfl rfl
    have hdrain := drain_victim_opened (e := e) (u := u) (a := a) (m := m) hquiet (show s1.trackedAs b w c from htb)
      (hc.imp (fun hc => hc) fun hc => hc)
      ((congrArg (fun p => editContent p c) (purgingNodes_congr fun m => admitted_nodeState s n m v rest)).trans hkeep.2.2) hm hroom
    exact event_untracked h hd hline hfree ht (j := 3) (by decide)
      (hread.trans ((untrackedRead_of_full hlive halloc).trans hvict)) hdrain
  · have halloc := allocate_asking_none (n := n) (v := v) (rest := rest) (u := u) (x := readSlot k n l v) (hrear.trans hnone)
    have hchoice := victimChoice_asking (n := n) (v := v) (rest := rest) (x := readSlot k n l v) hopens.free rfl ht
    rw [hno] at hchoice
    have hrefuse := refuse_asking (d := s.dir) (rest := rest) (u := u) (r := .setFull) (q' := s.countSetFull) (readSlot_asks k n l v)
      h.live rfl ⟨h.quiet.noHeldOrder, h.quiet.noHeldAnswer⟩ hroom
    rw [show (readSlot k n l v).kind.toReqKind = k from toReqKind_requestSlot k n l v 0] at hrefuse
    have hclose := drain_asking_unheld (rest := rest)
      (q := { s.countSetFull with answerQ := s.answerQ ++ [.refuse n l (.request k) .setFull] }) hopens.same
      (readSlot_asks k n l v) (fun hk => absurd hk (toKind_ne_writeback hwb)) rfl
    exact event_untracked h hd hline hfree ht (j := 4) (by decide)
      (hread.trans ((untrackedRead_of_full hlive halloc).trans ((chooseVictim_of_none hchoice).trans hrefuse))) hclose

end Sys2Proof.Machine

/-! # Requests refused at arrival, and replies nobody awaits -/

namespace Sys2Proof.Machine

set_option Elab.async false

/-! ## Refusals at arrival (O37) -/

section
variable {s : State} {k : ReqKind} {n : Node} {l : Line} {rest : List ReqMsg} {r : Reason}

/-- The answer of the Request Intake, sent or kept. -/
def State.arrivalRefused (s : State) (k : ReqKind) (n : Node) (l : Line) (r : Reason) (c : Counters) (rest : List ReqMsg) : State :=
  if s.answerQ.length < 64 then
    { s with reqIntake := rest, counters := c, answerQ := s.answerQ ++ [.refuse n l (.request k) r] }
  else
    { s with reqIntake := rest, counters := c, riHeld := some (.refuse n l (.request k) r), answerHeld := [.intake] }

theorem arrivalRefused_settled (hs : s.settled = true) (ha : s.answerHeld = []) (c : Counters) :
    (s.arrivalRefused k n l r c rest).settled = true := by
  obtain ⟨hw, ho, -⟩ := (settled_iff_walksRest s).1 hs
  unfold State.arrivalRefused
  split
  · exact settled_of_answered hs ha hw.done
  · rename_i hroom
    refine (settled_iff_walksRest _).2 ⟨hw.same, ?_, (placeHeldAnswer_none_iff _).2 (.inr (.inl (not_lt.1 hroom)))⟩
    rw [placeHeldOrder_none_iff] at ho ⊢
    exact ho

theorem refuseArrival_eq (ha : s.answerHeld = []) (c : Counters) (hc : (s.reqTaken rest).countArrival r =
    { s.reqTaken rest with counters := c }) : (s.reqTaken rest).refuseArrival k n l r = s.arrivalRefused k n l r c rest := by
  unfold State.refuseArrival State.arrivalRefused
  rw [hc]
  by_cases hroom : s.answerQ.length < 64
  · rw [if_pos hroom]
    exact intakeAnswer_of_room (s := { s.reqTaken rest with counters := c }) ha hroom _
  · have hno : State.answerRoom { s.reqTaken rest with counters := c } = false := by
      unfold State.answerRoom
      rw [show (State.answerHeld { s.reqTaken rest with counters := c }) = [] from ha]
      exact decide_eq_false hroom
    have hlist : s.answerHeld ++ [.intake] = [.intake] := by rw [ha]; rfl
    rw [if_neg hroom]
    unfold State.intakeAnswer
    rw [hno]
    exact congrArg (fun held => { s with
      reqIntake := rest, counters := c, riHeld := some (.refuse n l (.request k) r), answerHeld := held }) hlist

/-- A request that fails an arrival check. -/
theorem exec_refused (hs : s.Ready) (hri : s.riHeld = none) (ha : s.answerHeld = []) (hm : s.reqIntake = .request k n l :: rest)
    (hcheck : (s.reqTaken rest).arrivalCheck k n l = .error r) (c : Counters)
    (hc : (s.reqTaken rest).countArrival r = { s.reqTaken rest with counters := c }) :
    exec k.command s = .next (s.arrivalRefused k n l r c rest).driveEventN := by
  have harrive : (s.reqTaken rest).arrive k n l = ((s.reqTaken rest).refuseArrival k n l r, []) := by
    unfold State.arrive
    rw [hcheck]
  rw [exec_command, takeRequest_of_head hri hm, harrive, refuseArrival_eq ha c hc]
  exact event_settled hs.1 (arrivalRefused_settled hs.2 ha c)

/-- A verdict that refuses is the refusal. -/
theorem arrivalCheck_of_refusal (hlive : s.nodeState n = .live) (hv : s.windowVerdict k n l = .error r) :
    s.arrivalCheck k n l = .error r := by
  unfold State.arrivalCheck
  rw [if_neg (not_not.2 hlive), hv]

end

/-- Settles O37: the first check that fails names the reason. -/
theorem requestsRefusedAtArrival : Obligations.RequestsRefusedAtArrival := by
  intro s k hs
  refine ⟨fun ⟨a, ha⟩ => ?_, fun n l rest hri ha hm => ⟨fun hstate => ?_, fun hlive => ⟨fun hnone => ?_, fun v hv => ?_⟩⟩⟩
  · have hkept : s.takeRequest k = (s, []) := if_pos (by rw [ha]; rfl)
    rw [exec_command, hkept]
    exact event_settled hs.1 hs.2
  · have hcheck : (s.reqTaken rest).arrivalCheck k n l = .error .notLive := if_pos hstate
    exact exec_refused hs hri ha hm hcheck s.counters rfl
  · have hverdict : (s.reqTaken rest).windowVerdict k n l = .error .noHome := by
      unfold State.windowVerdict
      rw [show (s.reqTaken rest).windowOf l = none from hnone]
    exact exec_refused hs hri ha hm (arrivalCheck_of_refusal hlive hverdict) s.counters rfl
  · have hwin : (s.reqTaken rest).windowOf l = some v := hv
    refine ⟨fun hden => ?_, fun hall => ⟨fun hread => ?_, fun hread => ⟨fun hret => ?_, fun hret => ⟨fun hfrozen => ?_,
      fun hfrozen hfull => ?_⟩⟩⟩⟩
    · have hverdict : (s.reqTaken rest).windowVerdict k n l = .error .denied := by
        unfold State.windowVerdict
        rw [hwin]
        exact if_pos hden
      exact exec_refused hs hri ha hm (arrivalCheck_of_refusal hlive hverdict) s.counters rfl
    · have hverdict : (s.reqTaken rest).windowVerdict k n l = .error .readOnly := by
        unfold State.windowVerdict
        rw [hwin]
        exact (if_neg fun h => Bool.false_ne_true (h.symm.trans hall)).trans (if_pos hread)
      exact exec_refused hs hri ha hm (arrivalCheck_of_refusal hlive hverdict) s.counters rfl
    · have hverdict : (s.reqTaken rest).windowVerdict k n l = .error .retiring := by
        unfold State.windowVerdict
        rw [hwin]
        exact (if_neg fun h => Bool.false_ne_true (h.symm.trans hall)).trans ((if_neg hread).trans (if_pos hret))
      exact exec_refused hs hri ha hm (arrivalCheck_of_refusal hlive hverdict) s.counters rfl
    · have hverdict := windowVerdict_of_home (s := s.reqTaken rest) (k := k) hwin hall hread hret
      have hcheck : (s.reqTaken rest).arrivalCheck k n l = .error .setFrozen := by
        unfold State.arrivalCheck
        rw [if_neg (not_not.2 (show (s.reqTaken rest).nodeState n = .live from hlive)), hverdict]
        exact if_pos hfrozen
      exact exec_refused hs hri ha hm hcheck _ rfl
    · have hverdict := windowVerdict_of_home (s := s.reqTaken rest) (k := k) hwin hall hread hret
      have hcheck : (s.reqTaken rest).arrivalCheck k n l = .error .tableFull := by
        unfold State.arrivalCheck
        rw [if_neg (not_not.2 (show (s.reqTaken rest).nodeState n = .live from hlive)), hverdict]
        refine (if_neg hfrozen).trans ?_
        rcases hfull with hcredits | hslots
        · exact if_pos hcredits
        · exact (ite_eq_left_iff.2 fun _ => if_pos hslots)
      exact exec_refused hs hri ha hm hcheck _ rfl

/-! ## Replies taken from their intake -/

/-- The head of the REPLY intake taken off. -/
def State.replyTaken (s : State) (rest : List ReplyMsg) : State := { s with replyIntake := rest }

section
variable {s : State} {n : Node} {l : Line} {rest : List ReplyMsg}

theorem dropReply_of_head {m : ReplyMsg} (h : s.replyIntake = m :: rest) : s.dropReply = s.replyTaken rest := by
  unfold State.dropReply
  rw [h]
  rfl

theorem exec_revokeAck (h : s.replyIntake = .revokeAck n l :: rest) :
    exec .revokeAck s = s.event ((s.replyTaken rest).revokeAck n l) := by
  rw [← dropReply_of_head h]
  show s.event _ = _
  rw [h]

theorem exec_forwardDone {r : Result} (h : s.replyIntake = .forwardDone n l r :: rest) :
    exec .forwardDone s = s.event ((s.replyTaken rest).forwardDone n l r) := by
  rw [← dropReply_of_head h]
  show s.event _ = _
  rw [h]

theorem exec_recallDone {r : Result} (h : s.replyIntake = .recallDone n l r :: rest) :
    exec .recallDone s = s.event ((s.replyTaken rest).recallDone n l r) := by
  rw [← dropReply_of_head h]
  show s.event _ = _
  rw [h]

theorem exec_complete (h : s.replyIntake = .complete n l :: rest) :
    exec .complete s = s.event ((s.replyTaken rest).complete n l) := by
  rw [← dropReply_of_head h]
  show s.event _ = _
  rw [h]

theorem exec_surrenderDone {i : SetIx} {d : Nat} (h : s.replyIntake = .surrenderDone n i d :: rest) :
    exec .surrenderDone s = s.event ((s.replyTaken rest).surrenderDone n i d) := by
  rw [← dropReply_of_head h]
  show s.event _ = _
  rw [h]

theorem exec_fetchSent (h : s.replyIntake = .fetchSent l :: rest) :
    exec .fetchSent s = s.event ((s.replyTaken rest).fetchSent l) := by
  rw [← dropReply_of_head h]
  show s.event _ = _
  rw [h]

theorem exec_fetchFailed (h : s.replyIntake = .fetchFailed l :: rest) :
    exec .fetchFailed s = s.event ((s.replyTaken rest).fetchFailed l) := by
  rw [← dropReply_of_head h]
  show s.event _ = _
  rw [h]

theorem exec_absorbDone (h : s.replyIntake = .absorbDone l n :: rest) :
    exec .absorbDone s = s.event ((s.replyTaken rest).absorbDone l n) := by
  rw [← dropReply_of_head h]
  show s.event _ = _
  rw [h]

theorem awaiting_of_active {t : SlotIx} {x : Slot} (ha : s.activeOn l = some t) (hx : s.getSlot t = some x)
    (hn : NodeSet.has x.awaited n = true) : s.awaiting l n = some (t, x) := by
  unfold State.awaiting
  rw [ha]
  dsimp only
  rw [hx]
  exact if_pos hn

theorem awaiting_of_unawaited (h : ∀ t x, s.activeOn l = some t → s.getSlot t = some x → NodeSet.has x.awaited n = false) :
    s.awaiting l n = none := by
  unfold State.awaiting
  cases ha : s.activeOn l with
  | none => rfl
  | some t =>
    dsimp only
    cases hx : s.getSlot t with
    | none => rfl
    | some x => exact if_neg fun hn => Bool.false_ne_true ((h t x ha hx).symm.trans hn)

end

/-! ## Replies that match nothing (O48) -/

/-- Settles O48: the reply counts at its sender, as stale or, where it does not fit its order, as a violation. -/
theorem staleRepliesAreCounted : Obligations.StaleRepliesAreCounted := by
  intro s n rest hs counted
  have hcounted : s.event ((s.replyTaken rest).staleReply n) = .next counted.driveEventN :=
    event_settled hs.1 (settled_of_same hs.2)
  refine ⟨fun l hno => ?_, fun i d hno hm => ?_, fun l t x ha hx hn => ?_⟩
  · have hawait : (s.replyTaken rest).awaiting l n = none := awaiting_of_unawaited hno
    refine ⟨fun hm => ?_, fun r hm => ?_, fun r hm => ?_, fun hm => ?_⟩
    · rw [exec_revokeAck hm]
      unfold State.revokeAck
      rw [hawait]
      exact hcounted
    · rw [exec_forwardDone hm]
      unfold State.forwardDone
      rw [hawait]
      exact hcounted
    · rw [exec_recallDone hm]
      unfold State.recallDone
      rw [hawait]
      exact hcounted
    · rw [exec_complete hm]
      unfold State.complete
      rw [hawait]
      exact hcounted
  · have hnone : (s.replyTaken rest).slotsWith (fun x => x.rebuildsSet && x.setIx == some i && NodeSet.has x.awaited n) = [] := by
      refine (slotsWith_eq_nil_iff ..).2 fun t x hx => ?_
      by_contra h
      have h := Bool.eq_true_of_not_eq_false h
      simp only [Bool.and_eq_true, beq_iff_eq] at h
      exact Bool.false_ne_true ((hno t x hx h.1.1 h.1.2).symm.trans h.2)
    rw [exec_surrenderDone hm]
    unfold State.surrenderDone State.surrenderTaker
    rw [hnone]
    exact hcounted
  · intro violation
    have hawait : (s.replyTaken rest).awaiting l n = some (t, x) := awaiting_of_active ha hx hn
    have hviolation : s.event ((s.replyTaken rest).unfitReply n l t) = .next violation.driveEventN := by
      unfold State.unfitReply
      rw [chargeViolation_eq]
      exact event_settled hs.1 (settled_of_same hs.2)
    refine ⟨fun hout hm => ?_, fun hphase hm => ?_, fun r hout hm => ?_, fun r hout hm => ?_⟩
    · rw [exec_revokeAck hm]
      unfold State.revokeAck
      rw [hawait]
      dsimp only
      rw [if_neg hout]
      exact hcounted
    · rw [exec_complete hm]
      unfold State.complete
      rw [hawait]
      dsimp only
      rw [if_neg hphase]
      exact hcounted
    · rw [exec_forwardDone hm]
      unfold State.forwardDone
      rw [hawait]
      dsimp only
      cases ho : x.outstanding with
      | forward m => exact absurd ho (hout m)
      | _ => exact hviolation
    · rw [exec_recallDone hm]
      unfold State.recallDone
      rw [hawait]
      dsimp only
      rw [if_neg hout]
      exact hviolation

end Sys2Proof.Machine

/-! # Replies that carry a request on -/

namespace Sys2Proof.Machine

set_option Elab.async false

/-! ## A slot whose record changes beside its rebuild -/

section
variable {s : State} {t : SlotIx} {x y : Slot} {n : Node} {l : Line} {w : WayIx} {c : Content} {v : WinIx}

theorem rebuildsSet_congr (h : y.rebuild = x.rebuild) : y.rebuildsSet = x.rebuildsSet := by
  unfold Slot.rebuildsSet
  rw [h]

/-- A slot that keeps its rebuild, if any, leaves a quiet part quiet. -/
theorem State.Quiet.changed (h : s.Quiet) (hx : s.getSlot t = some x) (hy : y.rebuild = x.rebuild) :
    (s.putSlot t (some y)).Quiet := h.putSlot t fun z hz => by
  cases hz
  exact (rebuildsSet_congr hy).trans (h.slot hx)

theorem State.Quiet.emptied (h : s.Quiet) (t : SlotIx) : (s.putSlot t none).Quiet := h.putSlot t fun _ h => by cases h

theorem State.Quiet.closed (h : s.Quiet) (t : SlotIx) (n : Option Node) (v : WinIx) : (s.closed t n v).Quiet := by
  cases n with
  | none => exact (h.emptied t).same
  | some n => exact (h.emptied t).same

theorem State.Quiet.frozenSet (h : s.Quiet) (i : SetIx) : (s.getSet i).frozen = false := getSet_frozen h.noFrozen i

/-! ## The GRANT that follows the last reply (R50) -/

/-- A first GRANT sent, on a way that the transaction holds. -/
def State.grantSent (s : State) (t : SlotIx) (x : Slot) (n : Node) (l : Line) (w : WayIx) (p : Permission) (src : Source) : State :=
  { (s.putSlot t (some (x.granted s n p src false))).putSet (setOf l)
      { s.getSet (setOf l) with order := w :: (s.getSet (setOf l)).order.erase w } with
    answerQ := s.answerQ ++ [.grant n l p src false false] }

theorem nextStep_grant (hn : s.NoneHeld) (hx : s.getSlot t = some x) (hp : x.pending = none) (ha : x.awaited = 0#8)
    (hm : x.memWait = .noWait) (hk : x.kind.recall = false) (hq : x.requester = some n) (hl : x.line = some l)
    (hw : x.working = some ⟨w, c⟩) (hd : s.isDirect x = false) (hroom : s.answerQ.length < 64) :
    s.nextStep t = (s.grantSent t x n l w x.kind.permission x.grantSource, []) := by
  have hset : x.setIx = some (setOf l) := by unfold Slot.setIx; rw [hl]
  have hgrant := sendAnswer_grant (s := s.putSlot t (some { x with timer := none })) (x := { x with timer := none })
    ⟨hn.order, hn.answer⟩ (getSlot_putSlot_self ..) hp hroom hw hset n l x.kind.permission x.grantSource false
  rw [nextStep_of_request hn hx hp ha hm hk hq hl, hd, hgrant, putSlot_putSlot]
  rfl

/-- The GRANT of a request that holds no way. -/
theorem nextStep_grant_unheld (hn : s.NoneHeld) (hx : s.getSlot t = some x) (hp : x.pending = none) (ha : x.awaited = 0#8)
    (hm : x.memWait = .noWait) (hk : x.kind.recall = false) (hq : x.requester = some n) (hl : x.line = some l)
    (hw : x.working = none) (hroom : s.answerQ.length < 64) : s.nextStep t =
      ({ s.putSlot t (some (x.granted s n x.kind.permission x.grantSource (s.isDirect x))) with
        answerQ := s.answerQ ++ [.grant n l x.kind.permission x.grantSource (s.isDirect x) false] }, []) := by
  have hgrant := sendAnswer_grant_unheld (s := s.putSlot t (some { x with timer := none })) (x := { x with timer := none })
    ⟨hn.order, hn.answer⟩ (getSlot_putSlot_self ..) hp hroom hw n l x.kind.permission x.grantSource (s.isDirect x)
  rw [nextStep_of_request hn hx hp ha hm hk hq hl, hgrant, putSlot_putSlot]
  rfl

theorem nextStep_of_waiting (hx : s.getSlot t = some x) (h : x.awaited ≠ 0#8 ∨ x.memWait ≠ .noWait) : s.nextStep t = (s, []) := by
  have hcond : x.awaited ≠ 0#8 ∨ x.memWait ≠ .noWait ∨ x.answerPending = true := h.imp_right .inl
  unfold State.nextStep
  rw [hx]
  exact if_pos hcond

theorem State.Quiet.grantSent (h : s.Quiet) (hx : s.getSlot t = some x) (p : Permission) (src : Source) :
    (s.grantSent t x n l w p src).Quiet := by
  refine ((h.changed hx (y := x.granted s n p src false) rfl).putSet (setOf l) (r := { s.getSet (setOf l) with
    order := w :: (s.getSet (setOf l)).order.erase w }) ?_).same
  exact h.frozenSet (setOf l)

/-- An event that leaves a quiet part quiet, with nothing more to do. -/
theorem event_quiet {q : State} (hs : s.resetN = .high) (h : q.Quiet) : s.event (q, []) = .next q.driveEventN :=
  event_settled hs (Quiet_settled h)

end

/-! ## REVOKE_ACK (O50) -/

theorem revokeAcked_of_shared {s : State} {t : SlotIx} {x : Slot} {n : Node} {w : WayIx} {m : NodeSet} (hx : s.getSlot t = some x)
    (hw : x.working = some ⟨w, .shared m⟩) (hm : NodeSet.remove m n ≠ 0#8) : s.revokeAcked t n =
      (s.putSlot t (some { x with
        awaited := NodeSet.remove x.awaited n, working := some ⟨w, .shared (NodeSet.remove m n)⟩ })).nextStep t := by
  have hdrop : dropSharer n (.shared m) = .shared (NodeSet.remove m n) := if_neg hm
  have hstate : (s.modSlot t (fun y => { y with awaited := NodeSet.remove y.awaited n })).dropSharerOf t n =
      s.putSlot t (some { x with
        awaited := NodeSet.remove x.awaited n, working := some ⟨w, .shared (NodeSet.remove m n)⟩ }) := by
    unfold State.dropSharerOf
    rw [modSlot_of_slot hx, modSlot_putSlot_self]
    dsimp only
    rw [hw, ← hdrop]
    rfl
  unfold State.revokeAcked
  rw [hstate]
  dsimp only
  rw [getSlot_putSlot_self, copyEmptied_of_slot (getSlot_putSlot_self ..)]
  rfl

/-- Settles O50: the sharer goes, and the last one lets the GRANT go. -/
theorem revokeAckRemovesASharer : Obligations.RevokeAckRemovesASharer := by
  intro s n l rest t x w m h hm ha hx hl hn hout hw hrem y r
  have hslot : (r.putSlot t (some y)).getSlot t = some y := getSlot_putSlot_self ..
  have hacked : r.revokeAck n l = (r.putSlot t (some y)).nextStep t := by
    unfold State.revokeAck
    rw [show r.awaiting l n = some (t, x) from awaiting_of_active ha hx hn]
    dsimp only
    rw [if_pos hout]
    exact revokeAcked_of_shared hx hw hrem
  have hexec : exec .revokeAck s = s.event ((r.putSlot t (some y)).nextStep t) :=
    (exec_revokeAck hm).trans (congrArg s.event hacked)
  have hquiet : (r.putSlot t (some y)).Quiet := (h.same (s' := r)).changed hx rfl
  refine ⟨fun hwait => ?_, fun q hzero hmem hp hq hd hk hconv hroom => ?_⟩
  · rw [hexec, nextStep_of_waiting hslot hwait]
    exact event_quiet h.running hquiet
  · have hgrant := nextStep_grant hquiet.noneHeld hslot hp hzero hmem (by rw [show y.kind = .upgrade from hk]; rfl) hq hl rfl hd hroom
    have hsource : y.grantSource = .noSource := if_pos ⟨hk, hconv⟩
    have hperm : y.kind.permission = .owned := by rw [show y.kind = .upgrade from hk]; rfl
    rw [hsource, hperm] at hgrant
    have hdone := event_quiet h.running (hquiet.grantSent (n := q) (l := l) (w := w) hslot .owned .noSource)
    rw [hexec, hgrant, hdone]
    unfold State.grantSent
    rw [putSlot_putSlot]
    rfl

/-! ## FORWARD_DONE (O51) -/

section
variable {s : State} {t : SlotIx} {x : Slot} {n : Node} {l : Line}

theorem remove_single (n : Node) : NodeSet.remove (NodeSet.single n) n = 0#8 := by
  revert n
  decide

theorem answered_eq (hx : s.getSlot t = some x) (n : Node) :
    s.answered t n = s.putSlot t (some { x with awaited := NodeSet.remove x.awaited n }) := modSlot_of_slot hx _

/-- A store wait of a kind on a node. -/
def Slot.waits (x : Slot) (s : State) (m : MemWait) : Slot :=
  { x with phase := .awaitStore, awaited := 0#8, memWait := m, outstanding := .nothing, timer := some s.limits.orderTimeout.toNat }

/-- A store wait entered with no notice to take. -/
theorem enterConsuming_waits (hn : s.NoneHeld) (hx : s.getSlot t = some x) (hp : x.pending = none) (hl : x.line = some l)
    (hno : s.takesNotice x l n = false) : s.enterConsuming t n = (s.putSlot t (some (x.waits s (.consuming n))), []) :=
  enterConsuming_of_slot hn hx hp hl hno

/-- A request that is no WRITEBACK takes no claimed notice. -/
theorem takesNotice_of_claimed (hk : x.kind ≠ .writeback) (h : ∀ v, s.noticeFor l n = some v → v.claimed = true) :
    s.takesNotice x l n = false := by
  unfold State.takesNotice
  cases hv : s.noticeFor l n with
  | none => rfl
  | some v =>
    dsimp only
    rw [h v hv, beq_eq_false_iff_ne.2 hk]
    rfl

/-- A slot that keeps its kind, requester and line leaves which requests are present. -/
theorem requestPresent_putSlot {y : Slot} {k : Kind} {m : Node} {b : Line} (hx : s.getSlot t = some x) (hk : y.kind = x.kind)
    (hq : y.requester = x.requester) (hl : y.line = x.line) :
    (s.putSlot t (some y)).requestPresent k m b = s.requestPresent k m b := by
  refine congrArg (fun ts : List SlotIx => !ts.isEmpty) (slotsWith_congr fun u => ?_)
  rw [getSlot_putSlot]
  split
  · rename_i hu
    rw [hu, hx, Option.any_some, Option.any_some, hk, hq, hl]
  · rfl

/-- NOT_HELD with neither a notice nor a DROP of the owner's present. -/
theorem notHeld_waits (hn : s.NoneHeld) (hx : s.getSlot t = some x) (hp : x.pending = none) (hno : s.noticeFor l n = none)
    (hdrop : s.requestPresent .drop n l = false) : s.notHeld t l n = (s.putSlot t (some (x.waits s (.observing n))), []) := by
  have hcond : ¬((s.noticeFor l n).isSome || s.requestPresent .drop n l) = true := by
    rw [hno, hdrop]
    exact Bool.noConfusion
  unfold State.notHeld
  rw [if_neg hcond, setAside_of_clear hn hx hp, modSlot_of_slot hx]
  rfl

theorem permission_of_read (hk : x.kind = .readShared ∨ x.kind = .readOwn ∨ x.kind = .upgrade) :
    x.kind.permission = if x.kind = .readShared then .shared else .owned := by
  rcases hk with hk | hk | hk <;> rw [hk] <;> rfl

theorem recall_of_read (hk : x.kind = .readShared ∨ x.kind = .readOwn ∨ x.kind = .upgrade) : x.kind.recall = false := by
  rcases hk with hk | hk | hk <;> rw [hk] <;> rfl

theorem kind_ne_writeback (hk : x.kind = .readShared ∨ x.kind = .readOwn ∨ x.kind = .upgrade) : x.kind ≠ .writeback := by
  rcases hk with hk | hk | hk <;> rw [hk] <;> nofun

/-- The data of a GRANT of a line forwarded comes from its owner. -/
theorem grantSource_of_owned {w : WayIx} (hw : x.working = some ⟨w, .owned n⟩) : x.grantSource = .node n := by
  unfold Slot.grantSource
  rw [hw]
  rfl

end

/-- Settles O51: each result of the forwarding owner's answer. -/
theorem forwardDoneDecides : Obligations.ForwardDoneDecides := by
  intro s n q l res rest t x w mode h hm ha hx hl hawait hout hw hmem hp hq hd hk r p waits
  let y : Slot := { x with awaited := NodeSet.remove x.awaited n }
  have hzero : y.awaited = 0#8 := (congrArg (NodeSet.remove · n) hawait).trans (remove_single n)
  have hslot : (r.putSlot t (some y)).getSlot t = some y := getSlot_putSlot_self ..
  have hquiet : (r.putSlot t (some y)).Quiet := (h.same (s' := r)).changed hx rfl
  have hhas : NodeSet.has x.awaited n = true := by rw [hawait, has_single]; exact decide_eq_true rfl
  have hforward : ∀ u : Work, (res = .clean ∨ (res = .dirty ∧ mode = .move) → (r.putSlot t (some y)).nextStep t = u) →
      (res = .dirty → mode = .share → (r.putSlot t (some y)).enterConsuming t n = u) →
      (res = .notHeld → (r.putSlot t (some y)).notHeld t l n = u) → exec .forwardDone s = s.event u := by
    intro u hgrant hstore hwatch
    rw [exec_forwardDone hm]
    refine congrArg s.event ?_
    unfold State.forwardDone
    rw [show (s.replyTaken rest).awaiting l n = some (t, x) from awaiting_of_active ha hx hhas]
    dsimp only
    rw [hout]
    dsimp only
    rw [show (s.replyTaken rest).answered t n = r.putSlot t (some y) from answered_eq (s := r) hx n]
    cases res with
    | clean => exact hgrant (.inl rfl)
    | dirty =>
      cases mode with
      | share => exact hstore rfl rfl
      | move => exact hgrant (.inr ⟨rfl, rfl⟩)
    | notHeld => exact hwatch rfl
  have hwaits : ∀ m, (r.putSlot t (some y)).putSlot t (some (y.waits (r.putSlot t (some y)) m)) = waits m :=
    fun m => putSlot_putSlot r t _ _
  have hwaiting : ∀ m, (waits m).Quiet := fun m => (h.same (s' := r)).changed hx rfl
  refine ⟨fun hres hroom => ?_, fun hdirty hshare hclaimed => ?_, fun hres hno hdrop => ?_⟩
  · have hgrant := nextStep_grant hquiet.noneHeld hslot hp hzero hmem (recall_of_read hk) hq hl hw hd hroom
    rw [permission_of_read hk, grantSource_of_owned (x := y) hw] at hgrant
    rw [hforward _ (fun _ => hgrant) (fun h1 h2 => by rcases hres with h | ⟨-, h⟩ <;> simp_all)
      (fun h1 => by rcases hres with h | ⟨h, -⟩ <;> simp_all)]
    rw [event_quiet h.running (hquiet.grantSent (n := q) (l := l) (w := w) hslot p (.node n))]
    unfold State.grantSent
    rw [putSlot_putSlot]
    rfl
  · have hwait := enterConsuming_waits hquiet.noneHeld hslot hp hl (takesNotice_of_claimed (s := r.putSlot t (some y))
      (kind_ne_writeback hk) hclaimed)
    rw [hwaits] at hwait
    subst hdirty hshare
    rw [hforward _ (fun h => by rcases h with h | ⟨-, h⟩ <;> cases h) (fun _ _ => hwait) nofun]
    exact event_quiet h.running (hwaiting _)
  · have hwait := notHeld_waits (s := r.putSlot t (some y)) (l := l) (n := n) hquiet.noneHeld hslot hp hno
      ((requestPresent_putSlot (s := r) (y := y) hx rfl rfl rfl).trans hdrop)
    rw [hwaits] at hwait
    subst hres
    rw [hforward _ (fun h => by rcases h with h | ⟨h, -⟩ <;> cases h) nofun (fun _ => hwait)]
    exact event_quiet h.running (hwaiting _)

end Sys2Proof.Machine

/-! # Replies that close a request -/

namespace Sys2Proof.Machine

set_option Elab.async false

/-! ## The close of a request alone on its line -/

section
variable {s q : State} {t : SlotIx} {x y : Slot} {l : Line} {v : WinIx} {w : WayIx} {c : Content}

/-- The only transaction of its line closes from any record that keeps its place. -/
theorem State.Sole.closing (h : s.Sole t x l v) (hn : q.NoneHeld) (hslots : q.slots = (s.putSlot t (some y)).slots)
    (hl : y.line = x.line) (hr : y.rank = x.rank) (hw : y.window = x.window) (hv : y.victimLink = x.victimLink)
    (hp : y.pending = none) (hclaim : ∀ n, y.kind = .writeback → y.requester = some n → q.noticeFor l n = none) :
    q.Closing t y l v where
  held := hn
  slot := by
    unfold State.getSlot
    rw [hslots]
    exact getSlot_putSlot_self ..
  line := hl.trans h.line
  only := fun u z hz hzl => by
    unfold State.getSlot at hz
    rw [hslots] at hz
    exact onlyOn_putSlot (onlyOn_of_alone h.alone) _ u z hz hzl
  rank := hr.trans h.rank
  window := hw.trans h.window
  unlinked := hv.trans h.unlinked
  sent := hp
  claim := hclaim

theorem closed_withDir (d : List (SetIx × SetRec)) (n : Option Node) : (s.withDir d).closed t n v = (s.closed t n v).withDir d := by
  cases n <;> rfl

/-- The write-back of a copy that keeps its way, under no freeze. -/
theorem writeBack_kept (h : q.Closing t y l v) (hq : q.anyFrozen = false) (hw : y.working = some ⟨w, c⟩) (hkeep : q.keepsContent c)
    (hpois : c ≠ .poisoned) (hk : y.kind ≠ .victimRecall) (hb : (q.getWay (setOf l) w).body.check = .good) :
    q.writeBack t = (q.withDir (q.putWay (setOf l) w { q.getWay (setOf l) w with body := coded ⟨c, none, false⟩ }).dir).putSlot t
      (some { y with working := none }) := by
  have hset : y.setIx = some (setOf l) := by unfold Slot.setIx; rw [h.line]
  have hfrozen : ¬(q.frozen (setOf l) = true ∨ y.kind = .victimRecall) := by
    rintro (hf | hv)
    · exact Bool.false_ne_true ((frozen_of_anyFrozen hq (setOf l)).symm.trans hf)
    · exact hk hv
  have hkept : ¬(c = .free ∨ c = .reserved ∨ (c = .poisoned ∧ ((q.getWay (setOf l) w).body.stored.release = true ∨
      y.kind = .retireRecall))) := by
    rintro (h | h | ⟨h, -⟩)
    · exact hkeep.1 h
    · exact hkeep.2.1 h
    · exact hpois h
  have hwb := writeBack_of_held h.slot hw hset hkeep.2.2 hb
  dsimp only at hwb
  rw [if_neg hkept, if_neg hfrozen, nextBehind_of_only h.only h.slot h.line h.rank] at hwb
  exact hwb

/-- The write-back of a copy that frees its way. -/
theorem writeBack_freed (h : q.Closing t y l v) (hw : y.working = some ⟨w, c⟩) (hc : c = .free ∨ c = .reserved)
    (hb : (q.getWay (setOf l) w).body.check = .good) : q.writeBack t =
      (q.withDir (q.makeFree (setOf l) w).dir).putSlot t (some { y with working := none }) := by
  have hset : y.setIx = some (setOf l) := by unfold Slot.setIx; rw [h.line]
  have hedit : editContent q.purgingNodes c = c := by rcases hc with rfl | rfl <;> rfl
  have hwb := writeBack_of_held h.slot hw hset hedit hb
  dsimp only at hwb
  rw [if_pos (hc.imp_right .inl)] at hwb
  exact hwb

theorem writeBack_unheld (h : q.Closing t y l v) (hw : y.working = none) :
    q.writeBack t = (q.withDir q.dir).putSlot t (some { y with working := none }) := by
  have hsame : ({ y with working := none } : Slot) = y := by
    obtain ⟨⟩ := y
    dsimp only at hw
    subst hw
    rfl
  rw [writeBack_of_none h.slot hw, hsame]
  exact (putSlot_self h.slot).symm

/-- The close of a request alone on its line. -/
theorem drain_sole {d : List (SetIx × SetRec)} (h : q.Closing t y l v) (hq : (q.withDir d).Quiet)
    (hlive : (q.getWindow v).state = .live) (hc : y.counted = false)
    (hwb : q.writeBack t = (q.withDir d).putSlot t (some { y with working := none })) :
    drain 4 q [.close t, .settle] = some ((q.closed t y.requester v).withDir d) := by
  refine drain_close_request (k := 1) h hlive hc hwb ?_
  rw [closed_withDir]
  refine drain_settle (Quiet_settled ?_) 0
  rw [← closed_withDir]
  exact hq.closed t y.requester v

/-- A close carried out by itself. -/
theorem drain_of_close {k : Nat} {s u : State} {t : SlotIx} {ts : List Task} (h : drain (k + 1) s (.close t :: ts) = some u) :
    drain k (s.close t).1 ((s.close t).2 ++ ts) = some u := by
  rw [drain_cons] at h
  exact h

end

/-! ## COMPLETE (O54) -/

/-- Settles O54: the sender is the one awaited, and the copy goes back. -/
theorem completeCloses : Obligations.CompleteCloses := by
  intro s n l rest t x v h hm ha hs hphase hn hq hk r
  let y : Slot := { x with awaited := NodeSet.remove x.awaited n }
  let p : State := (s.replyTaken rest).putSlot t (some y)
  have hnotrecall : y.kind ≠ .victimRecall := by
    show x.kind ≠ _
    rcases hk with hk | hk | hk <;> rw [hk] <;> nofun
  have hquiet : p.Quiet := (h.same (s' := s.replyTaken rest)).changed hs.slot rfl
  have hclosing : p.Closing t y l v := hs.closing (y := y) hquiet.noneHeld rfl rfl rfl rfl rfl hs.sent
    fun _ hw => absurd hw (kind_ne_writeback hk)
  have hexec : ∀ {e : State}, drain 4 p [.close t, .settle] = some e → exec .complete s = .next e.driveEventN := by
    intro e hdrain
    have hcomplete : (s.replyTaken rest).complete n l = p.close t := by
      unfold State.complete
      rw [show (s.replyTaken rest).awaiting l n = some (t, x) from awaiting_of_active ha hs.slot hn]
      dsimp only
      rw [if_pos hphase, answered_eq (s := s.replyTaken rest) hs.slot n]
    rw [exec_complete hm, hcomplete]
    exact event_of_drain 3 (by decide) h.running (drain_of_close hdrain)
  have hclosed : p.closed t y.requester v = r := by
    rw [show y.requester = some n from hq]
    exact closed_putSlot (s.replyTaken rest) t (some y) (some n) v
  refine ⟨fun w c hw hkeep hpois hb => ?_, fun hw => ?_⟩
  · have hwb := writeBack_kept hclosing hquiet.noFrozen hw hkeep hpois hnotrecall hb
    have hdrain := drain_sole hclosing (hquiet.putWay (setOf l) w _).same hs.windowLive hs.uncounted hwb
    rw [hclosed] at hdrain
    exact hexec hdrain
  · have hdrain := drain_sole hclosing hquiet.same hs.windowLive hs.uncounted (writeBack_unheld hclosing hw)
    rw [hclosed] at hdrain
    exact hexec hdrain

/-! ## FETCH_SENT and FETCH_FAILED (O55) -/

section
variable {s : State} {t : SlotIx} {x : Slot} {l : Line} {w : WayIx} {c : Content}

/-- Data not passed on by an owner comes from memory, but for an UPGRADE not converted. -/
theorem grantSource_of_memory (hc : ∀ k o, x.working = some k → k.content ≠ .owned o)
    (hk : x.kind = .readShared ∨ x.kind = .readOwn ∨ (x.kind = .upgrade ∧ x.converted = true)) : x.grantSource = .memory := by
  have hnot : ¬(x.kind = .upgrade ∧ x.converted = false) := by
    rintro ⟨h1, h2⟩
    rcases hk with hk | hk | ⟨-, hk⟩
    · rw [hk] at h1; cases h1
    · rw [hk] at h1; cases h1
    · rw [hk] at h2; cases h2
  unfold Slot.grantSource
  cases hw : x.working with
  | none => exact if_neg hnot
  | some k =>
    obtain ⟨w, c⟩ := k
    cases c with
    | owned o => exact absurd rfl (hc _ o hw)
    | _ => exact if_neg hnot

theorem fetching_of_active (ha : s.activeOn l = some t) (hx : s.getSlot t = some x) (hm : x.memWait = .fetchSent) :
    s.fetching l = some t := by
  unfold State.fetching
  rw [ha]
  exact if_pos (by rw [hx]; exact congrArg some hm)

/-- A record whose FETCH is answered. -/
def Slot.fetched (x : Slot) : Slot := { x with memWait := .noWait }

theorem fetchSent_of_active (ha : s.activeOn l = some t) (hx : s.getSlot t = some x) (hm : x.memWait = .fetchSent) :
    s.fetchSent l = (s.putSlot t (some x.fetched)).nextStep t := by
  unfold State.fetchSent
  rw [fetching_of_active ha hx hm]
  exact congrArg (fun q : State => q.nextStep t) (modSlot_of_slot hx _)

theorem fetchFailed_of_active (ha : s.activeOn l = some t) (hx : s.getSlot t = some x) (hm : x.memWait = .fetchSent) :
    s.fetchFailed l = (s.putSlot t (some x.fetched)).refuse t .memoryFault := by
  unfold State.fetchFailed
  rw [fetching_of_active ha hx hm]
  exact congrArg (fun q : State => q.refuse t .memoryFault) (modSlot_of_slot hx _)

theorem read_of_converted (hk : x.kind = .readShared ∨ x.kind = .readOwn ∨ (x.kind = .upgrade ∧ x.converted = true)) :
    x.kind = .readShared ∨ x.kind = .readOwn ∨ x.kind = .upgrade := hk.imp_right fun hk => hk.imp_right And.left

end

/-- A read request refused MEMORY_FAULT, whose write-back changes the directory alone. -/
theorem event_fetchFailed {s : State} {t : SlotIx} {x : Slot} {l : Line} {v : WinIx} {n : Node} {rest : List ReplyMsg}
    {d : List (SetIx × SetRec)} (h : s.Quiet) (hm : s.replyIntake = .fetchFailed l :: rest) (ha : s.activeOn l = some t)
    (hs : s.Sole t x l v) (hwait : x.memWait = .fetchSent) (hq : x.requester = some n) (hn : s.nodeState n ≠ .purging)
    (hroom : s.answerQ.length < 64) (hkind : x.kind ≠ .writeback) (hd : (s.withDir d).Quiet)
    (hwb : ∀ p : State, p.dir = s.dir → p.nodes = s.nodes → p.Closing t x.fetched l v →
      p.writeBack t = (p.withDir d).putSlot t (some { x.fetched with working := none })) :
    exec .fetchFailed s = .next (State.driveEventN
      { ((s.replyTaken rest).closed t (some n) v).withDir d with
        answerQ := s.answerQ ++ [.refuse n l (.request x.kind.toReqKind) .memoryFault] }) := by
  let p : State := { (s.replyTaken rest).putSlot t (some x.fetched) with
    answerQ := s.answerQ ++ [.refuse n l (.request x.kind.toReqKind) .memoryFault] }
  have hnone : ((s.replyTaken rest).putSlot t (some x.fetched)).NoneHeld := ⟨h.noHeldOrder, h.noHeldAnswer⟩
  have hrefuse := refuse_of_room (s := (s.replyTaken rest).putSlot t (some x.fetched)) (t := t) (x := x.fetched) (r := .memoryFault)
    (getSlot_putSlot_self ..) hq hs.line hn rfl hnone (getSlot_putSlot_self ..) hs.sent hroom
  have hclosing : p.Closing t x.fetched l v := hs.closing (y := x.fetched) ⟨h.noHeldOrder, h.noHeldAnswer⟩ rfl rfl rfl rfl rfl hs.sent
    fun _ hw => absurd hw hkind
  have hquiet : (p.withDir d).Quiet := (hd.changed (t := t) (x := x) hs.slot (y := x.fetched) rfl).same
  have hdrain := drain_sole hclosing hquiet hs.windowLive hs.uncounted (hwb p rfl rfl hclosing)
  have hclosed : p.closed t x.fetched.requester v = { (s.replyTaken rest).closed t (some n) v with
      answerQ := s.answerQ ++ [.refuse n l (.request x.kind.toReqKind) .memoryFault] } := by
    rw [show x.fetched.requester = some n from hq]
    exact closed_putSlot { s.replyTaken rest with answerQ := s.answerQ ++ [.refuse n l (.request x.kind.toReqKind) .memoryFault] }
      t (some x.fetched) (some n) v
  rw [hclosed] at hdrain
  rw [exec_fetchFailed hm, fetchFailed_of_active (s := s.replyTaken rest) ha hs.slot hwait, hrefuse]
  exact event_of_drain 4 (by decide) h.running hdrain

/-- Settles O55: the memory agent's answer grants, or refuses and closes. -/
theorem fetchRepliesDecide : Obligations.FetchRepliesDecide := by
  intro s n l rest t x v h ha hs hwait hq r p refusal
  have hslot : (r.putSlot t (some x.fetched)).getSlot t = some x.fetched := getSlot_putSlot_self ..
  have hquiet : (r.putSlot t (some x.fetched)).Quiet := (h.same (s' := r)).changed hs.slot rfl
  have hsent : s.replyIntake = .fetchSent l :: rest → exec .fetchSent s = s.event ((r.putSlot t (some x.fetched)).nextStep t) :=
    fun hm => (exec_fetchSent hm).trans (congrArg s.event (fetchSent_of_active (s := r) ha hs.slot hwait))
  refine ⟨fun w c hd hw hk => ⟨fun hm => ⟨fun hawait => ?_, fun hzero hown hroom => ?_⟩,
    fun hm hb hn hroom => ⟨fun hc => ?_, fun m hc hkeep => ?_⟩⟩,
    fun hd hw hk hroom => ⟨fun hm hzero => ?_, fun hm hn => ?_⟩⟩
  · rw [hsent hm, nextStep_of_waiting hslot (.inl hawait)]
    exact event_quiet h.running hquiet
  · have hread := read_of_converted hk
    have hgrant := nextStep_grant hquiet.noneHeld hslot hs.sent hzero rfl (recall_of_read hread) hq hs.line hw hd hroom
    have hsource : x.fetched.grantSource = .memory := grantSource_of_memory (fun k o hk' hc => by
      rw [show x.fetched.working = some ⟨w, c⟩ from hw] at hk'
      cases hk'
      exact hown o hc) hk
    rw [permission_of_read (x := x.fetched) hread, hsource] at hgrant
    rw [hsent hm, hgrant, event_quiet h.running (hquiet.grantSent (n := n) (l := l) (w := w) hslot _ .memory)]
    unfold State.grantSent
    rw [putSlot_putSlot]
    rfl
  · subst hc
    exact event_fetchFailed (d := (s.makeFree (setOf l) w).dir) h hm ha hs hwait hq hn hroom (kind_ne_writeback (read_of_converted hk))
      (makeFree_quiet h (setOf l) w).same fun p' hdir hnodes hclosing => by
        have hway : p'.getWay (setOf l) w = s.getWay (setOf l) w := by unfold State.getWay State.getSet; rw [hdir]
        have hmade : (p'.makeFree (setOf l) w).dir = (s.makeFree (setOf l) w).dir := by
          unfold State.makeFree State.putSet State.getSet
          rw [hdir]
        rw [writeBack_freed hclosing hw (.inr rfl) (by rw [hway]; exact hb), hmade]
  · subst hc
    have hnotrecall : x.fetched.kind ≠ .victimRecall := by
      show x.kind ≠ _
      rcases hk with hk | hk | ⟨hk, -⟩ <;> rw [hk] <;> nofun
    exact event_fetchFailed (d := (s.putWay (setOf l) w { s.getWay (setOf l) w with body := coded ⟨.shared m, none, false⟩ }).dir) h hm ha hs hwait hq hn hroom (kind_ne_writeback (read_of_converted hk))
      (h.putWay (setOf l) w { s.getWay (setOf l) w with body := coded ⟨.shared m, none, false⟩ }).same fun p' hdir hnodes hclosing => by
        have hway : p'.getWay (setOf l) w = s.getWay (setOf l) w := by unfold State.getWay State.getSet; rw [hdir]
        have hfrozen : p'.anyFrozen = false := by unfold State.anyFrozen; rw [hdir]; exact h.noFrozen
        have hkeep' : p'.keepsContent (.shared m) := by
          refine ⟨hkeep.1, hkeep.2.1, ?_⟩
          rw [show p'.purgingNodes = s.purgingNodes from purgingNodes_congr fun o => by
            unfold State.nodeState State.getNode; rw [hnodes]]
          exact hkeep.2.2
        have hput : ∀ y, (p'.putWay (setOf l) w y).dir = (s.putWay (setOf l) w y).dir := fun y => by
          unfold State.putWay State.putSet State.getSet
          rw [hdir]
        rw [writeBack_kept hclosing hfrozen hw hkeep' nofun hnotrecall (by rw [hway]; exact hb), hput, hway]
  · have hread : x.kind = .readShared ∨ x.kind = .readOwn ∨ x.kind = .upgrade := hk.imp_right .inl
    have hgrant := nextStep_grant_unheld hquiet.noneHeld hslot hs.sent hzero rfl (recall_of_read hread) hq hs.line hw hroom
    have hsource : x.fetched.grantSource = .memory := grantSource_of_memory (fun k o hk' => by
      rw [show x.fetched.working = none from hw] at hk'
      cases hk') (hk.imp_right .inl)
    have hdirect : (r.putSlot t (some x.fetched)).isDirect x.fetched = true := hd
    rw [permission_of_read (x := x.fetched) hread, hsource, hdirect, putSlot_putSlot] at hgrant
    rw [hsent hm, hgrant]
    refine event_quiet h.running ?_
    exact (h.changed hs.slot (y := x.granted s n p .memory true) rfl).same
  · have hread : x.kind = .readShared ∨ x.kind = .readOwn ∨ x.kind = .upgrade := hk.imp_right .inl
    exact event_fetchFailed (d := s.dir) h hm ha hs hwait hq hn hroom (kind_ne_writeback hread) h.same
      fun p' hdir hnodes hclosing => by rw [writeBack_unheld hclosing hw, hdir]

end Sys2Proof.Machine

/-! # Recalls that end with their way freed -/

namespace Sys2Proof.Machine

set_option Elab.async false

/-! ## The close of a recall leaves a quiet part quiet -/

section
variable {s : State} {t : SlotIx} {x : Slot} {v : WinIx}

/-- The jobs after the close of a recall, by whom it counts for. -/
theorem recallClosed_jobs (s : State) (t : SlotIx) (x : Slot) (v : WinIx) :
    (x.counted = false ∧ (s.recallClosed t x v).maint = s.maint ∧ (s.recallClosed t x v).purgeJobs = s.purgeJobs) ∨
    (x.counted = true ∧ ∃ q, x.kind = .leaveRecall ∧ x.target = some q ∧ (s.recallClosed t x v).maint = s.maint ∧
      (s.recallClosed t x v).purgeJobs =
        (s.putJob q ((s.getJob q).map (fun j => { j with openRecalls := j.openRecalls - 1 }))).purgeJobs) ∨
    (x.counted = true ∧ (x.kind ≠ .leaveRecall ∨ x.target = none) ∧
      (s.recallClosed t x v).maint = s.maint.map (fun j => { j with openCount := j.openCount - 1 }) ∧
      (s.recallClosed t x v).purgeJobs = s.purgeJobs) := by
  unfold State.recallClosed
  dsimp only
  cases hc : x.counted with
  | false => exact .inl ⟨rfl, rfl, rfl⟩
  | true =>
    refine .inr ?_
    cases hk : x.kind with
    | leaveRecall =>
      cases ht : x.target with
      | none => exact .inr ⟨rfl, .inr rfl, rfl, rfl⟩
      | some q => exact .inl ⟨rfl, q, rfl, rfl, rfl, rfl⟩
    | _ => exact .inr ⟨rfl, .inl nofun, rfl, rfl⟩

/-- What the close of a recall leaves as it was. -/
theorem recallClosed_eq (s : State) (t : SlotIx) (x : Slot) (v : WinIx) : s.recallClosed t x v = { s with
    slots := (s.putSlot t none).slots, windows := (s.recallClosed t x v).windows, maint := (s.recallClosed t x v).maint
    purgeJobs := (s.recallClosed t x v).purgeJobs } := by
  unfold State.recallClosed
  dsimp only
  split
  · split <;> rfl
  · rfl

theorem recallClosed_withDir (s : State) (d : List (SetIx × SetRec)) (t : SlotIx) (x : Slot) (v : WinIx) :
    (s.withDir d).recallClosed t x v = (s.recallClosed t x v).withDir d := by
  unfold State.recallClosed
  dsimp only
  split
  · split <;> rfl
  · rfl

theorem doneNode_congr {s q : State} (hj : q.purgeJobs = s.purgeJobs) (hf : q.anyFrozen = s.anyFrozen) :
    q.doneNode = s.doneNode := by
  unfold State.doneNode State.purgeDone State.getJob
  rw [hj, hf]

/-- A job that counts one recall fewer is not done by it. -/
theorem doneNode_uncounted (h : s.doneNode = none) (hf : s.anyFrozen = false) {q : Node}
    (hgo : ∀ j, s.getJob q = some j → j.setsLeft ≠ 0 ∨ j.openRecalls ≠ 1) :
    (s.putJob q ((s.getJob q).map (fun j => { j with openRecalls := j.openRecalls - 1 }))).doneNode = none := by
  unfold State.doneNode at h ⊢
  rw [List.find?_eq_none] at h ⊢
  intro m hm
  have hdone := h m hm
  unfold State.purgeDone at hdone ⊢
  rw [getJob_putJob]
  by_cases hmq : m = q
  · subst hmq
    rw [if_pos rfl]
    cases hj : s.getJob m with
    | none => exact Bool.false_ne_true
    | some j =>
      have hgo' := hgo j hj
      rw [hj] at hdone
      have hf' : State.anyFrozen (s.putJob m (some { j with openRecalls := j.openRecalls - 1 })) = false := hf
      simp only [Option.map_some, hf', hf, Bool.not_false, Bool.and_true, Bool.and_eq_true, beq_iff_eq, not_and] at hdone ⊢
      intro hsets
      have hleft := hdone hsets
      cases hmode : j.mode with
      | silent => rw [hmode] at hleft; exact absurd rfl hleft
      | messaging =>
        rw [hmode] at hleft
        simp only [beq_iff_eq] at hleft ⊢
        omega
  · rw [if_neg hmq]
    exact hdone

/-- A maintenance job that counts one recall fewer is not ended by it. -/
theorem maintEnding_uncounted {q : State} (h : s.maintEnding = none) (hf : s.anyFrozen = false)
    (hgo : ∀ j, s.maint = some j → (j.run ≠ .finishing ∧ j.run ≠ .aborting) ∨ j.openCount ≠ 1)
    (hm : q.maint = s.maint.map (fun j => { j with openCount := j.openCount - 1 })) : q.maintEnding = none := by
  rw [maintEnding_none_iff] at h ⊢
  intro j hj
  rw [hm] at hj
  obtain ⟨i, hi, rfl⟩ := Option.map_eq_some_iff.1 hj
  obtain ⟨hfin, habort⟩ := h i hi
  have hgo' := hgo i hi
  refine ⟨fun hrun => .inr ?_, fun hrun => ?_⟩
  · rcases hfin hrun with ⟨hfr, -⟩ | ⟨hkind, hcount, hwalked⟩
    · exact absurd (hf.symm.trans hfr) Bool.false_ne_true
    · refine ⟨hkind, ?_, hwalked⟩
      have hne : i.openCount ≠ 1 := hgo'.resolve_left fun h => h.1 hrun
      dsimp only
      omega
  · have hcount := habort hrun
    have hne : i.openCount ≠ 1 := hgo'.resolve_left fun h => h.2 hrun
    dsimp only
    omega

/-- The close of a recall that ends no job leaves a quiet part quiet. -/
theorem State.Quiet.recallClosed (h : s.Quiet) (t : SlotIx) (v : WinIx) (hgo : s.jobsGoOn x) : (s.recallClosed t x v).Quiet := by
  have hslots : ∀ u y, (s.recallClosed t x v).getSlot u = some y → y.rebuildsSet = false := fun u y hy => by
    rw [recallClosed_getSlot] at hy
    exact (h.emptied t).slot hy
  have hfrozen : (s.recallClosed t x v).anyFrozen = false := by
    rw [recallClosed_eq]
    exact h.noFrozen
  have hfreeze : (s.recallClosed t x v).anyFrozen = s.anyFrozen := hfrozen.trans h.noFrozen.symm
  have hmaint : ∀ q : State, q.anyFrozen = s.anyFrozen → q.maint = s.maint → q.maintEnding = none := fun q hf hq => by
    have hend := h.noEnding
    rw [maintEnding_none_iff] at hend ⊢
    rw [hf, hq]
    exact hend
  have hcore : (s.recallClosed t x v).maintEnding = none ∧ (s.recallClosed t x v).doneNode = none := by
    rcases recallClosed_jobs s t x v with ⟨-, hm, hj⟩ | ⟨hc, q, hk, ht, hm, hj⟩ | ⟨hc, hk, hm, hj⟩
    · exact ⟨hmaint _ hfreeze hm, (doneNode_congr hj hfreeze).trans h.noDone⟩
    · exact ⟨hmaint _ hfreeze hm, (doneNode_congr hj hfreeze).trans
        (doneNode_uncounted h.noDone h.noFrozen fun j => (hgo hc).1 q j hk ht)⟩
    · exact ⟨maintEnding_uncounted h.noEnding h.noFrozen (fun j => (hgo hc).2 j hk) hm, (doneNode_congr hj hfreeze).trans h.noDone⟩
  have hshape := recallClosed_eq s t x v
  exact {
    running := (congrArg State.resetN hshape).trans h.running
    noRebuild := (slotsWith_eq_nil_iff ..).2 hslots
    noFrozen := hfrozen
    noPurgeStep := (congrArg State.purgeStep hshape).trans h.noPurgeStep
    noMaintStep := (congrArg State.maintStep hshape).trans h.noMaintStep
    noHeldOrder := (congrArg State.orderHeld hshape).trans h.noHeldOrder
    noHeldAnswer := (congrArg State.answerHeld hshape).trans h.noHeldAnswer
    noEnding := hcore.1
    noDone := hcore.2 }

end

/-! ## A recall whose way is freed (R90, R91) -/

/-- A recall alone on its line, at its head, that holds a way and ends no job. -/
structure State.Recalls (s : State) (t : SlotIx) (x : Slot) (l : Line) (v : WinIx) (w : WayIx) (c : Content) : Prop where
  quiet : s.Quiet
  slot : s.getSlot t = some x
  line : x.line = some l
  only : s.onlyOn l t
  rank : x.rank = some 0
  window : x.window = some v
  sent : x.pending = none
  requester : x.requester = none
  internal : x.kind.recall = true
  working : x.working = some ⟨w, c⟩
  readable : (s.getWay (setOf l) w).body.check = .good
  jobs : s.jobsGoOn x

/-- A recall's record that has given up its way and its waiter. -/
def Slot.released (x : Slot) : Slot := { x with working := none, victimLink := none }

section
variable {s : State} {t u : SlotIx} {x y : Slot} {l b : Line} {v : WinIx} {w : WayIx} {c : Content} {o : Node}

/-- Fields that a recall's end does not read. -/
theorem State.Recalls.same {q : State} (h : s.Recalls t x l v w c) (hslots : q.slots = s.slots := by rfl)
    (hdir : q.dir = s.dir := by rfl) (hreset : q.resetN = s.resetN := by rfl) (hpstep : q.purgeStep = s.purgeStep := by rfl)
    (hmstep : q.maintStep = s.maintStep := by rfl) (horder : q.orderHeld = s.orderHeld := by rfl)
    (hanswer : q.answerHeld = s.answerHeld := by rfl) (hmaint : q.maint = s.maint := by rfl)
    (hjobs : q.purgeJobs = s.purgeJobs := by rfl) : q.Recalls t x l v w c where
  quiet := h.quiet.same hslots hdir hreset hpstep hmstep horder hanswer hmaint hjobs
  slot := by unfold State.getSlot; rw [hslots]; exact h.slot
  line := h.line
  only := fun i z hz hl => h.only i z (by unfold State.getSlot at hz ⊢; rwa [hslots] at hz) hl
  rank := h.rank
  window := h.window
  sent := h.sent
  requester := h.requester
  internal := h.internal
  working := h.working
  readable := by unfold State.getWay State.getSet; rw [hdir]; exact h.readable
  jobs := by
    have hgo := h.jobs
    unfold State.jobsGoOn State.getJob at hgo ⊢
    rw [hmaint, hjobs]
    exact hgo

/-- Another record of the same recall. -/
theorem State.Recalls.changed (h : s.Recalls t x l v w c) {c' : Content} (hline : y.line = x.line) (hrank : y.rank = x.rank)
    (hwindow : y.window = x.window) (hsent : y.pending = none) (hq : y.requester = x.requester) (hk : y.kind = x.kind)
    (hw : y.working = some ⟨w, c'⟩) (hr : y.rebuild = x.rebuild) (hc : y.counted = x.counted) (ht : y.target = x.target) :
    (s.putSlot t (some y)).Recalls t y l v w c' where
  quiet := h.quiet.changed h.slot hr
  slot := getSlot_putSlot_self ..
  line := hline.trans h.line
  only := onlyOn_putSlot h.only _
  rank := hrank.trans h.rank
  window := hwindow.trans h.window
  sent := hsent
  requester := hq.trans h.requester
  internal := by rw [hk]; exact h.internal
  working := hw
  readable := h.readable
  jobs := by
    have hgo := h.jobs
    unfold State.jobsGoOn at hgo ⊢
    rw [hc, hk, ht]
    exact hgo

theorem State.Recalls.freeHeld (h : s.Recalls t x l v w c) :
    s.freeHeld t = (s.makeFree (setOf l) w).putSlot t (some { x with working := none }) := by
  have hset : x.setIx = some (setOf l) := by unfold Slot.setIx; rw [h.line]
  have hview : (s.bodyView (setOf l) w).isSome = true := by
    unfold State.bodyView
    rw [view_of_good h.readable]
    rfl
  exact freeHeld_of_held h.slot h.working hset hview

theorem recallFreed_unlinked (h : s.Recalls t x l v w c) (hv : x.victimLink = none) :
    s.recallFreed t = ((s.makeFree (setOf l) w).putSlot t (some x.released), [.finishClose t]) := by
  have hrecord : ({ x with working := none } : Slot) = x.released := by
    unfold Slot.released
    rw [← hv]
  have hset : x.setIx = some (setOf l) := by unfold Slot.setIx; rw [h.line]
  unfold State.recallFreed
  rw [h.slot]
  dsimp only
  rw [h.working, hset, hv]
  dsimp only
  rw [h.freeHeld, hrecord]

/-- A waiter's record with the way handed to it. -/
def Slot.handed (y : Slot) (w : WayIx) : Slot := { y with working := some ⟨w, .reserved⟩, victimLink := none }

/-- The way of a recall just freed, RESERVED for the line of a waiter. -/
def reservedWay (b : Line) (u : SlotIx) : Way := ⟨coded (some (keyOf b)), coded ⟨.reserved, some u, false⟩⟩

theorem recallFreed_linked (h : s.Recalls t x l v w c) (hv : x.victimLink = some u) (hk : x.kind = .victimRecall)
    (hy : s.waits t u y l b o) : s.recallFreed t =
      ((((s.makeFree (setOf l) w).putWay (setOf l) w (reservedWay b u)).putSlot u
        (some (y.handed w))).putSlot t (some x.released),
        [.handedOver u, .finishClose t]) := by
  have hset : x.setIx = some (setOf l) := by unfold Slot.setIx; rw [h.line]
  let s1 := (s.makeFree (setOf l) w).putSlot t (some { x with working := none })
  have hslot : s1.getSlot u = some y := (getSlot_putSlot_of_ne (s := s.makeFree (setOf l) w) hy.other _).trans hy.slot
  have hover : s1.handOver t u (setOf l) w b =
      (((s.makeFree (setOf l) w).putWay (setOf l) w (reservedWay b u)).putSlot u
        (some (y.handed w))).putSlot t (some x.released) := by
    let s2 := (s.makeFree (setOf l) w).putWay (setOf l) w (reservedWay b u)
    have h1 : s1.reserve (setOf l) w u b = (s2.putSlot t (some { x with working := none })).putSlot u
        (some { y with working := some ⟨w, .reserved⟩ }) := modSlot_of_slot (s := s1.putWay (setOf l) w (reservedWay b u)) hslot _
    unfold State.handOver
    have h2 : (((s2.putSlot t (some { x with working := none })).putSlot u
        (some (y.handed w))).modSlot t (fun y => { y with victimLink := none })) =
      (s2.putSlot u (some (y.handed w))).putSlot t (some x.released) := by
      rw [putSlot_comm hy.other, modSlot_putSlot_self]
      rfl
    rw [h1, modSlot_putSlot_self]
    exact h2
  unfold State.recallFreed
  rw [h.slot]
  dsimp only
  rw [h.working, hset, hv]
  dsimp only
  rw [h.freeHeld, hslot]
  dsimp only
  rw [hy.line]
  dsimp only
  exact (if_pos ⟨hk, hy.phase⟩).trans (Prod.ext hover rfl)

/-! ### The rest of the close -/

theorem drain_finish_recall {k : Nat} {ts : List Task} {r : State} (h : s.Closing t x l v) (hq : x.requester = none)
    (hrest : drain k (s.recallClosed t x v) ts = some r) : drain (k + 2) s (.finishClose t :: ts) = some r := by
  have hgone : (s.recallClosed t x v).getSlot t = none := by
    rw [recallClosed_getSlot]
    exact getSlot_putSlot_self ..
  have honly : (s.recallClosed t x v).onlyOn l t := fun i z hz => by
    rw [recallClosed_getSlot] at hz
    exact onlyOn_putSlot h.only none i z hz
  refine drain_step (s' := s.recallClosed t x v) (ts' := [.advance l]) ?_ ?_
  · exact (finishClose_of_closing h).trans (congrArg (fun q => (q, [Task.advance l])) (leaveTable_recallClosed h hq))
  · exact drain_step (s' := s.recallClosed t x v) (ts' := []) (advance_of_only honly hgone) hrest

theorem recallClosed_putSet (s : State) (i : SetIx) (r : SetRec) (t : SlotIx) (x : Slot) (v : WinIx) :
    (s.putSet i r).recallClosed t x v = (s.recallClosed t x v).putSet i r := by
  unfold State.recallClosed
  dsimp only
  split
  · split <;> rfl
  · rfl

/-- A set with a way FREE and at the back of its order. -/
def SetRec.freed (r : SetRec) (w : WayIx) : SetRec :=
  { r with ways := r.ways.set w.val freeWay w.isLt, order := r.order.erase w ++ [w] }

/-- A set with a way at the back of its order, RESERVED for a line. -/
def SetRec.givenTo (r : SetRec) (w : WayIx) (b : Line) (u : SlotIx) : SetRec :=
  { r with ways := r.ways.set w.val (reservedWay b u) w.isLt, order := r.order.erase w ++ [w] }

/-- A way freed and RESERVED is written once. -/
theorem makeFree_given {s : State} (h : dirWf s.dir = true) (i : SetIx) (w : WayIx) (b : Line) (u : SlotIx) :
    (s.makeFree i w).putWay i w (reservedWay b u) = s.putSet i ((s.getSet i).givenTo w b u) := by
  have hway : (s.makeFree i w).getSet i = (s.getSet i).freed w := getSet_putSet_self h i _
  unfold State.putWay
  rw [hway]
  refine (putSet_putSet h i ((s.getSet i).freed w) _).trans (congrArg (s.putSet i) ?_)
  unfold SetRec.freed
  dsimp only
  rw [Vector.set_set]
  rfl

theorem released_closing (h : s.Recalls t x l v w c) {q : State} (hn : q.NoneHeld) (hslot : q.getSlot t = some x.released)
    (honly : q.onlyOn l t) : q.Closing t x.released l v where
  held := hn
  slot := hslot
  line := h.line
  only := honly
  rank := h.rank
  window := h.window
  unlinked := rfl
  sent := h.sent
  claim := fun n _ hq => by
    rw [show x.released.requester = none from h.requester] at hq
    cases hq

/-- A recall without a waiter ends with its way freed. -/
theorem drain_recallFreed (h : s.Recalls t x l v w c) (hv : x.victimLink = none) :
    drain 3 (s.recallFreed t).1 ((s.recallFreed t).2 ++ [.settle]) =
      some ((s.recallClosed t x v).putSet (setOf l) ((s.getSet (setOf l)).freed w)) := by
  rw [recallFreed_unlinked h hv]
  refine drain_finish_recall (k := 1) (released_closing h ⟨h.quiet.noHeldOrder, h.quiet.noHeldAnswer⟩ (getSlot_putSlot_self ..)
    (onlyOn_putSlot (s := s.makeFree (setOf l) w) h.only _)) h.requester ?_
  have hclosed : ((s.makeFree (setOf l) w).putSlot t (some x.released)).recallClosed t x.released v =
      (s.recallClosed t x v).putSet (setOf l) ((s.getSet (setOf l)).freed w) :=
    (recallClosed_putSlot (s.makeFree (setOf l) w) t (some x.released) x.released v).trans
      (recallClosed_putSet s (setOf l) ((s.getSet (setOf l)).freed w) t x v)
  rw [hclosed]
  refine drain_settle (Quiet_settled ?_) 0
  refine (h.quiet.recallClosed t v h.jobs).putSet (setOf l) ?_
  exact h.quiet.frozenSet (setOf l)

theorem handedOver_of_waiter {k : Node} (hx : s.getSlot u = some y) (hq : y.requester = some k) (hl : y.line = some b)
    (hr : s.windowRetiring y = false) (hm : s.memLive = true) : s.handedOver u = (s.sendFetch u b k, []) := by
  unfold State.handedOver
  rw [hx]
  dsimp only
  rw [hq, hl]
  dsimp only
  rw [if_neg (fun h => Bool.false_ne_true (hr.symm.trans h)), if_pos hm]

theorem windowRetiring_of_open (h : ∀ i, y.window = some i → (s.getWindow i).state ≠ .retiring) : s.windowRetiring y = false := by
  unfold State.windowRetiring
  cases hw : y.window with
  | none => rfl
  | some i => exact beq_eq_false_iff_ne.2 (h i hw)

theorem onlyOn_putSlot_other {z : Slot} (h : s.onlyOn l t) (hy : s.getSlot u = some y) (hz : z.line = y.line) :
    (s.putSlot u (some z)).onlyOn l t := fun i q hq hl => by
  rw [getSlot_putSlot] at hq
  split at hq
  · rename_i hi
    cases hq
    subst hi
    exact h i y hy (hz.symm.trans hl)
  · exact h i q hq hl

/-- The close of a recall comes to the same before and after its way is given to another slot. -/
theorem recallClosed_given (hne : u ≠ t) (r : SetRec) (z : Slot) (i : SetIx) (os : List Order) :
    State.recallClosed { (s.putSet i r).putSlot u (some z) with orderQ := os } t x v =
      { ((s.recallClosed t x v).putSet i r).putSlot u (some z) with orderQ := os } := by
  have hcomm : State.putSlot { (s.putSet i r).putSlot u (some z) with orderQ := os } t none =
      { ((s.putSlot t none).putSet i r).putSlot u (some z) with orderQ := os } :=
    congrArg (fun q : State => { q with orderQ := os }) (putSlot_comm (s := s.putSet i r) hne.symm (some z) none)
  unfold State.recallClosed
  rw [hcomm]
  dsimp only
  split
  · split <;> rfl
  · rfl

/-- A recall whose waiter still waits gives its way to it. -/
theorem drain_recallGiven (h : s.Recalls t x l v w c) (hcanon : dirWf s.dir = true) (hv : x.victimLink = some u)
    (hk : x.kind = .victimRecall) (hy : s.waits t u y l b o) (hmem : s.mem = .live) (hroom : s.orderQ.length < 64) :
    drain 4 (s.recallFreed t).1 ((s.recallFreed t).2 ++ [.settle]) =
      some { ((s.recallClosed t x v).putSet (setOf l) ((s.getSet (setOf l)).givenTo w b u)).putSlot u (some (y.given s w)) with
        orderQ := s.orderQ ++ [.fetch b o false] } := by
  let r := (s.getSet (setOf l)).givenTo w b u
  have hset : (s.makeFree (setOf l) w).putWay (setOf l) w (reservedWay b u) = s.putSet (setOf l) r := makeFree_given hcanon (setOf l) w b u
  let p : State := ((s.putSet (setOf l) r).putSlot u (some (y.handed w))).putSlot t (some x.released)
  have hfreed := recallFreed_linked h hv hk hy
  rw [hset] at hfreed
  have hslot : p.getSlot u = some (y.handed w) := by
    refine (getSlot_putSlot_of_ne hy.other _).trans ?_
    exact getSlot_putSlot_self ..
  have hnone : p.NoneHeld := ⟨h.quiet.noHeldOrder, h.quiet.noHeldAnswer⟩
  have hround := startRound_of_room hnone hslot hy.sent hy.plain (os := [.fetch b o false]) hroom 0#8 .fetchSent .nothing
  have hput : p.putSlot u (some (y.given s w)) = ((s.putSet (setOf l) r).putSlot u (some (y.given s w))).putSlot t (some x.released) := by
    refine (putSlot_comm (s := (s.putSet (setOf l) r).putSlot u (some (y.handed w))) hy.other _ _).trans ?_
    rw [putSlot_putSlot]
  have hover : p.handedOver u = ({ ((s.putSet (setOf l) r).putSlot u (some (y.given s w))).putSlot t (some x.released) with
      orderQ := s.orderQ ++ [.fetch b o false] }, []) := by
    refine (handedOver_of_waiter (y := y.handed w) hslot hy.requester hy.line (windowRetiring_of_open (s := p) hy.windowOpen)
      (beq_iff_eq.2 hmem)).trans ?_
    rw [← hput]
    exact congrArg (fun q => (q, ([] : List Task))) hround
  rw [hfreed]
  refine drain_step (t := .handedOver u) hover ?_
  let q : State := { ((s.putSet (setOf l) r).putSlot u (some (y.given s w))).putSlot t (some x.released) with
    orderQ := s.orderQ ++ [.fetch b o false] }
  have honly : q.onlyOn l t := onlyOn_putSlot (s := (s.putSet (setOf l) r).putSlot u (some (y.given s w)))
    (onlyOn_putSlot_other (s := s.putSet (setOf l) r) h.only hy.slot rfl) _
  refine drain_finish_recall (s := q) (k := 1) (released_closing h ⟨h.quiet.noHeldOrder, h.quiet.noHeldAnswer⟩
    (getSlot_putSlot_self ..) honly) h.requester ?_
  have hclosed : q.recallClosed t x.released v =
      { ((s.recallClosed t x v).putSet (setOf l) r).putSlot u (some (y.given s w)) with
        orderQ := s.orderQ ++ [.fetch b o false] } :=
    (recallClosed_putSlot { (s.putSet (setOf l) r).putSlot u (some (y.given s w)) with orderQ := s.orderQ ++ [.fetch b o false] } t
      (some x.released) x.released v).trans (recallClosed_given hy.other r (y.given s w) (setOf l) _)
  rw [hclosed]
  refine drain_settle (Quiet_settled ?_) 0
  have hclosedQuiet := h.quiet.recallClosed t v h.jobs
  refine (State.Quiet.slotted (hclosedQuiet.putSet (setOf l) (r := r) ?_) (u := u) (y := y.given s w) rfl hy.plain)
  exact h.quiet.frozenSet (setOf l)

end

/-! ## RECALL_DONE (O52) -/

section
variable {s : State} {t u : SlotIx} {x y z : Slot} {l b : Line} {v : WinIx} {w : WayIx} {c : Content} {o n : Node}

theorem State.waits.same {q : State} (h : s.waits t u y l b o) (hslots : q.slots = s.slots := by rfl)
    (hwindows : q.windows = s.windows := by rfl) : q.waits t u y l b o where
  other := h.other
  slot := by unfold State.getSlot; rw [hslots]; exact h.slot
  phase := h.phase
  line := h.line
  sameSet := h.sameSet
  requester := h.requester
  windowOpen := fun i hi => by unfold State.getWindow; rw [hwindows]; exact h.windowOpen i hi
  sent := h.sent
  plain := h.plain

theorem State.waits.putSlot (h : s.waits t u y l b o) (z : Option Slot) : (s.putSlot t z).waits t u y l b o where
  other := h.other
  slot := (getSlot_putSlot_of_ne h.other _).trans h.slot
  phase := h.phase
  line := h.line
  sameSet := h.sameSet
  requester := h.requester
  windowOpen := h.windowOpen
  sent := h.sent
  plain := h.plain

/-- A recall with its record changed ends as before. -/
theorem drain_changedFreed (h : (s.putSlot t (some z)).Recalls t z l v w c) (hv : x.victimLink = none) (hz : z.victimLink = x.victimLink)
    (hclosed : s.recallClosed t z v = s.recallClosed t x v) :
    drain 3 ((s.putSlot t (some z)).recallFreed t).1 (((s.putSlot t (some z)).recallFreed t).2 ++ [.settle]) =
      some ((s.recallClosed t x v).putSet (setOf l) ((s.getSet (setOf l)).freed w)) := by
  have hdrain := drain_recallFreed h (hz.trans hv)
  rw [recallClosed_putSlot, hclosed] at hdrain
  exact hdrain

theorem drain_changedGiven (h : (s.putSlot t (some z)).Recalls t z l v w c) (hcanon : dirWf s.dir = true) (hv : z.victimLink = some u)
    (hk : z.kind = .victimRecall) (hy : s.waits t u y l b o) (hmem : s.mem = .live) (hroom : s.orderQ.length < 64)
    (hclosed : s.recallClosed t z v = s.recallClosed t x v) :
    drain 4 ((s.putSlot t (some z)).recallFreed t).1 (((s.putSlot t (some z)).recallFreed t).2 ++ [.settle]) =
      some { ((s.recallClosed t x v).putSet (setOf l) ((s.getSet (setOf l)).givenTo w b u)).putSlot u (some (y.given s w)) with
        orderQ := s.orderQ ++ [.fetch b o false] } := by
  have hdrain := drain_recallGiven h hcanon hv hk (hy.putSlot (some z)) hmem hroom
  rw [recallClosed_putSlot, hclosed] at hdrain
  exact hdrain

theorem recall_ne_writeback (h : x.kind.recall = true) : x.kind ≠ .writeback := fun hk => by
  rw [hk] at h
  cases h

theorem takesNotice_of_unclaimed (h : s.noticeFor l n ≠ none) (hu : ∀ v, s.noticeFor l n = some v → v.claimed = false) :
    s.takesNotice x l n = true := by
  obtain ⟨v, hv⟩ := Option.ne_none_iff_exists'.1 h
  unfold State.takesNotice
  rw [hv]
  dsimp only
  rw [hu v hv]
  exact Bool.or_true _

/-- A recall that takes the notice of its store ends with its way freed. -/
theorem enterConsuming_recall (hn : s.NoneHeld) (hx : s.getSlot t = some x) (hp : x.pending = none) (hl : x.line = some l)
    (hr : x.rebuild = none) (hk : x.kind.recall = true) (htake : s.takesNotice x l n = true) : s.enterConsuming t n =
      ((s.removeNotice l n).putSlot t (some (x.consuming s n).stored)).recallFreed t := by
  have hconsumed := storeConsumed_of_plain (s := (s.putSlot t (some (x.consuming s n))).removeNotice l n) (t := t)
    (x := x.consuming s n) (getSlot_putSlot_self ..) hr
  rw [if_pos (show (x.consuming s n).kind.recall = true from hk)] at hconsumed
  refine (enterConsuming_of_slot hn hx hp hl htake).trans (hconsumed.trans ?_)
  exact congrArg (fun q : State => q.recallFreed t) (putSlot_putSlot (s.removeNotice l n) t _ _)

end

/-- What the answer of a recall's owner leads to (R77, R90). -/
def State.recallReplied (s : State) (t : SlotIx) (l : Line) (n : Node) : Result → Work
  | .clean => s.recallFreed t
  | .dirty => s.enterConsuming t n
  | .notHeld => s.notHeld t l n

theorem recallDone_of_active {s : State} {t : SlotIx} {x : Slot} {l : Line} {n : Node} (ha : s.activeOn l = some t)
    (hx : s.getSlot t = some x) (hn : NodeSet.has x.awaited n = true) (hout : x.outstanding = .recall) (hphase : x.phase ≠ .rebuild)
    (res : Result) : s.recallDone n l res =
      (s.putSlot t (some { x with awaited := NodeSet.remove x.awaited n })).recallReplied t l n res := by
  unfold State.recallDone
  rw [awaiting_of_active ha hx hn]
  dsimp only
  rw [if_pos hout, if_neg hphase, answered_eq hx n]
  cases res <;> rfl

/-- Settles O52: each result of the owner's answer, and the close of the recall that it ends. -/
theorem recallDoneDecides : Obligations.RecallDoneDecides := by
  intro s n l res rest t x w h hm ha hx hl hn hout hphase hk hq hp hr hw hb r waits back
  let y : Slot := { x with awaited := NodeSet.remove x.awaited n }
  have hslot : (r.putSlot t (some y)).getSlot t = some y := getSlot_putSlot_self ..
  have hnone : (r.putSlot t (some y)).NoneHeld := ⟨h.noHeldOrder, h.noHeldAnswer⟩
  have hdone : ∀ u : Work, (r.putSlot t (some y)).recallReplied t l n res = u → exec .recallDone s = s.event u := by
    intro u hu
    rw [exec_recallDone hm, ← hu]
    exact congrArg s.event (recallDone_of_active (s := r) ha hx hn hout (by rw [hphase]; nofun) res)
  have hwaits : ∀ m, (r.putSlot t (some y)).putSlot t (some (y.waits (r.putSlot t (some y)) m)) = waits m :=
    fun m => putSlot_putSlot r t _ _
  have hwaiting : ∀ m, (waits m).Quiet := fun m => (h.same (s' := r)).changed hx rfl
  refine ⟨fun hres hclaimed => ?_, fun hres hno hdrop => ?_, fun v q hwin halone hrank hjobs hcase => ?_⟩
  · subst hres
    have hwait := enterConsuming_waits hnone hslot hp hl (takesNotice_of_claimed (s := r.putSlot t (some y))
      (recall_ne_writeback hk) hclaimed)
    rw [hwaits] at hwait
    rw [hdone _ hwait]
    exact event_quiet h.running (hwaiting _)
  · subst hres
    have hwait := notHeld_waits (s := r.putSlot t (some y)) (l := l) (n := n) hnone hslot hp hno
      ((requestPresent_putSlot (s := r) (y := y) hx rfl rfl rfl).trans hdrop)
    rw [hwaits] at hwait
    rw [hdone _ hwait]
    exact event_quiet h.running (hwaiting _)
  · have hrecalls : s.Recalls t x l v w (.owned n) :=
      ⟨h, hx, hl, onlyOn_of_alone halone, hrank, hwin, hp, hq, hk, hw, hb, hjobs⟩
    have hend : ∃ z : Slot, exec .recallDone s = s.event ((q.putSlot t (some z)).recallFreed t) ∧
        (q.putSlot t (some z)).Recalls t z l v w (.owned n) ∧ z.kind = x.kind ∧ z.victimLink = x.victimLink ∧
        q.recallClosed t z v = q.recallClosed t x v ∧ ∃ ns, q = { s with replyIntake := rest, notices := ns } := by
      rcases hcase with ⟨rfl, rfl⟩ | ⟨rfl, hsome, hun, rfl⟩
      · exact ⟨y, hdone _ rfl, (hrecalls.same (q := r)).changed rfl rfl rfl hp rfl rfl hw rfl rfl rfl, rfl, rfl, rfl, _, rfl⟩
      · have htake := enterConsuming_recall hnone hslot hp hl hr hk
          (takesNotice_of_unclaimed (s := r.putSlot t (some y)) (x := y) hsome hun)
        have hremove : (r.putSlot t (some y)).removeNotice l n =
            State.putSlot { r with notices := s.notices.filter (fun m => !decide (m.line = l ∧ m.node = n)) } t (some y) :=
          removeNotice_eq
        rw [hremove, putSlot_putSlot] at htake
        exact ⟨(y.consuming (r.putSlot t (some y)) n).stored, hdone _ htake,
          (hrecalls.same (q := { r with notices := s.notices.filter (fun m => !decide (m.line = l ∧ m.node = n)) })).changed
            rfl rfl rfl hp rfl rfl hw rfl rfl rfl, rfl, rfl, rfl, _, rfl⟩
    obtain ⟨z, hexec, hz, hzk, hzv, hzc, ns, rfl⟩ := hend
    refine ⟨fun hv => ?_, fun u e k o hkind hv hne he hphase' hline hset hreq hopen hsent hplain hmem hroom hok => ?_⟩
    · have hdrain := drain_changedFreed hz hv hzv hzc
      rw [hexec, event_of_drain 3 (by decide) h.running hdrain]
      rfl
    · have hwaiter : s.waits t u e l k o := ⟨hne, he, hphase', hline, hset, hreq, hopen, hsent, hplain⟩
      have hdrain := drain_changedGiven hz hok.1 (hzv.trans hv) (hzk.trans hkind) hwaiter.same hmem hroom hzc
      rw [hexec, event_of_drain 4 (by decide) h.running hdrain]
      rfl

end Sys2Proof.Machine

/-! # Stores and notices -/

namespace Sys2Proof.Machine

set_option Elab.async false

/-! ## An observing wait met (R78) -/

/-- A record whose observing wait is met. -/
def Slot.met (x : Slot) : Slot := { x with awaited := 0#8, memWait := .noWait, outstanding := .nothing, timer := none }

section
variable {s : State} {t : SlotIx} {x : Slot} {l : Line} {v : WinIx} {w : WayIx} {c : Content} {o : Node}

theorem met_eq (hn : s.NoneHeld) (hx : s.getSlot t = some x) (hp : x.pending = none) :
    (s.setAside t).modSlot t (fun y => { y with awaited := 0#8, memWait := .noWait, outstanding := .nothing, timer := none }) =
      s.putSlot t (some x.met) := by
  rw [setAside_of_clear hn hx hp]
  exact modSlot_of_slot hx _

theorem meetObserving_recall (hn : s.NoneHeld) (hx : s.getSlot t = some x) (hp : x.pending = none) (hk : x.kind.recall = true) :
    s.meetObserving t = (s.putSlot t (some x.met)).recallFreed t := by
  unfold State.meetObserving
  rw [met_eq hn hx hp]
  dsimp only
  rw [getSlot_putSlot_self]
  exact if_pos hk

theorem meetObserving_read (hn : s.NoneHeld) (hx : s.getSlot t = some x) (hp : x.pending = none) (hk : x.kind.recall = false)
    (hq : x.requester = some o) (hl : x.line = some l) :
    s.meetObserving t = ((s.putSlot t (some x.met)).freeHeld t).untrackedRead t o l := by
  unfold State.meetObserving
  rw [met_eq hn hx hp]
  dsimp only
  rw [getSlot_putSlot_self]
  dsimp only
  rw [show x.met.requester = some o from hq, show x.met.line = some l from hl]
  exact if_neg fun h => Bool.false_ne_true (hk.symm.trans h)

/-- A way freed by the transaction that holds it. -/
theorem freeHeld_putSlot {y : Slot} (hl : y.line = some l) (hw : y.working = some ⟨w, c⟩)
    (hb : (s.getWay (setOf l) w).body.check = .good) :
    (s.putSlot t (some y)).freeHeld t = (s.makeFree (setOf l) w).putSlot t (some { y with working := none }) := by
  have hset : y.setIx = some (setOf l) := by unfold Slot.setIx; rw [hl]
  have hview : ((s.putSlot t (some y)).bodyView (setOf l) w).isSome = true := by
    show (s.bodyView (setOf l) w).isSome = true
    unfold State.bodyView
    rw [view_of_good hb]
    rfl
  refine (freeHeld_of_held (getSlot_putSlot_self ..) hw hset hview).trans ?_
  exact putSlot_putSlot (s.makeFree (setOf l) w) t _ _

/-- A way just freed is the next one allocated. -/
theorem allocate_freed (hcanon : dirWf s.dir = true) (y : Slot) : ((s.makeFree (setOf l) w).putSlot t (some y)).allocate t l =
    some ((s.putSet (setOf l) ((s.getSet (setOf l)).givenTo w l t)).putSlot t (some { y with working := some ⟨w, .reserved⟩ })) := by
  have hset : (s.makeFree (setOf l) w).getSet (setOf l) = (s.getSet (setOf l)).freed w := getSet_putSet_self hcanon (setOf l) _
  have hrear : ((s.makeFree (setOf l) w).putSlot t (some y)).rearmostFree (setOf l) = some w := by
    have hrev : ((s.getSet (setOf l)).order.erase w ++ [w]).reverse = w :: ((s.getSet (setOf l)).order.erase w).reverse :=
      List.reverse_append
    have hfree : ((s.makeFree (setOf l) w).bodyView (setOf l) w).map Body.content = some .free := by
      unfold State.bodyView State.getWay
      rw [hset]
      unfold SetRec.freed
      rw [show ((s.getSet (setOf l)).ways.set w.val freeWay w.isLt)[w] = freeWay from Vector.getElem_set_self ..]
      rfl
    show (((s.makeFree (setOf l) w).getSet (setOf l)).order.reverse.find?
      (fun w' => ((s.makeFree (setOf l) w).bodyView (setOf l) w').map Body.content == some .free)) = some w
    rw [hset]
    unfold SetRec.freed
    dsimp only
    rw [hrev, List.find?_cons_of_pos]
    rw [hfree]
    exact beq_self_eq_true _
  unfold State.allocate
  rw [hrear]
  dsimp only
  unfold State.reserve
  rw [modSlot_of_slot (s := ((s.makeFree (setOf l) w).putSlot t (some y)).putWay (setOf l) w _) (getSlot_putSlot_self
    (s.makeFree (setOf l) w) t (some y))]
  refine congrArg some ?_
  refine (putSlot_putSlot ((s.makeFree (setOf l) w).putWay (setOf l) w (reservedWay l t)) t _ _).trans ?_
  rw [makeFree_given hcanon]

theorem freed_given (r : SetRec) (w : WayIx) (b : Line) (u : SlotIx) :
    { r.freed w with ways := (r.freed w).ways.set w.val (reservedWay b u) w.isLt } = r.givenTo w b u := by
  unfold SetRec.freed SetRec.givenTo
  dsimp only
  rw [Vector.set_set]

/-- A read request whose way was freed and RESERVED again, its FETCH sent. -/
def Slot.refetches (x : Slot) (s : State) (w : WayIx) : Slot :=
  { x with
    phase := .awaitReplies
    awaited := 0#8
    memWait := .fetchSent
    outstanding := .nothing
    working := some ⟨w, .reserved⟩
    timer := some s.limits.orderTimeout.toNat
    retriesLeft := s.limits.retryLimit.toNat }

/-- A read request whose wait is met goes to memory with the way it had. -/
theorem meetObserving_fetches (hn : s.NoneHeld) (hcanon : dirWf s.dir = true) (hx : s.getSlot t = some x) (hp : x.pending = none)
    (hr : x.rebuild = none) (hk : x.kind.recall = false) (hq : x.requester = some o) (hl : x.line = some l)
    (hw : x.working = some ⟨w, c⟩) (hb : (s.getWay (setOf l) w).body.check = .good) (hmem : s.mem = .live)
    (hroom : s.orderQ.length < 64) : s.meetObserving t =
      ({ (s.putSet (setOf l) ((s.getSet (setOf l)).givenTo w l t)).putSlot t (some (x.refetches s w)) with
        orderQ := s.orderQ ++ [.fetch l o false] }, []) := by
  have hfreed := freeHeld_putSlot (s := s) (t := t) (y := x.met) hl hw hb
  have halloc := allocate_freed (t := t) (l := l) (w := w) hcanon { x.met with working := none }
  have hround := startRound_of_room
    (s := (s.putSet (setOf l) ((s.getSet (setOf l)).givenTo w l t)).putSlot t (some { x.met with working := some ⟨w, .reserved⟩ }))
    ⟨hn.order, hn.answer⟩ (getSlot_putSlot_self ..) hp hr (os := [.fetch l o false]) hroom 0#8 .fetchSent .nothing
  rw [putSlot_putSlot] at hround
  rw [meetObserving_read hn hx hp hk hq hl, hfreed]
  refine (untrackedRead_of_free (q := (s.makeFree (setOf l) w).putSlot t (some { x.met with working := none }))
    (beq_iff_eq.2 hmem) halloc).trans ?_
  exact congrArg (fun q => (q, ([] : List Task))) hround

/-- A read request whose wait is met with no memory agent LIVE is refused. -/
theorem meetObserving_refused (hn : s.NoneHeld) (hx : s.getSlot t = some x) (hp : x.pending = none)
    (hk : x.kind.recall = false) (hq : x.requester = some o) (hl : x.line = some l)
    (hw : x.working = some ⟨w, c⟩) (hb : (s.getWay (setOf l) w).body.check = .good) (hmem : s.mem ≠ .live)
    (ho : s.nodeState o ≠ .purging) (hroom : s.answerQ.length < 64) : s.meetObserving t =
      ({ (s.makeFree (setOf l) w).putSlot t (some { x.met with working := none }) with
        answerQ := s.answerQ ++ [.refuse o l (.request x.kind.toReqKind) .memoryFault] }, [.close t]) := by
  have hfreed := freeHeld_putSlot (s := s) (t := t) (y := x.met) hl hw hb
  have hnone : ((s.makeFree (setOf l) w).putSlot t (some { x.met with working := none })).NoneHeld := ⟨hn.order, hn.answer⟩
  have hrefuse := refuse_of_room (s := (s.makeFree (setOf l) w).putSlot t (some { x.met with working := none })) (t := t)
    (x := { x.met with working := none }) (r := .memoryFault) (getSlot_putSlot_self ..) hq hl ho rfl hnone (getSlot_putSlot_self ..)
    hp hroom
  rw [meetObserving_read hn hx hp hk hq hl, hfreed]
  exact (if_neg fun h => hmem (beq_iff_eq.1 h)).trans hrefuse

end

/-! ## ABSORB_DONE (O56) -/

section
variable {s : State} {t : SlotIx} {x : Slot} {l : Line} {n : Node}

theorem storeTaker_of_quiet (h : s.Quiet) : s.storeTaker l n = none := by
  have hnone : s.slotsWith (fun x => x.setIx == some (setOf l) && x.takesStores n) = [] := by
    refine (slotsWith_eq_nil_iff ..).2 fun t x hx => ?_
    have hno := h.slot hx
    unfold Slot.rebuildsSet at hno
    unfold Slot.takesStores
    cases hr : x.rebuild with
    | none => exact Bool.and_false _
    | some b =>
      rw [hr] at hno
      cases b with
      | line y => exact Bool.and_false _
      | set y z g v => cases hno
  unfold State.storeTaker
  rw [hnone]
  exact ite_self _

theorem absorbDone_of_consumer (ha : s.activeOn l = some t) (hx : s.getSlot t = some x) (hm : x.memWait = .consuming n) :
    s.absorbDone l n = s.storeConsumed t := by
  have hc : s.consumer l n = some t := by
    unfold State.consumer
    rw [ha]
    exact if_pos (by rw [hx]; exact congrArg some hm)
  unfold State.absorbDone
  rw [hc]

theorem consumer_of_none (h : ∀ t x, s.activeOn l = some t → s.getSlot t = some x → x.memWait ≠ .consuming n) :
    s.consumer l n = none := by
  unfold State.consumer
  cases ha : s.activeOn l with
  | none => rfl
  | some t =>
    refine if_neg fun hm => ?_
    obtain ⟨x, hx, hmx⟩ := Option.map_eq_some_iff.1 hm
    exact h t x ha hx hmx

theorem absorbDone_offered (hq : s.Quiet) (h : ∀ t x, s.activeOn l = some t → s.getSlot t = some x → x.memWait ≠ .consuming n) :
    s.absorbDone l n = (s.offerNotice l n, s.watcher l n) := by
  unfold State.absorbDone
  rw [consumer_of_none h, storeTaker_of_quiet hq]

theorem watcher_of_observer (ha : s.activeOn l = some t) (hx : s.getSlot t = some x) (hm : x.memWait = .observing n) :
    s.watcher l n = [.meetObserving t] := by
  unfold State.watcher
  rw [ha]
  exact if_pos (by rw [hx]; exact congrArg some hm)

theorem watcher_of_none (h : ∀ t x, s.activeOn l = some t → s.getSlot t = some x → x.memWait ≠ .observing n) :
    s.watcher l n = [] := by
  unfold State.watcher
  cases ha : s.activeOn l with
  | none => rfl
  | some t =>
    refine if_neg fun hm => ?_
    obtain ⟨x, hx, hmx⟩ := Option.map_eq_some_iff.1 hm
    exact h t x ha hx hmx

/-- A store offered to the Store Notice Table (R72). -/
def State.storeOffered (s : State) (l : Line) (n : Node) : State :=
  { s with
    flags := (s.offerNotice l n).flags
    capture := (s.offerNotice l n).capture
    counters := (s.offerNotice l n).counters
    notices := (s.offerNotice l n).notices }

theorem offerNotice_eq : s.offerNotice l n = s.storeOffered l n := by
  unfold State.storeOffered State.offerNotice
  split
  · rw [fault_eq]
    rfl
  · split <;> rfl

/-- What a store offered comes to: a duplicate, dropped, or inserted. -/
theorem storeOffered_cases {q : State} (h : (s.noticeFor l n ≠ none ∧ q = { s with
      flags := s.flags ||| 0x0200#16
      capture := captured s.capture .violation ⟨some l, some .memory, none, none, none⟩ }) ∨
    (s.noticeFor l n = none ∧ 16 ≤ s.notices.length ∧ q = { s with
      flags := s.flags ||| 0x0400#16
      counters := { s.counters with noticesDropped := satInc s.counters.noticesDropped } }) ∨
    (s.noticeFor l n = none ∧ s.notices.length < 16 ∧ q = { s with
      notices := s.notices ++ [⟨l, n, s.requestPresent .writeback n l, s.limits.noticeLifetime.toNat⟩] })) :
    s.storeOffered l n = q := by
  have hoffer : s.offerNotice l n = q := by
    unfold State.offerNotice
    rcases h with ⟨hsome, rfl⟩ | ⟨hno, hfull, rfl⟩ | ⟨hno, hroom, rfl⟩
    · rw [if_pos (Option.isSome_iff_ne_none.2 hsome), fault_eq]
      rfl
    · rw [if_neg (by rw [hno]; exact Bool.noConfusion), if_pos (show Config.noticeCapacity ≤ s.notices.length from hfull)]
      rfl
    · rw [if_neg (by rw [hno]; exact Bool.noConfusion), if_neg (show ¬Config.noticeCapacity ≤ s.notices.length from not_le.2 hroom)]
      rfl
  rw [← offerNotice_eq, hoffer]

theorem closeWith_of_slot {o : Node} (hx : s.getSlot t = some x) (hq : x.requester = some o) (hl : x.line = some l)
    (a : Node → Line → Answer) : s.closeWith t a = s.sendAnswer t (a o l) := by
  unfold State.closeWith
  rw [hx]
  dsimp only
  rw [hq, hl]

end

section
variable {s : State} {t u : SlotIx} {x y : Slot} {l b : Line} {v : WinIx} {w : WayIx} {o : Node}

/-- A recall's way given to the waiter, in the model's parts. -/
theorem givenWay_recallClosed : (s.recallClosed t x v).givenWay u y l b o w =
    { ((s.recallClosed t x v).putSet (setOf l) ((s.getSet (setOf l)).givenTo w b u)).putSlot u (some (y.given s w)) with
      orderQ := s.orderQ ++ [.fetch b o false] } := by
  have hset : (s.recallClosed t x v).getSet (setOf l) = s.getSet (setOf l) := by
    rw [recallClosed_eq]
    rfl
  have hgiven : y.given (s.recallClosed t x v) w = y.given s w := by
    rw [recallClosed_eq]
    rfl
  have horders : (s.recallClosed t x v).orderQ = s.orderQ := (congrArg State.orderQ (recallClosed_eq s t x v)).trans rfl
  unfold State.givenWay
  rw [hset, hgiven, horders]
  rfl

/-- A request that has given up its way and sent a closing answer closes. -/
theorem drain_sole_answered {q : State} {d : List (SetIx × SetRec)} {a : Answer} (hs : q.Sole t x l v) (hquiet : q.Quiet)
    (hline : y.line = x.line) (hrank : y.rank = x.rank) (hwin : y.window = x.window) (hlink : y.victimLink = x.victimLink)
    (hp : y.pending = none) (hc : y.counted = x.counted) (hw : y.working = none) (hq : y.requester = some o)
    (hr : y.rebuild = x.rebuild)
    (hclaim : y.kind = .writeback → q.noticeFor l o = none) (hd : (q.withDir d).Quiet) :
    drain 4 { (q.withDir d).putSlot t (some y) with answerQ := q.answerQ ++ [a] } ([.close t] ++ [.settle]) =
      some { (q.closed t (some o) v).withDir d with answerQ := q.answerQ ++ [a] } := by
  let p : State := { (q.withDir d).putSlot t (some y) with answerQ := q.answerQ ++ [a] }
  have hclosing : p.Closing t y l v := hs.closing (y := y) ⟨hquiet.noHeldOrder, hquiet.noHeldAnswer⟩ rfl hline hrank hwin hlink hp
    fun n hk hn => by
      rw [hq] at hn
      cases hn
      exact hclaim hk
  have hpq : (p.withDir p.dir).Quiet := (hd.changed (t := t) (x := x) hs.slot (y := y) hr).same
  have hdrain := drain_sole hclosing hpq hs.windowLive (hc.trans hs.uncounted) (writeBack_unheld hclosing hw)
  have hclosed : p.closed t y.requester v = { (q.closed t (some o) v).withDir d with answerQ := q.answerQ ++ [a] } := by
    rw [hq]
    exact closed_putSlot { q.withDir d with answerQ := q.answerQ ++ [a] } t (some y) (some o) v
  rw [hclosed] at hdrain
  exact hdrain

end

/-! ### The store of a transaction, consumed or observed -/

section
variable {s : State} {t u : SlotIx} {x y : Slot} {l : Line} {v : WinIx} {w : WayIx} {n o : Node} {rest : List ReplyMsg}

theorem exec_absorbDone_consumed (hm : s.replyIntake = .absorbDone l n :: rest) (ha : s.activeOn l = some t)
    (hx : s.getSlot t = some x) (hmem : x.memWait = .consuming n) (hr : x.rebuild = none) : exec .absorbDone s = s.event
      (if x.kind.recall then ((s.replyTaken rest).putSlot t (some x.stored)).recallFreed t
      else if x.kind = .writeback then
        (((s.replyTaken rest).putSlot t (some x.stored)).freeHeld t).closeWith t (fun n l => .wbDone n l false)
      else ((s.replyTaken rest).putSlot t (some x.stored)).nextStep t) := by
  rw [exec_absorbDone hm, absorbDone_of_consumer (s := s.replyTaken rest) ha hx hmem]
  exact congrArg s.event (storeConsumed_of_plain (s := s.replyTaken rest) hx hr)

theorem exec_absorbDone_offered (h : s.Quiet) (hm : s.replyIntake = .absorbDone l n :: rest)
    (hno : ∀ t x, s.activeOn l = some t → s.getSlot t = some x → x.memWait ≠ .consuming n) :
    exec .absorbDone s = s.event ((s.replyTaken rest).storeOffered l n, s.watcher l n) := by
  have hquiet : (s.replyTaken rest).Quiet := h.same
  rw [exec_absorbDone hm, absorbDone_offered hquiet hno, offerNotice_eq] <;> rfl

/-- A store offered that meets an observing wait. -/
theorem exec_absorbDone_observed (h : s.Quiet) (hm : s.replyIntake = .absorbDone l n :: rest) (ha : s.activeOn l = some t)
    (hx : s.getSlot t = some x) (hmem : x.memWait = .observing n) {k : Nat} (hk : k + 1 ≤ Config.cascadeBound) {e : State}
    (hrest : drain k (((s.replyTaken rest).storeOffered l n).meetObserving t).1
      ((((s.replyTaken rest).storeOffered l n).meetObserving t).2 ++ [.settle]) = some e) :
    exec .absorbDone s = .next e.driveEventN := by
  have hno : ∀ t x, s.activeOn l = some t → s.getSlot t = some x → x.memWait ≠ .consuming n := fun t' x' ha' hx' hc => by
    rw [ha] at ha'
    cases ha'
    rw [hx] at hx'
    cases hx'
    rw [hmem] at hc
    cases hc
  rw [exec_absorbDone_offered h hm hno, watcher_of_observer ha hx hmem]
  exact event_of_drain (k + 1) hk h.running (drain_step (t := .meetObserving t) (Prod.mk.eta).symm hrest)

/-- A WRITEBACK's store consumed. -/
theorem exec_absorbDone_writeback {d : List (SetIx × SetRec)} {z : Slot} (h : s.Quiet) (hm : s.replyIntake = .absorbDone l n :: rest)
    (ha : s.activeOn l = some t) (hs : s.Sole t x l v) (hk : x.kind = .writeback) (hmem : x.memWait = .consuming n)
    (hq : x.requester = some n) (hno : s.noticeFor l n = none) (hroom : s.answerQ.length < 64) (hd : (s.withDir d).Quiet)
    (hz : z = { x.stored with working := none })
    (hfree : ((s.replyTaken rest).putSlot t (some x.stored)).freeHeld t = ((s.replyTaken rest).withDir d).putSlot t (some z)) :
    exec .absorbDone s = .next (State.driveEventN
      { ((s.replyTaken rest).closed t (some n) v).withDir d with answerQ := s.answerQ ++ [.wbDone n l false] }) := by
  subst hz
  have hquiet : (s.replyTaken rest).Quiet := h.same
  have hslot : (((s.replyTaken rest).withDir d).putSlot t (some { x.stored with working := none })).getSlot t =
      some { x.stored with working := none } := getSlot_putSlot_self ..
  have hsend := sendAnswer_closing (s := ((s.replyTaken rest).withDir d).putSlot t (some { x.stored with working := none }))
    ⟨h.noHeldOrder, h.noHeldAnswer⟩ hslot hs.sent hroom (a := .wbDone n l false) rfl
  rw [exec_absorbDone_consumed hm ha hs.slot hmem hs.plain, if_neg (by rw [hk]; exact Bool.noConfusion), if_pos hk, hfree,
    closeWith_of_slot hslot hq hs.line, hsend]
  have hsole : (s.replyTaken rest).Sole t x l v := ⟨hs.slot, hs.line, hs.alone, hs.active, hs.rank, hs.window, hs.windowLive,
    hs.unlinked, hs.uncounted, hs.sent, hs.plain⟩
  exact event_of_drain 4 (by decide) h.running (drain_sole_answered hsole hquiet rfl rfl rfl rfl hs.sent rfl rfl hq rfl
    (fun _ => hno) hd.same)

end

/-- Settles O56: the store consumed, offered, or met by an observing wait; a notice's age. -/
theorem storesAndNotices : Obligations.StoresAndNotices := by
  intro s l n
  refine ⟨fun rest h hm => ?_, fun hs => ⟨?_, ?_⟩⟩
  · intro r offered
    refine ⟨fun q hno hq => ?_, fun t x v ha hs hd hk hmem hreq hw hnone hroom => ?_, ?_⟩
    · rw [exec_absorbDone_offered h hm fun t x ha hx => (hno t x ha hx).1, watcher_of_none fun t x ha hx => (hno t x ha hx).2,
        storeOffered_cases (s := s.replyTaken rest) hq]
      have hquiet : ((s.replyTaken rest).storeOffered l n).Quiet := h.same
      rw [storeOffered_cases (s := s.replyTaken rest) hq] at hquiet
      exact event_quiet h.running hquiet
    · have hz : ({ x.stored with working := none } : Slot) = x.stored := by
        rw [show (none : Option Working) = x.stored.working from hw.symm]
      refine exec_absorbDone_writeback (d := s.dir) h hm ha hs hk hmem hreq hnone hroom h.same rfl ?_
      rw [hz]
      exact freeHeld_of_none (getSlot_putSlot_self ..) hw
    · intro t x w ha hx hl hp hr hw hb back freed reads
      refine ⟨fun v hs hk hmem hreq hno hroom => ?_, fun o hk hmem hzero hreq hd hroom => ?_,
        fun v q hk hreq hwin halone hrank hjobs hcase => ?_, fun q o hmem hq hk hreq => ⟨fun hlive hroom hok => ?_, fun v hlive hs ho hroom => ?_⟩⟩
      · refine exec_absorbDone_writeback (d := (s.makeFree (setOf l) w).dir) h hm ha hs hk hmem hreq hno hroom
          (makeFree_quiet h (setOf l) w).same rfl ?_
        exact freeHeld_putSlot (s := s.replyTaken rest) (t := t) (y := x.stored) hl hw hb
      · have hslot : (r.putSlot t (some x.stored)).getSlot t = some x.stored := getSlot_putSlot_self ..
        have hquiet : (r.putSlot t (some x.stored)).Quiet := (h.same (s' := r)).changed hx rfl
        have hkind : x.stored.kind = .readShared := hk
        have hgrant := nextStep_grant (n := o) hquiet.noneHeld hslot hp hzero rfl (by rw [hkind]; rfl) hreq hl hw hd hroom
        rw [hkind, grantSource_of_owned (x := x.stored) hw] at hgrant
        rw [exec_absorbDone_consumed hm ha hx hmem hr, if_neg (by rw [hk]; exact Bool.noConfusion), if_neg (by rw [hk]; nofun)]
        refine (congrArg s.event hgrant).trans ((event_quiet h.running (hquiet.grantSent (n := o) (l := l) (w := w) hslot _ (.node n))).trans ?_)
        unfold State.grantSent
        rw [putSlot_putSlot]
        rfl
      · have hrec : s.Recalls t x l v w (.owned n) :=
          ⟨h, hx, hl, onlyOn_of_alone halone, hrank, hwin, hp, hreq, hk, hw, hb, hjobs⟩
        have hend : ∃ z : Slot, ∃ F C K N, q = { r with flags := F, capture := C, counters := K, notices := N } ∧
            (q.putSlot t (some z)).Recalls t z l v w (.owned n) ∧ z.kind = x.kind ∧ z.victimLink = x.victimLink ∧
            q.recallClosed t z v = q.recallClosed t x v ∧ ∀ e, drain 4 ((q.putSlot t (some z)).recallFreed t).1
              (((q.putSlot t (some z)).recallFreed t).2 ++ [.settle]) = some e → exec .absorbDone s = .next e.driveEventN := by
          rcases hcase with ⟨hmem, rfl⟩ | ⟨hmem, hq⟩
          · refine ⟨x.stored, _, _, _, _, rfl, (hrec.same (q := r)).changed rfl rfl rfl hp rfl rfl hw rfl rfl rfl, rfl, rfl, rfl,
              fun e he => ?_⟩
            rw [exec_absorbDone_consumed hm ha hx hmem hr, if_pos hk]
            exact event_of_drain 4 (by decide) h.running he
          · have hoffer := storeOffered_cases (s := s.replyTaken rest) hq
            subst hoffer
            have hmet := meetObserving_recall (s := (s.replyTaken rest).storeOffered l n) ⟨h.noHeldOrder, h.noHeldAnswer⟩ hx hp hk
            refine ⟨x.met, _, _, _, _, rfl, (hrec.same (q := (s.replyTaken rest).storeOffered l n)).changed rfl rfl rfl hp rfl rfl hw
              rfl rfl rfl, rfl, rfl, rfl, fun e he => ?_⟩
            exact exec_absorbDone_observed h hm ha hx hmem (k := 4) (by decide) (by rw [hmet]; exact he)
        obtain ⟨z, F, C, K, N, rfl, hz, hzk, hzv, hzc, hexec⟩ := hend
        refine ⟨fun hv => hexec _ (drain_mono (k := 3) (by decide) (drain_changedFreed hz hv hzv hzc)),
          fun u y b o hkind hv hy hlive hroom hok => ?_⟩
        rw [givenWay_recallClosed]
        exact hexec _ (drain_changedGiven hz hok.1 (hzv.trans hv) (hzk.trans hkind) hy.same hlive hroom hzc)
      · have hoffer := storeOffered_cases (s := s.replyTaken rest) hq
        subst hoffer
        have hfetch := meetObserving_fetches (s := (s.replyTaken rest).storeOffered l n) ⟨h.noHeldOrder, h.noHeldAnswer⟩ hok.1 hx hp hr
          (recall_of_read hk) hreq hl hw hb hlive hroom
        refine Eq.trans ?_ (congrArg (fun z : SetRec => Host.Outcome.next (State.driveEventN
          { (((s.replyTaken rest).storeOffered l n).putSlot t (some (x.refetches s w))).putSet (setOf l) z with
            orderQ := s.orderQ ++ [.fetch l o false] })) (freed_given (s.getSet (setOf l)) w l t).symm)
        refine exec_absorbDone_observed h hm ha hx hmem (k := 1) (by decide) ?_
        rw [hfetch]
        refine drain_settle (Quiet_settled ?_) 0
        refine State.Quiet.slotted (h.putSet (setOf l) (r := (s.getSet (setOf l)).givenTo w l t) ?_) (u := t) rfl hr
        exact h.frozenSet (setOf l)
      · have hoffer := storeOffered_cases (s := s.replyTaken rest) hq
        subst hoffer
        have hrefuse := meetObserving_refused (s := (s.replyTaken rest).storeOffered l n) ⟨h.noHeldOrder, h.noHeldAnswer⟩ hx hp
          (recall_of_read hk) hreq hl hw hb hlive ho hroom
        have hsole : ((s.replyTaken rest).storeOffered l n).Sole t x l v := ⟨hs.slot, hs.line, hs.alone, hs.active, hs.rank, hs.window,
          hs.windowLive, hs.unlinked, hs.uncounted, hs.sent, hs.plain⟩
        have hclose := drain_sole_answered (y := { x.met with working := none }) (d := (s.makeFree (setOf l) w).dir)
          (a := .refuse o l (.request x.kind.toReqKind) .memoryFault) hsole h.same rfl rfl rfl rfl hp rfl rfl hreq rfl
          (fun hwb => absurd hwb (kind_ne_writeback hk)) (makeFree_quiet h (setOf l) w).same
        refine exec_absorbDone_observed h hm ha hx hmem (k := 4) (by decide) ?_
        rw [hrefuse]
        exact hclose
  · intro v hv hun hup
    have hexec : exec (.noticeAgeExpiry l n) s = s.event ((s.removeNotice l n).countNoticeDropped, []) := by
      show s.event _ = _
      rw [hv]
      exact congrArg s.event (if_pos ⟨hup, hun⟩)
    rw [hexec, removeNotice_eq]
    exact event_settled hs.1 (settled_of_same hs.2)
  · intro hno
    have hexec : exec (.noticeAgeExpiry l n) s = s.event (s, []) := by
      show s.event _ = _
      cases hv : s.noticeFor l n with
      | none => rfl
      | some v =>
        refine congrArg s.event (if_neg fun h => ?_)
        rcases hno with hdown | hclaimed
        · exact hdown h.1
        · exact Bool.false_ne_true (h.2.symm.trans (hclaimed v hv))
    rw [hexec]
    exact event_settled hs.1 hs.2

end Sys2Proof.Machine

/-! # Register reads (O23): the words of the views as sums of their fields -/

namespace Sys2Proof.Machine

set_option Elab.async false

/-- A field joins a word whose bits at its place are 0. -/
theorem natWord_or {a b k j : Nat} (ha : a / 2 ^ k % 2 ^ j = 0) (hb : b < 2 ^ j) :
    natWord a ||| field b k = natWord (a + b * 2 ^ k) := by
  have hsplit : a = 2 ^ (j + k) * (a / 2 ^ (j + k)) + a % 2 ^ k := by
    have h1 := Nat.div_add_mod a (2 ^ k)
    have h2 := Nat.div_add_mod (a / 2 ^ k) (2 ^ j)
    rw [ha, Nat.add_zero, Nat.div_div_eq_div_mul] at h2
    rw [pow_add, mul_comm (2 ^ j), mul_assoc, h2, h1]
  have hlow : a % 2 ^ k < 2 ^ k := Nat.mod_lt _ (by positivity)
  have hmid : 2 ^ k * b + a % 2 ^ k < 2 ^ (j + k) := by
    have : 2 ^ k * (b + 1) ≤ 2 ^ k * 2 ^ j := Nat.mul_le_mul_left _ hb
    rw [mul_add, mul_one, ← pow_add, add_comm k] at this
    omega
  have hlow' : a % 2 ^ k < 2 ^ (j + k) := by omega
  have hor : a ||| b * 2 ^ k = a + b * 2 ^ k := by
    generalize a / 2 ^ (j + k) = q at hsplit
    generalize a % 2 ^ k = r at hsplit hlow hmid hlow'
    rw [hsplit, mul_comm b, ← show 2 ^ (j + k) * q ||| (2 ^ k * b + r) = 2 ^ (j + k) * q + r + 2 ^ k * b by
      rw [← Nat.two_pow_add_eq_or_of_lt hmid]; omega, Nat.two_pow_add_eq_or_of_lt hlow,
      Nat.two_pow_add_eq_or_of_lt hlow', Nat.or_assoc, Nat.or_comm r]
  unfold natWord field
  rw [← BitVec.ofNat_or, hor]

/-- A field on top of every bit of a word joins it, whatever its width. -/
theorem natWord_or_top {a b k : Nat} (ha : a < 2 ^ k) : natWord a ||| field b k = natWord (a + b * 2 ^ k) :=
  natWord_or (j := b) (by rw [Nat.div_eq_of_lt ha]; rfl) Nat.lt_two_pow_self

theorem field_zero (n : Nat) : field n 0 = natWord n := by simp [field, natWord]

theorem field_eq (n k : Nat) : field n k = natWord (n * 2 ^ k) := rfl

theorem setWidth_eq_natWord {w : Nat} (x : BitVec w) : (x.setWidth 32 : Word32) = natWord x.toNat := by
  apply BitVec.eq_of_toNat_eq
  simp [natWord]

theorem natWord_shift (a k : Nat) : natWord a <<< k = field a k := by
  apply BitVec.eq_of_toNat_eq
  simp [natWord, field, Nat.shiftLeft_eq, Nat.mod_mul_mod]

theorem lineHigh_eq (l : Line) : lineHigh l = natWord (l.toNat / 2 ^ 32) := by
  rw [lineHigh, setWidth_eq_natWord]
  congr 1
  rw [BitVec.extractLsb'_toNat, Nat.shiftRight_eq_div_pow, Nat.mod_eq_of_lt]
  have := l.isLt
  omega

theorem lineHigh_lt (l : Line) : l.toNat / 2 ^ 32 < 4 := by
  have := l.isLt
  omega

theorem maskWord_eq (m : NodeSet) : maskWord m = natWord m.toNat := setWidth_eq_natWord m

theorem toNat_append_add {m n : Nat} (x : BitVec m) (y : BitVec n) : (x ++ y).toNat = x.toNat * 2 ^ n + y.toNat := by
  rw [BitVec.toNat_append, ← Nat.shiftLeft_add_eq_or_of_lt y.isLt, Nat.shiftLeft_eq]

/-! ### Node and window views -/

theorem NodeState.code_lt (x : NodeState) : x.code < 5 := by cases x <;> decide

theorem reasonCode_lt (x : Option PurgeReason) : reasonCode x < 5 := by
  obtain _ | x := x
  · decide
  · cases x <;> decide

theorem NodeRec.viewWord_eq (r : NodeRec) :
    r.viewWord = natWord (r.state.code + reasonCode r.reason * 2 ^ 8 + r.credits * 2 ^ 16) := by
  have hs := r.state.code_lt
  have hr := reasonCode_lt r.reason
  unfold NodeRec.viewWord
  rw [field_zero, natWord_or_top (by omega), natWord_or_top (by omega)]

theorem NodeRec.countWord_eq (r : NodeRec) :
    r.countWord = natWord (r.timeouts.toNat * 2 ^ 16 + r.violations.toNat * 2 ^ 8 + r.stale.toNat) := by
  apply BitVec.eq_of_toNat_eq
  have ht := r.timeouts.isLt
  have hv := r.violations.isLt
  have hs := r.stale.isLt
  unfold NodeRec.countWord natWord
  rw [toNat_append_add, toNat_append_add, toNat_append_add, BitVec.toNat_ofNat, BitVec.toNat_ofNat]
  omega

theorem WinState.code_lt (x : WinState) : x.code < 3 := by cases x <;> decide

theorem progressCode_lt (x : Option Progress) : progressCode x < 4 := by
  obtain _ | x := x
  · decide
  · cases x <;> decide

theorem Window.viewWord_eq (v : Window) :
    v.viewWord =
      natWord (v.state.code + v.kind.code * 2 ^ 4 + progressCode v.progress * 2 ^ 8 + v.openCount * 2 ^ 16) := by
  have hs := v.state.code_lt
  have hk := v.kind.code_lt
  have hp := progressCode_lt v.progress
  unfold Window.viewWord
  rw [field_zero, natWord_or_top (by omega), natWord_or_top (by omega), natWord_or_top (by omega)]

theorem Window.viewTail_eq (v : Window) :
    v.viewTail = #v[natWord (v.allowed.toNat + v.start.toNat / 2 ^ 32 * 2 ^ 16 + v.limit.toNat / 2 ^ 32 * 2 ^ 24),
      v.start.setWidth 32, v.limit.setWidth 32] := by
  have ha := v.allowed.isLt
  have hs := lineHigh_lt v.start
  have hword : maskWord v.allowed ||| (lineHigh v.start <<< 16) ||| (lineHigh v.limit <<< 24) =
      natWord (v.allowed.toNat + v.start.toNat / 2 ^ 32 * 2 ^ 16 + v.limit.toNat / 2 ^ 32 * 2 ^ 24) := by
    rw [maskWord_eq, lineHigh_eq, lineHigh_eq, natWord_shift, natWord_shift]
    generalize v.start.toNat / 2 ^ 32 = a at *
    generalize v.allowed.toNat = b at *
    rw [natWord_or_top (a := b) (b := a) (k := 16) (by omega), natWord_or_top (a := b + a * 2 ^ 16) (k := 24) (by omega)]
  exact congrArg (fun w => (#v[w, lineLow v.start, lineLow v.limit] : Vector Word32 3)) hword

/-! ### Walk views -/

theorem field_ite (c : Prop) [Decidable c] (k : Nat) :
    (if c then field 1 k else 0#32) = field (if c then 1 else 0) k := by
  split
  · rfl
  · simp [field]

theorem nodeSet_eq_zero_iff (m : NodeSet) : m = 0#8 ↔ ∀ n, NodeSet.has m n = false := by
  constructor
  · rintro rfl n
    exact BitVec.getLsbD_zero
  · intro h
    refine BitVec.eq_of_getLsbD_eq fun i hi => ?_
    rw [BitVec.getLsbD_zero]
    exact h ⟨i, hi⟩

/-- No purge walk has sets left exactly where the walk's nodes are none. -/
theorem walkingNodes_eq_zero (s : State) :
    s.walkingNodes = 0#8 ↔ ∀ n j, s.getJob n = some j → j.setsLeft = 0 := by
  rw [nodeSet_eq_zero_iff]
  refine forall_congr' fun n => ?_
  rw [State.walkingNodes, has_ofTest]
  cases s.getJob n with
  | none => simp
  | some j => simp

theorem purgeWord_eq (s : State) :
    s.purgeWord = natWord (s.purgePos.val + (if ∀ n j, s.getJob n = some j → j.setsLeft = 0 then 1 else 0) * 2 ^ 15 +
      s.purgeSet.toNat * 2 ^ 16) := by
  have hp := s.purgePos.isLt
  unfold State.purgeWord
  rw [field_zero, field_ite, maskWord_eq, natWord_shift, natWord_or_top (by omega), natWord_or_top]
  · simp only [walkingNodes_eq_zero]
  · split <;> omega

theorem jobWord_eq (j : PurgeJob) (hs : j.setsLeft ≤ 2048) (ho : j.openRecalls ≤ 48) :
    jobWord (some j) =
      natWord (2 ^ 31 + (if j.mode = .silent then 1 else 0) * 2 ^ 30 + j.setsLeft * 2 ^ 16 + j.openRecalls) := by
  unfold jobWord
  dsimp only
  rw [field_ite, field_eq 1 31]
  generalize hm : (if j.mode = .silent then 1 else 0) = m
  have hm2 : m < 2 := by rw [← hm]; split <;> omega
  rw [natWord_or (j := 1) (by omega) (by omega), natWord_or (j := 12) (by omega) (by omega),
    natWord_or (j := 16) (by omega) (by omega)]
  norm_num

theorem MaintKind.code_lt (x : MaintKind) : x.code < 3 := by cases x <;> decide

theorem RunState.code_lt (x : RunState) : x.code < 5 := by cases x <;> decide

/-- The number of a job's window, 0 where it has none. -/
def windowNumber : Option WinIx → Nat
  | none => 0
  | some w => w.val

theorem windowNumber_lt (o : Option WinIx) : windowNumber o < 8 := by
  obtain _ | w := o
  · decide
  · exact w.isLt

theorem maintWord0_eq (j : MaintJob) (hn : j.nextSet ≤ 2048) :
    maintWord0 (some j) = natWord (2 ^ 31 + j.kind.code * 2 ^ 28 + windowNumber j.window * 2 ^ 24 + j.run.code * 2 ^ 20 +
      (if j.owed then 1 else 0) * 2 ^ 19 + j.nextSet) := by
  have hwin : ∀ o : Option WinIx, (match o with
      | some w => w.val
      | none => 0) = windowNumber o := by
    intro o
    cases o <;> rfl
  show field 1 31 ||| field j.kind.code 28 ||| field (match j.window with
      | some w => w.val
      | none => 0) 24 ||| field j.run.code 20 ||| field (if j.owed then 1 else 0) 19 ||| field j.nextSet 0 = _
  rw [hwin]
  have hk := j.kind.code_lt
  have hw := windowNumber_lt j.window
  have hr := j.run.code_lt
  generalize hm : (if j.owed = true then 1 else 0) = m
  have hm2 : m < 2 := by rw [← hm]; split <;> omega
  rw [field_eq 1 31, natWord_or (j := 3) (by omega) (by omega), natWord_or (j := 4) (by omega) (by omega),
    natWord_or (j := 4) (by omega) (by omega), natWord_or (j := 1) (by omega) (by omega),
    natWord_or (j := 19) (by omega) (by omega)]
  norm_num

theorem maintWord1_of_none {s : State} (h : s.maint = none) : s.maintWord1 = natWord (s.scrubPos.val * 2 ^ 16) := by
  unfold State.maintWord1
  rw [h, field_zero, natWord_or_top (by dsimp only; omega), Nat.zero_add]

theorem maintWord1_of_some {s : State} {j : MaintJob} (h : s.maint = some j) (ho : j.openCount ≤ 48) :
    s.maintWord1 = natWord (j.openCount + s.scrubPos.val * 2 ^ 16) := by
  unfold State.maintWord1
  rw [h, field_zero, natWord_or_top (by dsimp only; omega)]

theorem maintWord2_eq (j : MaintJob) : maintWord2 (some j) = natWord (j.interval.getD 0) := by
  show (match j.interval with
    | some k => field k 0
    | none => 0#32) = _
  cases j.interval with
  | none => rfl
  | some k => exact field_zero k

/-! ### The capture record -/

theorem Cause.code_lt (x : Cause) : x.code < 6 := by cases x <;> decide

theorem presence_eq {α : Type} (o : Option α) (k : Nat) :
    presence o k = field (if o.isSome then 1 else 0) k := by
  unfold presence
  exact field_ite _ k

theorem captureWord0_eq (r : Capture) :
    captureWord0 (some r) = natWord (2 ^ 31 + r.cause.code * 2 ^ 24 + r.further.toNat * 2 ^ 16 +
      (if r.fields.line.isSome then 1 else 0) * 2 ^ 0 + (if r.fields.node.isSome then 1 else 0) * 2 ^ 1 +
      (if r.fields.set.isSome then 1 else 0) * 2 ^ 2 + (if r.fields.way.isSome then 1 else 0) * 2 ^ 3 +
      (if r.fields.slot.isSome then 1 else 0) * 2 ^ 4) := by
  have hc := r.cause.code_lt
  have hf := r.further.isLt
  have hbit : ∀ b : Bool, (if b = true then 1 else 0) < 2 := by decide
  unfold captureWord0
  simp only [presence_eq]
  have h0 := hbit r.fields.line.isSome
  have h1 := hbit r.fields.node.isSome
  have h2 := hbit r.fields.set.isSome
  have h3 := hbit r.fields.way.isSome
  have h4 := hbit r.fields.slot.isSome
  generalize (if r.fields.line.isSome = true then 1 else 0) = b0 at *
  generalize (if r.fields.node.isSome = true then 1 else 0) = b1 at *
  generalize (if r.fields.set.isSome = true then 1 else 0) = b2 at *
  generalize (if r.fields.way.isSome = true then 1 else 0) = b3 at *
  generalize (if r.fields.slot.isSome = true then 1 else 0) = b4 at *
  rw [field_eq 1 31, natWord_or (j := 7) (by omega) (by omega), natWord_or (j := 4) (by omega) (by omega),
    natWord_or (j := 1) (by omega) h0, natWord_or (j := 1) (by omega) h1, natWord_or (j := 1) (by omega) h2,
    natWord_or (j := 1) (by omega) h3, natWord_or (j := 1) (by omega) h4]
  norm_num

/-- The number of a record's sender, 0 where it names none. -/
def peerNumber : Option Peer → Nat
  | none => 0
  | some (.node n) => n.val
  | some .memory => 15

theorem peerNumber_eq (o : Option Peer) :
    orZero (fun p : Peer => (p.code.setWidth 32 : Word32) <<< 8) o = field (peerNumber o) 8 := by
  match o with
  | none => simp [orZero, peerNumber, field]
  | some .memory => rfl
  | some (.node n) =>
    show ((BitVec.ofNat 4 n.val).setWidth 32 : Word32) <<< 8 = field n.val 8
    rw [setWidth_eq_natWord, natWord_shift, BitVec.toNat_ofNat, Nat.mod_eq_of_lt (by omega)]

theorem orZero_field {α : Type} (f : α → Nat) (o : Option α) (z : α) (hz : f z = 0) (k : Nat) :
    orZero (fun a => field (f a) k) o = field (f (o.getD z)) k := by
  cases o with
  | none => simp [orZero, field, hz]
  | some a => rfl

theorem captureTail_eq (r : Capture) :
    captureTail (some r) = #v[(r.fields.line.getD 0).setWidth 32,
      natWord ((r.fields.line.getD 0).toNat / 2 ^ 32 + peerNumber r.fields.node * 2 ^ 8),
      natWord ((r.fields.set.getD 0).val + (r.fields.way.getD 0).val * 2 ^ 16 + (r.fields.slot.getD 0).val * 2 ^ 24)] := by
  have hlow : orZero lineLow r.fields.line = (r.fields.line.getD 0).setWidth 32 := by
    cases r.fields.line <;> rfl
  have hhigh : orZero lineHigh r.fields.line = natWord ((r.fields.line.getD 0).toNat / 2 ^ 32) := by
    cases r.fields.line with
    | none => rfl
    | some l => exact lineHigh_eq l
  have hline := lineHigh_lt (r.fields.line.getD 0)
  have hset := (r.fields.set.getD 0).isLt
  have hway := (r.fields.way.getD 0).isLt
  have hsecond : orZero lineHigh r.fields.line |||
      orZero (fun p : Peer => (p.code.setWidth 32 : Word32) <<< 8) r.fields.node =
      natWord ((r.fields.line.getD 0).toNat / 2 ^ 32 + peerNumber r.fields.node * 2 ^ 8) := by
    rw [hhigh, peerNumber_eq, natWord_or_top (by omega)]
  have hthird : orZero (fun i : SetIx => field i.val 0) r.fields.set |||
      orZero (fun w : WayIx => field w.val 16) r.fields.way ||| orZero (fun t : SlotIx => field t.val 24) r.fields.slot =
      natWord ((r.fields.set.getD 0).val + (r.fields.way.getD 0).val * 2 ^ 16 + (r.fields.slot.getD 0).val * 2 ^ 24) := by
    rw [orZero_field (fun i : SetIx => i.val) r.fields.set 0 rfl, orZero_field (fun w : WayIx => w.val) r.fields.way 0 rfl,
      orZero_field (fun t : SlotIx => t.val) r.fields.slot 0 rfl]
    generalize (r.fields.set.getD 0).val = a at *
    generalize (r.fields.way.getD 0).val = b at *
    rw [field_zero, natWord_or_top (a := a) (by omega), natWord_or_top (a := a + b * 2 ^ 16) (by omega)]
  show (#v[_, _, _] : Vector Word32 3) = _
  simp only [hlow, hsecond, hthird]

/-! ### The memory agent, the link and STATUS -/

/-- The code of the memory agent's state. -/
def memCode : MemState → Nat
  | .absent => 0
  | .live => 1
  | .failed => 2

theorem memWord_eq (s : State) : s.memWord = natWord (memCode s.mem + s.memTimeouts.toNat * 2 ^ 16) := by
  have hcode : (match s.mem with
    | .absent => 0#32
    | .live => 1#32
    | .failed => 2#32) = natWord (memCode s.mem) := by cases s.mem <;> rfl
  have hlt : memCode s.mem < 3 := by cases s.mem <;> decide
  unfold State.memWord
  rw [setWidth_eq_natWord, natWord_shift, ← natWord_or_top (by omega), ← hcode] <;> rfl

/-- The code of the link's state. -/
def linkCode : LinkState → Nat
  | .down => 0
  | .training => 1
  | .up => 2

theorem Setting.codes_lt (g : Setting) : g.codes.1 < 2 ∧ g.codes.2 < 4 := by
  unfold Setting.codes
  constructor
  · dsimp only
    cases g.width <;> decide
  · dsimp only
    cases g.rate <;> decide

theorem linkWord_eq (s : State) :
    s.linkWord = natWord (linkCode s.link + (s.curSetting.codes.1 * 2 ^ 4 + s.curSetting.codes.2 * 2 ^ 8) +
      (s.nextSetting.codes.1 * 2 ^ 12 + s.nextSetting.codes.2 * 2 ^ 16)) := by
  have hcode : (match s.link with
    | .down => 0#32
    | .training => 1#32
    | .up => 2#32) = natWord (linkCode s.link) := by cases s.link <;> rfl
  have hlt : linkCode s.link < 3 := by cases s.link <;> decide
  obtain ⟨hc1, hc2⟩ := s.curSetting.codes_lt
  obtain ⟨hn1, hn2⟩ := s.nextSetting.codes_lt
  have hsum : natWord (linkCode s.link) ||| field s.curSetting.codes.1 4 ||| field s.curSetting.codes.2 8 |||
      field s.nextSetting.codes.1 12 ||| field s.nextSetting.codes.2 16 =
      natWord (linkCode s.link + (s.curSetting.codes.1 * 2 ^ 4 + s.curSetting.codes.2 * 2 ^ 8) +
        (s.nextSetting.codes.1 * 2 ^ 12 + s.nextSetting.codes.2 * 2 ^ 16)) := by
    rw [natWord_or_top (by omega), natWord_or_top (by omega), natWord_or_top (by omega), natWord_or_top (by omega)]
    congr 1
    omega
  rw [← hsum, ← hcode] <;> rfl

theorem MailboxState.code_lt (x : MailboxState) : x.code < 4 := by cases x <;> decide

theorem ResultCode.code_lt (x : ResultCode) : x.code < 14 := by cases x <;> decide

theorem statusWord_eq (s : State) :
    s.statusWord = natWord (s.mbState.code + s.mbResult.code * 2 ^ 8 + (if s.overrun then 1 else 0) * 2 ^ 16 +
      (if s.limitRejected then 1 else 0) * 2 ^ 17) := by
  have hs := s.mbState.code_lt
  have hr := s.mbResult.code_lt
  have hbit : ∀ b : Bool, (if b = true then 1 else 0) < 2 := by decide
  have h0 := hbit s.overrun
  unfold State.statusWord
  rw [field_ite, field_ite]
  generalize (if s.overrun = true then 1 else 0) = b0 at *
  rw [field_zero, natWord_or_top (by omega), natWord_or_top (by omega), natWord_or_top (by omega)]

/-! ### The register map -/

/-- A read of a register that takes a snapshot, or none, gives the register's word. -/
theorem exec_read {s r : State} {a : BitVec 16} {w : Word32} (hs : s.Ready) (hr : s.readRegister a = (r, w))
    (hsettled : ({ r with sdo := w } : State).settled = true) :
    exec (.viewSnapshotRead a) s = .next (State.driveEventN { r with sdo := w }) := by
  have hframe : s.readFrame a = { r with sdo := w } := by
    unfold State.readFrame
    rw [hr]
  show s.event (s.readFrame a, []) = _
  rw [hframe]
  exact event_settled hs.1 hsettled

theorem toNat_register {a : Nat} (h : a < 2 ^ 16) : (BitVec.ofNat 16 a).toNat = a := by
  rw [BitVec.toNat_ofNat, Nat.mod_eq_of_lt h]

theorem toList_getD {α : Type} {m : Nat} (v : Vector α m) (k : Fin m) (d : α) : v.toList.getD k.val d = v[k] := by
  rw [List.getD_eq_getElem?_getD, Vector.getElem?_toList, Vector.getElem?_eq_getElem k.isLt]
  rfl

theorem readRegister_counts (s : State) (n : Node) :
    s.readRegister (BitVec.ofNat 16 (0x40 + n.val)) = (s, (s.getNode n).countWord) := by
  have hn := n.isLt
  have hnode : node8 (0x40 + n.val) = n := Fin.ext (by show (0x40 + n.val) % 8 = n.val; omega)
  unfold State.readRegister
  simp (disch := omega) only [toNat_register, if_neg, if_pos, hnode]

theorem readRegister_nodeFirst (s : State) (n : Node) :
    s.readRegister (BitVec.ofNat 16 (0x60 + 2 * n.val)) =
      ({ s with snapNode := s.snapNode.set n.val (s.getNode n).countWord n.isLt }, (s.getNode n).viewWord) := by
  have hn := n.isLt
  have hnode : node8 ((0x60 + 2 * n.val - 0x60) / 2) = n :=
    Fin.ext (by show (0x60 + 2 * n.val - 0x60) / 2 % 8 = n.val; omega)
  unfold State.readRegister
  simp (disch := omega) only [toNat_register, if_neg, if_pos, hnode]

theorem readRegister_nodeSecond (s : State) (n : Node) :
    s.readRegister (BitVec.ofNat 16 (0x61 + 2 * n.val)) = (s, s.snapNode[n]) := by
  have hn := n.isLt
  have hnode : node8 ((0x61 + 2 * n.val - 0x60) / 2) = n :=
    Fin.ext (by show (0x61 + 2 * n.val - 0x60) / 2 % 8 = n.val; omega)
  unfold State.readRegister
  simp (disch := omega) only [toNat_register, if_neg, if_pos, hnode]

theorem readRegister_windowFirst (s : State) (w : WinIx) :
    s.readRegister (BitVec.ofNat 16 (0x80 + 4 * w.val)) =
      ({ s with snapWindow := s.snapWindow.set w.val (s.getWindow w).viewTail w.isLt }, (s.getWindow w).viewWord) := by
  have hw := w.isLt
  have hwin : node8 ((0x80 + 4 * w.val - 0x80) / 4) = w :=
    Fin.ext (by show (0x80 + 4 * w.val - 0x80) / 4 % 8 = w.val; omega)
  unfold State.readRegister
  simp (disch := omega) only [toNat_register, if_neg, if_pos, hwin]

theorem readRegister_windowTail (s : State) (w : WinIx) (k : Fin 3) :
    s.readRegister (BitVec.ofNat 16 (0x81 + 4 * w.val + k.val)) = (s, (s.snapWindow[w])[k]) := by
  have hw := w.isLt
  have hk := k.isLt
  have hwin : node8 ((0x81 + 4 * w.val + k.val - 0x80) / 4) = w :=
    Fin.ext (by show (0x81 + 4 * w.val + k.val - 0x80) / 4 % 8 = w.val; omega)
  have hword : (0x81 + 4 * w.val + k.val) % 4 - 1 = k.val := by omega
  unfold State.readRegister
  simp (disch := omega) only [toNat_register, if_neg, if_pos, hwin, hword, toList_getD]

theorem readRegister_walkTail (s : State) (k : Fin 11) :
    s.readRegister (BitVec.ofNat 16 (0xB1 + k.val)) = (s, s.snapWalk[k]) := by
  have hk := k.isLt
  unfold State.readRegister
  simp (disch := omega) only [toNat_register, if_neg, if_pos, Nat.add_sub_cancel_left, toList_getD]

theorem readRegister_captureTail (s : State) (k : Fin 3) :
    s.readRegister (BitVec.ofNat 16 (0x51 + k.val)) = (s, s.snapCapture[k]) := by
  have hk := k.isLt
  unfold State.readRegister
  simp (disch := omega) only [toNat_register, if_neg, if_pos, Nat.add_sub_cancel_left, toList_getD]

theorem readRegister_args (s : State) (k : Fin 4) :
    s.readRegister (BitVec.ofNat 16 (0x101 + k.val)) = (s, s.args[k]) := by
  have hk := k.isLt
  unfold State.readRegister
  simp (disch := omega) only [toNat_register, if_neg, if_pos, Nat.add_sub_cancel_left, toList_getD]

theorem readRegister_results (s : State) (k : Fin 4) :
    s.readRegister (BitVec.ofNat 16 (0x106 + k.val)) = (s, s.results[k]) := by
  have hk := k.isLt
  unfold State.readRegister
  simp (disch := omega) only [toNat_register, if_neg, if_pos, Nat.add_sub_cancel_left, toList_getD]

theorem readRegister_inspect (s : State) (k : Fin 64) :
    s.readRegister (BitVec.ofNat 16 (0x110 + k.val)) = (s, s.inspect[k]) := by
  have hk := k.isLt
  unfold State.readRegister
  simp (disch := omega) only [toNat_register, if_neg, if_pos, Nat.add_sub_cancel_left, toList_getD]

/-- A number that is in no row of Table 12-1 reads as 0. -/
theorem readRegister_unmapped (s : State) (a : Nat)
    (h : (0 < a ∧ a < 0x10) ∨ (0x14 < a ∧ a < 0x20) ∨ (0x21 < a ∧ a < 0x30) ∨ (0x37 < a ∧ a < 0x40) ∨
      (0x47 < a ∧ a < 0x50) ∨ (0x53 < a ∧ a < 0x60) ∨ (0x70 < a ∧ a < 0x80) ∨ (0xA0 < a ∧ a < 0xB0) ∨
      (0xBB < a ∧ a < 0x100) ∨ (0x109 < a ∧ a < 0x110) ∨ (0x14F < a ∧ a < 2 ^ 16)) :
    s.readRegister (BitVec.ofNat 16 a) = (s, 0#32) := by
  unfold State.readRegister
  simp (disch := omega) only [toNat_register, if_neg]

/-- A flag's bit in a word. -/
theorem flagBit_eq (b : Bool) (k : Nat) : (if b then 1 else 0) * 2 ^ k = if b then 2 ^ k else 0 := by
  cases b <;> simp

/-- The word of a node's purge job, 0 where it has none. -/
def jobNumber : Option PurgeJob → Word32
  | none => 0#32
  | some j => natWord (2 ^ 31 + (if decide (j.mode = .silent) then 2 ^ 30 else 0) + j.setsLeft * 2 ^ 16 + j.openRecalls)

theorem jobWord_eq_number {s : State} (h : ∀ n j, s.getJob n = some j → j.setsLeft ≤ 2048 ∧ j.openRecalls ≤ 48)
    (n : Node) : jobWord (s.getJob n) = jobNumber (s.getJob n) := by
  cases hj : s.getJob n with
  | none => rfl
  | some j =>
    obtain ⟨hs, ho⟩ := h n j hj
    rw [jobWord_eq j hs ho, jobNumber]
    by_cases hm : j.mode = .silent <;> simp [hm]

/-- The first word of the maintenance job, 0 where there is none. -/
def maintNumber : Option MaintJob → Word32
  | none => 0#32
  | some j => natWord (2 ^ 31 + j.kind.code * 2 ^ 28 + windowNumber j.window * 2 ^ 24 + j.run.code * 2 ^ 20 +
      (if j.owed then 2 ^ 19 else 0) + j.nextSet)

/-- The other two words of the maintenance job. -/
def maintNumbers (s : State) : Option MaintJob → Word32 × Word32
  | none => (natWord (s.scrubPos.val * 2 ^ 16), 0#32)
  | some j => (natWord (j.openCount + s.scrubPos.val * 2 ^ 16), natWord (j.interval.getD 0))

theorem maintWords_eq {s : State} (h : ∀ j, s.maint = some j → j.nextSet ≤ 2048 ∧ j.openCount ≤ 48) :
    maintWord0 s.maint = maintNumber s.maint ∧
      (s.maintWord1, maintWord2 s.maint) = maintNumbers s s.maint := by
  cases hm : s.maint with
  | none => exact ⟨rfl, Prod.ext (maintWord1_of_none hm) rfl⟩
  | some j =>
    obtain ⟨hn, ho⟩ := h j hm
    refine ⟨?_, Prod.ext (maintWord1_of_some hm ho) (maintWord2_eq j)⟩
    rw [maintWord0_eq j hn, flagBit_eq, maintNumber]

/-- The twelve words after the purge cursor's, from the jobs. -/
theorem walkTail_eq {s : State} (hj : ∀ n j, s.getJob n = some j → j.setsLeft ≤ 2048 ∧ j.openRecalls ≤ 48)
    (hm : ∀ j, s.maint = some j → j.nextSet ≤ 2048 ∧ j.openCount ≤ 48) :
    s.walkTail = #v[jobNumber (s.getJob 0), jobNumber (s.getJob 1), jobNumber (s.getJob 2), jobNumber (s.getJob 3),
      jobNumber (s.getJob 4), jobNumber (s.getJob 5), jobNumber (s.getJob 6), jobNumber (s.getJob 7),
      maintNumber s.maint, (maintNumbers s s.maint).1, (maintNumbers s s.maint).2] := by
  obtain ⟨h0, h12⟩ := maintWords_eq hm
  unfold State.walkTail
  simp only [jobWord_eq_number hj, h0, ← h12]

/-- The first word of the capture record, 0 where it is not valid. -/
def captureNumber : Option Capture → Word32
  | none => 0#32
  | some r => natWord (2 ^ 31 + r.cause.code * 2 ^ 24 + r.further.toNat * 2 ^ 16 +
      (if r.fields.line.isSome then 2 ^ 0 else 0) + (if r.fields.node.isSome then 2 ^ 1 else 0) +
      (if r.fields.set.isSome then 2 ^ 2 else 0) + (if r.fields.way.isSome then 2 ^ 3 else 0) +
      (if r.fields.slot.isSome then 2 ^ 4 else 0))

theorem captureWord0_eq_number (o : Option Capture) : captureWord0 o = captureNumber o := by
  cases o with
  | none => rfl
  | some r => rw [captureWord0_eq, captureNumber, flagBit_eq, flagBit_eq, flagBit_eq, flagBit_eq, flagBit_eq]

/-- The other words of the capture record. -/
def captureNumbers : Option Capture → Vector Word32 3
  | none => #v[0#32, 0#32, 0#32]
  | some r => #v[(r.fields.line.getD 0).setWidth 32,
      natWord ((r.fields.line.getD 0).toNat / 2 ^ 32 + peerNumber r.fields.node * 2 ^ 8),
      natWord ((r.fields.set.getD 0).val + (r.fields.way.getD 0).val * 2 ^ 16 + (r.fields.slot.getD 0).val * 2 ^ 24)]

theorem captureTail_eq_numbers (o : Option Capture) : captureTail o = captureNumbers o := by
  cases o with
  | none => rfl
  | some r => exact captureTail_eq r

theorem purgeWord_eq_bit (s : State) [Decidable (∀ n j, s.getJob n = some j → j.setsLeft = 0)] :
    s.purgeWord = natWord (s.purgePos.val +
      (if decide (∀ n j, s.getJob n = some j → j.setsLeft = 0) then 2 ^ 15 else 0) + s.purgeSet.toNat * 2 ^ 16) := by
  rw [purgeWord_eq]
  by_cases h : ∀ n j, s.getJob n = some j → j.setsLeft = 0
  · rw [if_pos h, if_pos (decide_eq_true h), Nat.one_mul]
  · rw [if_neg h, if_neg (by rw [decide_eq_false h]; exact Bool.false_ne_true), Nat.zero_mul]

/-- Settles O23: each register's read is one branch of the register map, and each word the sum of its fields. -/
theorem snapshotReads : Obligations.SnapshotReads := by
  intro s hs hjobs hmaint bit high nodeWord nodeCounts windowWord windowTail purgeWord jobWords maintWord maintTail
    walkTail captureWord captureTail codes reads
  have hplain : ∀ a w, s.readRegister (BitVec.ofNat 16 a) = (s, w) → reads a w := fun a w h => exec_read hs h (settled_of_same hs.2)
  refine ⟨fun n => ⟨?_, exec_read hs (readRegister_nodeSecond s n) (settled_of_same hs.2)⟩,
    fun w => ⟨?_, fun k => exec_read hs (readRegister_windowTail s w k) (settled_of_same hs.2)⟩, ?_,
    fun k => exec_read hs (readRegister_walkTail s k) (settled_of_same hs.2), ?_,
    fun k => exec_read hs (readRegister_captureTail s k) (settled_of_same hs.2),
    hplain _ _ rfl, hplain _ _ rfl, hplain _ _ rfl, hplain _ _ rfl, hplain _ _ rfl, hplain _ _ rfl, hplain _ _ rfl,
    hplain _ _ rfl, hplain _ _ rfl, hplain _ _ rfl, hplain _ _ rfl, hplain _ _ rfl, hplain _ _ rfl, hplain _ _ rfl,
    hplain _ _ rfl, hplain _ _ rfl, fun n => ?_, ?_, ?_,
    fun k => ⟨hplain _ _ (readRegister_args s k), hplain _ _ (readRegister_results s k)⟩, ?_,
    fun k => hplain _ _ (readRegister_inspect s k), hplain _ _ rfl, fun a ha => hplain _ _ (readRegister_unmapped s a ha)⟩
  · have h := readRegister_nodeFirst s n
    rw [NodeRec.viewWord_eq, NodeRec.countWord_eq] at h
    exact exec_read hs h (settled_of_same hs.2)
  · have h := readRegister_windowFirst s w
    rw [Window.viewWord_eq, Window.viewTail_eq] at h
    exact exec_read hs h (settled_of_same hs.2)
  · have h : s.readRegister 0xB0#16 = ({ s with snapWalk := s.walkTail }, s.purgeWord) := rfl
    have hp : s.purgeWord = purgeWord := purgeWord_eq_bit s
    have hw : s.walkTail = walkTail := walkTail_eq hjobs hmaint
    rw [hp, hw] at h
    exact exec_read hs h (settled_of_same hs.2)
  · have h : s.readRegister 0x50#16 =
      ({ s with snapCapture := Machine.captureTail s.capture }, captureWord0 s.capture) := rfl
    rw [captureTail_eq_numbers, captureWord0_eq_number] at h
    exact exec_read hs h (settled_of_same hs.2)
  · have h := readRegister_counts s n
    rw [NodeRec.countWord_eq] at h
    exact hplain _ _ h
  · have h : s.readRegister (BitVec.ofNat 16 0x70) = (s, s.memWord) := rfl
    rw [memWord_eq] at h
    exact hplain _ _ h
  · have h : s.readRegister (BitVec.ofNat 16 0xA0) = (s, s.linkWord) := rfl
    rw [linkWord_eq] at h
    exact hplain _ _ h
  · have h : s.readRegister (BitVec.ofNat 16 0x105) = (s, s.statusWord) := rfl
    rw [statusWord_eq, flagBit_eq, flagBit_eq] at h
    exact hplain _ _ h

end Sys2Proof.Machine

/-! # The set rebuild's answers, stores and expiries (O53) -/

namespace Sys2Proof.Machine

set_option Elab.async false

/-! ## What settling reads of a slot -/

section
variable {s : State} {t : SlotIx} {x y : Slot}

theorem State.WalksRest.retold (h : s.WalksRest) (hx : s.getSlot t = some x) (hy : y.settling = x.settling) :
    (s.putSlot t (some y)).WalksRest := h.congr (putSlot_settling hx hy)

/-- A slot changed in what settling does not read leaves the part at rest. -/
theorem settled_retold (hs : s.settled = true) (hx : s.getSlot t = some x) (hy : y.settling = x.settling)
    (hp : y.pending = x.pending) : (s.putSlot t (some y)).settled = true := by
  obtain ⟨hw, ho, ha⟩ := (settled_iff_walksRest s).1 hs
  have hpending : ∀ u, ((s.putSlot t (some y)).getSlot u).bind Slot.pending = (s.getSlot u).bind Slot.pending := by
    intro u
    by_cases hu : u = t
    · subst hu
      rw [getSlot_putSlot_self, hx]
      exact hp
    · rw [getSlot_putSlot_of_ne hu]
  refine (settled_iff_walksRest _).2 ⟨hw.retold hx hy, ?_, ?_⟩
  · rw [placeHeldOrder_none_iff] at ho ⊢
    simp only [hpending]
    exact ho
  · exact (placeHeldAnswer_none_iff _).2 ((placeHeldAnswer_none_iff s).1 ha)

theorem waitsHolders_of_set {z : Stage} {p : Bool} {g : Resume} {v : Vector Tally 8} (h : x.rebuild = some (.set z p g v)) :
    x.waitsHolders = (z == .waitingHolders) := by
  unfold Slot.waitsHolders
  rw [h]
  cases z <;> rfl

theorem rebuildsSet_of_set {z : Stage} {p : Bool} {g : Resume} {v : Vector Tally 8} (h : x.rebuild = some (.set z p g v)) :
    x.rebuildsSet = true := by
  unfold Slot.rebuildsSet
  rw [h]

/-- A set rebuild that changes stage, but for WAITING_HOLDERS, is the same to settling. -/
theorem settling_of_set {z z' : Stage} {p p' : Bool} {g g' : Resume} {v v' : Vector Tally 8}
    (hx : x.rebuild = some (.set z p g v)) (hy : y.rebuild = some (.set z' p' g' v'))
    (hz : (z' == .waitingHolders) = (z == .waitingHolders)) (hl : y.line = x.line := by rfl) (hs : y.set = x.set := by rfl)
    (hw : y.working = x.working := by rfl) : y.settling = x.settling := by
  unfold Slot.settling
  rw [hl, hs, hw, rebuildsSet_of_set hx, rebuildsSet_of_set hy, waitsHolders_of_set hx, waitsHolders_of_set hy, hz]

end

/-! ## The end of a set rebuild (R157) -/

section
variable {s : State} {t : SlotIx} {x : Slot} {i : SetIx}

/-- A SET_REBUILD that may end: it holds nothing, and nothing else of the set or of the walks waits. -/
structure State.RebuildEnds (s : State) (t : SlotIx) (x : Slot) (i : SetIx) : Prop where
  slot : s.getSlot t = some x
  kind : x.kind = .setRebuild
  set : x.set = some i
  line : x.line = none
  window : x.window = none
  requester : x.requester = none
  working : x.working = none
  victimLink : x.victimLink = none
  counted : x.counted = false
  canon : dirWf s.dir = true
  heads : s.parkedHeads i = []
  due : s.dueSets = []
  noPurgeStep : s.purgeStep = none
  noMaintStep : s.maintStep = none
  notFinishing : ∀ j, s.maint = some j → j.run ≠ .finishing
  jobs : ∀ q j, s.getJob q = some j → j.setsLeft ≠ 0
  held : s.NoneHeld

/-- What a rebuild took in before it ends. -/
theorem State.RebuildEnds.retold {y : Slot} (h : s.RebuildEnds t x i) (hset : y.settling = x.settling)
    (hk : y.kind = x.kind := by rfl) (hs : y.set = x.set := by rfl) (hl : y.line = x.line := by rfl)
    (hv : y.window = x.window := by rfl) (hq : y.requester = x.requester := by rfl) (hw : y.working = x.working := by rfl)
    (hu : y.victimLink = x.victimLink := by rfl) (hc : y.counted = x.counted := by rfl) (hp : y.phase = x.phase := by rfl)
    (hr : y.rank = x.rank := by rfl) : (s.putSlot t (some y)).RebuildEnds t y i where
  slot := getSlot_putSlot_self ..
  kind := hk.trans h.kind
  set := hs.trans h.set
  line := hl.trans h.line
  window := hv.trans h.window
  requester := hq.trans h.requester
  working := hw.trans h.working
  victimLink := hu.trans h.victimLink
  counted := hc.trans h.counted
  canon := h.canon
  heads := by
    have hh := h.heads
    unfold State.parkedHeads at hh ⊢
    rw [← hh]
    refine slotsWith_congr fun u => ?_
    by_cases hu : u = t
    · subst hu
      rw [getSlot_putSlot_self, h.slot, Option.any_some, Option.any_some, hp, hr, setIx_of_settling hl hs]
    · rw [getSlot_putSlot_of_ne hu]
  due := (dueSets_of_settling (putSlot_settling h.slot hset) rfl).trans h.due
  noPurgeStep := h.noPurgeStep
  noMaintStep := h.noMaintStep
  notFinishing := h.notFinishing
  jobs := h.jobs
  held := ⟨h.held.order, h.held.answer⟩

theorem State.RebuildEnds.same {q : State} (h : s.RebuildEnds t x i) (hslots : q.slots = s.slots := by rfl)
    (hdir : q.dir = s.dir := by rfl) (hp : q.purgeStep = s.purgeStep := by rfl) (hm : q.maintStep = s.maintStep := by rfl)
    (hmaint : q.maint = s.maint := by rfl) (hj : q.purgeJobs = s.purgeJobs := by rfl)
    (ho : q.orderHeld = s.orderHeld := by rfl) (ha : q.answerHeld = s.answerHeld := by rfl) : q.RebuildEnds t x i := by
  have hget : ∀ u, q.getSlot u = s.getSlot u := fun u => by unfold State.getSlot; rw [hslots]
  have hjob : ∀ n, q.getJob n = s.getJob n := fun n => by unfold State.getJob; rw [hj]
  exact ⟨(hget t).trans h.slot, h.kind, h.set, h.line, h.window, h.requester, h.working, h.victimLink, h.counted,
    hdir ▸ h.canon, (slotsWith_congr fun u => by rw [hget]).trans h.heads,
    (dueSets_of_settling (fun u => by rw [hget]) hdir).trans h.due, hp.trans h.noPurgeStep, hm.trans h.noMaintStep,
    fun j => hmaint ▸ h.notFinishing j, fun n j => hjob n ▸ h.jobs n j, ⟨ho.trans h.held.order, ha.trans h.held.answer⟩⟩

/-- What a rebuild that ends leaves: its slot free and its set blank. -/
def State.rebuildEnded (s : State) (t : SlotIx) (i : SetIx) : State := (s.putSlot t none).putSet i blankSet

theorem rebuildEnded_getSlot (u : SlotIx) : (s.rebuildEnded t i).getSlot u = if u = t then none else s.getSlot u :=
  getSlot_putSlot s t u none

/-- A test that the ended rebuild does not pass finds the same slots. -/
theorem slotsWith_rebuildEnded {p : Slot → Bool} (hx : s.getSlot t = some x) (hp : p x = false) :
    (s.rebuildEnded t i).slotsWith p = s.slotsWith p := slotsWith_congr fun u => by
  rw [rebuildEnded_getSlot]
  by_cases hu : u = t
  · subst hu
    rw [if_pos rfl, hx]
    exact hp.symm
  · rw [if_neg hu]

/-- A record of a canonical directory is what its set reads as. -/
theorem dirGet_of_mem {p : SetIx × SetRec} {d : List (SetIx × SetRec)} (h : dirWf d = true) (hp : p ∈ d) :
    dirGet d p.1 = p.2 := by
  induction d with
  | nil => cases hp
  | cons q d ih =>
    unfold dirGet
    rcases List.mem_cons.1 hp with rfl | hp
    · exact if_pos rfl
    · rw [if_neg (ne_of_lt (dirWf_rising h p hp)), ih (dirWf_tail h) hp]

theorem dueSets_eq_nil_iff (s : State) :
    s.dueSets = [] ↔ ∀ p ∈ s.dir, p.2.frozen = true → s.rebuildInUse p.1 = true := by
  unfold State.dueSets
  rw [List.map_eq_nil_iff, List.filter_eq_nil_iff]
  simp

theorem rebuildEnded_due (h : s.RebuildEnds t x i) : (s.rebuildEnded t i).dueSets = [] := by
  rw [dueSets_eq_nil_iff]
  intro p hp hf
  have hget := dirGet_of_mem (dirPut_wf h.canon) hp
  rw [dirGet_dirPut h.canon] at hget
  by_cases hi : p.1 = i
  · rw [if_pos hi] at hget
    rw [← hget] at hf
    cases hf
  · have hmem : p ∈ s.dir := (dirPut_mem hp).resolve_left fun he => hi (congrArg Prod.fst he)
    have hsame : (s.rebuildEnded t i).rebuildInUse p.1 = s.rebuildInUse p.1 := by
      unfold State.rebuildInUse
      rw [slotsWith_rebuildEnded h.slot]
      have hset : x.setIx = some i := by
        unfold Slot.setIx
        rw [h.line]
        exact h.set
      have hne : (some i == some p.1) = false := beq_eq_false_iff_ne.2 fun he => hi (Option.some.inj he).symm
      rw [hset, hne, Bool.and_false]
    rw [hsame]
    exact (dueSets_eq_nil_iff s).1 h.due p hmem hf

theorem rebuildEnded_readyRebuild (h : s.RebuildEnds t x i) (hw : s.readyRebuild = none) :
    (s.rebuildEnded t i).readyRebuild = none := by
  have hheld : ∀ j u, (s.rebuildEnded t i).setHeld j u = s.setHeld j u := fun j u => by
    unfold State.setHeld
    rw [slotsWith_rebuildEnded h.slot]
    rw [h.working]
    rfl
  rw [readyRebuild_eq, List.find?_eq_none] at hw ⊢
  intro u hu
  obtain ⟨y, hy, hr⟩ := mem_slotsWith.1 hu
  rw [rebuildEnded_getSlot] at hy
  by_cases hut : u = t
  · rw [if_pos hut] at hy
    cases hy
  · rw [if_neg hut] at hy
    have hno := hw u (mem_slotsWith.2 ⟨y, hy, hr⟩)
    rw [rebuildEnded_getSlot, if_neg hut]
    simp only [hheld]
    exact hno

theorem rebuildEnded_settled (h : s.RebuildEnds t x i) (hw : s.WalksRest) : (s.rebuildEnded t i).settled = true := by
  refine settled_of_unheld ⟨rebuildEnded_readyRebuild h hw.rebuild, .inl (rebuildEnded_due h), ?_, ?_, ?_, ?_⟩
    h.held.order h.held.answer
  · unfold State.purgeReady
    rw [show (s.rebuildEnded t i).purgeStep = none from h.noPurgeStep]
  · rw [maintReady_eq_false_iff]
    intro j ways _ hways
    rw [show (s.rebuildEnded t i).maintStep = none from h.noMaintStep] at hways
    cases hways
  · have he := hw.ending
    rw [maintEnding_none_iff] at he ⊢
    exact fun j hj => ⟨fun hr => absurd hr (h.notFinishing j hj), (he j hj).2⟩
  · unfold State.doneNode
    rw [List.find?_eq_none]
    intro n _
    have hjob : (s.rebuildEnded t i).getJob n = s.getJob n := rfl
    unfold State.purgeDone
    rw [hjob]
    cases hj : s.getJob n with
    | none => exact Bool.false_ne_true
    | some j =>
      dsimp only
      rw [beq_eq_false_iff_ne.2 (h.jobs n j hj), Bool.false_and]
      exact Bool.false_ne_true

/-- With nothing held for room, a slot that goes on from what it had pending only loses it. -/
theorem setAside_of_none {q : State} (hn : q.NoneHeld) (hx : q.getSlot t = some x) :
    q.setAside t = q.putSlot t (some { x with pending := none }) := by
  unfold State.setAside
  dsimp only
  rw [modSlot_of_slot hx, hn.order, hn.answer]
  exact State.NoneHeld.eta (s := q.putSlot t (some { x with pending := none })) ⟨hn.order, hn.answer⟩

theorem leaveTable_of_rebuild {q : State} (h : s.RebuildEnds t x i) (hx : q.getSlot t = some x) (hn : q.NoneHeld) :
    q.leaveTable t x = q.putSlot t none := by
  have hclosed : (((q.countClosed x.window).returnCredit x.requester).countRecallClosed x).closeRanks x = q := by
    rw [h.window, h.requester]
    show (q.countRecallClosed x).closeRanks x = q
    unfold State.countRecallClosed
    rw [h.counted, if_neg Bool.false_ne_true]
    unfold State.closeRanks
    rw [h.line]
  have haside : (q.setAside t).disownRounds t = q.putSlot t (some { x with pending := none }) := by
    rw [setAside_of_none hn hx]
    unfold State.disownRounds
    exact congrArg (fun o => ({ q.putSlot t (some { x with pending := none }) with orderHeld := o } : State))
      ((congrArg (List.map _) hn.order).trans hn.order.symm)
  have hfree : q.freeSlot t x = q.putSlot t none := by
    unfold State.freeSlot
    dsimp only
    rw [haside, putSlot_putSlot, h.victimLink]
  unfold State.leaveTable
  dsimp only
  rw [hclosed, hfree, h.requester]
  split
  · rename_i hn _
    cases hn
  · rfl

theorem endSetRebuild_of_plain {z : Stage} {p : Bool} {g : Resume} {v : Vector Tally 8} (h : s.RebuildEnds t x i)
    (hr : x.rebuild = some (.set z p g v)) : s.endSetRebuild t = (s.rebuildEnded t i, []) := by
  have hset : x.setIx = some i := by
    unfold Slot.setIx
    rw [h.line]
    exact h.set
  have hleave : (s.putSet i blankSet).leaveTable t x = s.rebuildEnded t i :=
    leaveTable_of_rebuild h h.slot ⟨h.held.order, h.held.answer⟩
  unfold State.endSetRebuild
  rw [h.slot]
  dsimp only
  rw [hr, hset]
  dsimp only
  rw [if_pos h.kind, hleave, show (s.putSet i blankSet).parkedHeads i = [] from h.heads]
  rfl

/-- The task that ends a rebuild is the last one of its event. -/
theorem drain_rebuildEnds {z : Stage} {p : Bool} {g : Resume} {v : Vector Tally 8} (h : s.RebuildEnds t x i)
    (hw : s.WalksRest) (hr : x.rebuild = some (.set z p g v)) :
    drain 2 s [.endSetRebuild t, .settle] = some (s.rebuildEnded t i) :=
  drain_step (endSetRebuild_of_plain h hr) (drain_settle (rebuildEnded_settled h hw) 0)

end

/-! ## Answers and stores counted (R155, R156) -/

section
variable {s : State} {t : SlotIx} {x : Slot} {z : Stage} {p : Bool} {g : Resume} {v : Vector Tally 8}

theorem storesDue_iff (v : Vector Tally 8) : storesDue v = true ↔ ∃ q : Node, ∃ d, v[q].due = some d ∧ 0 < d := by
  unfold storesDue
  rw [List.any_eq_true]
  constructor
  · rintro ⟨q, -, hq⟩
    cases hd : v[q].due with
    | none =>
      rw [hd] at hq
      cases hq
    | some d =>
      rw [hd] at hq
      exact ⟨q, d, hd, of_decide_eq_true hq⟩
  · rintro ⟨q, d, hd, hpos⟩
    refine ⟨q, List.mem_finRange q, ?_⟩
    rw [hd]
    exact decide_eq_true hpos

theorem putTally_of_slot (hx : s.getSlot t = some x) (hr : x.rebuild = some (.set z p g v)) (n : Node) (f : Tally → Tally) :
    s.putTally t n f = s.putSlot t (some { x with rebuild := some (.set z p g (v.set n.val (f v[n]) n.isLt)) }) := by
  unfold State.putTally
  rw [modSlot_of_slot hx, hr]

theorem setProgress_awaits (hx : s.getSlot t = some x) (hr : x.rebuild = some (.set z p g v)) (ha : x.awaited ≠ 0#8) :
    s.setProgress t = (s, []) := by
  unfold State.setProgress
  rw [hx]
  dsimp only
  rw [hr]
  exact if_pos ha

theorem setProgress_collects (hx : s.getSlot t = some x) (hr : x.rebuild = some (.set .surrendering p g v))
    (ha : x.awaited = 0#8) (hd : storesDue v = true) : s.setProgress t = (s.putSlot t (some { x with
      rebuild := some (.set .collecting p g v)
      timer := some s.limits.orderTimeout.toNat
      retriesLeft := s.limits.retryLimit.toNat }), []) := by
  unfold State.setProgress
  rw [hx]
  dsimp only
  rw [hr]
  dsimp only
  rw [if_neg (not_not_intro ha), if_pos hd, modSlot_of_slot hx]
  rfl

theorem setProgress_waits (hx : s.getSlot t = some x) (hr : x.rebuild = some (.set .collecting p g v))
    (ha : x.awaited = 0#8) (hd : storesDue v = true) : s.setProgress t = (s, []) := by
  unfold State.setProgress
  rw [hx]
  dsimp only
  rw [hr]
  dsimp only
  rw [if_neg (not_not_intro ha), if_pos hd]

theorem setProgress_ends (hx : s.getSlot t = some x) (hr : x.rebuild = some (.set z p g v)) (ha : x.awaited = 0#8)
    (hd : storesDue v = false) : s.setProgress t = (s, [.endSetRebuild t]) := by
  unfold State.setProgress
  rw [hx]
  dsimp only
  rw [hr]
  dsimp only
  rw [if_neg (not_not_intro ha), if_neg (by rw [hd]; exact Bool.false_ne_true)]


/-- The slot of a rebuild that has taken an answer or a store of a node. -/
def Slot.tallied (x : Slot) (z : Stage) (p : Bool) (g : Resume) (m : NodeSet) (v : Vector Tally 8) : Slot :=
  { x with awaited := m, rebuild := some (.set z p g v) }

theorem surrenderAnswer_eq (hx : s.getSlot t = some x) (hr : x.rebuild = some (.set z p g v)) (n : Node) (d : Nat) :
    s.surrenderAnswer t n d = (s.putSlot t (some (x.tallied z p g (NodeSet.remove x.awaited n)
      (v.set n.val ⟨some (d - v[n].taken), v[n].taken⟩ n.isLt)))).setProgress t := by
  unfold State.surrenderAnswer
  rw [modSlot_of_slot hx, putTally_of_slot
    (x := { x with awaited := NodeSet.remove x.awaited n }) (getSlot_putSlot_self ..) hr, putSlot_putSlot]
  rfl

theorem countStore_eq (hx : s.getSlot t = some x) (hr : x.rebuild = some (.set z p g v)) (n : Node) :
    s.countStore t n = (s.putSlot t (some (x.tallied z p g x.awaited
      (v.set n.val ⟨v[n].due.map (fun d => d - 1), v[n].taken + 1⟩ n.isLt)))).setProgress t := by
  unfold State.countStore
  rw [putTally_of_slot hx hr]
  rfl

end

section
variable {s : State} {t : SlotIx} {x : Slot} {z : Stage} {p : Bool} {g : Resume} {v v' : Vector Tally 8} {m : NodeSet}

theorem tallied_settling (hr : x.rebuild = some (.set z p g v)) : (x.tallied z p g m v').settling = x.settling :=
  settling_of_set hr rfl rfl

theorem State.WalksRest.tallied (h : s.WalksRest) (hx : s.getSlot t = some x) (hr : x.rebuild = some (.set z p g v)) :
    (s.putSlot t (some (x.tallied z p g m v'))).WalksRest := h.retold hx (tallied_settling hr)

theorem settled_tallied (hs : s.settled = true) (hx : s.getSlot t = some x) (hr : x.rebuild = some (.set z p g v)) :
    (s.putSlot t (some (x.tallied z p g m v'))).settled = true := settled_retold hs hx (tallied_settling hr) rfl

/-- The last answer or store of a rebuild ends it. -/
theorem event_rebuildEnds {i : SetIx} {q : State} (hs : s.resetN = .high) (hq : q.Ready) (h : q.RebuildEnds t x i)
    (hr : x.rebuild = some (.set z p g v)) (hm : m = 0#8) (hd : storesDue v' = false) :
    s.event ((q.putSlot t (some (x.tallied z p g m v'))).setProgress t) =
      .next (State.driveEventN ((q.putSlot t none).putSet i blankSet)) := by
  have hy := h.retold (y := x.tallied z p g m v') (tallied_settling hr)
  rw [setProgress_ends hy.slot rfl hm hd]
  refine (event_of_drain 2 (by decide) hs
    (drain_rebuildEnds hy ((Ready.walksRest hq).tallied h.slot hr) rfl)).trans ?_
  unfold State.rebuildEnded
  rw [putSlot_putSlot]

end

/-! ## The expiries of a rebuild (R131, R156) -/

section
variable {s : State} {t : SlotIx} {x : Slot}

theorem slotOf_val (t : SlotIx) : slotOf t.val = some t := dif_pos t.isLt

theorem expiring_of_slot {k : Nat} (hl : s.link = .up) (hx : s.getSlot t = some x) (hk : x.timer = some k) :
    s.expiring t.val = some (t, x) := by
  unfold State.expiring
  rw [slotOf_val]
  dsimp only
  rw [hx]
  exact if_pos ⟨hl, by rw [hk]; rfl⟩

theorem exec_orderTimerExpiry {k : Nat} (hl : s.link = .up) (hx : s.getSlot t = some x) (hk : x.timer = some k)
    (hr : x.roundTimed = true) : exec (.orderTimerExpiry t.val) s = s.event (s.orderExpiry t x) := by
  show s.event (match s.expiring t.val with
    | some (u, x) => if x.roundTimed then s.orderExpiry u x else (s, [])
    | none => (s, [])) = _
  rw [expiring_of_slot hl hx hk]
  dsimp only
  rw [if_pos hr]

/-- The nodes' records once each node of a set has counted a timeout. -/
def State.timedOut (s : State) (m : NodeSet) : State := (NodeSet.toList m).foldl State.countTimeout s

theorem timedOut_foldl (ns : List Node) (hns : ns.Nodup) : ∀ s : State,
    (∃ v, ns.foldl State.countTimeout s = { s with nodes := v }) ∧
      ∀ q, (ns.foldl State.countTimeout s).getNode q = if q ∈ ns then
        { s.getNode q with timeouts := satInc (s.getNode q).timeouts } else s.getNode q := by
  induction ns with
  | nil => exact fun s => ⟨⟨s.nodes, rfl⟩, fun q => (if_neg List.not_mem_nil).symm⟩
  | cons n ns ih =>
    obtain ⟨hn, hns'⟩ := List.nodup_cons.1 hns
    intro s
    obtain ⟨⟨v, hv⟩, hget⟩ := ih hns' (s.countTimeout n)
    refine ⟨⟨v, hv⟩, fun q => ?_⟩
    rw [List.foldl_cons, hget, State.countTimeout, getNode_modNode]
    by_cases hq : q = n
    · subst hq
      simp [hn]
    · simp [hq]

theorem mem_toList {m : NodeSet} {q : Node} : q ∈ NodeSet.toList m ↔ NodeSet.has m q = true := by
  unfold NodeSet.toList
  rw [List.mem_filter]
  exact ⟨And.right, fun h => ⟨List.mem_finRange q, h⟩⟩

theorem timedOut_getNode (m : NodeSet) (q : Node) : (s.timedOut m).getNode q = if NodeSet.has m q then
    { s.getNode q with timeouts := satInc (s.getNode q).timeouts } else s.getNode q := by
  have h := (timedOut_foldl (NodeSet.toList m) ((List.nodup_finRange 8).filter _) s).2 q
  simp only [mem_toList] at h
  exact h

theorem timedOut_eq (m : NodeSet) : s.timedOut m = { s with nodes := (s.timedOut m).nodes } := by
  obtain ⟨v, hv⟩ := (timedOut_foldl (NodeSet.toList m) ((List.nodup_finRange 8).filter _) s).1
  unfold State.timedOut
  rw [hv]

theorem countExpiry_eq (hm : x.memWait ≠ .fetchSent) : s.countExpiry x = s.timedOut x.awaited := if_neg hm

theorem orderExpiry_resends (hm : x.memWait ≠ .fetchSent) (hr : 0 < x.retriesLeft) :
    s.orderExpiry t x = (((s.timedOut x.awaited).useRetry t).sendRound t x.resends false, []) := by
  unfold State.orderExpiry
  dsimp only
  rw [countExpiry_eq hm, if_pos hr]

theorem resends_surrender {i : SetIx} (ho : x.outstanding = .surrender) (hm : x.memWait ≠ .fetchSent) (hl : x.line = none)
    (hs : x.set = some i) : x.resends = surrenders i x.awaited true := by
  have hset : x.setIx = some i := by
    unfold Slot.setIx
    rw [hl]
    exact hs
  unfold Slot.resends
  rw [ho, hset]
  dsimp only
  split
  · rename_i hm' _ _
    exact absurd hm' hm
  · exact List.append_nil _

/-- A SURRENDER round sent again. -/
theorem sendRound_surrenders {z : Stage} {p : Bool} {g : Resume} {v : Vector Tally 8} {os : List Order} (hn : s.NoneHeld)
    (hx : s.getSlot t = some x) (hr : x.rebuild = some (.set z p g v)) (hroom : s.orderQ.length + os.length ≤ 64) :
    s.sendRound t os false = { s.putSlot t (some { x with
        pending := none, timer := some s.limits.orderTimeout.toNat, rebuild := some (.set z true g v) }) with
      orderQ := s.orderQ ++ os } := by
  have hcond : (s.orderHeld.isEmpty && s.orderRoom os) = true := by
    rw [hn.order]
    exact decide_eq_true hroom
  unfold State.sendRound
  rw [if_pos hcond]
  unfold State.roundPlaced
  rw [modSlot_of_slot (s := { s with orderQ := s.orderQ ++ os }) hx, hr]
  rfl

theorem exec_collectingExpiry {k : Nat} {p : Bool} {g : Resume} {v : Vector Tally 8} (hl : s.link = .up)
    (hx : s.getSlot t = some x) (hk : x.timer = some k) (hr : x.rebuild = some (.set .collecting p g v)) :
    exec (.collectingExpiry t.val) s = s.event (s.collectingStep t x) := by
  show s.event (match s.expiring t.val with
    | some (u, x) =>
      match x.rebuild with
      | some (.set .collecting _ _ _) => s.collectingStep u x
      | _ => (s, [])
    | none => (s, [])) = _
  rw [expiring_of_slot hl hx hk]
  dsimp only
  rw [hr]

/-- The memory agent declared failed where no FETCH is awaited (R137). -/
def State.agentFailed (s : State) (t : SlotIx) (l : Option Line) : State :=
  { s with
    mem := .failed
    flags := s.flags ||| 0x0020#16
    capture := captured s.capture .memoryFailed ⟨l, some .memory, none, none, some t⟩ }

theorem declareFailed_of_live {l : Option Line} (hl : x.line = l) (hm : s.mem = .live) (hno : ∀ u y, s.getSlot u = some y → y.memWait ≠ .fetchSent) :
    s.declareFailed (failFields t x) = (s.agentFailed t l, []) := by
  subst hl
  have hnone : (s.agentFailed t x.line).slotsWith (fun y => y.memWait == .fetchSent) = [] :=
    (slotsWith_eq_nil_iff ..).2 fun u y hy => beq_eq_false_iff_ne.2 (hno u y hy)
  have hstate : (({ s with mem := .failed } : State).raise .memoryFailed).fault .memoryFailed
      { failFields t x with node := some .memory } = s.agentFailed t x.line := fault_eq _ _ _
  unfold State.declareFailed
  dsimp only
  rw [if_pos hm, hstate, hnone]
  rfl

end

/-- Settles O53: each answer and store is one tally of the rebuild, and the end leaves nothing of it for settling. -/
theorem setRebuildCollects : Obligations.SetRebuildCollects := by
  intro s t x p g v hs hx owes mayEnd
  have hends : ∀ {i}, mayEnd i → s.orderHeld = [] → s.answerHeld = [] → s.RebuildEnds t x i := by
    intro i ⟨hk, hset, hl, hw, hq, hwork, hv, hc, hd, hh, hdue, hp, hm, hf, hj⟩ ho ha
    exact ⟨hx, hk, hset, hl, hw, hq, hwork, hv, hc, hd.1, hh, hdue, hp, hm, hf, hj, ho, ha⟩
  refine ⟨?_, ?_, ?_⟩
  · intro n i d rest hm htaker hr hn tallies r
    have hexec : exec .surrenderDone s = s.event ((r.putSlot t (some (x.tallied .surrendering p g (NodeSet.remove x.awaited n)
        tallies))).setProgress t) := by
      rw [exec_surrenderDone hm]
      unfold State.surrenderDone
      rw [show (s.replyTaken rest).surrenderTaker n i = some t from htaker]
      exact congrArg s.event (surrenderAnswer_eq (s := s.replyTaken rest) hx hr n d)
    have hready : r.Ready := ⟨hs.1, settled_of_same hs.2⟩
    refine ⟨fun ha => ?_, fun ha hd ho hans hpend => ?_, fun ha hd hother hmay ho hans => ?_⟩
    · rw [hexec, setProgress_awaits (getSlot_putSlot_self ..) rfl ha]
      exact event_settled hs.1 (settled_tallied hready.2 hx hr)
    · have hdue : storesDue tallies = true := (storesDue_iff _).2 ⟨n, d - v[n].taken, by simp [tallies], hd⟩
      rw [hexec, setProgress_collects (getSlot_putSlot_self ..) rfl ha hdue, putSlot_putSlot]
      unfold Slot.tallied
      rw [ha]
      exact event_settled hs.1 (settled_retold hready.2 hx (settling_of_set hr rfl rfl) rfl)
    · have hnone : storesDue tallies = false := by
        refine Bool.eq_false_iff.2 fun hdue => ?_
        obtain ⟨q, e, he, hpos⟩ := (storesDue_iff _).1 hdue
        by_cases hq : q = n
        · subst hq
          rw [show tallies[q] = ⟨some (d - v[q].taken), v[q].taken⟩ from Vector.getElem_set_self ..] at he
          have hdue : d - v[q].taken = e := Option.some.inj he
          omega
        · refine hother q hq ⟨e, ?_, hpos⟩
          rw [← he]
          simp only [tallies, Fin.getElem_fin]
          rw [Vector.getElem_set_ne _ _ fun h => hq (Fin.ext h.symm)]
      rw [hexec]
      exact event_rebuildEnds hs.1 hready (hends hmay ho hans).same hr ha hnone
  · intro n l rest z hm hno htaker hr tallies r owing
    have hexec : exec .absorbDone s =
        s.event ((r.putSlot t (some (x.tallied z true g x.awaited tallies))).setProgress t) := by
      rw [exec_absorbDone hm]
      unfold State.absorbDone
      rw [consumer_of_none (s := s.replyTaken rest) hno, show (s.replyTaken rest).storeTaker l n = some t from htaker]
      exact congrArg s.event (countStore_eq (s := s.replyTaken rest) hx hr n)
    have hready : r.Ready := ⟨hs.1, settled_of_same hs.2⟩
    refine ⟨fun hgo => ?_, fun ha hno' hmay ho hans => ?_⟩
    · have hprogress : (r.putSlot t (some (x.tallied z true g x.awaited tallies))).setProgress t =
          (r.putSlot t (some (x.tallied z true g x.awaited tallies)), []) := by
        by_cases ha : x.awaited = 0#8
        · obtain ⟨hz, howing⟩ := hgo.resolve_left (not_not_intro ha)
          subst hz
          exact setProgress_waits (getSlot_putSlot_self ..) rfl ha ((storesDue_iff _).2 howing)
        · exact setProgress_awaits (getSlot_putSlot_self ..) rfl ha
      rw [hexec, hprogress]
      exact event_settled hs.1 (settled_tallied hready.2 hx hr)
    · have hnone : storesDue tallies = false := Bool.eq_false_iff.2 fun hdue => hno' ((storesDue_iff _).1 hdue)
      rw [hexec]
      exact event_rebuildEnds hs.1 hready (hends hmay ho hans).same hr ha hnone
  · intro k i hl hk
    refine ⟨fun hr hout hm hset hline hret ho hans hroom => ?_, fun hr hret => ?_, fun hr hret hmay hmem hno ho hans => ?_⟩
    · have hfetch : x.memWait ≠ .fetchSent := by
        rw [hm]
        exact fun h => by cases h
      have htimed : x.roundTimed = true := by
        unfold Slot.roundTimed
        rw [hr]
      have hlen : s.orderQ.length + (surrenders i x.awaited true).length ≤ 64 := by
        unfold surrenders
        rw [List.length_map]
        exact hroom
      have hnext : exec (.orderTimerExpiry t.val) s = .next (State.driveEventN { s.putSlot t (some { x with
          retriesLeft := x.retriesLeft - 1, timer := some s.limits.orderTimeout.toNat, pending := none
          rebuild := some (.set .surrendering true g v) }) with
          nodes := (s.timedOut x.awaited).nodes
          orderQ := s.orderQ ++ surrenders i x.awaited true }) := by
        rw [exec_orderTimerExpiry hl hx hk htimed, orderExpiry_resends hfetch hret, resends_surrender hout hfetch hline hset,
          timedOut_eq, State.useRetry, modSlot_of_slot (s := { s with nodes := (s.timedOut x.awaited).nodes }) hx,
          sendRound_surrenders (s := ({ s with nodes := (s.timedOut x.awaited).nodes } : State).putSlot t _)
            (x := { x with retriesLeft := x.retriesLeft - 1, timer := none }) ⟨ho, hans⟩
            (getSlot_putSlot_self ..) hr hlen, putSlot_putSlot]
        refine event_settled hs.1 (settled_of_unheld ?_ ho hans)
        exact ((Ready.walksRest hs).retold (y := { x with
          retriesLeft := x.retriesLeft - 1, timer := some s.limits.orderTimeout.toNat, pending := none
          rebuild := some (.set .surrendering true g v) }) hx (settling_of_set hr rfl rfl)).same
      exact ⟨_, hnext, timedOut_getNode x.awaited, rfl⟩
    · rw [exec_collectingExpiry hl hx hk hr]
      unfold State.collectingStep
      dsimp only
      rw [if_pos hret, modSlot_of_slot (s := s.countMemTimeout) hx]
      exact event_settled hs.1 (settled_of_same (settled_retold (y := { x with
        retriesLeft := x.retriesLeft - 1, timer := some s.orderTimeout }) hs.2 hx (settling_of_set hr hr rfl) rfl))
    · rw [exec_collectingExpiry hl hx hk hr]
      unfold State.collectingStep State.stopTimer
      dsimp only
      rw [if_neg (by omega), modSlot_of_slot (s := s.countMemTimeout) hx]
      have hline : x.line = none := (hends hmay ho hans).line
      have hy := ((hends hmay ho hans).retold (y := { x with timer := none }) (settling_of_set hr hr rfl))
      have hwalks := (Ready.walksRest hs).retold (y := { x with timer := none }) hx (settling_of_set hr hr rfl)
      have hno' : ∀ u y, (s.countMemTimeout.putSlot t (some { x with timer := none })).getSlot u = some y →
          y.memWait ≠ .fetchSent := by
        intro u y hu
        by_cases hut : u = t
        · subst hut
          rw [getSlot_putSlot_self] at hu
          cases hu
          exact hno u x hx
        · rw [getSlot_putSlot_of_ne hut] at hu
          exact hno u y hu
      have hfail := declareFailed_of_live (t := t) (x := x) (s := s.countMemTimeout.putSlot t (some { x with timer := none }))
        hline hmem hno'
      have hdrain : drain 3 (s.countMemTimeout.putSlot t (some { x with timer := none }))
          [.declareFailed (failFields t x), .endSetRebuild t, .settle] =
          some (((s.countMemTimeout.putSlot t (some { x with timer := none })).agentFailed t none).rebuildEnded t i) :=
        drain_step hfail (drain_rebuildEnds (hy.same (q := (s.countMemTimeout.putSlot t (some
          { x with timer := none })).agentFailed t none)) (hwalks.same) hr)
      refine (event_of_drain 3 (by decide) hs.1 hdrain).trans ?_
      unfold State.rebuildEnded
      rw [show ((s.countMemTimeout.putSlot t (some { x with timer := none })).agentFailed t none).putSlot t none =
        (s.countMemTimeout.putSlot t none).agentFailed t none from congrArg (State.agentFailed · t none) (putSlot_putSlot ..)]
      rfl

end Sys2Proof.Machine

/-! # Expiries that send again (O57) -/

namespace Sys2Proof.Machine

set_option Elab.async false

section
variable {s : State} {t : SlotIx} {x : Slot}

/-- What an expiry with retries left leaves in its slot: the message placed again, or held for room. -/
def Slot.again (x : Slot) (s : State) (full : Bool) (p : Pending) : Slot :=
  { x with
    retriesLeft := x.retriesLeft - 1
    timer := if full then none else some s.limits.orderTimeout.toNat
    pending := if full then some p else none }

/-- The placing of a round again, of a transaction that rebuilds no set. -/
theorem roundPlaced_again (hx : s.getSlot t = some x) (hr : x.rebuildsSet = false) :
    s.roundPlaced t false = s.putSlot t (some { x with
      pending := none, timer := some s.limits.orderTimeout.toNat }) := by
  unfold State.roundPlaced
  rw [modSlot_of_slot hx]
  refine congrArg (fun y => s.putSlot t (some y)) ?_
  obtain ⟨⟩ := x
  rename_i b _ _ _
  cases b with
  | none => rfl
  | some b =>
    cases b with
    | line d => rfl
    | set z p g v => cases hr

theorem sendRound_again {os : List Order} (hn : s.NoneHeld) (hx : s.getSlot t = some x) (hr : x.rebuildsSet = false)
    (full : Bool) (hfull : full = decide (64 < s.orderQ.length + os.length)) :
    s.sendRound t os false = { s.putSlot t (some { x with
        timer := if full then none else some s.limits.orderTimeout.toNat
        pending := if full then some (.round os false) else none }) with
      orderQ := if full then s.orderQ else s.orderQ ++ os
      orderHeld := if full then [.slot t] else [] } := by
  have hroom : s.orderRoom os = !full := by
    rw [hfull]
    unfold State.orderRoom
    rw [← decide_not]
    exact decide_eq_decide.2 not_lt.symm
  have hcond : (s.orderHeld.isEmpty && s.orderRoom os) = !full := by
    rw [hn.order, hroom]
    rfl
  unfold State.sendRound
  rw [hcond]
  cases full with
  | true =>
    rw [if_neg (by decide), modSlot_of_slot hx]
    exact congrArg (fun o => ({ s.putSlot t _ with orderHeld := o ++ [.slot t] } : State)) hn.order
  | false =>
    rw [if_pos (by decide), roundPlaced_again (s := { s with orderQ := s.orderQ ++ os }) hx hr]
    exact congrArg (fun o => ({ s.putSlot t _ with orderQ := s.orderQ ++ os, orderHeld := o } : State)) hn.order

/-- The order an expiry sends again to a node. -/
def Slot.resendTo (x : Slot) (l : Line) (n q : Node) : List Order :=
  match x.outstanding with
  | .revoke => [.revoke q l true]
  | .recall => [.recall q l true]
  | .forward m => [.forward q l n m true]
  | _ => []

theorem resends_of_round {l : Line} {n : Node} (hl : x.line = some l)
    (ho : x.outstanding = .nothing ∨ x.outstanding = .revoke ∨ x.outstanding = .recall ∨ (∃ m, x.outstanding = .forward m))
    (hq : (∃ m, x.outstanding = .forward m) ∨ x.memWait = .fetchSent → x.requester = some n) :
    x.resends = (NodeSet.toList x.awaited).flatMap (x.resendTo l n) ++
      (if x.memWait = .fetchSent then [.fetch l n true] else []) := by
  have hset : x.setIx = some (setOf l) := by unfold Slot.setIx; rw [hl]
  have hfetch : (match x.memWait, x.line, x.requester with
      | .fetchSent, some l, some r => [Order.fetch l r true]
      | _, _, _ => []) = if x.memWait = .fetchSent then [.fetch l n true] else [] := by
    by_cases hm : x.memWait = .fetchSent
    · rw [hq (.inr hm), hm, hl, if_pos rfl]
    · rw [if_neg hm]
      split
      · rename_i hm' _ _
        exact absurd hm' hm
      · rfl
  have hsingle : ∀ f : Node → Order, (∀ q, x.resendTo l n q = [f q]) →
      (NodeSet.toList x.awaited).flatMap (x.resendTo l n) = (NodeSet.toList x.awaited).map f := fun f hf => by
    rw [show x.resendTo l n = fun q => [f q] from funext hf, List.map_eq_flatMap]
  unfold Slot.resends
  refine congrArg₂ (· ++ ·) ?_ hfetch
  rcases ho with ho | ho | ho | ⟨m, ho⟩
  · rw [ho, show x.resendTo l n = fun _ => [] from funext fun q => by unfold Slot.resendTo; rw [ho]]
    simp
  · rw [hsingle (fun q => .revoke q l true) fun q => by unfold Slot.resendTo; rw [ho], ho, hl, hset]
    rfl
  · rw [hsingle (fun q => .recall q l true) fun q => by unfold Slot.resendTo; rw [ho], ho, hl, hset]
    rfl
  · rw [hsingle (fun q => .forward q l n m true) fun q => by unfold Slot.resendTo; rw [ho], ho, hl, hset, hq (.inl ⟨m, ho⟩)]

theorem countExpiry_fetch : s.countExpiry x = { s with
    nodes := (s.timedOut x.awaited).nodes
    memTimeouts := if x.memWait = .fetchSent then satInc s.memTimeouts else s.memTimeouts } := by
  show (if x.memWait = .fetchSent then (s.timedOut x.awaited).countMemTimeout else s.timedOut x.awaited) = _
  by_cases hm : x.memWait = .fetchSent
  · rw [if_pos hm, if_pos hm]
    exact congrArg State.countMemTimeout (timedOut_eq x.awaited)
  · rw [if_neg hm, if_neg hm]
    exact timedOut_eq x.awaited

/-- A slot that holds a round for which the queue has no room leaves the rest of a quiet part at rest. -/
theorem settled_again_round {y : Slot} {ns : Vector NodeRec 8} {k : BitVec 8} {os oq : List Order} (h : s.Quiet)
    (hx : s.getSlot t = some x) (hr : y.rebuild = x.rebuild) (full : Bool)
    (hheld : full = true → y.pending = some (.round os false) ∧ 64 < oq.length + os.length) : State.settled
      { s.putSlot t (some y) with
        nodes := ns, memTimeouts := k, orderQ := oq, orderHeld := if full then [.slot t] else [] } = true := by
  have hwalks := ((settled_iff_walksRest _).1 (Quiet_settled (h.changed hx hr))).1
  refine (settled_iff_walksRest _).2 ⟨hwalks.same, (placeHeldOrder_none_iff _).2 ?_, placeHeldAnswer_of_empty h.noHeldAnswer⟩
  cases full with
  | false => exact .inl rfl
  | true =>
    obtain ⟨hp, hlen⟩ := hheld rfl
    refine .inr (.inr ⟨t, [], os, false, rfl, ?_, ?_⟩)
    · exact (congrArg (fun o => Option.bind o Slot.pending) (getSlot_putSlot_self s t (some y))).trans hp
    · exact decide_eq_false (not_le.2 hlen)

theorem settled_again_answer {y : Slot} {oq : List Answer} (h : s.Quiet)
    (hx : s.getSlot t = some x) (hr : y.rebuild = x.rebuild) (n : Node) (f : NodeRec → NodeRec) (full : Bool)
    (hheld : full = true → 64 ≤ oq.length) : State.settled
      { (s.putSlot t (some y)).modNode n f with answerQ := oq, answerHeld := if full then [.slot t] else [] } = true := by
  have hwalks := ((settled_iff_walksRest _).1 (Quiet_settled (h.changed hx hr))).1
  refine (settled_iff_walksRest _).2 ⟨hwalks.same, placeHeldOrder_of_empty h.noHeldOrder, (placeHeldAnswer_none_iff _).2 ?_⟩
  cases full with
  | false => exact .inl rfl
  | true => exact .inr (.inl (hheld rfl))

/-- The expiry of a round with retries left. -/
theorem exec_orderTimerExpiry_again {k : Nat} {os : List Order} (h : s.Quiet) (hlink : s.link = .up)
    (hx : s.getSlot t = some x) (hk : x.timer = some k) (hretry : 0 < x.retriesLeft) (htimed : x.roundTimed = true)
    (hos : x.resends = os) (full : Bool) (hfull : full = decide (64 < s.orderQ.length + os.length)) :
    exec (.orderTimerExpiry t.val) s = .next (State.driveEventN
      { s.putSlot t (some (x.again s full (.round os false))) with
        nodes := (s.timedOut x.awaited).nodes
        orderQ := if full then s.orderQ else s.orderQ ++ os
        orderHeld := if full then [.slot t] else []
        memTimeouts := if x.memWait = .fetchSent then satInc s.memTimeouts else s.memTimeouts }) := by
  have hagain := sendRound_again (s := ({ s with
      nodes := (s.timedOut x.awaited).nodes
      memTimeouts := if x.memWait = .fetchSent then satInc s.memTimeouts else s.memTimeouts } : State).putSlot t
      (some { x with retriesLeft := x.retriesLeft - 1, timer := none })) (t := t)
    (x := { x with retriesLeft := x.retriesLeft - 1, timer := none }) ⟨h.noHeldOrder, h.noHeldAnswer⟩
    (getSlot_putSlot_self ..) (h.slot hx : x.rebuildsSet = false) full hfull
  rw [exec_orderTimerExpiry hlink hx hk htimed]
  unfold State.orderExpiry
  dsimp only
  rw [if_pos hretry, countExpiry_fetch, State.useRetry, hos,
    modSlot_of_slot (s := { s with
      nodes := (s.timedOut x.awaited).nodes
      memTimeouts := if x.memWait = .fetchSent then satInc s.memTimeouts else s.memTimeouts }) hx, hagain, putSlot_putSlot]
  refine event_settled h.running (settled_again_round (y := x.again s full (.round os false)) (os := os) h hx rfl full fun hf => ?_)
  rw [hf] at hfull ⊢
  exact ⟨rfl, of_decide_eq_true hfull.symm⟩

theorem sendAnswer_again {n : Node} {l : Line} {p : Permission} {src : Source} {u : Bool} (hn : s.NoneHeld)
    (hx : s.getSlot t = some x) (full : Bool) (hfull : full = decide (64 ≤ s.answerQ.length)) :
    s.sendAnswer t (.grant n l p src u true) = ({ s.putSlot t (some { x with
        timer := if full then none else some s.limits.orderTimeout.toNat
        pending := if full then some (.answer (.grant n l p src u true)) else none }) with
      answerQ := if full then s.answerQ else s.answerQ ++ [.grant n l p src u true]
      answerHeld := if full then [.slot t] else [] }, []) := by
  have hslot : (s.putSlot t (some { x with pending := none })).getSlot t = some { x with pending := none } :=
    getSlot_putSlot_self ..
  have hcond : ((s.putSlot t (some { x with pending := none })).answerRoom &&
      !(s.putSlot t (some { x with pending := none })).roundHeld t) = !full := by
    rw [roundHeld_of_none (s := s.putSlot t (some { x with pending := none })) ⟨hn.order, hn.answer⟩]
    unfold State.answerRoom
    rw [show State.answerHeld (s.putSlot t (some { x with pending := none })) = [] from hn.answer, hfull]
    show (true && decide (s.answerQ.length < 64) && true) = _
    rw [Bool.and_true, Bool.true_and, ← decide_not]
    exact decide_eq_decide.2 not_le.symm
  unfold State.sendAnswer
  rw [setAside_of_none hn hx]
  dsimp only
  rw [hcond]
  cases full with
  | true =>
    rw [if_neg (by decide), modSlot_of_slot hslot, putSlot_putSlot]
    exact congrArg (fun o => (({ s.putSlot t _ with answerHeld := o ++ [.slot t] } : State), ([] : List Task))) hn.answer
  | false =>
    rw [if_pos (by decide)]
    refine Prod.ext ((modSlot_of_slot (s := { s.putSlot t (some { x with pending := none }) with
      answerQ := s.answerQ ++ [.grant n l p src u true] }) hslot (fun x => { x with
        pending := none, timer := some s.limits.orderTimeout.toNat })).trans ?_) rfl
    refine (putSlot_putSlot { s with answerQ := s.answerQ ++ [.grant n l p src u true] } t _ _).trans ?_
    exact congrArg (fun o => ({ s.putSlot t _ with
      answerQ := s.answerQ ++ [.grant n l p src u true], answerHeld := o } : State)) hn.answer

/-- The expiry of a GRANT with retries left. -/
theorem exec_grantTimerExpiry_again {n : Node} {l : Line} {k : Nat} {p : Permission} {src : Source} {u : Bool} (h : s.Quiet)
    (hlink : s.link = .up) (hx : s.getSlot t = some x) (hk : x.timer = some k) (hl : x.line = some l)
    (hretry : 0 < x.retriesLeft) (hq : x.requester = some n) (hphase : x.phase = .awaitComplete)
    (ho : x.outstanding = .grant p src u) (full : Bool) (hfull : full = decide (64 ≤ s.answerQ.length)) :
    exec (.grantTimerExpiry t.val) s = .next (State.driveEventN
      { (s.putSlot t (some (x.again s full (.answer (.grant n l p src u true))))).modNode n
          (fun r => { r with timeouts := satInc r.timeouts }) with
        answerQ := if full then s.answerQ else s.answerQ ++ [.grant n l p src u true]
        answerHeld := if full then [.slot t] else [] }) := by
  have hexec : exec (.grantTimerExpiry t.val) s = s.event (s.grantExpiry t x) := by
    show s.event (match s.expiring t.val with
      | some (u, x) => if x.phase = .awaitComplete then s.grantExpiry u x else (s, [])
      | none => (s, [])) = _
    rw [expiring_of_slot hlink hx hk]
    dsimp only
    rw [if_pos hphase]
  have hagain := sendAnswer_again (s := (s.countTimeout n).putSlot t
      (some { x with retriesLeft := x.retriesLeft - 1, timer := none })) (t := t) (n := n) (l := l) (p := p) (src := src)
    (u := u) (x := { x with retriesLeft := x.retriesLeft - 1, timer := none }) ⟨h.noHeldOrder, h.noHeldAnswer⟩
    (getSlot_putSlot_self ..) full hfull
  rw [hexec]
  unfold State.grantExpiry
  rw [hq, hl, ho]
  dsimp only
  rw [if_pos hretry, State.useRetry, modSlot_of_slot (s := s.countTimeout n) hx, hagain, putSlot_putSlot]
  refine event_settled h.running (settled_again_answer
    (y := x.again s full (.answer (.grant n l p src u true))) h hx rfl n (fun r => { r with timeouts := satInc r.timeouts })
    full fun hf => ?_)
  rw [hf] at hfull ⊢
  exact of_decide_eq_true hfull.symm

end

end Sys2Proof.Machine

/-! # Copies that become POISONED, and their write-back -/

namespace Sys2Proof.Machine

set_option Elab.async false

/-! ## A copy made POISONED (R120, R138) -/

section
variable {s q : State} {t u : SlotIx} {x y : Slot} {l b : Line} {v : WinIx} {w e : WayIx} {c : Content} {o n : Node}

/-- The capture fields of a copy made POISONED. -/
def poisonFields (l : Line) (o : Node) (w : WayIx) (t : SlotIx) : FaultFields :=
  ⟨some l, some (.node o), some (setOf l), some w, some t⟩

/-- A record whose copy of a way is POISONED. -/
def Slot.spoiled (x : Slot) (w : WayIx) : Slot := { x with working := some ⟨w, .poisoned⟩ }

/-- The state with other event flags, capture record and TIMEOUTS of the memory agent. -/
def State.noted (s : State) (a : BitVec 8) (f : BitVec 16) (r : Option Capture) : State :=
  { s with memTimeouts := a, flags := f, capture := r }

theorem poisonCopy_of_held (hx : s.getSlot t = some x) (hl : x.line = some l) (hw : x.working = some ⟨w, c⟩) :
    s.poisonCopy t (some o) = (s.putSlot t (some (x.spoiled w))).noted s.memTimeouts (s.flags ||| 0x0010#16)
      (captured s.capture .linePoisoned (poisonFields l o w t)) := by
  have hset : x.setIx = some (setOf l) := by unfold Slot.setIx; rw [hl]
  unfold State.poisonCopy
  rw [hx]
  dsimp only
  rw [hw]
  dsimp only
  rw [modSlot_of_slot hx, hset]
  refine (congrArg (fun i => (s.putSlot t (some (x.spoiled w))).notePoisoned i (some o) (some (setOf l)) (some w) (some t))
    hl).trans ?_
  exact fault_eq ((s.putSlot t (some (x.spoiled w))).raise .linePoisoned) _ _

/-- The way of a copy written back POISONED. -/
def State.spoiledWay (s : State) (l : Line) (w : WayIx) : State :=
  s.putWay (setOf l) w { s.getWay (setOf l) w with body := coded ⟨.poisoned, none, false⟩ }

/-- A POISONED copy goes back to its way, unheld, but for a RETIRE_RECALL's. -/
theorem writeBack_poisoned (h : q.onlyOn l t) (hx : q.getSlot t = some y) (hl : y.line = some l) (hr : y.rank = some 0)
    (hw : y.working = some ⟨w, .poisoned⟩) (hk : y.kind ≠ .retireRecall)
    (hb : (q.getWay (setOf l) w).body = coded ⟨c, some u, false⟩) :
    q.writeBack t = (q.withDir (q.spoiledWay l w).dir).putSlot t (some { y with working := none }) := by
  have hset : y.setIx = some (setOf l) := by unfold Slot.setIx; rw [hl]
  have hcheck : (q.getWay (setOf l) w).body.check = .good := by rw [hb]; rfl
  have hstored : (q.getWay (setOf l) w).body.stored.release = false := by rw [hb]; rfl
  have hkept : ¬(Content.poisoned = .free ∨ Content.poisoned = .reserved ∨ (Content.poisoned = .poisoned ∧
      ((q.getWay (setOf l) w).body.stored.release = true ∨ y.kind = .retireRecall))) := by
    rintro (h | h | ⟨-, h | h⟩)
    · cases h
    · cases h
    · rw [hstored] at h
      cases h
    · exact hk h
  have hwb := writeBack_of_held hx hw hset rfl hcheck
  dsimp only at hwb
  rw [if_neg hkept, nextBehind_of_only h hx hl hr, ite_self] at hwb
  exact hwb

/-- A RETIRE_RECALL's POISONED copy frees its way (R166). -/
theorem writeBack_retired (hx : q.getSlot t = some y) (hl : y.line = some l)
    (hw : y.working = some ⟨w, .poisoned⟩) (hk : y.kind = .retireRecall)
    (hb : (q.getWay (setOf l) w).body.check = .good) :
    q.writeBack t = (q.withDir (q.makeFree (setOf l) w).dir).putSlot t (some { y with working := none }) := by
  have hset : y.setIx = some (setOf l) := by unfold Slot.setIx; rw [hl]
  have hwb := writeBack_of_held hx hw hset rfl hb
  dsimp only at hwb
  rw [if_pos (.inr (.inr ⟨rfl, .inr hk⟩))] at hwb
  exact hwb

/-- The close of a request whose copy is POISONED. -/
theorem drain_poisoned_request {a : BitVec 8} {f : BitVec 16} {r : Option Capture} {aq : List Answer} {k : Nat}
    {ts : List Task} {z : State} (hn : s.NoneHeld) (hx : s.getSlot t = some x) (hl : x.line = some l) (honly : s.onlyOn l t)
    (hrank : x.rank = some 0) (hwin : x.window = some v) (hlive : (s.getWindow v).state = .live) (hv : x.victimLink = none)
    (hp : x.pending = none) (hc : x.counted = false) (hw : x.working = some ⟨w, .poisoned⟩) (hk : x.kind ≠ .retireRecall)
    (hclaim : ∀ n, x.kind = .writeback → x.requester = some n → s.noticeFor l n = none)
    (hb : (s.getWay (setOf l) w).body = coded ⟨c, some u, false⟩)
    (hrest : drain k ({ ((s.closed t x.requester v).spoiledWay l w).noted a f r with answerQ := aq } : State) ts = some z) :
    drain (k + 3) ({ s.noted a f r with answerQ := aq } : State) (.close t :: ts) = some z := by
  let q : State := { s.noted a f r with answerQ := aq }
  have hclosing : q.Closing t x l v := ⟨⟨hn.order, hn.answer⟩, hx, hl, honly, hrank, hwin, hv, hp, hclaim⟩
  refine drain_close_request hclosing hlive hc (writeBack_poisoned (q := q) honly hx hl hrank hw hk hb) ?_
  rw [closed_withDir]
  have hclosed : q.closed t x.requester v = { (s.closed t x.requester v).noted a f r with answerQ := aq } := by
    cases x.requester <;> rfl
  rw [hclosed]
  refine Eq.trans ?_ hrest
  cases x.requester <;> rfl

theorem recallClosed_noted (a : BitVec 8) (f : BitVec 16) (r : Option Capture) :
    (s.noted a f r).recallClosed t x v = (s.recallClosed t x v).noted a f r := by
  unfold State.recallClosed
  dsimp only
  split
  · split <;> rfl
  · rfl

/-- The directory a recall with a POISONED copy leaves. -/
def State.recallSpoils (s : State) (x : Slot) (l : Line) (w : WayIx) : List (SetIx × SetRec) :=
  if x.kind = .retireRecall then (s.makeFree (setOf l) w).dir else (s.spoiledWay l w).dir

theorem writeBack_recall (h : q.onlyOn l t) (hx : q.getSlot t = some y) (hl : y.line = some l) (hr : y.rank = some 0)
    (hw : y.working = some ⟨w, .poisoned⟩) (hb : (q.getWay (setOf l) w).body = coded ⟨c, some u, false⟩) :
    q.writeBack t = (q.withDir (q.recallSpoils y l w)).putSlot t (some { y with working := none }) := by
  unfold State.recallSpoils
  split
  · rename_i hk
    exact writeBack_retired hx hl hw hk (by rw [hb]; rfl)
  · rename_i hk
    exact writeBack_poisoned h hx hl hr hw hk hb

/-- The close of a recall whose copy is POISONED, with no waiter. -/
theorem drain_poisoned_recall {a : BitVec 8} {f : BitVec 16} {r : Option Capture} {k : Nat}
    {ts : List Task} {z : State} (h : s.Recalls t x l v w .poisoned) (hv : x.victimLink = none)
    (hb : (s.getWay (setOf l) w).body = coded ⟨c, some u, false⟩)
    (hrest : drain k (((s.recallClosed t x v).withDir (s.recallSpoils x l w)).noted a f r) ts = some z) :
    drain (k + 3) (s.noted a f r) (.close t :: ts) = some z := by
  have hclosing : (s.noted a f r).Closing t x l v := ⟨⟨h.quiet.noHeldOrder, h.quiet.noHeldAnswer⟩, h.slot, h.line, h.only, h.rank,
    h.window, hv, h.sent, fun n _ hq => by rw [h.requester] at hq; cases hq⟩
  refine drain_close_recall hclosing h.requester
    (writeBack_recall (q := s.noted a f r) h.only h.slot h.line h.rank h.working hb) ?_
  rw [recallClosed_withDir, recallClosed_noted]
  exact hrest

/-! ## A VICTIM_RECALL with a waiter that ends in poison (R93) -/

/-- A slot with its victim link gone. -/
def Slot.unlinked (y : Slot) : Slot := { y with victimLink := none }

/-- What the close of a recall counts (R105, R163, R166). -/
def State.recallCounted (q : State) (x : Slot) (v : WinIx) : State := (q.countClosed (some v)).countRecallClosed x

theorem recallCounted_eq (q : State) (x : Slot) (v : WinIx) : q.recallCounted x v = { q with
    windows := (q.recallCounted x v).windows, purgeJobs := (q.recallCounted x v).purgeJobs, maint := (q.recallCounted x v).maint } := by
  unfold State.recallCounted State.countRecallClosed
  split
  · split <;> rfl
  · rfl

theorem recallCounted_putSlot (q : State) (x : Slot) (v : WinIx) (z : Option Slot) :
    (q.putSlot t z).recallCounted x v = (q.recallCounted x v).putSlot t z := by
  unfold State.recallCounted State.countRecallClosed
  split
  · split <;> rfl
  · rfl

theorem recallCounted_closed (hn : q.NoneHeld) (hl : x.line = some l) (honly : q.onlyOn l t) (hr : x.rank = some 0)
    (hwin : x.window = some v) (hp : x.pending = none) (hq : x.requester = none) :
    (q.recallCounted x v).putSlot t none = q.recallClosed t x v := by
  have hclosing : (q.putSlot t (some x.unlinked)).Closing t x.unlinked l v :=
    ⟨⟨hn.order, hn.answer⟩, getSlot_putSlot_self .., hl, onlyOn_putSlot honly _, hr, hwin, rfl, hp, fun n _ h => by
      rw [show x.unlinked.requester = none from hq] at h
      cases h⟩
  have hleave := (leaveTable_of_closing hclosing).symm.trans (leaveTable_recallClosed hclosing hq)
  rw [show x.unlinked.requester = none from hq, recallClosed_putSlot] at hleave
  have hcounted : (((q.putSlot t (some x.unlinked)).countClosed (some v)).returnCredit none).countRecallClosed x.unlinked =
      (q.recallCounted x v).putSlot t (some x.unlinked) := recallCounted_putSlot q x v (some x.unlinked)
  rw [hcounted, putSlot_putSlot] at hleave
  exact hleave

/-- A recall that made no hand-over leaves the table, and its waiter's link is gone (R39, R93). -/
theorem leaveTable_of_linked (hn : q.NoneHeld) (hx : q.getSlot t = some x) (hl : x.line = some l) (honly : q.onlyOn l t)
    (hr : x.rank = some 0) (hwin : x.window = some v) (hv : x.victimLink = some u) (hne : u ≠ t) (hp : x.pending = none)
    (hq : x.requester = none) (hy : q.getSlot u = some y) (hyv : y.victimLink = some t) :
    q.leaveTable t x = (q.recallClosed t x v).putSlot u (some y.unlinked) := by
  have hc := recallCounted_eq q x v
  have hget : ∀ i, (q.recallCounted x v).getSlot i = q.getSlot i := fun i => by
    unfold State.getSlot
    rw [hc]
  have hcn : (q.recallCounted x v).NoneHeld := ⟨by rw [hc]; exact hn.order, by rw [hc]; exact hn.answer⟩
  have hranks : (q.recallCounted x v).closeRanks x = q.recallCounted x v :=
    closeRanks_of_only (fun i z hz => honly i z ((hget i).symm.trans hz)) ((hget t).trans hx) hl hr
  have hdisown : (q.recallCounted x v).disownRounds t = q.recallCounted x v := by
    unfold State.disownRounds
    rw [hcn.order]
    exact congrArg (fun o => { q.recallCounted x v with orderHeld := o }) hcn.order.symm
  have hfree : (q.recallCounted x v).freeSlot t x = (q.recallClosed t x v).putSlot u (some y.unlinked) := by
    unfold State.freeSlot
    dsimp only
    rw [setAside_of_clear hcn ((hget t).trans hx) hp, hdisown, hv]
    dsimp only
    rw [recallCounted_closed hn hl honly hr hwin hp hq, modSlot_of_slot (x := y)]
    · rw [if_pos hyv]
      rfl
    · rw [recallClosed_getSlot, getSlot_putSlot_of_ne hne]
      exact hy
  have hcounts : ((q.countClosed x.window).returnCredit x.requester).countRecallClosed x = q.recallCounted x v := by
    rw [hwin, hq]
    rfl
  unfold State.leaveTable
  dsimp only
  rw [hcounts, hranks, hfree, hq]
  split
  · rename_i hn _
    cases hn
  · rfl

theorem finishClose_of_linked (hn : q.NoneHeld) (hx : q.getSlot t = some x) (hl : x.line = some l) (honly : q.onlyOn l t)
    (hr : x.rank = some 0) (hwin : x.window = some v) (hv : x.victimLink = some u) (hne : u ≠ t) (hp : x.pending = none)
    (hq : x.requester = none) (hk : x.kind = .victimRecall) (hy : q.getSlot u = some y) (hyv : y.victimLink = some t) :
    q.finishClose t = ((q.recallClosed t x v).putSlot u (some y.unlinked), [.reallocate u, .advance l]) := by
  unfold State.finishClose
  rw [hx]
  dsimp only
  rw [leaveTable_of_linked hn hx hl honly hr hwin hv hne hp hq hy hyv, hk, hv, hl]
  rfl

/-- A waiter with a FREE way in its set takes it, and its FETCH goes out (R93). -/
theorem reallocate_of_free (hn : q.NoneHeld) (hy : q.getSlot u = some y) (hphase : y.phase = .awaitVictim)
    (hq : y.requester = some o) (hl : y.line = some b) (hwin : q.windowRetiring y = false) (hmem : q.mem = .live)
    (hp : y.pending = none) (hr : y.rebuild = none) (hv : y.victimLink = none) (hfree : q.rearmostFree (setOf b) = some e)
    (hroom : q.orderQ.length < 64) : q.reallocate u =
      ({ (q.putWay (setOf b) e (reservedWay b u)).putSlot u (some (y.given q e)) with
        orderQ := q.orderQ ++ [.fetch b o false] }, []) := by
  have hallocate : q.allocate u b = some ((q.putWay (setOf b) e (reservedWay b u)).putSlot u
      (some { y with working := some ⟨e, .reserved⟩ })) := by
    unfold State.allocate
    rw [hfree]
    dsimp only
    unfold State.reserve
    rw [modSlot_of_slot (s := q.putWay (setOf b) e _) hy]
    rfl
  have hslot : ((q.putWay (setOf b) e (reservedWay b u)).putSlot u (some { y with working := some ⟨e, .reserved⟩ })).getSlot u =
      some { y with working := some ⟨e, .reserved⟩ } := getSlot_putSlot_self ..
  have hround := startRound_of_room (s := (q.putWay (setOf b) e (reservedWay b u)).putSlot u
    (some { y with working := some ⟨e, .reserved⟩ })) ⟨hn.order, hn.answer⟩ hslot hp hr (os := [.fetch b o false]) hroom 0#8
    .fetchSent .nothing
  unfold State.reallocate
  rw [hy]
  dsimp only
  rw [if_neg (not_not_intro hphase), hq, hl]
  dsimp only
  rw [hwin, hallocate]
  dsimp only
  rw [if_neg Bool.false_ne_true]
  refine (if_pos (show _ = true from beq_iff_eq.2 hmem)).trans ?_
  refine Prod.ext (hround.trans ?_) rfl
  rw [putSlot_putSlot]
  have hgiven : ({ y with
      phase := .awaitReplies, awaited := 0#8, memWait := .fetchSent, outstanding := .nothing
      working := some ⟨e, .reserved⟩, timer := some q.limits.orderTimeout.toNat
      retriesLeft := q.limits.retryLimit.toNat } : Slot) = y.given q e := by
    unfold Slot.given
    rw [← hv]
  exact congrArg (fun z => ({ (q.putWay (setOf b) e (reservedWay b u)).putSlot u (some z) with
    orderQ := q.orderQ ++ [.fetch b o false] } : State)) hgiven

theorem getWay_putWay_of_ne (hcanon : dirWf s.dir = true) {i : SetIx} {z : WayIx} (hz : z ≠ w) (y : Way) :
    (s.putWay i w y).getWay i z = s.getWay i z := by
  unfold State.getWay
  rw [getSet_putWay_self hcanon]
  exact Vector.getElem_set_ne w.isLt z.isLt fun h => hz (Fin.ext h.symm)

/-- A POISONED way is no more FREE than the OWNED one it was. -/
theorem rearmostFree_spoiled (hcanon : dirWf s.dir = true) {i : Node}
    (hb : (s.getWay (setOf l) w).body = coded ⟨.owned i, some t, false⟩) :
    (s.spoiledWay l w).rearmostFree (setOf l) = s.rearmostFree (setOf l) := by
  have horder : ((s.spoiledWay l w).getSet (setOf l)).order = (s.getSet (setOf l)).order := by
    unfold State.spoiledWay
    rw [getSet_putWay_self hcanon]
  have hview : ∀ z : WayIx, (((s.spoiledWay l w).bodyView (setOf l) z).map Body.content == some Content.free) =
      ((s.bodyView (setOf l) z).map Body.content == some Content.free) := by
    intro z
    unfold State.bodyView State.spoiledWay
    by_cases hz : z = w
    · subst hz
      rw [getWay_putWay_self hcanon, hb]
      rfl
    · rw [getWay_putWay_of_ne hcanon hz]
  unfold State.rearmostFree
  rw [horder]
  exact congrArg (fun p => (s.getSet (setOf l)).order.reverse.find? p) (funext hview)

theorem given_of_limits (y : Slot) {p : State} (h : p.limits = s.limits) (e : WayIx) : y.unlinked.given p e = y.given s e := by
  unfold Slot.given
  rw [h]
  rfl

/-- A window that is not RETIRING is not after the close of a recall. -/
theorem recallClosed_notRetiring {i : WinIx} (h : (s.getWindow i).state ≠ .retiring) :
    ((s.recallClosed t x v).getWindow i).state ≠ .retiring := by
  have hwindows : (s.recallClosed t x v).windows = (s.modWindow v (fun r =>
      if r.state = .retiring ∧ r.progress = some .draining ∧ r.openCount ≤ 1 then
        { r with state := .closed, progress := none, openCount := 0 }
      else { r with openCount := r.openCount - 1 })).windows := by
    unfold State.recallClosed
    dsimp only
    split
    · split <;> rfl
    · rfl
  unfold State.getWindow at h ⊢
  rw [hwindows]
  show (State.getWindow (s.modWindow v _) i).state ≠ .retiring
  rw [getWindow_modWindow]
  split
  · rename_i hi
    subst hi
    split
    · nofun
    · exact h
  · exact h

/-- The close of a VICTIM_RECALL whose copy is POISONED: its waiter takes a FREE way of the set. -/
theorem drain_poisoned_given {a : BitVec 8} {f : BitVec 16} {r : Option Capture} (h : s.Recalls t x l v w .poisoned)
    (hk : x.kind = .victimRecall) (hv : x.victimLink = some u) (hy : s.waits t u y l b o) (hyv : y.victimLink = some t)
    (hmem : s.mem = .live) (hroom : s.orderQ.length < 64) {i : SlotIx} (hb : (s.getWay (setOf l) w).body = coded ⟨c, some i, false⟩)
    (hfree : (s.spoiledWay l w).rearmostFree (setOf b) = some e) :
    drain 5 (s.noted a f r) [.close t, .settle] = some (State.noted
      { ((s.recallClosed t x v).withDir ((s.spoiledWay l w).putWay (setOf b) e (reservedWay b u)).dir).putSlot u
        (some (y.given s e)) with orderQ := s.orderQ ++ [.fetch b o false] } a f r) := by
  let x' : Slot := { x with working := none }
  let q1 : State := ((s.noted a f r).withDir (s.spoiledWay l w).dir).putSlot t (some x')
  let q2 : State := ((s.recallClosed t x v).withDir (s.spoiledWay l w).dir).noted a f r
  have hn : (s.noted a f r).NoneHeld := ⟨h.quiet.noHeldOrder, h.quiet.noHeldAnswer⟩
  have hwb : (s.noted a f r).writeBack t = q1 := writeBack_poisoned (q := s.noted a f r) h.only h.slot h.line h.rank h.working
    (by rw [hk]; nofun) hb
  have hclosed : q1.recallClosed t x' v = q2 := by
    refine (recallClosed_putSlot ((s.noted a f r).withDir (s.spoiledWay l w).dir) t (some x') x' v).trans ?_
    rw [recallClosed_withDir, recallClosed_noted]
    rfl
  have hyslot : q1.getSlot u = some y := (getSlot_putSlot_of_ne hy.other _).trans hy.slot
  have hfinish : q1.finishClose t = (q2.putSlot u (some y.unlinked), [.reallocate u, .advance l]) := by
    rw [← hclosed]
    exact finishClose_of_linked (q := q1) (x := x') ⟨hn.order, hn.answer⟩ (getSlot_putSlot_self ..) h.line
      (onlyOn_putSlot (s := (s.noted a f r).withDir (s.spoiledWay l w).dir) h.only _) h.rank h.window hv hy.other h.sent
      h.requester hk hyslot hyv
  have hquiet : q2.Quiet := by
    have hq := h.quiet.recallClosed t v h.jobs
    have hp : (s.spoiledWay l w).anyFrozen = false := putWay_anyFrozen h.quiet.noFrozen ..
    exact (hq.congr (s' := q2) (fun _ _ hz => hq.slot hz) hp)
  have hshape := recallClosed_eq s t x v
  have hslotU : (q2.putSlot u (some y.unlinked)).getSlot u = some y.unlinked := getSlot_putSlot_self ..
  have horder : (q2.putSlot u (some y.unlinked)).orderQ = s.orderQ := (congrArg State.orderQ hshape :)
  have hreallocate := reallocate_of_free (q := q2.putSlot u (some y.unlinked)) (y := y.unlinked) (u := u) (o := o) (b := b) (e := e)
    ⟨hquiet.noHeldOrder, hquiet.noHeldAnswer⟩ hslotU hy.phase hy.requester hy.line ?_
    ((congrArg State.mem hshape).trans hmem) hy.sent hy.plain rfl hfree ?_
  · refine drain_step (s' := q1) (ts' := [.finishClose t]) (Prod.ext hwb rfl) ?_
    refine drain_step hfinish (drain_step hreallocate ?_)
    have hgiven : y.unlinked.given (q2.putSlot u (some y.unlinked)) e = y.given s e :=
      given_of_limits y (congrArg State.limits hshape) e
    rw [hgiven, horder, show ((q2.putSlot u (some y.unlinked)).putWay (setOf b) e (reservedWay b u)).putSlot u
      (some (y.given s e)) = (q2.putWay (setOf b) e (reservedWay b u)).putSlot u (some (y.given s e)) from
      putSlot_putSlot (q2.putWay (setOf b) e (reservedWay b u)) u _ _]
    have hgone : q2.getSlot t = none := (recallClosed_getSlot s t x v t).trans (getSlot_putSlot_self ..)
    have honly : q2.onlyOn l t := fun j z hz => onlyOn_putSlot h.only none j z ((recallClosed_getSlot s t x v j).symm.trans hz)
    have hyq : q2.getSlot u = some y := (recallClosed_getSlot s t x v u).trans ((getSlot_putSlot_of_ne hy.other _).trans hy.slot)
    refine drain_step (ts' := []) (advance_of_only (t := t) (onlyOn_putSlot_other (s := q2.putWay (setOf b) e (reservedWay b u))
      honly hyq rfl) ((getSlot_putSlot_of_ne hy.other.symm _).trans hgone)) (drain_settle (Quiet_settled ?_) 0)
    exact ((hquiet.putWay (setOf b) e (reservedWay b u)).changed (x := y) (y := y.given s e) hyq rfl).same
  · exact windowRetiring_of_open fun i hi => recallClosed_notRetiring (hy.windowOpen i hi)
  · rw [horder]
    exact hroom

end

end Sys2Proof.Machine

/-! # Store waits that expire (O58) -/

namespace Sys2Proof.Machine

set_option Elab.async false

section
variable {s : State} {t u : SlotIx} {x y : Slot} {l b : Line} {v : WinIx} {w e : WayIx} {o n : Node} {k : Nat}

/-- A record whose store wait has ended in poison. -/
def Slot.ended (x : Slot) (w : WayIx) : Slot := { x with memWait := .noWait, timer := none, working := some ⟨w, .poisoned⟩ }

/-- What a transaction whose copy is POISONED does (R79, R138). -/
def State.endSpoiled (s : State) (t : SlotIx) (x : Slot) : Work :=
  if x.kind.recall then s.close t
  else if x.kind = .writeback then s.closeWith t (fun n l => .wbDone n l false)
  else s.refuse t .poisoned

/-- What a store's expiry counts and notes (R138). -/
def State.storeLate (s : State) (l : Line) (o : Node) (w : WayIx) (t : SlotIx) (q : State) : State :=
  { q with
    memTimeouts := satInc s.memTimeouts
    flags := s.flags ||| 0x0010#16
    capture := captured s.capture .linePoisoned (poisonFields l o w t) }

/-- What an observing wait's expiry charges and notes (R79). -/
def State.ownerCharged (s : State) (l : Line) (o : Node) (w : WayIx) (t : SlotIx) (q : State) : State :=
  { q.modNode o (fun r => { r with violations := satInc r.violations }) with
    flags := s.flags ||| 0x0210#16
    capture := captured (captured s.capture .linePoisoned (poisonFields l o w t)) .violation
      ⟨some l, some (.node o), none, none, some t⟩ }

/-- A change of a node's record that keeps its state and commutes with the return of a credit. -/
def KeepsMembership (g : NodeRec → NodeRec) : Prop :=
  ∀ r, (g r).state = r.state ∧ g { r with credits := r.credits - 1 } = { g r with credits := (g r).credits - 1 }

theorem modNode_id (q : State) (o : Node) : q.modNode o id = q := modNode_self rfl

theorem exec_storeWaitExpiry (hlink : s.link = .up) (hx : s.getSlot t = some x) (hk : x.timer = some k)
    (hphase : x.phase = .awaitStore) (hr : x.rebuild = none) (hm : x.memWait = .consuming n) :
    exec (.storeWaitExpiry t.val) s = s.event (s.countMemTimeout.endInPoison t x n) := by
  show s.event (match s.expiring t.val with
    | some (u, x) =>
      match x.memWait, x.rebuild with
      | .consuming n, none => if x.phase = .awaitStore then s.countMemTimeout.endInPoison u x n else (s, [])
      | .consuming _, some (.line _) => if x.awaited = 0#8 then s.countMemTimeout.lineLost u else (s, [])
      | _, _ => (s, [])
    | none => (s, [])) = _
  rw [expiring_of_slot hlink hx hk]
  dsimp only
  rw [hm, hr]
  dsimp only
  rw [if_pos hphase]

theorem exec_observingWaitExpiry (hlink : s.link = .up) (hx : s.getSlot t = some x) (hk : x.timer = some k)
    (hl : x.line = some l) (hm : x.memWait = .observing n) :
    exec (.observingWaitExpiry t.val) s = s.event (s.observingExpiry t x n l) := by
  show s.event (match s.expiring t.val with
    | some (u, x) =>
      match x.memWait, x.line with
      | .observing n, some l => s.observingExpiry u x n l
      | _, _ => (s, [])
    | none => (s, [])) = _
  rw [expiring_of_slot hlink hx hk]
  dsimp only
  rw [hm, hl]

theorem spoils_eq (hx : s.getSlot t = some x) (hl : x.line = some l) {c : Content} (hw : x.working = some ⟨w, c⟩) :
    (s.modSlot t (fun y => { y with memWait := .noWait, timer := none })).poisonCopy t (some o) =
      (s.putSlot t (some (x.ended w))).noted s.memTimeouts (s.flags ||| 0x0010#16)
        (captured s.capture .linePoisoned (poisonFields l o w t)) := by
  rw [modSlot_of_slot hx]
  refine (poisonCopy_of_held (x := { x with memWait := .noWait, timer := none }) (getSlot_putSlot_self ..) hl hw).trans ?_
  rw [putSlot_putSlot]
  rfl

/-- Both expiries leave the copy POISONED, with what they count and note. -/
theorem storeExpiry_spoils {i : Instr} {f : State → State} (hlink : s.link = .up) (hx : s.getSlot t = some x)
    (hk : x.timer = some k) (hl : x.line = some l) (hphase : x.phase = .awaitStore) (hr : x.rebuild = none) {c : Content}
    (hw : x.working = some ⟨w, c⟩)
    (hcase : (x.memWait = .consuming o ∧ i = .storeWaitExpiry t.val ∧ f = s.storeLate l o w t) ∨
      (x.memWait = .observing o ∧ x.kind ≠ .writeback ∧ s.requestPresent .writeback o l = false ∧
        i = .observingWaitExpiry t.val ∧ f = s.ownerCharged l o w t)) :
    ∃ g a fl r, KeepsMembership g ∧
      exec i s = s.event ((((s.modNode o g).putSlot t (some (x.ended w))).noted a fl r).endSpoiled t x) ∧
      ∀ q : State, q.memTimeouts = s.memTimeouts → f q = (q.modNode o g).noted a fl r := by
  rcases hcase with ⟨hm, rfl, rfl⟩ | ⟨hm, hkind, hno, rfl, rfl⟩
  · refine ⟨id, satInc s.memTimeouts, s.flags ||| 0x0010#16, captured s.capture .linePoisoned (poisonFields l o w t),
      fun _ => ⟨rfl, rfl⟩, ?_, fun q _ => by rw [modNode_id]; rfl⟩
    rw [exec_storeWaitExpiry hlink hx hk hphase hr hm, modNode_id]
    unfold State.endInPoison
    rw [spoils_eq (s := s.countMemTimeout) hx hl hw]
    rfl
  · refine ⟨fun r => { r with violations := satInc r.violations }, s.memTimeouts, s.flags ||| 0x0210#16,
      captured (captured s.capture .linePoisoned (poisonFields l o w t)) .violation ⟨some l, some (.node o), none, none, some t⟩,
      fun _ => ⟨rfl, rfl⟩, ?_, fun q hq => by rw [← hq]; rfl⟩
    have hflags : s.flags ||| 0x0010#16 ||| 0x0200#16 = s.flags ||| 0x0210#16 := BitVec.or_assoc ..
    rw [exec_observingWaitExpiry hlink hx hk hl hm]
    unfold State.observingExpiry State.endSpoiled
    rw [if_neg (by rw [hno]; exact Bool.false_ne_true), spoils_eq hx hl hw]
    dsimp only
    rw [chargeViolation_eq, if_neg hkind, ← hflags]
    rfl

/-! ## The ends of such a wait -/

theorem recallClosed_modNode (s : State) (o : Node) (g : NodeRec → NodeRec) (t : SlotIx) (x : Slot) (v : WinIx) :
    (s.modNode o g).recallClosed t x v = (s.recallClosed t x v).modNode o g := by
  unfold State.recallClosed
  dsimp only
  split
  · split <;> rfl
  · rfl

/-- A node's record and the close of a request of that node or of another. -/
theorem closed_modNode {g : NodeRec → NodeRec}
    (hg : ∀ r, g { r with credits := r.credits - 1 } = { g r with credits := (g r).credits - 1 }) (s : State) (o : Node) (t : SlotIx) (n : Node) (v : WinIx) :
    (s.modNode o g).closed t (some n) v = (s.closed t (some n) v).modNode o g := by
  have hcomm : ((s.putSlot t none).modNode o g).modNode n (fun r => { r with credits := r.credits - 1 }) =
      ((s.putSlot t none).modNode n (fun r => { r with credits := r.credits - 1 })).modNode o g := by
    by_cases hno : o = n
    · subst hno
      rw [modNode_modNode, modNode_modNode]
      exact congrArg ((s.putSlot t none).modNode o) (funext fun r => (hg r).symm)
    · exact modNode_comm hno _ _
  exact congrArg (fun q : State => q.modWindow v (fun r => { r with openCount := r.openCount - 1 })) hcomm

theorem recallClosed_getWay (s : State) (t : SlotIx) (x : Slot) (v : WinIx) (i : SetIx) (w : WayIx) :
    (s.recallClosed t x v).getWay i w = s.getWay i w := by
  unfold State.getWay State.getSet
  rw [recallClosed_eq]

/-- Such a recall, with its copy POISONED. -/
theorem State.Recalls.ended {c : Content} (h : s.Recalls t x l v w c) (o : Node) (g : NodeRec → NodeRec) :
    ((s.modNode o g).putSlot t (some (x.ended w))).Recalls t (x.ended w) l v w .poisoned :=
  (h.same (q := s.modNode o g)).changed rfl rfl rfl h.sent rfl rfl rfl rfl rfl rfl

theorem event_of_close {q z : State} {k : Nat} (hk : k ≤ Config.cascadeBound) (hs : s.resetN = .high)
    (h : drain (k + 1) q [.close t, .settle] = some z) : s.event (q.close t) = .next z.driveEventN :=
  event_of_drain k hk hs (drain_of_close h)

/-- A recall without a waiter that ends in poison. -/
theorem event_spoiled_recall {a : BitVec 8} {fl : BitVec 16} {r : Option Capture} {g : NodeRec → NodeRec} {c : Content} {i : SlotIx}
    (h : s.Recalls t x l v w c) (hv : x.victimLink = none) (hb : (s.getWay (setOf l) w).body = coded ⟨c, some i, false⟩) :
    s.event ((((s.modNode o g).putSlot t (some (x.ended w))).noted a fl r).close t) = .next (State.driveEventN
      ((((s.recallClosed t x v).withDir (s.recallSpoils x l w)).modNode o g).noted a fl r)) := by
  have hended := h.ended o g
  have hclosed : ((s.modNode o g).putSlot t (some (x.ended w))).recallClosed t (x.ended w) v =
      (s.recallClosed t x v).modNode o g :=
    (recallClosed_putSlot (s.modNode o g) t _ _ v).trans (recallClosed_modNode s o g t x v)
  refine event_of_close (k := 3) (by decide) h.quiet.running (drain_poisoned_recall hended hv hb ?_)
  rw [hclosed]
  refine drain_settle (Quiet_settled ?_) 0
  have hq := h.quiet.recallClosed t v h.jobs
  have hfrozen : ((((s.recallClosed t x v).withDir (s.recallSpoils x l w)).modNode o g).noted a fl r).anyFrozen = false := by
    show State.anyFrozen (s.withDir (s.recallSpoils x l w)) = false
    unfold State.recallSpoils
    split
    · exact (makeFree_quiet h.quiet (setOf l) w).noFrozen
    · exact putWay_anyFrozen h.quiet.noFrozen ..
  exact hq.congr (fun _ _ hz => hq.slot hz) hfrozen

/-- A request whose copy goes back POISONED and whose last answer is sent. -/
theorem event_spoiled_request {a : BitVec 8} {fl : BitVec 16} {r : Option Capture} {g : NodeRec → NodeRec} {c : Content} {i : SlotIx}
    {ans : Answer} {work : Work} (h : s.Quiet) (hs : s.Sole t x l v) (hg : KeepsMembership g) (hq : x.requester = some n)
    (hk : x.kind ≠ .retireRecall) (hclaim : x.kind = .writeback → s.noticeFor l n = none)
    (hb : (s.getWay (setOf l) w).body = coded ⟨c, some i, false⟩)
    (hwork : work = ({ ((s.modNode o g).putSlot t (some (x.ended w))).noted a fl r with answerQ := s.answerQ ++ [ans] },
      [.close t])) :
    s.event work = .next (State.driveEventN
      { (((s.closed t (some n) v).spoiledWay l w).modNode o g).noted a fl r with answerQ := s.answerQ ++ [ans] }) := by
  subst hwork
  have hclosed : ((s.modNode o g).putSlot t (some (x.ended w))).closed t (x.ended w).requester v =
      (s.closed t (some n) v).modNode o g := by
    rw [show (x.ended w).requester = some n from hq]
    exact (closed_putSlot (s.modNode o g) t _ (some n) v).trans (closed_modNode (fun r => (hg r).2) s o t n v)
  have honly : ((s.modNode o g).putSlot t (some (x.ended w))).onlyOn l t := onlyOn_putSlot (s := s.modNode o g)
    (onlyOn_of_alone hs.alone) _
  refine event_of_drain 4 (by decide) h.running (drain_poisoned_request (k := 1) ⟨h.noHeldOrder, h.noHeldAnswer⟩
    (getSlot_putSlot_self ..) hs.line honly hs.rank hs.window hs.windowLive hs.unlinked hs.sent hs.uncounted rfl hk ?_ hb ?_)
  · intro n' hk' hn'
    rw [show (x.ended w).requester = some n from hq] at hn'
    cases hn'
    exact hclaim hk'
  · rw [hclosed]
    refine drain_settle (Quiet_settled ?_) 0
    exact ((h.closed t (some n) v).putWay (setOf l) w _).same

/-- A VICTIM_RECALL that ends in poison: its waiter takes a FREE way of the set (R93). -/
theorem event_spoiled_given {a : BitVec 8} {fl : BitVec 16} {r : Option Capture} {g : NodeRec → NodeRec} {c : Content}
    {p : Node} (h : s.Recalls t x l v w c) (hk : x.kind = .victimRecall) (hv : x.victimLink = some u) (hy : s.waits t u y l b n)
    (hyv : y.victimLink = some t) (hmem : s.mem = .live) (hroom : s.orderQ.length < 64) (hcanon : dirWf s.dir = true)
    (hb : (s.getWay (setOf l) w).body = coded ⟨.owned p, some t, false⟩) (hfree : s.rearmostFree (setOf l) = some e) :
    s.event ((((s.modNode o g).putSlot t (some (x.ended w))).noted a fl r).close t) = .next (State.driveEventN
      { (((s.recallClosed t x v).putSlot u (some (y.given s e))).modNode o g).noted a fl r with
        dir := ((s.spoiledWay l w).putWay (setOf l) e (reservedWay b u)).dir
        orderQ := s.orderQ ++ [.fetch b n false] }) := by
  let q : State := (s.modNode o g).putSlot t (some (x.ended w))
  have hclosed : q.recallClosed t (x.ended w) v = (s.recallClosed t x v).modNode o g :=
    (recallClosed_putSlot (s.modNode o g) t _ _ v).trans (recallClosed_modNode s o g t x v)
  have hspoiled : (q.spoiledWay l w).rearmostFree (setOf b) = some e := by
    rw [hy.sameSet, rearmostFree_spoiled (s := q) hcanon hb]
    exact hfree
  refine (event_of_close (k := 4) (by decide) h.quiet.running (drain_poisoned_given (h.ended o g) hk hv
    ((hy.same (q := s.modNode o g)).putSlot _) hyv hmem hroom hb hspoiled)).trans ?_
  rw [hclosed, hy.sameSet]
  rfl

end

section
variable {s : State} {t u : SlotIx} {x y : Slot} {l b : Line} {v : WinIx} {w e : WayIx} {o n : Node} {k : Nat}

theorem poisonCopy_of_none (hx : s.getSlot t = some x) (hw : x.working = none) (p : Option Node) : s.poisonCopy t p = s := by
  unfold State.poisonCopy
  rw [hx]
  dsimp only
  rw [hw]

/-- A WRITEBACK in a DIRECT window whose store does not come: nothing becomes POISONED (R138). -/
theorem exec_storeWaitExpiry_direct (h : s.Quiet) (hs : s.Sole t x l v) (hlink : s.link = .up) (hk : x.timer = some k)
    (hphase : x.phase = .awaitStore) (hkind : x.kind = .writeback) (hq : x.requester = some n) (hw : x.working = none)
    (hm : x.memWait = .consuming n) (hno : s.noticeFor l n = none) (hroom : s.answerQ.length < 64) :
    exec (.storeWaitExpiry t.val) s = .next (State.driveEventN { s.closed t (some n) v with
      memTimeouts := satInc s.memTimeouts
      answerQ := s.answerQ ++ [.wbDone n l false] }) := by
  let z : Slot := { x with memWait := .noWait, timer := none }
  let q : State := s.countMemTimeout
  have hslot : (q.putSlot t (some z)).getSlot t = some z := getSlot_putSlot_self ..
  have hcopy : (q.modSlot t (fun y => { y with memWait := .noWait, timer := none })).poisonCopy t (some n) = q.putSlot t (some z) := by
    rw [modSlot_of_slot (s := q) hs.slot]
    exact poisonCopy_of_none hslot hw (some n)
  have hrecall : x.kind.recall = false := by rw [hkind]; rfl
  have hqq : q.Quiet := h.same
  have hsole : q.Sole t x l v := ⟨hs.slot, hs.line, hs.alone, hs.active, hs.rank, hs.window, hs.windowLive, hs.unlinked, hs.uncounted,
    hs.sent, hs.plain⟩
  rw [exec_storeWaitExpiry hlink hs.slot hk hphase hs.plain hm]
  unfold State.endInPoison
  rw [hcopy]
  dsimp only
  rw [hrecall, if_neg Bool.false_ne_true, if_pos hkind, closeWith_of_slot hslot hq hs.line,
    sendAnswer_closing (s := q.putSlot t (some z)) ⟨h.noHeldOrder, h.noHeldAnswer⟩ hslot hs.sent hroom rfl]
  have hdrain := drain_sole_answered (y := z) (d := q.dir) (a := .wbDone n l false) hsole hqq rfl rfl rfl rfl hs.sent rfl hw hq rfl
    (fun _ => hno) hqq
  exact event_of_drain 4 (by decide) h.running hdrain

/-- What a request whose copy is POISONED answers, and that it closes. -/
theorem endSpoiled_read {g : NodeRec → NodeRec} {a : BitVec 8} {fl : BitVec 16} {r : Option Capture} (h : s.Quiet) (hs : s.Sole t x l v)
    (hg : KeepsMembership g) (hkind : x.kind = .readShared ∨ x.kind = .readOwn ∨ x.kind = .upgrade) (hq : x.requester = some n)
    (hn : s.nodeState n ≠ .purging) (hroom : s.answerQ.length < 64) :
    (((s.modNode o g).putSlot t (some (x.ended w))).noted a fl r).endSpoiled t x =
      ({ ((s.modNode o g).putSlot t (some (x.ended w))).noted a fl r with
        answerQ := s.answerQ ++ [.refuse n l (.request x.kind.toReqKind) .poisoned] }, [.close t]) := by
  have hrecall : x.kind.recall = false := by rcases hkind with h | h | h <;> rw [h] <;> rfl
  have hwriteback : x.kind ≠ .writeback := by rcases hkind with h | h | h <;> rw [h] <;> nofun
  have hstate : (s.modNode o g).nodeState n = s.nodeState n := by
    unfold State.nodeState
    rw [getNode_modNode]
    split
    · rename_i hno
      rw [hno]
      exact (hg _).1
    · rfl
  unfold State.endSpoiled
  rw [hrecall, if_neg Bool.false_ne_true, if_neg hwriteback]
  exact refuse_of_room (x := x.ended w) (getSlot_putSlot_self ..) hq hs.line (hstate.trans_ne hn) rfl
    ⟨h.noHeldOrder, h.noHeldAnswer⟩ (getSlot_putSlot_self ..) hs.sent hroom

theorem endSpoiled_writeback {q : State} (h : q.NoneHeld) (hslot : q.getSlot t = some (x.ended w)) (hkind : x.kind = .writeback)
    (hq : x.requester = some n) (hl : x.line = some l) (hp : x.pending = none) (hroom : q.answerQ.length < 64) :
    q.endSpoiled t x = ({ q with answerQ := q.answerQ ++ [.wbDone n l false] }, [.close t]) := by
  have hrecall : x.kind.recall = false := by rw [hkind]; rfl
  unfold State.endSpoiled
  rw [hrecall, if_neg Bool.false_ne_true, if_pos hkind, closeWith_of_slot hslot hq hl]
  exact sendAnswer_closing h hslot hp hroom rfl

theorem endSpoiled_recall (q : State) (hkind : x.kind.recall = true) : q.endSpoiled t x = q.close t := by
  unfold State.endSpoiled
  rw [hkind]
  rfl

theorem recallClosed_withWay (i : SetIx) (z : Way) :
    (s.recallClosed t x v).withDir (s.putWay i w z).dir = (s.recallClosed t x v).putWay i w z := by
  unfold State.putWay State.getSet
  rw [recallClosed_eq]
  rfl

theorem recallClosed_withSet (i : SetIx) (r : SetRec) :
    (s.recallClosed t x v).withDir (s.putSet i r).dir = (s.recallClosed t x v).putSet i r := by
  unfold State.putSet
  rw [recallClosed_eq]
  rfl

theorem recallClosed_memTimeouts : (s.recallClosed t x v).memTimeouts = s.memTimeouts :=
  (congrArg State.memTimeouts (recallClosed_eq s t x v)).trans rfl

end

/-- Settles O58: a store wait and an observing wait that expire. -/
theorem storeExpiriesPoison : Obligations.StoreExpiriesPoison := by
  intro s t x l k h hlink hx hk hl hphase
  refine ⟨fun n v hs hkind hq hw hm hno hroom => exec_storeWaitExpiry_direct h hs hlink hk hphase hkind hq hw hm hno hroom,
    fun o w hw hb => ⟨fun n v hs hq hn hroom => ⟨fun hkind ho hm hno => ?_, fun hkind hm => ?_, fun hkind hm hno => ?_⟩,
      fun v c f hrecall hq hwin halone hrank hp hr hjobs hcase => ?_⟩⟩
  · subst ho
    obtain ⟨g, a, fl, r, hg, hexec, hf⟩ := storeExpiry_spoils hlink hx hk hl hphase hs.plain hw (.inl ⟨hm, rfl, rfl⟩)
    have hend := endSpoiled_writeback (q := ((s.modNode o g).putSlot t (some (x.ended w))).noted a fl r)
      ⟨h.noHeldOrder, h.noHeldAnswer⟩ (getSlot_putSlot_self ..) hkind hq hl hs.sent hroom
    refine hexec.trans ((event_spoiled_request h hs hg hq (by rw [hkind]; nofun) (fun _ => hno) hb hend).trans ?_)
    have hlate := hf ((s.closed t (some o) v).spoiledWay l w) rfl
    exact congrArg (fun q : State => Host.Outcome.next (State.driveEventN
      { q with answerQ := s.answerQ ++ [.wbDone o l false] })) hlate.symm
  · obtain ⟨g, a, fl, r, hg, hexec, hf⟩ := storeExpiry_spoils hlink hx hk hl hphase hs.plain hw (.inl ⟨hm, rfl, rfl⟩)
    refine hexec.trans ((event_spoiled_request h hs hg hq (by rw [hkind]; nofun) (by rw [hkind]; nofun) hb
      (endSpoiled_read h hs hg (.inl hkind) hq hn hroom)).trans ?_)
    exact congrArg (fun q : State => Host.Outcome.next q.driveEventN)
      (hf { (s.closed t (some n) v).spoiledWay l w with
        answerQ := s.answerQ ++ [.refuse n l (.request x.kind.toReqKind) .poisoned] } rfl).symm
  · have hwriteback : x.kind ≠ .writeback := by rcases hkind with h | h | h <;> rw [h] <;> nofun
    have hretire : x.kind ≠ .retireRecall := by rcases hkind with h | h | h <;> rw [h] <;> nofun
    obtain ⟨g, a, fl, r, hg, hexec, hf⟩ := storeExpiry_spoils hlink hx hk hl hphase hs.plain hw (.inr ⟨hm, hwriteback, hno, rfl, rfl⟩)
    refine hexec.trans ((event_spoiled_request h hs hg hq hretire (fun hc => absurd hc hwriteback) hb
      (endSpoiled_read h hs hg hkind hq hn hroom)).trans ?_)
    exact congrArg (fun q : State => Host.Outcome.next q.driveEventN)
      (hf { (s.closed t (some n) v).spoiledWay l w with
        answerQ := s.answerQ ++ [.refuse n l (.request x.kind.toReqKind) .poisoned] } rfl).symm
  · have hrecalls : s.Recalls t x l v w (.owned o) := ⟨h, hx, hl, onlyOn_of_alone halone, hrank, hwin, hp, hq, hrecall, hw,
      by rw [hb]; rfl, hjobs⟩
    have hspoils := storeExpiry_spoils hlink hx hk hl hphase hr hw (o := o) (i := c) (f := f) (by
      rcases hcase with ⟨hm, hc, hfun⟩ | ⟨hm, hno, hc, hfun⟩
      · exact .inl ⟨hm, hc, hfun⟩
      · exact .inr ⟨hm, recall_ne_writeback hrecall, hno, hc, hfun⟩)
    obtain ⟨g, a, fl, r, hg, hexec, hf⟩ := hspoils
    rw [endSpoiled_recall _ hrecall] at hexec
    refine ⟨fun hkind hv => ?_, fun hkind hv => ?_, fun u y b q e hkind hv hy hyv hmem hroom hcanon hfree => ?_⟩
    · refine hexec.trans ((event_spoiled_recall hrecalls hv hb).trans ?_)
      have hdir : (s.recallClosed t x v).withDir (s.recallSpoils x l w) = (s.recallClosed t x v).putWay (setOf l) w
          { s.getWay (setOf l) w with body := coded ⟨.poisoned, none, false⟩ } := by
        unfold State.recallSpoils
        rw [if_neg hkind]
        exact recallClosed_withWay ..
      rw [hdir]
      exact congrArg (fun q : State => Host.Outcome.next q.driveEventN) (hf ((s.recallClosed t x v).putWay (setOf l) w
        { s.getWay (setOf l) w with body := coded ⟨.poisoned, none, false⟩ }) (recallClosed_memTimeouts (s := s))).symm
    · refine hexec.trans ((event_spoiled_recall hrecalls hv hb).trans ?_)
      have hdir : (s.recallClosed t x v).withDir (s.recallSpoils x l w) = (s.recallClosed t x v).putSet (setOf l)
          ((s.getSet (setOf l)).freed w) := by
        unfold State.recallSpoils
        rw [if_pos hkind]
        exact recallClosed_withSet ..
      rw [hdir]
      exact congrArg (fun q : State => Host.Outcome.next q.driveEventN) (hf ((s.recallClosed t x v).putSet (setOf l)
        ((s.getSet (setOf l)).freed w)) (recallClosed_memTimeouts (s := s))).symm
    · refine hexec.trans ((event_spoiled_given hrecalls hkind hv hy hyv hmem hroom hcanon.1 hb hfree).trans ?_)
      have hnoted := hf (((s.recallClosed t x v).withDir (s.spoiledWay l w).dir).putSlot u (some (y.given s e)))
        (recallClosed_memTimeouts (s := s))
      have hpoison : ((s.recallClosed t x v).putWay (setOf l) w
          { s.getWay (setOf l) w with body := coded ⟨.poisoned, none, false⟩ }) =
          (s.recallClosed t x v).withDir (s.spoiledWay l w).dir := (recallClosed_withWay ..).symm
      dsimp only
      rw [hpoison]
      have hnext := (congrArg (fun p : State => (Host.Outcome.next (State.driveEventN { p with
        dir := ((s.spoiledWay l w).putWay (setOf l) e (reservedWay b u)).dir
        orderQ := s.orderQ ++ [.fetch b q false] }) : Host.Outcome State Fault Refusal)) hnoted.symm)
      exact hnext

end Sys2Proof.Machine

/-! # Losses by an expiry (O57): the entry into PURGING with one slot in use -/

namespace Sys2Proof.Machine

set_option Elab.async false

/-! ## One slot in use -/

/-- No slot but one is in use. -/
def State.onlySlot (s : State) (t : SlotIx) : Prop := ∀ u, u ≠ t → s.getSlot u = none

section
variable {s q s1 s2 s3 : State} {t u : SlotIx} {x y : Slot} {l : Line} {v : WinIx} {w : WayIx} {n o : Node} {c : Content} {k j : Nat}

theorem State.onlySlot.putSlot (h : s.onlySlot t) (z : Option Slot) : (s.putSlot t z).onlySlot t := fun u hu =>
  (getSlot_putSlot_of_ne hu z).trans (h u hu)

theorem State.onlySlot.onlyOn (h : s.onlySlot t) (l : Line) : s.onlyOn l t := fun u z hz _ => by
  by_contra hu
  rw [h u hu] at hz
  cases hz

theorem allSlots_split (t : SlotIx) : ∃ pre post, allSlots = pre ++ t :: post ∧ (∀ u ∈ pre, u ≠ t) ∧ (∀ u ∈ post, u ≠ t) ∧
    pre.length + post.length = 47 := by
  have hnodup : allSlots.Nodup := by unfold allSlots; exact List.nodup_finRange 48
  have hlength : allSlots.length = 48 := by unfold allSlots; exact List.length_finRange
  obtain ⟨pre, post, hsplit⟩ := List.append_of_mem (show t ∈ allSlots by unfold allSlots; exact List.mem_finRange t)
  rw [hsplit] at hnodup hlength
  have hpost := (List.nodup_cons.1 (List.nodup_append.1 hnodup).2.1).1
  have hpre := (List.nodup_append.1 hnodup).2.2
  refine ⟨pre, post, hsplit, fun u hu => hpre u hu t List.mem_cons_self, fun u hu h => hpost (h ▸ hu), ?_⟩
  rw [List.length_append, List.length_cons] at hlength
  omega

/-- A task for every slot, where the slots that are free have nothing to do. -/
theorem drain_overSlots {f : SlotIx → Task} {us : List Task} {z : State}
    (hidle : ∀ (q : State) u, q.getSlot u = none → (f u).carryOut q = (q, [])) (h1 : s1.onlySlot t) (h2 : s2.onlySlot t)
    (hown : ∀ ts k, drain k s2 ts = some z → drain (k + j) s1 (f t :: ts) = some z) (hrest : drain k s2 us = some z) :
    drain (47 + (k + j)) s1 (allSlots.map f ++ us) = some z := by
  obtain ⟨pre, post, hsplit, hpre, hpost, hlength⟩ := allSlots_split t
  have hidles : ∀ (q : State) (ws : List SlotIx), q.onlySlot t → (∀ u ∈ ws, u ≠ t) → ∀ a ∈ ws.map f, a.carryOut q = (q, []) := by
    intro q ws hq hws a ha
    obtain ⟨u, hu, rfl⟩ := List.mem_map.1 ha
    exact hidle q u (hq u (hws u hu))
  have hafter := drain_idle (hidles s2 post h2 hpost) hrest
  have hbefore := drain_idle (hidles s1 pre h1 hpre) (hown _ _ hafter)
  rw [List.length_map, List.length_map] at hbefore
  rw [hsplit, List.map_append, List.map_cons, List.append_assoc, List.cons_append,
    show 47 + (k + j) = pre.length + (post.length + k + j) by omega]
  exact hbefore

theorem purgeEdit_idle (q : State) (u : SlotIx) (h : q.getSlot u = none) (n : Node) : (Task.purgeEdit u n).carryOut q = (q, []) := by
  show q.purgeEdit u n = _
  unfold State.purgeEdit State.dropPendingTo
  simp only [h, Option.bind_none]

theorem purgeEnd_idle (q : State) (u : SlotIx) (h : q.getSlot u = none) (n : Node) : (Task.purgeEnd u n).carryOut q = (q, []) := by
  show q.purgeEnd u n = _
  unfold State.purgeEnd
  rw [h]

/-- The tasks of an entry into PURGING with one slot in use. -/
theorem drain_purgeTasks {j1 j2 : Nat} {z : State} (h1 : s1.onlySlot t) (h2 : s2.onlySlot t) (h3 : s3.onlySlot t)
    (hedit : ∀ ts k, drain k s2 ts = some z → drain (k + j1) s1 (.purgeEdit t o :: ts) = some z)
    (hend : ∀ ts k, drain k s3 ts = some z → drain (k + j2) s2 (.purgeEnd t o :: ts) = some z)
    (hfinish : s3.purgeFinish o = z) (hz : z.settled = true) :
    drain (96 + j1 + j2) s1 ((purgeTasks o ++ [.purgeFinish o]) ++ [.settle]) = some z := by
  have hlast : drain 2 s3 ([.purgeFinish o] ++ [.settle]) = some z :=
    drain_step (s' := z) (ts' := []) (Prod.ext hfinish rfl) (drain_settle hz 0)
  have hends := drain_overSlots (f := fun t => .purgeEnd t o) (fun q u h => purgeEnd_idle q u h o) h2 h3 hend hlast
  have hedits := drain_overSlots (f := fun t => .purgeEdit t o) (fun q u h => purgeEdit_idle q u h o) h1 h2 hedit hends
  unfold purgeTasks
  rw [List.append_assoc, List.append_assoc, show 96 + j1 + j2 = 47 + (47 + (2 + j2) + j1) by omega]
  exact hedits

/-! ## The entry (R118, R134) -/

theorem enterPurging_of_unparked (hn : s.NoneHeld) (hparked : ∀ u z, s.getSlot u = some z → z.phase ≠ .parked) (n : Node)
    (r : PurgeReason) : s.enterPurging n r = (s.purgeBegun n r, purgeTasks n ++ [.purgeFinish n]) := by
  have hbegun : ((s.dropMembership n).dropOrdersTo n).modNode n (fun v => { v with state := .purging, reason := some r }) =
      s.purgeBegun n r := by
    obtain ⟨ho, ha⟩ := hn
    unfold State.dropOrdersTo State.dropMembership State.purgeBegun
    dsimp only
    rw [ho, ha]
    obtain ⟨⟩ := s
    dsimp only at ho ha
    subst ho ha
    rfl
  have hkeeps : ∀ u, State.endParked n (s.purgeBegun n r) u = s.purgeBegun n r := fun u => by
    unfold State.endParked
    cases hu : (s.purgeBegun n r).getSlot u with
    | none => rfl
    | some z => exact if_neg fun h => hparked u z hu h.2
  unfold State.enterPurging purgeTasks
  dsimp only
  rw [hbegun, List.foldl_fixed' hkeeps]

/-- A node that an expiry has declared lost, at the start of its purge. -/
def State.lostBegun (s : State) (o : Node) : State := (s.countTimeout o).purgeBegun o .lost

theorem lossFields_of_held {f : Working} (hl : x.line = some l) (hw : x.working = some f) :
    ({ lossFields t x with node := some (.node o) } : FaultFields) = poisonFields l o f.way t := by
  have hset : x.setIx = some (setOf l) := by unfold Slot.setIx; rw [hl]
  unfold lossFields poisonFields
  rw [if_pos (.inl (by rw [hw]; rfl)), hset, hl, hw]
  rfl

/-- A declaration of a loss, with one slot in use. -/
theorem declareLost_of_alone {y : Slot} {f : FaultFields} (hn : s.NoneHeld) (honly : s.onlySlot t) (hphase : y.phase ≠ .parked)
    (hlive : s.nodeState o = .live ∨ s.nodeState o = .leaving) :
    (((s.countTimeout o).putSlot t (some y))).declareLost o f =
      (((s.lostBegun o).putSlot t (some y)).noted s.memTimeouts (s.flags ||| 0x0008#16)
        (captured s.capture .nodeLost { f with node := some (.node o) }), purgeTasks o ++ [.purgeFinish o]) := by
  let q : State := ((s.countTimeout o).putSlot t (some y)).noted s.memTimeouts (s.flags ||| 0x0008#16)
    (captured s.capture .nodeLost { f with node := some (.node o) })
  have hstate : ((s.countTimeout o).putSlot t (some y)).nodeState o = s.nodeState o := by
    unfold State.nodeState
    exact (congrArg NodeRec.state ((getNode_modNode s o o (fun e => { e with timeouts := satInc e.timeouts })).trans (if_pos rfl)) :)
  have hparked : ∀ u z, q.getSlot u = some z → z.phase ≠ .parked := by
    intro u z hz
    by_cases hu : u = t
    · subst hu
      have hself : q.getSlot u = some y := getSlot_putSlot_self (s.countTimeout o) u (some y)
      exact (Option.some.inj (hself.symm.trans hz)) ▸ hphase
    · have hnone : q.getSlot u = none := State.onlySlot.putSlot (s := s.countTimeout o) honly _ u hu
      have hcontra := hnone.symm.trans hz
      cases hcontra
  have hq : (((s.countTimeout o).putSlot t (some y)).raise .nodeLost).fault .nodeLost { f with node := some (.node o) } = q :=
    fault_eq _ _ _
  unfold State.declareLost
  rw [hstate, if_pos hlive, hq, enterPurging_of_unparked (s := q) ⟨hn.order, hn.answer⟩ hparked]
  rfl

/-! ## The end of the entry -/

theorem purgeFinish_lostBegun (h : s.purgeStep = none) : (s.lostBegun o).purgeFinish o =
    (s.purged o .lost).modNode o (fun e => { e with timeouts := satInc e.timeouts }) := by
  have hfinish := purgeFinish_purgeBegun (s := s.countTimeout o) o .lost h
  have hnodes : (s.countTimeout o).modNode o (fun v => { v with state := .purging, reason := some .lost, credits := 0 }) =
      (s.modNode o (fun v => { v with state := .purging, reason := some .lost, credits := 0 })).modNode o
        (fun e => { e with timeouts := satInc e.timeouts }) :=
    (modNode_modNode s o (fun e => { e with timeouts := satInc e.timeouts }) _).trans (modNode_modNode s o
      (fun v => { v with state := .purging, reason := some .lost, credits := 0 })
      (fun e => { e with timeouts := satInc e.timeouts })).symm
  refine hfinish.trans ?_
  exact congrArg (fun q : State => { q with
    ntHeld := s.ntHeld.set o.val none o.isLt
    purgeJobs := s.purgeJobs.set o.val (some (match s.getJob o with
      | none => ⟨.silent, 2048, 0⟩
      | some j => { j with mode := .silent })) o.isLt }) hnodes

/-- What a loss leaves, its transaction closed and its way rewritten. -/
def State.lostWith (s : State) (o : Node) (l : Line) (w : WayIx) (b : Way) (a : BitVec 8) (f : BitVec 16) (r : Option Capture) : State :=
  (((s.purged o .lost).modNode o (fun e => { e with timeouts := satInc e.timeouts })).putWay (setOf l) w b).noted a f r

theorem purgeFinish_lostWith {b : Way} {a : BitVec 8} {f : BitVec 16} {r : Option Capture} (h : s.purgeStep = none) :
    (((s.lostBegun o).putWay (setOf l) w b).noted a f r).purgeFinish o = s.lostWith o l w b a f r := by
  rw [purgeFinish_of_noStep (s := ((s.lostBegun o).putWay (setOf l) w b).noted a f r) o h]
  have hfinish := (purgeFinish_of_noStep (s := s.lostBegun o) o h).symm.trans (purgeFinish_lostBegun h)
  exact congrArg (fun q : State => (q.putWay (setOf l) w b).noted a f r) hfinish

theorem settled_lostWith {b : Way} {a : BitVec 8} {f : BitVec 16} {r : Option Capture} (h : s.Quiet)
    (hj : ∀ j, s.getJob o = some j → 0 < j.setsLeft) : (s.lostWith o l w b a f r).settled = true :=
  settled_of_same (purged_settled o .lost (h.putWay (setOf l) w b) hj)

theorem closed_lostBegun : (s.lostBegun o).closed t (some n) v = (s.closed t (some n) v).lostBegun o := by
  have hmerge : ∀ q : State, (q.countTimeout o).modNode o (fun v => { v with state := .purging, reason := some .lost }) =
      q.modNode o (fun e => { e with state := .purging, reason := some .lost, timeouts := satInc e.timeouts }) := fun q =>
    modNode_modNode q o _ _
  have hcomm := closed_modNode (g := fun e => { e with state := .purging, reason := some .lost, timeouts := satInc e.timeouts })
    (fun _ => rfl) s o t n v
  have hbefore := congrArg (fun q : State => ({ q with ntHeld := s.ntHeld.set o.val none o.isLt } : State).closed t (some n) v) (hmerge s)
  have hafter := congrArg (fun q : State => ({ q with ntHeld := s.ntHeld.set o.val none o.isLt } : State))
    (hcomm.trans (hmerge (s.closed t (some n) v)).symm)
  exact hbefore.trans hafter

theorem recallClosed_lostBegun : (s.lostBegun o).recallClosed t x v = (s.recallClosed t x v).lostBegun o := by
  unfold State.recallClosed
  dsimp only
  split
  · split <;> rfl
  · rfl

end

end Sys2Proof.Machine

/-! # Losses by an expiry (O57): the ends of the transactions -/

namespace Sys2Proof.Machine

set_option Elab.async false

section
variable {s q : State} {t u : SlotIx} {x y : Slot} {l : Line} {v : WinIx} {w : WayIx} {n o : Node} {c : Content} {k : Nat}

/-! ## The edit and the end of one slot (R119 to R121) -/

/-- A record whose copy a purge has poisoned: the node's awaited place and its waits on it are gone. -/
def Slot.lost (x : Slot) (o : Node) (w : WayIx) : Slot :=
  { x with
    awaited := NodeSet.remove x.awaited o
    memWait := clearStoreWait o x.memWait
    working := some ⟨w, .poisoned⟩ }

/-- A slot with its timer stopped. -/
def Slot.stopped (x : Slot) : Slot := { x with timer := none }

theorem dropPendingTo_of_none (hx : q.getSlot t = some x) (hp : x.pending = none) (n : Node) : q.dropPendingTo t n = q := by
  unfold State.dropPendingTo
  rw [hx]
  dsimp only [Option.bind]
  rw [hp]

theorem purgeEdit_own (hx : q.getSlot t = some x) (hp : x.pending = none) (hphase : x.phase ≠ .parked) (hr : x.rebuild = none)
    (hq : x.requester = some n) : q.purgeEdit t n = (q.editOwn t n x, []) := by
  unfold State.purgeEdit
  dsimp only
  rw [dropPendingTo_of_none hx hp, hx]
  dsimp only
  rw [if_neg hphase, hr]
  exact if_pos hq

theorem purgeEdit_owned (hx : q.getSlot t = some x) (hp : x.pending = none) (hphase : x.phase ≠ .parked) (hr : x.rebuild = none)
    (hq : x.requester ≠ some n) (hw : x.working = some ⟨w, .owned n⟩) : q.purgeEdit t n = q.editOwned t n x := by
  unfold State.purgeEdit
  dsimp only
  rw [dropPendingTo_of_none hx hp, hx]
  dsimp only
  rw [if_neg hphase, hr]
  dsimp only
  rw [if_neg hq, hw]
  exact if_pos rfl

/-- What the edit notes of a copy it poisons. -/
def State.spoilNoted (q : State) (l : Line) (o : Node) (w : WayIx) (t : SlotIx) : State :=
  q.noted q.memTimeouts (q.flags ||| 0x0010#16) (captured q.capture .linePoisoned (poisonFields l o w t))

theorem editWorking_owned (hx : q.getSlot t = some x) (hl : x.line = some l) (hw : x.working = some ⟨w, .owned o⟩) :
    q.editWorking t (NodeSet.single o) = (q.putSlot t (some (x.spoiled w))).spoilNoted l o w t := by
  have hset : x.setIx = some (setOf l) := by unfold Slot.setIx; rw [hl]
  have hedit : editContent (NodeSet.single o) (.owned o) = .poisoned :=
    if_pos (by rw [has_single]; exact decide_eq_true rfl)
  unfold State.editWorking
  rw [hx]
  dsimp only
  rw [hw]
  dsimp only
  rw [hedit, if_pos ⟨rfl, nofun⟩, modSlot_of_slot hx, hset]
  refine (congrArg (fun i => (q.putSlot t (some (x.spoiled w))).notePoisoned i (some o) (some (setOf l)) (some w) (some t))
    hl).trans ?_
  exact fault_eq ((q.putSlot t (some (x.spoiled w))).raise .linePoisoned) _ _

/-- The edit of the node's own transaction whose copy names it as owner. -/
theorem editOwn_owned (hx : q.getSlot t = some x) (hl : x.line = some l) (hw : x.working = some ⟨w, .owned n⟩) :
    q.editOwn t n x = (q.putSlot t (some (x.lost n w))).spoilNoted l n w t := by
  let y : Slot := { x with awaited := NodeSet.remove x.awaited n, memWait := clearStoreWait n x.memWait }
  have hedit := editWorking_owned (q := q.putSlot t (some y)) (x := y) (getSlot_putSlot_self ..) hl hw
  rw [putSlot_putSlot] at hedit
  have hfull : ((q.putSlot t (some (y.spoiled w))).spoilNoted l n w t).copyEmptied t = false :=
    copyEmptied_of_slot (s := (q.putSlot t (some (y.spoiled w))).spoilNoted l n w t) (getSlot_putSlot_self ..)
  unfold State.editOwn
  dsimp only
  rw [modSlot_of_slot hx, hedit, hfull]
  rfl

/-- The edit of another node's transaction, or of a recall, whose copy names the node as owner. -/
theorem editOwned_spoils (hx : q.getSlot t = some x) (hl : x.line = some l) (hw : x.working = some ⟨w, .owned o⟩) :
    (q.poisonCopy t (some o)).modSlot t (fun y => { y with
      awaited := NodeSet.remove y.awaited o, memWait := clearStoreWait o y.memWait }) =
    (q.putSlot t (some (x.lost o w))).spoilNoted l o w t := by
  rw [poisonCopy_of_held hx hl hw, modSlot_of_slot (s := (q.putSlot t (some (x.spoiled w))).noted q.memTimeouts (q.flags ||| 0x0010#16)
    (captured q.capture .linePoisoned (poisonFields l o w t))) (x := x.spoiled w) (getSlot_putSlot_self ..)]
  exact congrArg (fun p : State => p.noted q.memTimeouts (q.flags ||| 0x0010#16)
    (captured q.capture .linePoisoned (poisonFields l o w t))) (putSlot_putSlot q t _ _)

theorem editOwned_recall (hn : q.NoneHeld) (hx : q.getSlot t = some x) (hl : x.line = some l) (hw : x.working = some ⟨w, .owned o⟩)
    (hp : x.pending = none) (hk : x.kind.recall = true) :
    q.editOwned t o x = ((q.putSlot t (some (x.lost o w))).spoilNoted l o w t, [.close t]) := by
  have hclosing : x.closingPending = false := by unfold Slot.closingPending; rw [hp]
  unfold State.editOwned
  rw [editOwned_spoils hx hl hw, hclosing, hk]
  dsimp only
  rw [setAside_of_clear (s := (q.putSlot t (some (x.lost o w))).spoilNoted l o w t) ⟨hn.order, hn.answer⟩ (getSlot_putSlot_self ..) hp]
  rfl

theorem editOwned_request (hn : q.NoneHeld) (hx : q.getSlot t = some x) (hl : x.line = some l) (hw : x.working = some ⟨w, .owned o⟩)
    (hp : x.pending = none) (hk : x.kind = .readShared ∨ x.kind = .readOwn) (hq : x.requester = some n)
    (hstate : q.nodeState n ≠ .purging) (hroom : q.answerQ.length < 64) :
    q.editOwned t o x = ({ (q.putSlot t (some (x.lost o w))).spoilNoted l o w t with
      answerQ := q.answerQ ++ [.refuse n l (.request x.kind.toReqKind) .poisoned] }, [.close t]) := by
  have hclosing : x.closingPending = false := by unfold Slot.closingPending; rw [hp]
  have hrecall : x.kind.recall = false := by rcases hk with hk | hk <;> rw [hk] <;> rfl
  have hreads : x.reads = true := by unfold Slot.reads; rcases hk with hk | hk <;> rw [hk] <;> rfl
  unfold State.editOwned
  rw [editOwned_spoils hx hl hw, hclosing, hrecall, hreads]
  exact refuse_of_room (s := (q.putSlot t (some (x.lost o w))).spoilNoted l o w t) (x := x.lost o w) (getSlot_putSlot_self ..) hq hl
    hstate rfl ⟨hn.order, hn.answer⟩ (getSlot_putSlot_self ..) hp hroom

theorem purgeEnd_own (hn : q.NoneHeld) (hx : q.getSlot t = some x) (hp : x.pending = none) (hphase : x.phase ≠ .parked)
    (hr : x.rebuild = none) (hq : x.requester = some n) : q.purgeEnd t n = q.close t := by
  unfold State.purgeEnd
  rw [hx]
  dsimp only
  rw [if_pos ⟨hq, hphase⟩, hr, dropPending_of_clear hn hx hp]
  rfl

end

/-! ## The event -/

/-- A part with one slot in use, whose transaction's expiry has no retries left and declares a node lost. -/
structure State.Loses (s : State) (t : SlotIx) (x : Slot) (l : Line) (v : WinIx) (w : WayIx) (o : Node) : Prop where
  quiet : s.Quiet
  slot : s.getSlot t = some x
  line : x.line = some l
  only : s.onlySlot t
  rank : x.rank = some 0
  plain : x.rebuild = none
  window : x.window = some v
  windowLive : (s.getWindow v).state = .live
  unlinked : x.victimLink = none
  sent : x.pending = none
  working : x.working = some ⟨w, .owned o⟩
  body : ∃ c, (s.getWay (setOf l) w).body = coded ⟨c, some t, false⟩
  present : s.nodeState o = .live ∨ s.nodeState o = .leaving
  walking : ∀ j, s.getJob o = some j → 0 < j.setsLeft

section
variable {s q : State} {t u : SlotIx} {x y : Slot} {l : Line} {v : WinIx} {w : WayIx} {n o : Node} {c : Content} {k : Nat}

/-- The way of a lost owner's line. -/
def State.lostWay (s : State) (l : Line) (w : WayIx) : Way := { s.getWay (setOf l) w with body := coded ⟨.poisoned, none, false⟩ }

/-- The capture record after a node's loss that makes a line POISONED. -/
def State.lossCaptured (s : State) (l : Line) (o : Node) (w : WayIx) (t : SlotIx) : Option Capture :=
  captured (captured s.capture .nodeLost (poisonFields l o w t)) .linePoisoned (poisonFields l o w t)

/-- The state after a node's loss: from `z`, where its transaction has closed. -/
def State.lossLeft (s z : State) (l : Line) (o : Node) (w : WayIx) (t : SlotIx) : State :=
  z.lostWith o l w (s.lostWay l w) s.memTimeouts (s.flags ||| 0x0018#16) (s.lossCaptured l o w t)

/-- The part with the node declared lost and the transaction's record as given. -/
def State.lossBegun (s : State) (o : Node) (t : SlotIx) (y : Slot) (f : BitVec 16) (r : Option Capture) : State :=
  ((s.lostBegun o).putSlot t (some y)).noted s.memTimeouts f r

theorem lossBegun_onlySlot (h : s.onlySlot t) (y : Slot) (f : BitVec 16) (r : Option Capture) : (s.lossBegun o t y f r).onlySlot t :=
  State.onlySlot.putSlot (s := s.lostBegun o) h _

theorem lossBegun_noted (y : Slot) :
    ((s.lossBegun o t x (s.flags ||| 0x0008#16) (captured s.capture .nodeLost (poisonFields l o w t))).putSlot t (some y)).spoilNoted
      l o w t = s.lossBegun o t y (s.flags ||| 0x0018#16) (s.lossCaptured l o w t) := by
  have hflags : s.flags ||| 0x0008#16 ||| 0x0010#16 = s.flags ||| 0x0018#16 := BitVec.or_assoc ..
  have hslots : ((s.lostBegun o).putSlot t (some x)).putSlot t (some y) = (s.lostBegun o).putSlot t (some y) := putSlot_putSlot ..
  unfold State.lossBegun
  rw [← hflags, ← hslots]
  rfl

/-- The event of a loss, by the edit and the end of its slot. -/
theorem event_loses {j1 j2 : Nat} {s2 z : State} (h : s.Loses t x l v w o) (hphase : x.phase ≠ .parked)
    (h2 : s2.onlySlot t) (hj : j1 + j2 ≤ 8) (hz : z.Quiet) (hwalk : ∀ j, z.getJob o = some j → 0 < j.setsLeft)
    (hfree : z.onlySlot t)
    (hedit : ∀ ts k u, drain k s2 ts = some u → drain (k + j1) (s.lossBegun o t x.stopped (s.flags ||| 0x0008#16)
      (captured s.capture .nodeLost (poisonFields l o w t))) (.purgeEdit t o :: ts) = some u)
    (hend : ∀ ts k u, drain k (((z.lostBegun o).putWay (setOf l) w (s.lostWay l w)).noted s.memTimeouts (s.flags ||| 0x0018#16)
      (s.lossCaptured l o w t)) ts = some u → drain (k + j2) s2 (.purgeEnd t o :: ts) = some u) :
    s.event ((s.countTimeout o).stopTimer t, [.declareLost o (lossFields t x)]) =
      .next (State.driveEventN (s.lossLeft z l o w t)) := by
  have hdeclare := declareLost_of_alone (s := s) (t := t) (o := o) (y := x.stopped) (f := lossFields t x) h.quiet.noneHeld h.only hphase
    h.present
  rw [lossFields_of_held h.line h.working] at hdeclare
  have htasks := drain_purgeTasks (t := t) (o := o) (lossBegun_onlySlot h.only _ _ _) h2
    (s3 := ((z.lostBegun o).putWay (setOf l) w (s.lostWay l w)).noted s.memTimeouts (s.flags ||| 0x0018#16) (s.lossCaptured l o w t))
    hfree (fun ts k => hedit ts k _) (fun ts k => hend ts k _) (purgeFinish_lostWith hz.noPurgeStep) (settled_lostWith hz hwalk)
  unfold State.stopTimer
  rw [modSlot_of_slot (s := s.countTimeout o) h.slot]
  refine event_of_drain (96 + j1 + j2 + 1) (le_trans (by omega : _ ≤ 105) (by decide)) h.quiet.running (drain_step hdeclare htasks)

/-! ## The three ends of a transaction whose copy names the lost owner -/

/-- What the tasks of a loss ask of the close of a request. -/
theorem drain_lostRequest {aq : List Answer} {ts : List Task} {z : State} (h : s.Loses t x l v w o) (hq : x.requester = some n)
    (hc : x.counted = false) (hk : x.kind = .readShared ∨ x.kind = .readOwn ∨ x.kind = .upgrade)
    (hrest : drain k (((State.lostBegun { s.closed t (some n) v with answerQ := aq } o).putWay (setOf l) w (s.lostWay l w)).noted
      s.memTimeouts (s.flags ||| 0x0018#16) (s.lossCaptured l o w t)) ts = some z) :
    drain (k + 3) { s.lossBegun o t (x.stopped.lost o w) (s.flags ||| 0x0018#16) (s.lossCaptured l o w t) with answerQ := aq }
      (.close t :: ts) = some z := by
  obtain ⟨b, hbody⟩ := h.body
  have hwriteback : x.kind ≠ .writeback := by rcases hk with hk | hk | hk <;> rw [hk] <;> nofun
  have hretire : x.kind ≠ .retireRecall := by rcases hk with hk | hk | hk <;> rw [hk] <;> nofun
  have hclosed : ((s.lostBegun o).putSlot t (some (x.stopped.lost o w))).closed t x.requester v =
      (s.closed t (some n) v).lostBegun o := by
    rw [hq]
    exact (closed_putSlot (s.lostBegun o) t _ (some n) v).trans closed_lostBegun
  refine drain_poisoned_request (s := (s.lostBegun o).putSlot t (some (x.stopped.lost o w))) (x := x.stopped.lost o w)
    ⟨h.quiet.noHeldOrder, h.quiet.noHeldAnswer⟩ (getSlot_putSlot_self ..) h.line
    (State.onlySlot.onlyOn (State.onlySlot.putSlot (s := s.lostBegun o) h.only _) l) h.rank h.window h.windowLive h.unlinked h.sent hc rfl
    hretire (fun _ hk' _ => absurd hk' hwriteback) hbody ?_
  rw [show (x.stopped.lost o w).requester = x.requester from rfl, hclosed]
  exact hrest

/-- The requester of a GRANT lost: its OWNED line becomes POISONED (R119, R121, R135). -/
theorem event_lostGrant (h : s.Loses t x l v w n) (hphase : x.phase ≠ .parked) (hq : x.requester = some n) (hc : x.counted = false)
    (hk : x.kind = .readShared ∨ x.kind = .readOwn ∨ x.kind = .upgrade) :
    s.event ((s.countTimeout n).stopTimer t, [.declareLost n (lossFields t x)]) =
      .next (State.driveEventN (s.lossLeft (s.closed t (some n) v) l n w t)) := by
  let s1 : State := s.lossBegun n t x.stopped (s.flags ||| 0x0008#16) (captured s.capture .nodeLost (poisonFields l n w t))
  let s2 : State := s.lossBegun n t (x.stopped.lost n w) (s.flags ||| 0x0018#16) (s.lossCaptured l n w t)
  have hedit : s1.purgeEdit t n = (s2, []) := by
    rw [purgeEdit_own (q := s1) (x := x.stopped) (getSlot_putSlot_self ..) h.sent hphase h.plain hq,
      editOwn_owned (q := s1) (x := x.stopped) (getSlot_putSlot_self ..) h.line h.working]
    exact congrArg (·, []) (lossBegun_noted (x.stopped.lost n w))
  have hend : s2.purgeEnd t n = s2.close t := purgeEnd_own (q := s2) (x := x.stopped.lost n w)
    ⟨h.quiet.noHeldOrder, h.quiet.noHeldAnswer⟩ (getSlot_putSlot_self ..) h.sent hphase h.plain hq
  refine event_loses (j1 := 1) (j2 := 3) h hphase (lossBegun_onlySlot h.only _ _ _) (by omega) (h.quiet.closed t (some n) v) h.walking
    (h.only.putSlot none) (fun ts k u hrest => drain_step hedit hrest) (fun ts k u hrest => ?_)
  rw [drain_cons, show (Task.purgeEnd t n).carryOut s2 = s2.purgeEnd t n from rfl, hend]
  exact drain_of_close (k := k + 2) (drain_lostRequest (aq := s.answerQ) h hq hc hk hrest)

/-- The owner a read request's FORWARD awaits lost: the request is refused (R120, R133). -/
theorem event_lostForward (h : s.Loses t x l v w o) (hphase : x.phase ≠ .parked) (hq : x.requester = some n) (hne : n ≠ o)
    (hc : x.counted = false) (hk : x.kind = .readShared ∨ x.kind = .readOwn) (hstate : s.nodeState n ≠ .purging)
    (hroom : s.answerQ.length < 64) :
    s.event ((s.countTimeout o).stopTimer t, [.declareLost o (lossFields t x)]) =
      .next (State.driveEventN (s.lossLeft { s.closed t (some n) v with
        answerQ := s.answerQ ++ [.refuse n l (.request x.kind.toReqKind) .poisoned] } l o w t)) := by
  let aq : List Answer := s.answerQ ++ [.refuse n l (.request x.kind.toReqKind) .poisoned]
  let z : State := { s.closed t (some n) v with answerQ := aq }
  let s1 : State := s.lossBegun o t x.stopped (s.flags ||| 0x0008#16) (captured s.capture .nodeLost (poisonFields l o w t))
  let s3 : State := ((z.lostBegun o).putWay (setOf l) w (s.lostWay l w)).noted s.memTimeouts (s.flags ||| 0x0018#16)
    (s.lossCaptured l o w t)
  have hstate1 : s1.nodeState n ≠ .purging := by
    have hkept : s1.nodeState n = s.nodeState n := by
      unfold State.nodeState
      have hbegun := getNode_modNode (s.countTimeout o) o n (fun v => { v with state := .purging, reason := some .lost })
      have hcount := getNode_modNode s o n (fun e => { e with timeouts := satInc e.timeouts })
      rw [if_neg hne] at hbegun hcount
      exact congrArg NodeRec.state (hbegun.trans hcount)
    rw [hkept]
    exact hstate
  have hedit : s1.purgeEdit t o = ({ s.lossBegun o t (x.stopped.lost o w) (s.flags ||| 0x0018#16) (s.lossCaptured l o w t) with
      answerQ := aq }, [.close t]) := by
    rw [purgeEdit_owned (q := s1) (x := x.stopped) (getSlot_putSlot_self ..) h.sent hphase h.plain
        (fun ho => hne (Option.some.inj (hq.symm.trans ho))) h.working,
      editOwned_request (q := s1) (x := x.stopped) ⟨h.quiet.noHeldOrder, h.quiet.noHeldAnswer⟩ (getSlot_putSlot_self ..) h.line
        h.working h.sent hk hq hstate1 hroom]
    exact congrArg (fun q : State => ({ q with answerQ := aq }, [Task.close t])) (lossBegun_noted (x.stopped.lost o w))
  have hfree : s3.onlySlot t := h.only.putSlot none
  have hgone : s3.getSlot t = none := getSlot_putSlot_self ..
  exact event_loses (j1 := 4) (j2 := 1) (z := z) h hphase hfree (by omega) (h.quiet.closed t (some n) v).same h.walking
    hfree (fun ts k u hrest => drain_step hedit (drain_lostRequest h hq hc (hk.imp_right .inl) hrest))
    (fun ts k u hrest => drain_step (purgeEnd_idle s3 t hgone o) hrest)

theorem recallClosed_setsLeft {j : PurgeJob} (h : (s.recallClosed t x v).getJob o = some j) :
    ∃ i, s.getJob o = some i ∧ j.setsLeft = i.setsLeft := by
  unfold State.recallClosed at h
  dsimp only at h
  split at h
  · split at h
    · rename_i a _ _
      rw [getJob_putJob] at h
      split at h
      · rename_i ho
        subst ho
        obtain ⟨i, hi, rfl⟩ := Option.map_eq_some_iff.1 h
        exact ⟨i, hi, rfl⟩
      · exact ⟨j, h, rfl⟩
    · exact ⟨j, h, rfl⟩
  · exact ⟨j, h, rfl⟩

/-- The owner a recall awaits lost: the recall closes (R120, R133). -/
theorem event_lostRecall (h : s.Loses t x l v w o) (hphase : x.phase ≠ .parked) (hq : x.requester = none)
    (hk : x.kind.recall = true) (hretire : x.kind ≠ .retireRecall) (hjobs : s.jobsGoOn x) :
    s.event ((s.countTimeout o).stopTimer t, [.declareLost o (lossFields t x)]) =
      .next (State.driveEventN (s.lossLeft (s.recallClosed t x v) l o w t)) := by
  obtain ⟨b, hbody⟩ := h.body
  let s1 : State := s.lossBegun o t x.stopped (s.flags ||| 0x0008#16) (captured s.capture .nodeLost (poisonFields l o w t))
  let s2 : State := s.lossBegun o t (x.stopped.lost o w) (s.flags ||| 0x0018#16) (s.lossCaptured l o w t)
  let s3 : State := (((s.recallClosed t x v).lostBegun o).putWay (setOf l) w (s.lostWay l w)).noted s.memTimeouts
    (s.flags ||| 0x0018#16) (s.lossCaptured l o w t)
  have hrecalls : s.Recalls t x l v w (.owned o) := ⟨h.quiet, h.slot, h.line, h.only.onlyOn l, h.rank, h.window, h.sent, hq, hk,
    h.working, by rw [hbody]; rfl, hjobs⟩
  have hlost : ((s.lostBegun o).putSlot t (some (x.stopped.lost o w))).Recalls t (x.stopped.lost o w) l v w .poisoned :=
    (hrecalls.same (q := s.lostBegun o)).changed rfl rfl rfl h.sent rfl rfl rfl rfl rfl rfl
  have hedit : s1.purgeEdit t o = (s2, [.close t]) := by
    rw [purgeEdit_owned (q := s1) (x := x.stopped) (getSlot_putSlot_self ..) h.sent hphase h.plain
        (fun ho => by rw [show x.stopped.requester = none from hq] at ho; cases ho) h.working,
      editOwned_recall (q := s1) (x := x.stopped) ⟨h.quiet.noHeldOrder, h.quiet.noHeldAnswer⟩ (getSlot_putSlot_self ..) h.line
        h.working h.sent hk]
    exact congrArg (·, [Task.close t]) (lossBegun_noted (x.stopped.lost o w))
  have hslots : ∀ u, s3.getSlot u = (s.putSlot t none).getSlot u := recallClosed_getSlot s t x v
  have hfree : (s.recallClosed t x v).onlySlot t := fun u hu => (hslots u).trans (h.only.putSlot none u hu)
  have hclosed : (((s.lostBegun o).putSlot t (some (x.stopped.lost o w))).recallClosed t (x.stopped.lost o w) v).withDir
      (((s.lostBegun o).putSlot t (some (x.stopped.lost o w))).recallSpoils (x.stopped.lost o w) l w) =
      ((s.recallClosed t x v).lostBegun o).putWay (setOf l) w (s.lostWay l w) := by
    have hspoils : ((s.lostBegun o).putSlot t (some (x.stopped.lost o w))).recallSpoils (x.stopped.lost o w) l w =
        (((s.lostBegun o).putSlot t (some (x.stopped.lost o w))).putWay (setOf l) w (s.lostWay l w)).dir := if_neg hretire
    rw [hspoils, recallClosed_withWay, recallClosed_putSlot]
    exact congrArg (fun q : State => q.putWay (setOf l) w (s.lostWay l w)) recallClosed_lostBegun
  refine event_loses (j1 := 4) (j2 := 1) (s2 := s3) h hphase hfree (by omega) (h.quiet.recallClosed t v hjobs) (fun j hj => ?_)
    hfree (fun ts k u hrest => drain_step hedit (drain_poisoned_recall hlost h.unlinked hbody ?_))
    (fun ts k u hrest => drain_step (purgeEnd_idle s3 t ((hslots t).trans (getSlot_putSlot_self ..)) o) hrest)
  · obtain ⟨i, hi, hleft⟩ := recallClosed_setsLeft hj
    rw [hleft]
    exact h.walking i hi
  · rw [hclosed]
    exact hrest

end

end Sys2Proof.Machine

/-! # Expiries of rounds and GRANTs, settled (O57) -/

namespace Sys2Proof.Machine

set_option Elab.async false

section
variable {s q : State} {t u : SlotIx} {x y : Slot} {l : Line} {v : WinIx} {w : WayIx} {n o : Node} {c : Content} {k : Nat}

theorem slotsWith_of_onlySlot (h : s.onlySlot t) (hx : s.getSlot t = some x) {p : Slot → Bool} (hp : p x = true) :
    s.slotsWith p = [t] := by
  obtain ⟨pre, post, hsplit, hpre, hpost, -⟩ := allSlots_split t
  have hnone : ∀ ws : List SlotIx, (∀ u ∈ ws, u ≠ t) → ws.filter (fun u => (s.getSlot u).any p) = [] := fun ws hws =>
    List.filter_eq_nil_iff.2 fun u hu => by
      rw [h u (hws u hu)]
      exact Bool.false_ne_true
  rw [slotsWith_eq, hsplit, List.filter_append, hnone pre hpre, List.filter_cons, hx, hnone post hpost]
  exact if_pos hp

/-- The memory agent failed by the expiry of a FETCH (R137). -/
theorem declareFailed_fetching (hx : s.getSlot t = some x) (honly : s.onlySlot t) (hl : x.line = some l) (hm : s.mem = .live)
    (hwait : x.memWait = .fetchSent) (y : Slot) (hy : failFields t y = failFields t x) :
    s.declareFailed (failFields t y) = (s.agentFailed t (some l), [.refuseFetch t]) := by
  have hone : (s.agentFailed t (some l)).slotsWith (fun y => y.memWait == .fetchSent) = [t] :=
    slotsWith_of_onlySlot (s := s.agentFailed t (some l)) honly hx (beq_iff_eq.2 hwait)
  have hstate : (({ s with mem := .failed } : State).raise .memoryFailed).fault .memoryFailed
      { failFields t x with node := some .memory } = s.agentFailed t (some l) := by
    rw [← hl]
    exact fault_eq _ _ _
  unfold State.declareFailed
  dsimp only
  rw [hy, if_pos hm, hstate, hone]
  rfl

theorem refuseFetch_of_waiting (hn : q.NoneHeld) (hx : q.getSlot t = some x) (hp : x.pending = none) (hwait : x.memWait = .fetchSent)
    (hq : x.requester = some n) (hl : x.line = some l) (hstate : q.nodeState n ≠ .purging) (hroom : q.answerQ.length < 64) :
    q.refuseFetch t = ({ q.putSlot t (some x.fetched) with
      answerQ := q.answerQ ++ [.refuse n l (.request x.kind.toReqKind) .memoryFault] }, [.close t]) := by
  unfold State.refuseFetch
  rw [hx]
  dsimp only
  rw [if_pos hwait, dropPending_of_clear hn hx hp, modSlot_of_slot hx]
  exact refuse_of_room (s := q.putSlot t (some x.fetched)) (x := x.fetched) (getSlot_putSlot_self ..) hq hl hstate rfl
    ⟨hn.order, hn.answer⟩ (getSlot_putSlot_self ..) hp hroom

/-- A read request on an untracked line whose FETCH is not answered: the agent is failed, the request refused, and its RESERVED
way FREE (R137, R69). -/
theorem event_lostFetch (h : s.Quiet) (hs : s.Sole t x l v) (honly : s.onlySlot t) (hq : x.requester = some n)
    (hk : x.kind ≠ .writeback) (hwait : x.memWait = .fetchSent) (hw : x.working = some ⟨w, .reserved⟩)
    (hb : (s.getWay (setOf l) w).body.check = .good) (hm : s.mem = .live) (hstate : s.nodeState n ≠ .purging)
    (hroom : s.answerQ.length < 64) :
    s.event (s.countMemTimeout.stopTimer t, [.declareFailed (failFields t x)]) = .next (State.driveEventN
      { (s.closed t (some n) v).putSet (setOf l) ((s.getSet (setOf l)).freed w) with
        mem := .failed
        memTimeouts := satInc s.memTimeouts
        flags := s.flags ||| 0x0020#16
        capture := captured s.capture .memoryFailed ⟨some l, some .memory, none, none, some t⟩
        answerQ := s.answerQ ++ [.refuse n l (.request x.kind.toReqKind) .memoryFault] }) := by
  let a : Answer := .refuse n l (.request x.kind.toReqKind) .memoryFault
  let r : State := s.countMemTimeout.agentFailed t (some l)
  let p : State := { r.putSlot t (some x.stopped.fetched) with answerQ := s.answerQ ++ [a] }
  have hstop : s.countMemTimeout.stopTimer t = s.countMemTimeout.putSlot t (some x.stopped) :=
    modSlot_of_slot (s := s.countMemTimeout) hs.slot _
  have hdeclare := declareFailed_fetching (s := s.countMemTimeout.putSlot t (some x.stopped)) (x := x.stopped)
    (getSlot_putSlot_self ..) (State.onlySlot.putSlot (s := s.countMemTimeout) honly _) hs.line hm hwait x rfl
  have hrefuse := refuseFetch_of_waiting (q := r.putSlot t (some x.stopped)) (x := x.stopped)
    ⟨h.noHeldOrder, h.noHeldAnswer⟩ (getSlot_putSlot_self ..) hs.sent hwait hq hs.line hstate hroom
  rw [putSlot_putSlot] at hrefuse
  have hclosing : p.Closing t x.stopped.fetched l v := hs.closing (y := x.stopped.fetched) ⟨h.noHeldOrder, h.noHeldAnswer⟩ rfl rfl rfl
    rfl rfl hs.sent fun _ hwb => absurd hwb hk
  have hquiet : (p.withDir (s.makeFree (setOf l) w).dir).Quiet :=
    ((makeFree_quiet h (setOf l) w).changed (t := t) (x := x) hs.slot (y := x.stopped.fetched) rfl).same
  have hwb := writeBack_freed hclosing (w := w) (c := .reserved) hw (.inr rfl) hb
  have hmade : (p.makeFree (setOf l) w).dir = (s.makeFree (setOf l) w).dir := rfl
  rw [hmade] at hwb
  have hdrain := drain_sole hclosing hquiet hs.windowLive hs.uncounted hwb
  have hclosed : p.closed t x.stopped.fetched.requester v = { r.closed t (some n) v with answerQ := s.answerQ ++ [a] } := by
    rw [show x.stopped.fetched.requester = some n from hq]
    exact closed_putSlot { r with answerQ := s.answerQ ++ [a] } t (some x.stopped.fetched) (some n) v
  rw [hclosed] at hdrain
  have hleft : ({ r.closed t (some n) v with answerQ := s.answerQ ++ [a] } : State).withDir (s.makeFree (setOf l) w).dir =
      { (s.closed t (some n) v).putSet (setOf l) ((s.getSet (setOf l)).freed w) with
        mem := .failed
        memTimeouts := satInc s.memTimeouts
        flags := s.flags ||| 0x0020#16
        capture := captured s.capture .memoryFailed ⟨some l, some .memory, none, none, some t⟩
        answerQ := s.answerQ ++ [a] } := by
    have hfailed : r.closed t (some n) v = (s.closed t (some n) v).countMemTimeout.agentFailed t (some l) := rfl
    rw [hfailed]
    rfl
  rw [hleft] at hdrain
  rw [hstop]
  have hfetch : ((s.countMemTimeout.putSlot t (some x.stopped)).agentFailed t (some l)).refuseFetch t = (p, [.close t]) := hrefuse
  have hall := drain_step (t := .declareFailed (failFields t x)) (ts := [.settle]) hdeclare
    (drain_step (t := .refuseFetch t) (ts := [.settle]) hfetch hdrain)
  exact event_of_drain (4 + 1 + 1) (by decide) h.running hall

/-! ## The expiries with no retries left -/

/-- What a loss leaves where the memory agent's TIMEOUTS are as before. -/
theorem lossLeft_eq {z : State} (hm : z.memTimeouts = s.memTimeouts) : s.lossLeft z l o w t =
    { ((z.purged o .lost).modNode o (fun e => { e with timeouts := satInc e.timeouts })).putWay (setOf l) w
        { s.getWay (setOf l) w with body := coded ⟨.poisoned, none, false⟩ } with
      flags := s.flags ||| 0x0018#16
      capture := captured
        (captured s.capture .nodeLost ⟨some l, some (.node o), some (setOf l), some w, some t⟩)
        .linePoisoned ⟨some l, some (.node o), some (setOf l), some w, some t⟩ } := by
  unfold State.lossLeft State.lostWith State.noted
  rw [← hm]
  rfl

theorem exec_grantTimerExpiry_lost {p : Permission} {src : Source} {b : Bool} (hlink : s.link = .up) (hx : s.getSlot t = some x)
    (hk : x.timer = some k) (hl : x.line = some l) (hretry : x.retriesLeft = 0) (hq : x.requester = some n)
    (hphase : x.phase = .awaitComplete) (ho : x.outstanding = .grant p src b) :
    exec (.grantTimerExpiry t.val) s =
      s.event ((s.countTimeout n).stopTimer t, [.declareLost n (lossFields t x)]) := by
  show s.event (match s.expiring t.val with
    | some (u, x) => if x.phase = .awaitComplete then s.grantExpiry u x else (s, [])
    | none => (s, [])) = _
  rw [expiring_of_slot hlink hx hk]
  dsimp only
  rw [if_pos hphase]
  unfold State.grantExpiry
  rw [hq, hl, ho]
  dsimp only
  rw [if_neg (by omega)]

theorem toList_single (o : Node) : NodeSet.toList (NodeSet.single o) = [o] := by
  revert o
  decide

theorem roundTimed_of_awaitReplies (hphase : x.phase = .awaitReplies) (hr : x.rebuild = none) : x.roundTimed = true := by
  unfold Slot.roundTimed
  rw [hr]
  exact beq_iff_eq.2 hphase

theorem orderExpiry_lost (hretry : x.retriesLeft = 0) (hawait : x.awaited = NodeSet.single o) (hm : x.memWait = .noWait) :
    s.orderExpiry t x = ((s.countTimeout o).stopTimer t, [.declareLost o (lossFields t x)]) := by
  have hfetch : x.memWait ≠ .fetchSent := by rw [hm]; nofun
  unfold State.orderExpiry
  dsimp only
  rw [countExpiry_eq hfetch, if_neg (by omega), if_neg hfetch]
  unfold State.timedOut
  rw [hawait, toList_single]
  rfl

theorem orderExpiry_failed (hretry : x.retriesLeft = 0) (hawait : x.awaited = 0#8) (hm : x.memWait = .fetchSent) :
    s.orderExpiry t x = (s.countMemTimeout.stopTimer t, [.declareFailed (failFields t x)]) := by
  have hcount : s.countExpiry x = s.countMemTimeout := by
    unfold State.countExpiry
    dsimp only
    rw [if_pos hm, hawait, toList_zero]
    rfl
  unfold State.orderExpiry
  dsimp only
  rw [hcount, if_neg (by omega), if_pos hm, hawait, toList_zero]
  rfl

end

/-- Settles O57: a round or a GRANT goes again while retries are left, and else its node or the memory agent is lost. -/
theorem expiriesSendAgain : Obligations.ExpiriesSendAgain := by
  intro s t x l k h hlink hx hk hl again
  refine ⟨?_, ?_, ?_⟩
  · intro n hretry hround ho hq orders full
    have htimed : x.roundTimed = true := by
      rcases hround with ⟨hr, hphase⟩ | ⟨b, hr, hawait⟩
      · exact roundTimed_of_awaitReplies hphase hr
      · unfold Slot.roundTimed
        rw [hr]
        exact bne_iff_ne.2 hawait
    exact ⟨_, exec_orderTimerExpiry_again h hlink hx hk hretry htimed (resends_of_round hl ho hq) full rfl,
      timedOut_getNode x.awaited, rfl⟩
  · intro n p src u hretry hr hq hphase ho full grant
    exact exec_grantTimerExpiry_again h hlink hx hk hl hretry hq hphase ho full rfl
  · intro v w c hretry honly hrank hr hwin hlive hlinked hp hjobs hw hbody poisoned asks present
    have hloses : ∀ o, c = .owned o → present o → s.Loses t x l v w o := fun o hc hpresent =>
      ⟨h, hx, hl, honly, hrank, hr, hwin, hlive, hlinked, hp, hc ▸ hw, hbody, hpresent.1, hpresent.2⟩
    refine ⟨fun n p src u hphase hq hawait hcount hasks ho hm hc hpresent => ?_,
      fun n o m hphase hq hne hawait hcount hkind ho hm hc hpresent hstate hroom => ?_,
      fun o hphase hq hawait hrecall hretire ho hm hc hpresent => ?_,
      fun n hphase hq hawait hcount hasks hm hc hmem hstate hroom => ?_⟩
    · rw [exec_grantTimerExpiry_lost hlink hx hk hl hretry hq hphase ho]
      have hnext := event_lostGrant (hloses n hc hpresent) (by rw [hphase]; nofun) hq hcount hasks
      rw [lossLeft_eq (s := s) (z := s.closed t (some n) v) rfl] at hnext
      exact hnext
    · rw [exec_orderTimerExpiry hlink hx hk (roundTimed_of_awaitReplies hphase hr), orderExpiry_lost hretry hawait hm]
      have hnext := event_lostForward (hloses o hc hpresent) (by rw [hphase]; nofun) hq hne hcount hkind hstate hroom
      rw [lossLeft_eq (s := s) (z := { s.closed t (some n) v with
        answerQ := s.answerQ ++ [.refuse n l (.request x.kind.toReqKind) .poisoned] }) rfl] at hnext
      exact hnext
    · rw [exec_orderTimerExpiry hlink hx hk (roundTimed_of_awaitReplies hphase hr), orderExpiry_lost hretry hawait hm]
      have hnext := event_lostRecall (hloses o hc hpresent) (by rw [hphase]; nofun) hq hrecall hretire hjobs
      rw [lossLeft_eq recallClosed_memTimeouts] at hnext
      exact hnext
    · obtain ⟨b, hbody⟩ := hbody
      subst hc
      have halone : s.onLine l = [t] := slotsWith_of_onlySlot honly hx (beq_iff_eq.2 hl)
      have hs : s.Sole t x l v := ⟨hx, hl, halone, by rw [hphase]; nofun, hrank, hwin, hlive, hlinked, hcount, hp, hr⟩
      rw [exec_orderTimerExpiry hlink hx hk (roundTimed_of_awaitReplies hphase hr), orderExpiry_failed hretry hawait hm]
      exact event_lostFetch h hs honly hq (by rcases hasks with hk | hk | hk <;> rw [hk] <;> nofun) hm hw (by rw [hbody]; rfl) hmem
        hstate hroom

end Sys2Proof.Machine

/-! # The cursors: what a step in hand does way by way, and the opening of a recall -/

namespace Sys2Proof.Machine

set_option Elab.async false

/-! ## Settling with a set step in hand -/

/-- A part in whose settling a set step in hand comes first: nothing waits for a set rebuild or for room. -/
structure State.Walking (s : State) : Prop where
  noRebuild : s.slotsWith Slot.rebuildsSet = []
  noFrozen : s.anyFrozen = false

section
variable {s t q : State} {i : SetIx} {w : WayIx} {j : MaintJob} {v : WinIx} {u : SlotIx} {l : Line} {k : Nat} {us : List Task} {z : State}

theorem State.Quiet.walking (h : s.Quiet) (hslots : q.slots = s.slots := by rfl) (hdir : q.dir = s.dir := by rfl) : q.Walking where
  noRebuild := by
    unfold State.slotsWith State.getSlot at *
    rw [hslots]
    exact h.noRebuild
  noFrozen := by unfold State.anyFrozen; rw [hdir]; exact h.noFrozen

theorem State.Walking.readyRebuild (h : s.Walking) : s.readyRebuild = none := by
  unfold State.readyRebuild
  rw [h.noRebuild]
  rfl

theorem State.Walking.dueSets (h : s.Walking) : s.dueSets = [] := by
  rw [dueSets_eq_nil_iff]
  intro p hp hf
  have hfrozen := h.noFrozen
  unfold State.anyFrozen at hfrozen
  rw [List.any_eq_false] at hfrozen
  exact absurd hf (hfrozen p hp)

/-- The maintenance cursor goes on with its step. -/
theorem settleStep_maintReady (h : s.Walking) (hp : s.purgeStep = none) (hm : s.maintReady = true) :
    s.settleStep = some (s, [.maintCursor]) := by
  have hpurge : s.purgeReady = false := by
    unfold State.purgeReady
    rw [hp]
  unfold State.settleStep
  rw [h.readyRebuild, h.dueSets]
  dsimp only
  rw [hpurge, hm]
  rfl

/-- The purge cursor goes on with its step. -/
theorem settleStep_purgeReady (h : s.Walking) (hp : s.purgeReady = true) : s.settleStep = some (s, [.purgeCursor]) := by
  unfold State.settleStep
  rw [h.readyRebuild, h.dueSets]
  dsimp only
  rw [hp]
  rfl

theorem drain_settleStep {ts : List Task} (h : s.settleStep = some (q, ts)) (hrest : drain k q (ts ++ [Task.settle]) = some z) :
    drain (k + 1) s [Task.settle] = some z := by
  refine drain_step (s' := q) (ts' := ts ++ [.settle]) ?_ (by rw [List.append_nil]; exact hrest)
  show (match s.settleStep with
    | some (s1, ts) => (s1, ts ++ [Task.settle])
    | none => (s, [])) = _
  rw [h]

/-! ## Unheld ways that can be read -/

/-- A way whose codes match and that no transaction holds. -/
structure State.Plain (s : State) (i : SetIx) (w : WayIx) : Prop where
  key : (s.getWay i w).key.check = .good
  body : (s.getWay i w).body.check = .good
  unheld : (s.getWay i w).body.stored.heldBy = none

theorem plain_of_sound (hs : s.soundSet i) (hu : s.unheldSet i) (w : WayIx) : s.Plain i w :=
  ⟨(hs w).1, (hs w).2, (wayHolder_of_sound hs w).symm.trans (hu w)⟩

theorem State.Plain.same (h : s.Plain i w) (hw : q.getWay i w = s.getWay i w) : q.Plain i w :=
  ⟨by rw [hw]; exact h.key, by rw [hw]; exact h.body, by rw [hw]; exact h.unheld⟩

theorem State.Plain.bodyView (h : s.Plain i w) : s.bodyView i w = some (s.getWay i w).body.stored := view_of_good h.body

theorem State.Plain.keyView (h : s.Plain i w) : s.keyView i w = some (s.getWay i w).key.stored := view_of_good h.key

theorem State.Plain.holder (h : s.Plain i w) : s.wayHolder i w = none := by
  unfold State.wayHolder
  rw [h.bodyView]
  exact h.unheld

theorem State.Plain.held (h : s.Plain i w) : s.wayHeld i w = false := by
  unfold State.wayHeld
  rw [h.holder]
  rfl

theorem State.Plain.content (h : s.Plain i w) : s.wayContent i w = some (s.getWay i w).body.stored.content := by
  unfold State.wayContent
  rw [h.holder, h.bodyView]
  rfl

theorem State.Plain.line (h : s.Plain i w) : s.wayLine i w = (s.getWay i w).key.stored.map (fun k => lineOf k i) := by
  unfold State.wayLine
  rw [h.keyView]
  cases (s.getWay i w).key.stored <;> rfl

theorem State.Plain.record (h : s.Plain i w) : s.recordLine i w = (s.getWay i w).key.stored.map (fun k => lineOf k i) := by
  unfold State.recordLine
  rw [h.holder]
  exact h.line

/-! ## What the cursor does at a way -/

/-- Whether a RETIRE job frees a way: POISONED, its line in the job's window (R166). -/
def State.retireFrees (s : State) (i : SetIx) (v : Window) (w : WayIx) : Bool :=
  (s.getWay i w).body.stored.content == .poisoned && (match (s.getWay i w).key.stored with
    | some q => v.spans (lineOf q i)
    | none => false)

theorem retireFrees_of_key {r : Key} {v : Window} (hk : (s.getWay i w).key.stored = some r) :
    s.retireFrees i v w = ((s.getWay i w).body.stored.content == .poisoned && v.spans (lineOf r i)) := by
  unfold State.retireFrees
  rw [hk]

theorem retireFrees_of_keyless {v : Window} (hk : (s.getWay i w).key.stored = none) : s.retireFrees i v w = false := by
  unfold State.retireFrees
  rw [hk, Bool.and_false]

theorem retireAction_of_plain (h : s.Plain i w) (v : Window) (hc : ∀ m o, (s.getWay i w).body.stored.content ≠ .shared m ∧
    (s.getWay i w).body.stored.content ≠ .owned o) :
    s.retireAction i w v = if s.retireFrees i v w then .free else .skip := by
  unfold State.retireAction
  rw [h.record, h.content, h.held]
  cases hk : (s.getWay i w).key.stored with
  | none =>
    rw [retireFrees_of_keyless hk]
    rfl
  | some r =>
    rw [retireFrees_of_key hk]
    dsimp only [Option.map_some]
    cases hw : (s.getWay i w).body.stored.content with
    | free => simp
    | reserved => simp
    | poisoned => simp
    | shared m => exact absurd hw (hc m 0).1
    | owned o => exact absurd hw (hc 0#8 o).2

theorem flushAction_of_plain (h : s.Plain i w) (hc : ∀ m o, (s.getWay i w).body.stored.content ≠ .shared m ∧
    (s.getWay i w).body.stored.content ≠ .owned o) : s.flushAction i w = .skip := by
  unfold State.flushAction
  rw [h.record, h.content]
  cases (s.getWay i w).key.stored with
  | none => rfl
  | some q =>
    cases hw : (s.getWay i w).body.stored.content with
    | free => rfl
    | reserved => rfl
    | poisoned => rfl
    | shared m => exact absurd hw (hc m 0).1
    | owned o => exact absurd hw (hc 0#8 o).2

/-! ## The cursor's way through a set -/

theorem maintCursor_skip {ws : List WayIx} (hm : q.maint = some j) (hs : q.maintStep = some (w :: ws))
    (ha : q.maintAction j (q.maintSet j) w = .skip) : q.maintCursor = ({ q with maintStep := some ws }, [.maintCursor]) := by
  unfold State.maintCursor
  rw [hm, hs]
  dsimp only
  rw [ha]

theorem maintCursor_free {ws : List WayIx} (hm : q.maint = some j) (hs : q.maintStep = some (w :: ws))
    (ha : q.maintAction j (q.maintSet j) w = .free) :
    q.maintCursor = (State.makeFree { q with maintStep := some ws } (q.maintSet j) w, [.maintCursor]) := by
  unfold State.maintCursor
  rw [hm, hs]
  dsimp only
  rw [ha]

theorem maintCursor_done (hm : q.maint = some j) (hs : q.maintStep = some []) : q.maintCursor = (q.endMaintStep j, []) := by
  unfold State.maintCursor
  rw [hm, hs]

theorem maintCursor_open {ws : List WayIx} (hm : q.maint = some j) (hs : q.maintStep = some (w :: ws))
    (ha : q.maintAction j (q.maintSet j) w = .openOn l) (hroom : 3 ≤ q.freeSlots) : q.maintCursor =
      ((State.openRecall { q with maintStep := some ws, maint := some { j with openCount := j.openCount + 1 } }
        (maintRecall j.kind) l).1,
      (State.openRecall { q with maintStep := some ws, maint := some { j with openCount := j.openCount + 1 } }
        (maintRecall j.kind) l).2 ++ [.maintCursor]) := by
  have hwalk : q.walkRoom = true := decide_eq_true hroom
  unfold State.maintCursor
  rw [hm, hs]
  dsimp only
  rw [ha]
  exact if_pos hwalk

/-- The part with the rest of a set in hand. -/
def State.atWays (s : State) (ws : List WayIx) : State := { s with maintStep := some ws }

/-- At some ways of a set the cursor frees those a test names and skips the others. -/
def State.cursorFrees (s : State) (j : MaintJob) (i : SetIx) (p : WayIx → Bool) : Prop :=
  ∀ (q : State) (w : WayIx), q.getWay i w = s.getWay i w → q.windows = s.windows →
    q.maintAction j i w = if p w then .free else .skip

theorem drain_cursorFrees {p : WayIx → Bool} (hp : s.cursorFrees j i p) (ws : List WayIx) (hnodup : ws.Nodup) :
    ∀ t : State, dirWf t.dir = true → t.maint = some j → t.maintSet j = i → t.windows = s.windows →
      (∀ w ∈ ws, t.getWay i w = s.getWay i w) →
      drain k ((t.freeWays i p ws).atWays []) (.maintCursor :: us) = some z →
      drain (ws.length + k) (t.atWays ws) (.maintCursor :: us) = some z := by
  induction ws with
  | nil =>
    intro t _ _ _ _ _ hrest
    rw [List.length_nil, Nat.zero_add]
    exact hrest
  | cons w ws ih =>
    intro t hwf hmaint hset hwin hways hrest
    obtain ⟨hw, hnodup⟩ := List.nodup_cons.1 hnodup
    have hset' : (t.atWays (w :: ws)).maintSet j = i := hset
    have haction : (t.atWays (w :: ws)).maintAction j ((t.atWays (w :: ws)).maintSet j) w = if p w then .free else .skip := by
      rw [hset']
      exact hp (t.atWays (w :: ws)) w (hways w List.mem_cons_self) hwin
    have hfree : t.freeWays i p (w :: ws) = (if p w then t.makeFree i w else t).freeWays i p ws := rfl
    rw [List.length_cons, Nat.add_right_comm]
    rw [hfree] at hrest
    by_cases hpw : p w = true
    · rw [if_pos hpw] at hrest haction
      refine drain_step (s' := (t.makeFree i w).atWays ws) (ts' := [.maintCursor]) ?_ (ih hnodup (t.makeFree i w) (dirPut_wf hwf) hmaint
        hset hwin (fun v hv => (getWay_makeFree hwf i w v).trans ((if_neg fun he : v = w => hw (he ▸ hv)).trans
          (hways v (List.mem_cons_of_mem _ hv)))) hrest)
      have hcursor := maintCursor_free (q := t.atWays (w :: ws)) hmaint rfl haction
      rw [hset'] at hcursor
      exact hcursor
    · rw [if_neg hpw] at hrest haction
      exact drain_step (s' := t.atWays ws) (ts' := [.maintCursor]) (maintCursor_skip (q := t.atWays (w :: ws)) hmaint rfl haction)
        (ih hnodup t hwf hmaint hset hwin (fun v hv => hways v (List.mem_cons_of_mem _ hv)) hrest)

/-- Ways the cursor skips. -/
theorem drain_cursorSkips (ws rest : List WayIx) (hmaint : t.maint = some j)
    (hskip : ∀ w ∈ ws, t.maintAction j (t.maintSet j) w = .skip)
    (hrest : drain k (t.atWays rest) (.maintCursor :: us) = some z) :
    drain (ws.length + k) (t.atWays (ws ++ rest)) (.maintCursor :: us) = some z := by
  induction ws with
  | nil =>
    rw [List.length_nil, Nat.zero_add]
    exact hrest
  | cons w ws ih =>
    rw [List.length_cons, Nat.add_right_comm]
    exact drain_step (s' := t.atWays (ws ++ rest)) (ts' := [.maintCursor])
      (maintCursor_skip (q := t.atWays (w :: (ws ++ rest))) hmaint rfl (hskip w List.mem_cons_self))
      (ih fun v hv => hskip v (List.mem_cons_of_mem _ hv))

/-- The cursor's step ends. -/
theorem drain_cursorEnds (hmaint : t.maint = some j) (hrest : drain k ((t.atWays []).endMaintStep j) us = some z) :
    drain (k + 1) (t.atWays []) (.maintCursor :: us) = some z :=
  drain_step (ts' := []) (maintCursor_done (q := t.atWays []) hmaint rfl) hrest

/-! ## The opening of a recall by a cursor (R28, R31) -/

theorem openRecall_of_free {x : Slot} (hfree : s.lowestFree = some u) (halone : s.onLine l = []) (hwin : s.windowOf l = some v)
    (hfrozen : s.frozen (setOf l) = false) : s.openRecall x l =
      ((s.modWindow v (fun r => { r with openCount := r.openCount + 1 })).putSlot u (some (x.opensOn l v)), [.activate u]) := by
  have hopen : s.openOnLine u x l (some v) =
      (s.modWindow v (fun r => { r with openCount := r.openCount + 1 })).putSlot u (some (x.opensOn l v)) := by
    unfold State.openOnLine
    rw [halone]
    rfl
  have hstart : ((s.modWindow v (fun r => { r with openCount := r.openCount + 1 })).putSlot u (some (x.opensOn l v))).startIfHead u =
      [.activate u] := by
    unfold State.startIfHead
    rw [getSlot_putSlot_self]
    exact if_pos ⟨rfl, .inr hfrozen⟩
  unfold State.openRecall
  rw [hfree]
  dsimp only
  rw [hwin, hopen, hstart]

/-- A recall just opened takes its line's way up and withdraws the line. -/
theorem drain_openRecall {x : Slot} {c : Content} {m : NodeSet} (hn : s.NoneHeld) (hk : x.kind.recall = true) (hp : x.pending = none)
    (hr : x.rebuild = none) (hmem : x.memWait = .noWait) (hfree : s.lowestFree = some u) (halone : s.onLine l = [])
    (hwin : s.windowOf l = some v) (hkind : (s.getWindow v).kind ≠ .direct) (hfrozen : s.frozen (setOf l) = false)
    (ht : s.trackedAs l w c) (hc : (∃ m, c = .shared m) ∨ ∃ o, c = .owned o) (hkeep : editContent s.purgingNodes c = c)
    (hfrom : ∀ p : State, p.nodes = s.nodes → p.recallFrom ((x.opensOn l v).taken w c) = m) (hm : m ≠ 0#8)
    (hroom : s.orderQ.length + (NodeSet.toList m).length ≤ 64)
    (hrest : drain k (s.recallOpened u x l v w c m) us = some z) :
    drain (k + 2) (s.openRecall x l).1 ((s.openRecall x l).2 ++ us) = some z := by
  let s1 : State := s.modWindow v (fun r => { r with openCount := r.openCount + 1 })
  have hdirect : ¬((s1.putSlot u (some (x.opensOn l v))).isDirect (x.opensOn l v) = true ∧ (x.opensOn l v).kind ≠ .victimRecall) := by
    rintro ⟨hd, -⟩
    refine hkind ?_
    have hd' : ((s1.getWindow v).kind == .direct) = true := hd
    have hwindow : (s1.getWindow v).kind = (s.getWindow v).kind := by
      rw [show s1.getWindow v = _ from getWindow_modWindow s v v _, if_pos rfl]
    rw [hwindow] at hd'
    exact beq_iff_eq.1 hd'
  rw [openRecall_of_free hfree halone hwin hfrozen]
  refine drain_recall_activates (s := s1.putSlot u (some (x.opensOn l v))) (x := x.opensOn l v) ⟨hn.order, hn.answer⟩
    (getSlot_putSlot_self ..) rfl hdirect hk hp hr ht hc hkeep (hfrom _ rfl) hm hroom ?_
  rw [recallOpened_eq v hc x hmem] at hrest
  have hput : ((s1.putSlot u (some (x.opensOn l v))).putWay (setOf l) w (heldWay l c u)).putSlot u
      (some ((x.opensOn l v).withdraws s w c m)) = (s1.putWay (setOf l) w (heldWay l c u)).putSlot u
      (some ((x.opensOn l v).withdraws s w c m)) := putSlot_putSlot (s1.putWay (setOf l) w (heldWay l c u)) u _ _
  exact (congrArg (fun p : State => drain k { p with orderQ := s.orderQ ++ withdrawals c l m } us) hput).trans hrest

end

end Sys2Proof.Machine

/-! # Set steps of the maintenance cursor (O60) -/

namespace Sys2Proof.Machine

set_option Elab.async false

section
variable {s t q : State} {i : SetIx} {w : WayIx} {j : MaintJob} {v : WinIx} {u : SlotIx} {l : Line} {k : Nat} {us : List Task} {z : State}

/-! ## The beginning and the end of a step -/

/-- A step begins with every key and body of the set read. -/
theorem beginMaintStep_of_sound (h : s.soundSet (s.maintSet j)) : s.beginMaintStep j = (s.atWays allWays, []) := by
  have hnote : s.noteDamagedKeys (s.maintSet j) allWays = s := by
    unfold State.noteDamagedKeys
    rw [damagedKeys_of_sound h]
  unfold State.beginMaintStep
  dsimp only
  rw [readWholeSet_of_sound h, hnote]
  rfl

/-- The job as the end of a RETIRE or FLUSH step leaves it. -/
def MaintJob.stepped (j : MaintJob) : MaintJob :=
  { j with
    nextSet := j.nextSet + 1
    owed := false
    run := if j.nextSet + 1 = 2048 then .finishing else if j.run = .pausing then .paused else j.run }

theorem endMaintStep_stepped (hk : j.kind ≠ .scrub) : s.endMaintStep j = { s with maintStep := none, maint := some j.stepped } := by
  obtain ⟨kind, window, run, nextSet, owed, openCount, interval, walked⟩ := j
  cases kind with
  | scrub => exact absurd rfl hk
  | retire => rfl
  | flush => rfl

/-- Whether a RETIRE or FLUSH job takes a set. -/
structure MaintJob.Takes (j : MaintJob) (i : SetIx) : Prop where
  kind : j.kind ≠ .scrub
  going : j.run = .running ∨ j.run = .pausing
  next : j.nextSet = i.val

theorem MaintJob.Takes.set (h : j.Takes i) : s.maintSet j = i := by
  have hset : (⟨j.nextSet % 2048, Nat.mod_lt _ (by decide)⟩ : SetIx) = i :=
    Fin.ext (by rw [h.next]; exact Nat.mod_eq_of_lt i.isLt)
  unfold State.maintSet
  split
  · rename_i hk
    exact absurd hk h.kind
  · exact hset

theorem MaintJob.Takes.takesSet (h : j.Takes i) (hs : s.maintStep = none) : s.takesSet j = true := by
  unfold State.takesSet
  rw [hs]
  have hlt : j.nextSet < Config.setCount := by rw [h.next]; exact i.isLt
  rcases h.going with hr | hr <;> rw [hr] <;> simp [hlt]

theorem exec_retireSetStep (hm : s.maint = some j) (hk : j.kind = .retire) (ht : s.takesSet j = true) :
    exec .retireSetStep s = s.event (s.beginMaintStep j) := by
  show s.event (match s.maint with
    | some j => if j.kind = .retire ∧ s.takesSet j = true then s.beginMaintStep j else (s, [])
    | none => (s, [])) = _
  rw [hm]
  dsimp only
  rw [if_pos ⟨hk, ht⟩]

theorem exec_flushSetStep (hm : s.maint = some j) (hk : j.kind = .flush) (ht : s.takesSet j = true) :
    exec .flushSetStep s = s.event (s.beginMaintStep j) := by
  show s.event (match s.maint with
    | some j => if j.kind = .flush ∧ s.takesSet j = true then s.beginMaintStep j else (s, [])
    | none => (s, [])) = _
  rw [hm]
  dsimp only
  rw [if_pos ⟨hk, ht⟩]

theorem exec_setStep (h : s.Quiet) (hm : s.maint = some j) (ht : j.Takes i) (hsound : s.soundSet i) :
    exec (if j.kind = .retire then .retireSetStep else .flushSetStep) s = s.event (s.atWays allWays, []) := by
  have htakes := ht.takesSet (s := s) h.noMaintStep
  have hbegin : s.beginMaintStep j = (s.atWays allWays, []) := beginMaintStep_of_sound (by rw [ht.set]; exact hsound)
  rw [← hbegin]
  split
  · rename_i hk
    exact exec_retireSetStep hm hk htakes
  · rename_i hk
    refine exec_flushSetStep hm ?_ htakes
    cases hkind : j.kind with
    | retire => exact absurd hkind hk
    | flush => rfl
    | scrub => exact absurd hkind ht.kind

/-! ## A step that opens nothing -/

theorem length_allWays : allWays.length = 16 := by
  unfold allWays
  exact List.length_finRange

theorem maintReady_of_action {ws : List WayIx} (hm : q.maint = some j) (hs : q.maintStep = some (w :: ws))
    (h : q.walkRoom = true ∨ (q.maintAction j (q.maintSet j) w).opens = false) : q.maintReady = true := by
  unfold State.maintReady
  rw [hm, hs]
  dsimp only
  rcases h with h | h
  · rw [h, Bool.true_or]
  · rw [h, Bool.not_false, Bool.or_true]

theorem allWays_cons : ∃ w ws, allWays = w :: ws := by
  cases h : allWays with
  | nil =>
    have hlength := length_allWays
    rw [h] at hlength
    cases hlength
  | cons w ws => exact ⟨w, ws, rfl⟩

/-- The settling after the beginning of a step that opens nothing: the ways a test names become FREE, and the step ends. -/
theorem drain_freeingStep {p : WayIx → Bool} (h : s.Quiet) (hd : dirWf s.dir = true) (hm : s.maint = some j) (ht : j.Takes i)
    (hp : s.cursorFrees j i p)
    (hrest : drain k { s.freeWays i p allWays with maint := some j.stepped } [.settle] = some z) :
    drain (1 + (16 + (k + 1))) (s.atWays allWays) [.settle] = some z := by
  have hset : s.maintSet j = i := ht.set
  have hfree := freeWays_spec i p allWays s hd
  have hready : (s.atWays allWays).maintReady = true := by
    obtain ⟨w, ws, hways⟩ := allWays_cons
    refine maintReady_of_action (q := s.atWays allWays) (w := w) (ws := ws) hm (congrArg some hways) (.inr ?_)
    rw [show (s.atWays allWays).maintSet j = i from hset, hp (s.atWays allWays) w rfl rfl]
    cases p w <;> rfl
  have hend : ((s.freeWays i p allWays).atWays []).endMaintStep j = { s.freeWays i p allWays with maint := some j.stepped } := by
    rw [endMaintStep_stepped ht.kind]
    have hstep : (s.freeWays i p allWays).maintStep = none := (congrArg State.maintStep hfree.same).trans h.noMaintStep
    have heta : ({ s.freeWays i p allWays with maintStep := none } : State) = s.freeWays i p allWays := by
      rw [← hstep]
    exact congrArg (fun t : State => { t with maint := some j.stepped }) heta
  rw [Nat.add_comm 1]
  refine drain_settleStep (settleStep_maintReady (s := s.atWays allWays) h.walking h.noPurgeStep hready) ?_
  have hcursor := drain_cursorFrees (us := [.settle]) (z := z) (k := k + 1) hp allWays nodup_allWays s hd hm hset rfl (fun _ _ => rfl)
    (drain_cursorEnds ((congrArg State.maint hfree.same).trans hm) (by rw [hend]; exact hrest))
  rw [length_allWays] at hcursor
  exact hcursor

theorem freeWays_noTest (ws : List WayIx) : s.freeWays i (fun _ => false) ws = s := List.foldl_fixed' (fun _ => rfl) ws

/-! ## The settling after a step -/

/-- A quiet part stays quiet with a maintenance job that goes on. -/
theorem State.Quiet.withMaint (h : s.Quiet) (hm : q.maint = some j) (hr : j.run = .running ∨ j.run = .paused ∨ j.run = .finishing ∧
    j.kind ≠ .retire ∧ j.openCount ≠ 0 ∧ j.walked = true) (hq : q = { s with maint := some j }) : q.Quiet := by
  subst hq
  refine ⟨h.running, h.noRebuild, h.noFrozen, h.noPurgeStep, h.noMaintStep, h.noHeldOrder, h.noHeldAnswer, ?_, h.noDone⟩
  rw [maintEnding_none_iff]
  intro j' hj'
  cases hm
  cases hj'
  rcases hr with hr | hr | ⟨hr, hrest⟩ <;> rw [hr]
  · exact ⟨nofun, nofun⟩
  · exact ⟨nofun, nofun⟩
  · exact ⟨fun _ => .inr hrest, nofun⟩

/-- The end of a job: its recalls run on uncounted, and a SCRUB may follow. -/
theorem endMaint_eq (s : State) : s.endMaint = { s with slots := s.uncount.slots, maint := s.nextMaint, maintStep := none } := by
  have huncount : s.uncount = { s with slots := s.uncount.slots } := by
    unfold State.uncount
    rw [modSlots_eq]
  unfold State.endMaint State.startScrub State.nextMaint
  rw [huncount]
  by_cases hv : s.limits.scrubInterval = 0#32
  · rw [if_neg (by simp [hv]), if_pos hv]
  · rw [if_pos ⟨rfl, hv⟩, if_neg hv]

theorem getSlot_endMaint (s : State) (u : SlotIx) : s.endMaint.getSlot u = (s.getSlot u).map (fun x =>
    if x.kind = .leaveRecall then x else { x with counted := false }) := by
  rw [endMaint_eq]
  exact getSlot_modSlots s _ u

theorem State.Quiet.endMaint (h : s.Quiet) (hq : q.resetN = s.resetN) (hslots : q.slots = s.slots) (hdir : q.dir = s.dir)
    (hstep : q.purgeStep = s.purgeStep) (ho : q.orderHeld = s.orderHeld) (ha : q.answerHeld = s.answerHeld)
    (hjobs : q.purgeJobs = s.purgeJobs) : q.endMaint.Quiet := by
  have heq := endMaint_eq q
  have hfrozen : q.endMaint.anyFrozen = false := by
    unfold State.anyFrozen
    rw [heq]
    dsimp only
    rw [hdir]
    exact h.noFrozen
  refine ⟨by rw [heq]; exact hq.trans h.running, (slotsWith_eq_nil_iff ..).2 fun u x hx => ?_, hfrozen,
    by rw [heq]; exact hstep.trans h.noPurgeStep, by rw [heq], by rw [heq]; exact ho.trans h.noHeldOrder,
    by rw [heq]; exact ha.trans h.noHeldAnswer, maintEnding_of_nextMaint (by rw [heq]; rfl), ?_⟩
  · rw [getSlot_endMaint] at hx
    obtain ⟨y, hy, rfl⟩ := Option.map_eq_some_iff.1 hx
    have hplain : y.rebuildsSet = false := h.slot (t := u) (x := y) (by unfold State.getSlot at hy ⊢; rwa [hslots] at hy)
    split <;> exact hplain
  · have hd := h.noDone
    unfold State.doneNode State.purgeDone State.getJob at hd ⊢
    rw [hfrozen, show q.endMaint.purgeJobs = s.purgeJobs by rw [heq]; exact hjobs]
    rw [h.noFrozen] at hd
    exact hd

/-- Settling ends a finished job. -/
theorem drain_maintEnding (h : s.Quiet) (hq : q = { s with maint := some j }) (he : q.maintEnding = some t) (ht : t.settled = true) :
    drain 2 q [.settle] = some t := by
  subst hq
  have hpurge : ({ s with maint := some j } : State).purgeReady = false := by
    unfold State.purgeReady
    rw [show ({ s with maint := some j } : State).purgeStep = none from h.noPurgeStep]
  have hmaint : ({ s with maint := some j } : State).maintReady = false := by
    unfold State.maintReady
    rw [show ({ s with maint := some j } : State).maintStep = none from h.noMaintStep]
  have hwalk : State.Walking { s with maint := some j } := h.walking
  exact drain_settleStep (settleStep_maintEnding hwalk.readyRebuild (.inl hwalk.dueSets) hpurge hmaint
    (placeHeldOrder_of_empty h.noHeldOrder) (placeHeldAnswer_of_empty h.noHeldAnswer) he) (drain_settle ht 0)

end

end Sys2Proof.Machine

/-! # RETIRE and FLUSH steps (O60) -/

namespace Sys2Proof.Machine

set_option Elab.async false

section
variable {s t q : State} {i : SetIx} {w y : WayIx} {j : MaintJob} {v : WinIx} {u : SlotIx} {l : Line} {k : Nat} {us : List Task}
  {z : State} {c : Content} {m : NodeSet}

/-! ## A step that frees ways -/

/-- The job after a set that is not the last. -/
def MaintJob.moved (j : MaintJob) : MaintJob :=
  { j with nextSet := j.nextSet + 1, owed := false, run := if j.run = .pausing then .paused else .running }

theorem stepped_of_lt (hr : j.run = .running ∨ j.run = .pausing) (h : j.nextSet < 2047) : j.stepped = j.moved := by
  unfold MaintJob.stepped MaintJob.moved
  rw [if_neg (by omega : ¬ j.nextSet + 1 = 2048)]
  rcases hr with hr | hr
  · rw [hr]
  · rw [hr]
    rfl

theorem stepped_of_last (h : j.nextSet = 2047) : j.stepped = { j.moved with run := .finishing } := by
  unfold MaintJob.stepped MaintJob.moved
  rw [if_pos (by omega : j.nextSet + 1 = 2048)]

theorem moved_goes (j : MaintJob) : j.moved.run = .running ∨ j.moved.run = .paused := by
  unfold MaintJob.moved
  dsimp only
  split
  · exact .inr rfl
  · exact .inl rfl

theorem event_freeingStep {p : WayIx → Bool} (h : s.Quiet) (hd : dirWf s.dir = true) (hm : s.maint = some j) (ht : j.Takes i)
    (hp : s.cursorFrees j i p) (hk : k ≤ 10)
    (hrest : drain k { s.freeWays i p allWays with maint := some j.stepped } [.settle] = some z) :
    s.event (s.atWays allWays, []) = .next z.driveEventN :=
  event_of_drain (1 + (16 + (k + 1))) (le_trans (by omega : _ ≤ 28) (by decide)) h.running (drain_freeingStep h hd hm ht hp hrest)

/-- A step in the middle of a job's walk. -/
theorem event_freeingStep_mid {p : WayIx → Bool} (h : s.Quiet) (hd : dirWf s.dir = true) (hm : s.maint = some j) (ht : j.Takes i)
    (hp : s.cursorFrees j i p) (hlt : j.nextSet < 2047) :
    s.event (s.atWays allWays, []) = .next (State.driveEventN { s.freeWays i p allWays with maint := some j.moved }) := by
  have hquiet : State.Quiet { s.freeWays i p allWays with maint := some j.moved } :=
    (h.freeWays hd i p allWays).withMaint rfl ((moved_goes j).imp_right .inl) rfl
  refine event_freeingStep (k := 1) h hd hm ht hp (by decide) ?_
  rw [stepped_of_lt ht.going hlt]
  exact drain_settle (Quiet_settled hquiet) 0

theorem cursorFrees_retire (hk : j.kind = .retire) (hwin : j.window = some v) (hs : s.soundSet i) (hu : s.unheldSet i)
    (hc : ∀ w m o, (s.getWay i w).body.stored.content ≠ .shared m ∧ (s.getWay i w).body.stored.content ≠ .owned o) :
    s.cursorFrees j i (s.retireFrees i (s.getWindow v)) := by
  intro q w hway hwindows
  have hsame : q.retireFrees i (s.getWindow v) w = s.retireFrees i (s.getWindow v) w := by
    unfold State.retireFrees
    rw [hway]
  have hwindow : q.getWindow v = s.getWindow v := by
    unfold State.getWindow
    rw [hwindows]
  unfold State.maintAction
  rw [hk, hwin]
  dsimp only
  rw [hwindow, retireAction_of_plain ((plain_of_sound hs hu w).same hway) _ (by rw [hway]; exact hc w), hsame]

theorem cursorFrees_flush (hk : j.kind = .flush) (hs : s.soundSet i) (hu : s.unheldSet i)
    (hc : ∀ w m o, (s.getWay i w).body.stored.content ≠ .shared m ∧ (s.getWay i w).body.stored.content ≠ .owned o) :
    s.cursorFrees j i (fun _ => false) := by
  intro q w hway _
  unfold State.maintAction
  rw [hk]
  exact flushAction_of_plain ((plain_of_sound hs hu w).same hway) (by rw [hway]; exact hc w)

theorem maintEnding_finished (hm : q.maint = some j) (hr : j.run = .finishing) (hf : q.anyFrozen = false) : q.maintEnding =
    match j.kind with
    | .retire => some ((q.walkFinished j.window).raise .maintDone).endMaint
    | _ =>
      if j.openCount = 0 then some (q.raise .maintDone).endMaint
      else if j.walked then none
      else some { q with maint := some { j with walked := true } } := by
  unfold State.maintEnding
  rw [hm]
  dsimp only
  rw [hr]
  dsimp only
  rw [hf, if_neg (fun h => Bool.false_ne_true h.1)] <;> rfl

/-! ## A step that opens a recall -/

theorem skips_of_plain (h : q.Plain i y) (hc : ∀ m o, (q.getWay i y).body.stored.content ≠ .shared m ∧
    (q.getWay i y).body.stored.content ≠ .owned o ∧ (j.kind = .retire → (q.getWay i y).body.stored.content ≠ .poisoned))
    (hk : j.kind ≠ .scrub) : q.maintAction j i y = .skip := by
  have hno := fun m o => And.intro (hc m o).1 (hc m o).2.1
  unfold State.maintAction
  cases hkind : j.kind with
  | scrub => exact absurd hkind hk
  | flush => exact flushAction_of_plain h hno
  | retire =>
    cases j.window with
    | none => rfl
    | some v =>
      have hfrees : q.retireFrees i (q.getWindow v) y = false := by
        unfold State.retireFrees
        rw [beq_eq_false_iff_ne.2 ((hc 0#8 0).2.2 hkind), Bool.false_and]
      dsimp only
      rw [retireAction_of_plain h _ hno, hfrees]
      rfl

theorem opens_of_tracked (ht : q.trackedAs l w c) (hc : (∃ m, c = .shared m) ∨ ∃ o, c = .owned o) (hk : j.kind ≠ .scrub)
    (hwin : q.windowOf l = some v) (hjob : j.kind = .retire → j.window = some v) : q.maintAction j (setOf l) w = .openOn l := by
  have hplain : q.Plain (setOf l) w := ⟨by rw [ht.2.1]; rfl, by rw [ht.2.1]; rfl, by rw [ht.2.1]; rfl⟩
  have hline : q.recordLine (setOf l) w = some l := by
    rw [hplain.record, ht.2.1]
    exact congrArg some (lineOf_keyOf_setOf l)
  have hcontent : q.wayContent (setOf l) w = some c := wayContent_of_tracked ht
  unfold State.maintAction
  cases hkind : j.kind with
  | scrub => exact absurd hkind hk
  | flush =>
    unfold State.flushAction
    rw [hline, hcontent]
    rcases hc with ⟨m, rfl⟩ | ⟨o, rfl⟩ <;> rfl
  | retire =>
    have hspans : (q.getWindow v).spans l = true := by
      have hcontains : (q.getWindow v).contains l = true := List.find?_some (p := fun w => (q.getWindow w).contains l) hwin
      unfold Window.contains at hcontains
      exact (Bool.and_eq_true_iff.1 hcontains).2
    rw [hjob hkind]
    unfold State.retireAction
    rw [hline, hcontent]
    dsimp only
    rw [if_pos hspans]
    rcases hc with ⟨m, rfl⟩ | ⟨o, rfl⟩ <;> rfl

theorem allWays_split (w : WayIx) : ∃ pre post, allWays = pre ++ w :: post ∧ (∀ y ∈ pre, y ≠ w) ∧ (∀ y ∈ post, y ≠ w) ∧
    pre.length + post.length = 15 := by
  have hnodup := nodup_allWays
  have hlength := length_allWays
  obtain ⟨pre, post, hsplit⟩ := List.append_of_mem (mem_allWays w)
  rw [hsplit] at hnodup hlength
  have hpost := (List.nodup_cons.1 (List.nodup_append.1 hnodup).2.1).1
  have hpre := (List.nodup_append.1 hnodup).2.2
  refine ⟨pre, post, hsplit, fun y hy => hpre y hy w List.mem_cons_self, fun y hy h => hpost (h ▸ hy), ?_⟩
  rw [List.length_append, List.length_cons] at hlength
  omega

theorem maintRecall_of_walk {a : MaintKind} (h : a ≠ .scrub) : (maintRecall a).kind.recall = true ∧ (maintRecall a).pending = none ∧
    (maintRecall a).rebuild = none ∧ (maintRecall a).memWait = .noWait ∧ (maintRecall a).kind ≠ .leaveRecall ∧
    (maintRecall a).repair = false := by
  cases a with
  | scrub => exact absurd rfl h
  | retire => exact ⟨rfl, rfl, rfl, rfl, nofun, rfl⟩
  | flush => exact ⟨rfl, rfl, rfl, rfl, nofun, rfl⟩

/-- A RETIRE or FLUSH job at the only tracked way of its set: its recall opens, and the step goes on. -/
theorem event_openingStep (h : s.Quiet) (hd : dirWf s.dir = true) (hm : s.maint = some j) (htakes : j.Takes (setOf l))
    (hs : s.soundSet (setOf l)) (hu : s.unheldSet (setOf l)) (ht : s.trackedAs l w c) (hkeep : s.keepsContent c) (hne : m ≠ 0#8)
    (hc : c = .shared m ∨ ∃ o, c = .owned o ∧ m = NodeSet.single o)
    (hothers : ∀ y, y ≠ w → ∀ k o, (s.getWay (setOf l) y).body.stored.content ≠ .shared k ∧
      (s.getWay (setOf l) y).body.stored.content ≠ .owned o ∧
      (j.kind = .retire → (s.getWay (setOf l) y).body.stored.content ≠ .poisoned))
    (halone : s.onLine l = []) (hwin : s.windowOf l = some v) (hdirect : (s.getWindow v).kind ≠ .direct)
    (hjob : j.kind = .retire → j.window = some v) (hslots : 3 ≤ s.freeSlots) (hfree : s.lowestFree = some u)
    (hroom : s.orderQ.length + (NodeSet.toList m).length ≤ 64) (hlt : j.nextSet < 2047) :
    s.event (s.atWays allWays, []) = .next (State.driveEventN
      { s.recallOpened u (maintRecall j.kind) l v w c m with maint := some { j.moved with openCount := j.openCount + 1 } }) := by
  obtain ⟨pre, post, hsplit, hpre, hpost, hlength⟩ := allWays_split w
  have hc' : (∃ m, c = .shared m) ∨ ∃ o, c = .owned o := hc.imp (fun hc => ⟨m, hc⟩) fun ⟨o, hc, _⟩ => ⟨o, hc⟩
  let j' : MaintJob := { j with openCount := j.openCount + 1 }
  let x : Slot := maintRecall j.kind
  let r : State := s.recallOpened u x l v w c m
  let r' : State := { r with maint := some j' }
  obtain ⟨hxrecall, hxsent, hxplain, hxwait, hxleave, hxrepair⟩ := maintRecall_of_walk htakes.kind
  have hfrom : ∀ p : State, p.recallFrom ((x.opensOn l v).taken w c) = m := fun p => by
    have hnamed : p.recallFrom ((x.opensOn l v).taken w c) = (match some c with
        | some (.shared m) => m
        | some (.owned o) => NodeSet.single o
        | _ => 0#8) := by
      unfold State.recallFrom
      rw [show ((x.opensOn l v).taken w c).repair = false from hxrepair]
      dsimp only
      rw [if_neg Bool.false_ne_true]
      split
      · rename_i hk
        exact absurd hk hxleave
      · rfl
    rw [hnamed]
    rcases hc with rfl | ⟨o, rfl, rfl⟩ <;> rfl
  have hskip : ∀ p : State, (∀ y, y ≠ w → p.getWay (setOf l) y = s.getWay (setOf l) y) → ∀ b : MaintJob, b.kind = j.kind →
      ∀ y, y ≠ w → p.maintAction b (setOf l) y = .skip := fun p hp b hb y hy =>
    skips_of_plain ((plain_of_sound hs hu y).same (hp y hy)) (by rw [hp y hy, hb]; exact hothers y hy) (by rw [hb]; exact htakes.kind)
  have hset : s.maintSet j = setOf l := htakes.set
  have hset' : r'.maintSet j' = setOf l := MaintJob.Takes.set (j := j') ⟨htakes.kind, htakes.going, htakes.next⟩
  have hway : ∀ y, y ≠ w → r'.getWay (setOf l) y = s.getWay (setOf l) y := fun y hy => getWay_putWay_of_ne hd hy _
  have hquiet : r.Quiet := by
    show (s.recallOpened u x l v w c m).Quiet
    rw [recallOpened_eq v hc' x hxwait]
    exact (h.putWay (setOf l) w (heldWay l c u)).slotted rfl hxplain
  have hfinal : State.Quiet { r with maint := some { j.moved with openCount := j.openCount + 1 } } :=
    hquiet.withMaint rfl ((moved_goes j).imp_right .inl) rfl
  have hready : (s.atWays allWays).maintReady = true := by
    obtain ⟨y, ws, hways⟩ := allWays_cons
    exact maintReady_of_action (q := s.atWays allWays) (w := y) (ws := ws) hm (congrArg some hways)
      (.inl (show s.walkRoom = true from decide_eq_true hslots))
  have haction : (s.atWays (w :: post)).maintAction j ((s.atWays (w :: post)).maintSet j) w = .openOn l := by
    rw [show (s.atWays (w :: post)).maintSet j = setOf l from hset]
    exact opens_of_tracked (q := s.atWays (w :: post)) ht hc' htakes.kind hwin hjob
  have hend : (r'.atWays []).endMaintStep j' = { r with maint := some { j.moved with openCount := j.openCount + 1 } } := by
    rw [endMaintStep_stepped (j := j') htakes.kind, stepped_of_lt (j := j') htakes.going hlt]
    have hstep : r.maintStep = none := hquiet.noMaintStep
    have heta : ({ r with maintStep := none } : State) = r := by rw [← hstep]
    exact congrArg (fun t : State => { t with maint := some j'.moved }) heta
  have htail : drain (post.length + (1 + 1)) (r'.atWays post) [.maintCursor, .settle] =
      some { r with maint := some { j.moved with openCount := j.openCount + 1 } } := by
    have hrest := drain_cursorSkips (t := r') (j := j') (k := 1 + 1) (us := [.settle]) post [] rfl
      (fun y hy => by rw [hset']; exact hskip r' hway j' rfl y (hpost y hy))
      (drain_cursorEnds (t := r') (j := j') (k := 1) rfl (by rw [hend]; exact drain_settle (Quiet_settled hfinal) 0))
    rw [List.append_nil] at hrest
    exact hrest
  have hopen := drain_openRecall (s := { s.atWays post with maint := some j' }) (x := x) (u := u) (us := [.maintCursor, .settle])
    (k := post.length + (1 + 1)) ⟨h.noHeldOrder, h.noHeldAnswer⟩ hxrecall hxsent hxplain hxwait hfree halone hwin hdirect
    (frozen_of_anyFrozen h.noFrozen (setOf l)) ht hc' hkeep.2.2 (fun p _ => hfrom p) hne hroom htail
  have hcursor := maintCursor_open (q := s.atWays (w :: post)) hm rfl haction hslots
  have hwalk := drain_cursorSkips (t := s) (j := j) (us := [.settle]) pre (w :: post) hm
    (fun y hy => by rw [hset]; exact hskip s (fun _ _ => rfl) j rfl y (hpre y hy))
    (drain_step (k := post.length + (1 + 1) + 2) hcursor (by rw [List.append_assoc]; exact hopen))
  rw [← hsplit] at hwalk
  refine event_of_drain (pre.length + (post.length + (1 + 1) + 2 + 1) + 1) (le_trans (by omega : _ ≤ 30) (by decide)) h.running ?_
  exact drain_settleStep (settleStep_maintReady (s := s.atWays allWays) h.walking h.noPurgeStep hready) hwalk

end

end Sys2Proof.Machine

/-! # Corrections and the SCRUB's step (O60) -/

namespace Sys2Proof.Machine

set_option Elab.async false

/-! ## Several corrections of one event (R144) -/

/-- What some corrections in a set leave: `n` more counted, and the limit's flag where the count reached it. -/
structure Corrects (i : SetIx) (n : Nat) (s t : State) : Prop where
  same : t = { s with dir := t.dir, counters := { s.counters with corrected := t.counters.corrected }, flags := t.flags }
  canonical : dirWf t.dir = true
  others : ∀ u, u ≠ i → t.getSet u = s.getSet u
  order : (t.getSet i).order = (s.getSet i).order
  frozen : (t.getSet i).frozen = (s.getSet i).frozen
  unfrozen : s.anyFrozen = false → t.anyFrozen = false
  count : t.counters.corrected.toNat = min 65535 (s.counters.corrected.toNat + n)
  flags : t.flags = if s.counters.corrected.toNat < s.limits.correctedLimit.toNat ∧
      s.limits.correctedLimit.toNat ≤ t.counters.corrected.toNat then s.flags ||| 0x0040#16 else s.flags

section
variable {s t u : State} {i : SetIx} {w : WayIx} {n m : Nat}

theorem corrects_refl (h : dirWf s.dir = true) : Corrects i 0 s s where
  same := rfl
  canonical := h
  others := fun _ _ => rfl
  order := rfl
  frozen := rfl
  unfrozen := id
  count := by
    have := s.counters.corrected.isLt
    omega
  flags := (if_neg (by omega)).symm

theorem Corrects.trans (h : Corrects i n s t) (h' : Corrects i m t u) : Corrects i (n + m) s u where
  same := by
    rw [h'.same, h.same]
  canonical := h'.canonical
  others := fun v hv => (h'.others v hv).trans (h.others v hv)
  order := h'.order.trans h.order
  frozen := h'.frozen.trans h.frozen
  unfrozen := fun hs => h'.unfrozen (h.unfrozen hs)
  count := by
    have hcount := h'.count
    rw [h.count] at hcount
    omega
  flags := by
    have hlimits : t.limits = s.limits := (congrArg State.limits h.same :)
    have hflags := h'.flags
    have h1 := h.count
    have h2 := h'.count
    have hlt := s.counters.corrected.isLt
    rw [hlimits, h.flags] at hflags
    rw [hflags]
    by_cases ha : s.counters.corrected.toNat < s.limits.correctedLimit.toNat ∧
        s.limits.correctedLimit.toNat ≤ t.counters.corrected.toNat
    · rw [if_pos ha, if_neg (by omega), if_pos (by omega)]
    · rw [if_neg ha]
      exact if_congr (by omega) rfl rfl

theorem satInc_toNat (c : BitVec 16) : (satInc c).toNat = min 65535 (c.toNat + 1) := by
  unfold satInc
  have hc := c.isLt
  split
  · rename_i h
    subst h
    rfl
  · rename_i h
    have hne : c.toNat ≠ 65535 := fun hn => h (BitVec.eq_of_toNat_eq hn)
    rw [BitVec.toNat_add, BitVec.toNat_ofNat]
    omega

theorem corrects_countCorrected (h : dirWf s.dir = true) (w : WayIx) (y : Way) :
    Corrects i 1 s (s.putWay i w y).countCorrected ∧ ∀ v, (s.putWay i w y).countCorrected.getSet v = (s.putWay i w y).getSet v := by
  have hset : (s.putWay i w y).getSet i = { s.getSet i with ways := (s.getSet i).ways.set w.val y w.isLt } := getSet_putWay_self h i w y
  have hwf : dirWf (s.putWay i w y).dir = true := dirPut_wf h
  have horder : ((s.putWay i w y).getSet i).order = (s.getSet i).order := (congrArg SetRec.order hset :)
  have hfrozen : ((s.putWay i w y).getSet i).frozen = (s.getSet i).frozen := (congrArg SetRec.frozen hset :)
  have hothers : ∀ v, v ≠ i → (s.putWay i w y).getSet v = s.getSet v := fun v hv => (getSet_putSet h i v _).trans (if_neg hv)
  have hcount := satInc_toNat s.counters.corrected
  by_cases hl : s.counters.corrected.toNat < s.limits.correctedLimit.toNat ∧
      s.limits.correctedLimit.toNat ≤ (satInc s.counters.corrected).toNat
  · have heq : (s.putWay i w y).countCorrected = { s.putWay i w y with
        counters := { s.counters with corrected := satInc s.counters.corrected }, flags := s.flags ||| 0x0040#16 } := if_pos hl
    rw [heq]
    exact ⟨⟨rfl, hwf, hothers, horder, hfrozen, fun hf => putWay_anyFrozen hf i w y, hcount,
      (if_pos hl).symm⟩, fun _ => rfl⟩
  · have heq : (s.putWay i w y).countCorrected = { s.putWay i w y with
        counters := { s.counters with corrected := satInc s.counters.corrected } } := if_neg hl
    rw [heq]
    exact ⟨⟨rfl, hwf, hothers, horder, hfrozen, fun hf => putWay_anyFrozen hf i w y, hcount,
      (if_neg hl).symm⟩, fun _ => rfl⟩

/-! ## Ways put right one after another -/

/-- A way put right and counted where a test calls for it. -/
def State.mendWay (i : SetIx) (f : Way → Way) (bad : Way → Bool) (s : State) (w : WayIx) : State :=
  if bad (s.getWay i w) then (s.putWay i w (f (s.getWay i w))).countCorrected else s

/-- A way as its correction leaves it. -/
def mended (f : Way → Way) (bad : Way → Bool) (y : Way) : Way := if bad y then f y else y

theorem mendWay_spec (h : dirWf s.dir = true) (f : Way → Way) (bad : Way → Bool) (w : WayIx) :
    Corrects i (if bad (s.getWay i w) then 1 else 0) s (s.mendWay i f bad w) ∧
      ∀ v, (s.mendWay i f bad w).getWay i v = if v = w then mended f bad (s.getWay i v) else s.getWay i v := by
  unfold State.mendWay mended
  by_cases hb : bad (s.getWay i w) = true
  · rw [if_pos hb, if_pos hb]
    obtain ⟨hcorrects, hsets⟩ := corrects_countCorrected (i := i) h w (f (s.getWay i w))
    refine ⟨hcorrects, fun v => ?_⟩
    have hway : ((s.putWay i w (f (s.getWay i w))).countCorrected).getWay i v = (s.putWay i w (f (s.getWay i w))).getWay i v :=
      congrArg (fun r : SetRec => r.ways[v]) (hsets i)
    rw [hway]
    by_cases hv : v = w
    · subst hv
      rw [if_pos rfl, if_pos hb]
      exact getWay_putWay_self h ..
    · rw [if_neg hv]
      exact getWay_putWay_of_ne h hv _
  · rw [if_neg hb, if_neg hb]
    refine ⟨corrects_refl h, fun v => ?_⟩
    by_cases hv : v = w
    · subst hv
      rw [if_pos rfl, if_neg hb]
    · rw [if_neg hv]

theorem foldl_mendWay (f : Way → Way) (bad : Way → Bool) (ws : List WayIx) (hnodup : ws.Nodup) :
    ∀ s : State, dirWf s.dir = true →
      Corrects i (ws.countP (fun w => bad (s.getWay i w))) s (ws.foldl (State.mendWay i f bad) s) ∧
      ∀ v, (ws.foldl (State.mendWay i f bad) s).getWay i v = if v ∈ ws then mended f bad (s.getWay i v) else s.getWay i v := by
  induction ws with
  | nil => exact fun s h => ⟨corrects_refl h, fun v => (if_neg List.not_mem_nil).symm⟩
  | cons w ws ih =>
    intro s h
    obtain ⟨hw, hnodup⟩ := List.nodup_cons.1 hnodup
    obtain ⟨hfirst, hway⟩ := mendWay_spec (i := i) h f bad w
    obtain ⟨hrest, hways⟩ := ih hnodup (State.mendWay i f bad s w) hfirst.canonical
    have hkept : ∀ v, v ≠ w → (State.mendWay i f bad s w).getWay i v = s.getWay i v := fun v hv => (hway v).trans (if_neg hv)
    have hcount : ws.countP (fun v => bad ((State.mendWay i f bad s w).getWay i v)) = ws.countP (fun v => bad (s.getWay i v)) :=
      List.countP_congr fun v hv => by rw [hkept v fun he => hw (he ▸ hv)]
    rw [hcount] at hrest
    have htotal : (w :: ws).countP (fun v => bad (s.getWay i v)) =
        (if bad (s.getWay i w) then 1 else 0) + ws.countP (fun v => bad (s.getWay i v)) := by
      rw [List.countP_cons, Nat.add_comm]
    refine ⟨by rw [htotal]; exact hfirst.trans hrest, fun v => ?_⟩
    rw [List.foldl_cons, hways]
    by_cases hv : v = w
    · subst hv
      rw [if_neg hw, if_pos List.mem_cons_self, hway, if_pos rfl]
    · rw [hkept v hv]
      simp only [List.mem_cons, hv, false_or]

/-! ## Bodies and keys -/

/-- Whether a code is CORRECTABLE. -/
def Coded.mends {α : Type} (c : Coded α) : Bool :=
  match c.check with
  | .correctable _ => true
  | _ => false

/-- A code put right. -/
def Coded.right {α : Type} (c : Coded α) : Coded α :=
  match c.check with
  | .correctable v => coded v
  | _ => c

theorem right_view {α : Type} [DecidableEq α] {c : Coded α} (h : c.check ≠ .uncorrectable) :
    some c.right.stored = c.view ∧ c.right.check = .good ∧ c.mends = (c.check != .good) := by
  unfold Coded.right Coded.view Coded.mends
  cases hc : c.check with
  | good => exact ⟨rfl, hc, rfl⟩
  | correctable v => exact ⟨rfl, rfl, rfl⟩
  | uncorrectable => exact absurd hc h

theorem right_of_sound {α : Type} {c : Coded α} (h : c.mends = false) : c.right = c := by
  unfold Coded.mends at h
  unfold Coded.right
  cases hc : c.check with
  | correctable v =>
    rw [hc] at h
    cases h
  | _ => rfl

theorem mends_of_correctable {α : Type} {c : Coded α} {a : α} (h : c.check = .correctable a) : c.mends = true ∧ c.right = coded a := by
  unfold Coded.mends Coded.right
  rw [h]
  exact ⟨rfl, rfl⟩

theorem mends_of_other {α : Type} {c : Coded α} (h : ∀ a, c.check ≠ .correctable a) : c.mends = false := by
  unfold Coded.mends
  split
  · rename_i a hc
    exact absurd hc (h a)
  · rfl

theorem correctBody_eq (i : SetIx) :
    State.correctBody i = State.mendWay i (fun y => { y with body := y.body.right }) (fun y => y.body.mends) := by
  funext s w
  unfold State.correctBody State.mendWay
  dsimp only
  split
  · rename_i b hc
    obtain ⟨hmends, hright⟩ := mends_of_correctable hc
    rw [if_pos hmends, hright]
  · rename_i hc
    rw [if_neg (Bool.eq_false_iff.1 (mends_of_other hc))]

theorem correctKey_eq (i : SetIx) :
    State.correctKey i = State.mendWay i (fun y => { y with key := y.key.right }) (fun y => y.key.mends) := by
  funext s w
  unfold State.correctKey State.mendWay
  dsimp only
  split
  · rename_i b hc
    obtain ⟨hmends, hright⟩ := mends_of_correctable hc
    rw [if_pos hmends, hright]
  · rename_i hc
    rw [if_neg (Bool.eq_false_iff.1 (mends_of_other hc))]

theorem mended_body (y : Way) : mended (fun y => { y with body := y.body.right }) (fun y => y.body.mends) y =
    { y with body := y.body.right } := by
  by_cases hmends : y.body.mends = true
  · exact if_pos hmends
  · refine (if_neg hmends).trans ?_
    rw [right_of_sound (Bool.eq_false_iff.2 hmends)]

theorem mended_key (y : Way) : mended (fun y => { y with key := y.key.right }) (fun y => y.key.mends) y =
    { y with key := y.key.right } := by
  by_cases hmends : y.key.mends = true
  · exact if_pos hmends
  · refine (if_neg hmends).trans ?_
    rw [right_of_sound (Bool.eq_false_iff.2 hmends)]

/-- Every key and body of a set read, none of them UNCORRECTABLE. -/
theorem readWholeSet_corrects (h : dirWf s.dir = true)
    (hgood : ∀ w, (s.getWay i w).key.check ≠ .uncorrectable ∧ (s.getWay i w).body.check ≠ .uncorrectable) :
    Corrects i (allWays.countP (fun w => (s.getWay i w).body.check != .good) +
        allWays.countP (fun w => (s.getWay i w).key.check != .good)) s (s.readWholeSet i) ∧
      ∀ w, (s.readWholeSet i).getWay i w = ⟨(s.getWay i w).key.right, (s.getWay i w).body.right⟩ := by
  have hbodies := foldl_mendWay (i := i) (fun y => { y with body := y.body.right }) (fun y => y.body.mends) allWays nodup_allWays s h
  rw [← correctBody_eq] at hbodies
  obtain ⟨hb, hbway⟩ := hbodies
  have hkeys := foldl_mendWay (i := i) (fun y => { y with key := y.key.right }) (fun y => y.key.mends) allWays nodup_allWays _
    hb.canonical
  rw [← correctKey_eq] at hkeys
  obtain ⟨hk, hkway⟩ := hkeys
  have hway : ∀ w, (allWays.foldl (State.correctBody i) s).getWay i w = { s.getWay i w with body := (s.getWay i w).body.right } :=
    fun w => (hbway w).trans ((if_pos (mem_allWays w)).trans (mended_body _))
  have hcount := hb.trans hk
  rw [List.countP_congr (fun w _ => by rw [(right_view (hgood w).2).2.2] : ∀ w ∈ allWays, (s.getWay i w).body.mends = true ↔
      ((s.getWay i w).body.check != .good) = true),
    List.countP_congr (fun w _ => by rw [hway w, (right_view (hgood w).1).2.2] : ∀ w ∈ allWays,
      ((allWays.foldl (State.correctBody i) s).getWay i w).key.mends = true ↔ ((s.getWay i w).key.check != .good) = true)] at hcount
  exact ⟨hcount, fun w => (hkway w).trans ((if_pos (mem_allWays w)).trans ((mended_key _).trans (by rw [hway w])))⟩

end

end Sys2Proof.Machine

/-! # The SCRUB's step, and O60 settled -/

namespace Sys2Proof.Machine

set_option Elab.async false

section
variable {s t q : State} {i : SetIx} {w y : WayIx} {j : MaintJob} {v : WinIx} {u : SlotIx} {l : Line} {k : Nat} {z : State}

/-! ## The SCRUB (R168) -/

/-- The SCRUB's job between its steps, at a position. -/
def MaintJob.scrubbed (j : MaintJob) (p : SetIx) (k : Nat) : MaintJob := { j with nextSet := p.val, interval := some k }

/-- The position behind the scrub's. -/
def nextPos (p : SetIx) : SetIx := ⟨(p.val + 1) % 2048, Nat.mod_lt _ (by decide)⟩

theorem exec_scrubIntervalExpiry (h : s.Quiet) (hm : s.maint = some j) (hk : j.kind = .scrub) (hi : j.interval = some k) :
    exec .scrubIntervalExpiry s = s.event (s.beginScrubStep j) := by
  show s.event (match s.maint with
    | some j =>
      if j.kind = .scrub ∧ s.maintStep.isNone = true ∧ j.interval.isSome = true then s.beginScrubStep j else (s, [])
    | none => (s, [])) = _
  rw [hm]
  dsimp only
  rw [if_pos ⟨hk, by rw [h.noMaintStep]; rfl, by rw [hi]; rfl⟩]

theorem beginScrubStep_of_readable (hk : j.kind = .scrub) (hu : s.unheldSet s.scrubPos)
    (hsound : (s.readWholeSet s.scrubPos).soundSet s.scrubPos) : s.beginScrubStep j =
      ({ s.readWholeSet s.scrubPos with maintStep := some allWays, maint := some { j with interval := none } }, []) := by
  have hset : s.maintSet j = s.scrubPos := by
    unfold State.maintSet
    rw [hk]
  have hways : allWays.filter (fun w => !(s.wayHeld s.scrubPos w)) = allWays :=
    List.filter_eq_self.2 fun w _ => by
      unfold State.wayHeld
      rw [hu w]
      rfl
  have hread : (s.correctBodies s.scrubPos allWays).correctKeys s.scrubPos allWays = s.readWholeSet s.scrubPos := rfl
  have hdamaged := damagedKeys_of_sound hsound allWays
  have hnote : (s.readWholeSet s.scrubPos).noteDamagedKeys s.scrubPos allWays = s.readWholeSet s.scrubPos := by
    unfold State.noteDamagedKeys
    rw [hdamaged]
  unfold State.beginScrubStep
  dsimp only
  rw [hset, hways, hread, hnote, hdamaged]
  rfl

/-- The part with the scrub moved on from a position. -/
def State.scrubMoved (s : State) (j : MaintJob) (p : SetIx) (k : Nat) : State :=
  { s with maintStep := none, scrubPos := nextPos p, maint := some (j.scrubbed (nextPos p) k) }

theorem endMaintStep_scrub (hk : j.kind = .scrub) :
    s.endMaintStep j = s.scrubMoved j s.scrubPos s.limits.scrubInterval.toNat := by
  obtain ⟨kind, window, run, nextSet, owed, openCount, interval, walked⟩ := j
  cases hk
  rfl

/-- What the end of a job leaves of a part that differs from another in a few fields. -/
theorem endMaint_frame {d : List (SetIx × SetRec)} {m : Option MaintJob} {f : BitVec 16} (hq : q = { s with dir := d, maint := m, flags := f })
    (hstep : s.maintStep = none) : q.endMaint =
      { s with dir := q.endMaint.dir, slots := q.endMaint.slots, maint := s.nextMaint, flags := f } := by
  subst hq
  rw [endMaint_eq]
  obtain ⟨⟩ := s
  dsimp only at hstep
  subst hstep
  rfl

/-- A part that stays quiet as its SCRUB moves on. -/
theorem State.Quiet.scrubbed (h : s.Quiet) (hm : s.maint = some j) {b : MaintJob} (hb : b.kind = j.kind ∧ b.run = j.run ∧
    b.openCount = j.openCount ∧ b.walked = j.walked) (hfrozen : q.anyFrozen = false) (hslots : q.slots = s.slots)
    (hq : q.maint = some b) (hstep : q.maintStep = none) (hrest : q.resetN = s.resetN ∧ q.purgeStep = s.purgeStep ∧
      q.orderHeld = s.orderHeld ∧ q.answerHeld = s.answerHeld ∧ q.purgeJobs = s.purgeJobs) : q.Quiet := by
  obtain ⟨hreset, hpurge, ho, ha, hjobs⟩ := hrest
  obtain ⟨hkind, hrun, hcount, hwalked⟩ := hb
  refine ⟨hreset.trans h.running, ?_, hfrozen, hpurge.trans h.noPurgeStep, hstep, ho.trans h.noHeldOrder, ha.trans h.noHeldAnswer,
    ?_, ?_⟩
  · unfold State.slotsWith State.getSlot
    rw [hslots]
    exact h.noRebuild
  · have he := (maintEnding_none_iff s).1 h.noEnding j hm
    rw [h.noFrozen] at he
    rw [maintEnding_none_iff]
    intro b' hb'
    rw [hq] at hb'
    cases hb'
    rw [hkind, hrun, hcount, hwalked, hfrozen]
    exact he
  · have hd := h.noDone
    unfold State.doneNode State.purgeDone State.getJob at hd ⊢
    rw [hjobs, hfrozen]
    rw [h.noFrozen] at hd
    exact hd

/-- A SCRUB step on a set none of whose ways is held or UNCORRECTABLE. -/
theorem event_scrubStep (h : s.Quiet) (hd : dirWf s.dir = true) (hm : s.maint = some j) (hk : j.kind = .scrub)
    (hu : s.unheldSet s.scrubPos) (hgood : ∀ w, (s.getWay s.scrubPos w).key.check ≠ .uncorrectable ∧
      (s.getWay s.scrubPos w).body.check ≠ .uncorrectable) :
    s.event (s.beginScrubStep j) = .next (State.driveEventN { s.readWholeSet s.scrubPos with
      scrubPos := nextPos s.scrubPos
      maint := some (j.scrubbed (nextPos s.scrubPos) s.limits.scrubInterval.toNat) }) := by
  obtain ⟨hcorrects, hways⟩ := readWholeSet_corrects (i := s.scrubPos) hd hgood
  have hsound : (s.readWholeSet s.scrubPos).soundSet s.scrubPos := fun w => by
    rw [hways w]
    exact ⟨(right_view (hgood w).1).2.1, (right_view (hgood w).2).2.1⟩
  have hsame := hcorrects.same
  have hbegin := beginScrubStep_of_readable hk hu hsound
  have hfrozen := hcorrects.unfrozen h.noFrozen
  generalize s.readWholeSet s.scrubPos = r at *
  let j0 : MaintJob := { j with interval := none }
  let r0 : State := { r with maint := some j0 }
  have hpos : r0.scrubPos = s.scrubPos := (congrArg State.scrubPos hsame :)
  have hset : r0.maintSet j0 = s.scrubPos := by
    unfold State.maintSet
    rw [show j0.kind = .scrub from hk]
    exact hpos
  have hskip : ∀ p : State, p.dir = r.dir → ∀ w, p.maintAction j0 s.scrubPos w = .skip := fun p hp w => by
    have hview : (p.bodyView s.scrubPos w).isSome = true := by
      have hbody := bodyView_of_sound hsound w
      unfold State.bodyView State.getWay State.getSet at hbody ⊢
      rw [hp, hbody]
      rfl
    unfold State.maintAction
    rw [show j0.kind = .scrub from hk]
    exact if_pos (.inr hview)
  have hwalking : (r0.atWays allWays).Walking := ⟨by
    unfold State.slotsWith State.getSlot
    rw [show (r0.atWays allWays).slots = s.slots from (congrArg State.slots hsame :)]
    exact h.noRebuild, hfrozen⟩
  have hready : (r0.atWays allWays).maintReady = true := by
    obtain ⟨y, ws, hcons⟩ := allWays_cons
    refine maintReady_of_action (q := r0.atWays allWays) (w := y) (ws := ws) (j := j0) rfl (congrArg some hcons) (.inr ?_)
    rw [show (r0.atWays allWays).maintSet j0 = s.scrubPos from hset, hskip (r0.atWays allWays) rfl y]
    rfl
  have hpurge : (r0.atWays allWays).purgeStep = none := (congrArg State.purgeStep hsame :).trans h.noPurgeStep
  have hstep : r.maintStep = none := (congrArg State.maintStep hsame :).trans h.noMaintStep
  let r1 : State := { r with
    scrubPos := nextPos s.scrubPos, maint := some (j.scrubbed (nextPos s.scrubPos) s.limits.scrubInterval.toNat) }
  have hend : (r0.atWays []).endMaintStep j0 = r1 := by
    have hlimits : r.limits = s.limits := (congrArg State.limits hsame :)
    have heta : ({ r with maintStep := none } : State) = r := by rw [← hstep]
    rw [endMaintStep_scrub (j := j0) hk, show (r0.atWays []).scrubPos = s.scrubPos from hpos,
      show (r0.atWays []).limits = s.limits from hlimits]
    have hmoved := congrArg (fun p : State => { p with
      scrubPos := nextPos s.scrubPos, maint := some (j.scrubbed (nextPos s.scrubPos) s.limits.scrubInterval.toNat) }) heta
    exact hmoved
  have hquiet : r1.Quiet := h.scrubbed hm (b := j.scrubbed (nextPos s.scrubPos) s.limits.scrubInterval.toNat) ⟨rfl, rfl, rfl, rfl⟩ hfrozen
    (congrArg State.slots hsame :) rfl hstep ⟨(congrArg State.resetN hsame :), (congrArg State.purgeStep hsame :),
      (congrArg State.orderHeld hsame :), (congrArg State.answerHeld hsame :), (congrArg State.purgeJobs hsame :)⟩
  have hcursor := drain_cursorSkips (t := r0) (j := j0) (k := 1 + 1) (us := [.settle]) allWays [] rfl
    (fun w _ => by rw [hset]; exact hskip r0 rfl w)
    (drain_cursorEnds (t := r0) (j := j0) (k := 1) rfl (by rw [hend]; exact drain_settle (Quiet_settled hquiet) 0))
  rw [List.append_nil] at hcursor
  rw [hbegin]
  refine event_of_drain (allWays.length + (1 + 1) + 1) (le_trans (by rw [length_allWays]) (by decide : 19 ≤ _)) h.running ?_
  exact drain_settleStep (settleStep_maintReady (s := r0.atWays allWays) hwalking hpurge hready) hcursor

theorem Corrects.frame {n : Nat} (h : Corrects i n s t) : t = { s with dir := t.dir, counters := t.counters, flags := t.flags } := by
  have hcounters : t.counters = { s.counters with corrected := t.counters.corrected } := (congrArg State.counters h.same :)
  have hframe := h.same
  rw [← hcounters] at hframe
  exact hframe

/-- A FLUSH job's walk is over with recalls still open. -/
theorem drain_finishedWalk {a : MaintJob} (h : s.Quiet) (ha : a = { j with run := .finishing }) (hk : ¬ a.kind = .retire)
    (ho : a.openCount ≠ 0) : drain 2 { s with maint := some a } [.settle] = some { s with maint := some { a with walked := true } } := by
  have hquiet : State.Quiet { s with maint := some { a with walked := true } } :=
    h.withMaint rfl (.inr (.inr ⟨by rw [ha], hk, ho, rfl⟩)) rfl
  by_cases hw : a.walked = true
  · have hsame : ({ a with walked := true } : MaintJob) = a := by rw [← hw]
    rw [hsame] at hquiet ⊢
    exact drain_settle (Quiet_settled hquiet) 1
  · refine drain_maintEnding h rfl ?_ (Quiet_settled hquiet)
    rw [maintEnding_finished (q := { s with maint := some a }) (j := a) rfl (by rw [ha]) h.noFrozen]
    cases hkind : a.kind with
    | retire => exact absurd hkind hk
    | flush => exact (if_neg ho).trans (if_neg hw)
    | scrub => exact (if_neg ho).trans (if_neg hw)

end

/-- Settles O60: the cursor's way through the set frees, opens or skips, way by way; the SCRUB's reads put the codes right. -/
theorem maintenanceSetSteps : Obligations.MaintenanceSetSteps := by
  intro s j h hd hm
  refine ⟨fun i hkind hrun hnext hsound hunheld => ?_, fun k hkind hinterval hunheld hgood => ?_⟩
  · intro content freed moved uncounted
    have ht : j.Takes i := ⟨hkind, hrun, hnext⟩
    have hlast : j.nextSet < 2047 ∨ j.nextSet = 2047 := by
      have := i.isLt
      omega
    have hexec := exec_setStep h hm ht hsound
    refine ⟨fun hcontent => ⟨fun v hk hwin => ?_, fun hk => ?_⟩, ?_⟩
    · rw [if_pos hk] at hexec
      have hfrees := cursorFrees_retire hk hwin hsound hunheld hcontent
      have hquiet := h.freeWays hd.1 i (freed v) allWays
      obtain ⟨hsame, -, hways, hothers, hfrozen, horder⟩ := freeWays_spec i (freed v) allWays s hd.1
      have hways' : ∀ w, (s.freeWays i (freed v) allWays).getWay i w = if freed v w then freeWay else s.getWay i w := fun w => by
        rw [hways]
        simp only [mem_allWays, true_and]
      rcases hlast with hlt | heq
      · refine ⟨_, hexec.trans (event_freeingStep_mid h hd.1 hm ht hfrees hlt), hways', horder, hfrozen, hothers, fun _ => ?_,
          fun he => absurd he (by omega)⟩
        exact (congrArg (fun p : State => State.driveEventN { p with maint := some moved }) hsame :)
      · let u : State := s.freeWays i (freed v) allWays
        let q : State := { u with maint := some j.stepped }
        let r : State := (q.walkFinished (some v)).raise .maintDone
        have hending : q.maintEnding = some r.endMaint := by
          rw [maintEnding_finished (q := q) (j := j.stepped) rfl (by rw [stepped_of_last heq]) hquiet.noFrozen,
            show j.stepped.kind = .retire from hk, show j.stepped.window = some v from hwin]
        have hsettled : r.endMaint.settled = true := Quiet_settled (hquiet.endMaint rfl rfl rfl rfl rfl rfl rfl)
        have hevent := event_freeingStep (k := 2) h hd.1 hm ht hfrees (by decide) (drain_maintEnding hquiet rfl hending hsettled)
        have hdir : r.endMaint.dir = u.dir := (congrArg State.dir (endMaint_eq r) :)
        have hgetSet : ∀ a, r.endMaint.getSet a = u.getSet a := fun a => by
          unfold State.getSet
          rw [hdir]
        have hgetWay : ∀ w, r.endMaint.getWay i w = u.getWay i w := fun w => congrArg (fun b : SetRec => b.ways[w]) (hgetSet i)
        refine ⟨_, hexec.trans hevent, fun w => (hgetWay w).trans (hways' w), ?_, ?_, fun a ha => (hgetSet a).trans (hothers a ha),
          fun hlt => absurd hlt (by omega), fun _ => ⟨fun a => ?_, ?_⟩⟩
        · exact (congrArg SetRec.order (hgetSet i)).trans horder
        · exact (congrArg SetRec.frozen (hgetSet i)).trans hfrozen
        · refine (getSlot_endMaint r a).trans (congrArg (Option.map _) ?_)
          exact (congrArg (fun p : State => p.getSlot a) hsame :)
        · have hfinal : r.endMaint = { s.modWindow v (fun r => if r.openCount = 0 then { r with state := .closed, progress := none }
                else { r with progress := some .draining }) with
              dir := r.endMaint.dir, slots := r.endMaint.slots, maint := s.nextMaint, flags := s.flags ||| 0x0800#16 } := by
            have hu : u = { s with dir := u.dir } := hsame
            have hr : r = { s.modWindow v (fun r => if r.openCount = 0 then { r with state := .closed, progress := none }
                else { r with progress := some .draining }) with
              dir := u.dir, maint := some j.stepped, flags := s.flags ||| 0x0800#16 } :=
              (congrArg (fun p : State => ({ p with maint := some j.stepped } : State).walkFinished (some v) |>.raise .maintDone) hu :)
            exact endMaint_frame (s := s.modWindow v _) hr h.noMaintStep
          exact (congrArg State.driveEventN hfinal :)
    · have hflush : ¬ j.kind = .retire := by rw [hk]; nofun
      rw [if_neg hflush] at hexec
      have hfrees := cursorFrees_flush hk hsound hunheld hcontent
      have hkind' : j.stepped.kind = .flush := hk
      refine ⟨fun hlt => ?_, fun heq hopen => ?_, fun heq hopen => ?_⟩
      · have hevent := event_freeingStep_mid h hd.1 hm ht hfrees hlt
        rw [freeWays_noTest] at hevent
        exact hexec.trans hevent
      · have hrest : drain 2 { s.freeWays i (fun _ => false) allWays with maint := some j.stepped } [.settle] =
            some { s with maint := some { moved with run := .finishing, walked := true } } := by
          have hwalk := drain_finishedWalk h (stepped_of_last heq) hflush (Nat.pos_iff_ne_zero.1 hopen)
          rw [stepped_of_last heq] at hwalk ⊢
          rw [freeWays_noTest]
          exact hwalk
        exact hexec.trans (event_freeingStep (k := 2) h hd.1 hm ht hfrees (by decide) hrest)
      · let q : State := { s with maint := some j.stepped }
        have hending : q.maintEnding = some (q.raise .maintDone).endMaint := by
          rw [maintEnding_finished (q := q) (j := j.stepped) rfl (by rw [stepped_of_last heq]) h.noFrozen, hkind']
          exact if_pos hopen
        have hsettled : (q.raise .maintDone).endMaint.settled = true := Quiet_settled (h.endMaint rfl rfl rfl rfl rfl rfl rfl)
        have hrest : drain 2 { s.freeWays i (fun _ => false) allWays with maint := some j.stepped } [.settle] =
            some (q.raise .maintDone).endMaint := by
          rw [freeWays_noTest]
          exact drain_maintEnding h rfl hending hsettled
        refine ⟨_, hexec.trans (event_freeingStep (k := 2) h hd.1 hm ht hfrees (by decide) hrest), fun a => getSlot_endMaint _ a, ?_⟩
        have hframe := endMaint_frame (q := q.raise .maintDone) (s := s) rfl h.noMaintStep
        have hdir : (q.raise .maintDone).endMaint.dir = s.dir := (congrArg State.dir (endMaint_eq (q.raise .maintDone)) :)
        rw [hdir] at hframe
        exact (congrArg State.driveEventN hframe :)
    · intro l w c v u m hl htracked hkeep hm0 hc hothers halone hwin hdirect hjob hslots hfree hroom hlt step kind
      subst hl
      have hkind' : maintRecall j.kind = { newSlot kind with counted := true } := by
        show maintRecall j.kind = { newSlot (if j.kind = .retire then .retireRecall else .flushRecall) with counted := true }
        cases hk : j.kind with
        | retire => rfl
        | flush => rfl
        | scrub => exact absurd hk hkind
      have hevent := event_openingStep h hd.1 hm ht hsound hunheld htracked hkeep hm0 hc hothers halone hwin hdirect hjob hslots hfree
        hroom hlt
      rw [hkind'] at hevent
      exact hexec.trans hevent
  · obtain ⟨hcorrects, hways⟩ := readWholeSet_corrects (i := s.scrubPos) hd.1 hgood
    refine ⟨_, (exec_scrubIntervalExpiry h hm hkind hinterval).trans (event_scrubStep h hd.1 hm hkind hunheld hgood), fun w => ?_,
      fun w => ?_, hcorrects.order, hcorrects.frozen, hcorrects.others, ?_, ?_, hcorrects.flags, rfl, rfl, ?_⟩
    · have hway := hways w
      exact ⟨(congrArg (fun y : Way => some y.body.stored) hway).trans (right_view (hgood w).2).1,
        (congrArg (fun y : Way => some y.key.stored) hway).trans (right_view (hgood w).1).1⟩
    · have hway := hways w
      exact ⟨(congrArg (fun y : Way => y.key.check) hway).trans (right_view (hgood w).1).2.1,
        (congrArg (fun y : Way => y.body.check) hway).trans (right_view (hgood w).2).2.1⟩
    · exact (congrArg State.counters hcorrects.same :)
    · rw [Nat.add_assoc]
      exact hcorrects.count
    · have hsame := congrArg (fun p : State => State.driveEventN { p with
        scrubPos := nextPos s.scrubPos
        maint := some (j.scrubbed (nextPos s.scrubPos) s.limits.scrubInterval.toNat) }) hcorrects.frame
      exact hsame

end Sys2Proof.Machine

/-! # Steps of the purge cursor (O59): the silent edits and the step's end -/

namespace Sys2Proof.Machine

set_option Elab.async false

theorem nodeSet_ext {a b : NodeSet} (h : ∀ n, NodeSet.has a n = NodeSet.has b n) : a = b :=
  BitVec.eq_of_getLsbD_eq fun i hi => h ⟨i, hi⟩

theorem has_zero (n : Node) : NodeSet.has 0#8 n = false := BitVec.getLsbD_zero

section
variable {s t q : State} {i : SetIx} {w y : WayIx} {n : Node} {p : NodeSet} {j : PurgeJob} {k : Nat} {us : List Task} {z : State}

/-! ## The beginning of a step -/

theorem exec_purgeSetStep (h : s.purgeStep = none) (hw : s.walkingNodes ≠ 0#8) : exec .purgeSetStep s = s.event s.beginPurgeStep := by
  show s.event (if s.purgeStep.isNone ∧ s.walkingNodes ≠ 0#8 then s.beginPurgeStep else (s, [])) = _
  rw [if_pos ⟨by rw [h]; rfl, hw⟩]

theorem beginPurgeStep_of_sound (h : s.soundSet s.purgePos) : s.beginPurgeStep =
    ({ s.silentEdit s.purgePos (s.nodesIn .silent s.walkingNodes) with
      purgeStep := some ⟨s.walkingNodes,
        purgeTodo ((s.silentEdit s.purgePos (s.nodesIn .silent s.walkingNodes)).nodesIn .messaging s.walkingNodes)⟩ }, []) := by
  have hnote : s.noteDamagedKeys s.purgePos allWays = s := by
    unfold State.noteDamagedKeys
    rw [damagedKeys_of_sound h]
  unfold State.beginPurgeStep
  dsimp only
  rw [readWholeSet_of_sound h, hnote]

theorem has_walkingNodes (s : State) (n : Node) : NodeSet.has s.walkingNodes n = (match s.getJob n with
    | some j => decide (0 < j.setsLeft)
    | none => false) := has_ofTest _ n

theorem has_nodesIn (s : State) (m : PurgeMode) (p : NodeSet) (n : Node) :
    NodeSet.has (s.nodesIn m p) n = (NodeSet.has p n && ((s.getJob n).map PurgeJob.mode == some m)) := has_ofTest _ n

/-! ## The end of a step -/

theorem endPurgeStep_foldl (ns : List Node) (hns : ns.Nodup) : ∀ s : State,
    (∃ v, ns.foldl (fun s n => s.putJob n ((s.getJob n).map (fun j => { j with setsLeft := j.setsLeft - 1 }))) s =
      { s with purgeJobs := v }) ∧
    ∀ m, (ns.foldl (fun s n => s.putJob n ((s.getJob n).map (fun j => { j with setsLeft := j.setsLeft - 1 }))) s).getJob m =
      if m ∈ ns then (s.getJob m).map (fun j => { j with setsLeft := j.setsLeft - 1 }) else s.getJob m := by
  induction ns with
  | nil => exact fun s => ⟨⟨s.purgeJobs, rfl⟩, fun m => (if_neg List.not_mem_nil).symm⟩
  | cons n ns ih =>
    intro s
    obtain ⟨hn, hns⟩ := List.nodup_cons.1 hns
    obtain ⟨⟨v, hv⟩, hget⟩ := ih hns (s.putJob n ((s.getJob n).map (fun j => { j with setsLeft := j.setsLeft - 1 })))
    refine ⟨⟨v, hv⟩, fun m => ?_⟩
    rw [List.foldl_cons, hget, getJob_putJob]
    by_cases hm : m = n
    · subst hm
      rw [if_neg hn, if_pos rfl, if_pos List.mem_cons_self]
    · rw [if_neg hm]
      simp only [List.mem_cons, hm, false_or]

theorem nodup_toList (p : NodeSet) : (NodeSet.toList p).Nodup := (List.nodup_finRange 8).filter _

/-- The end of a step: a set less for each job that took part, and the position moves on. -/
theorem endPurgeStep_spec (s : State) (p : NodeSet) :
    s.endPurgeStep p = { s with purgeJobs := (s.endPurgeStep p).purgeJobs, purgePos := nextPos s.purgePos, purgeStep := none } ∧
    ∀ n, (s.endPurgeStep p).getJob n =
      if NodeSet.has p n = true then (s.getJob n).map (fun j => { j with setsLeft := j.setsLeft - 1 }) else s.getJob n := by
  obtain ⟨⟨v, hv⟩, hget⟩ := endPurgeStep_foldl (NodeSet.toList p) (nodup_toList p) s
  refine ⟨?_, fun n => ?_⟩
  · unfold State.endPurgeStep
    dsimp only
    rw [hv]
    rfl
  · exact (hget n).trans (if_congr mem_toList rfl rfl)

/-- The purge cursor's step with nothing left to open. -/
theorem purgeCursor_ends {ps : PurgeStep} (hs : q.purgeStep = some ps)
    (hnone : ∀ e ∈ ps.todo, (q.leaveLine q.purgePos e.1 e.2).isNone = true) : q.purgeCursor = (q.endPurgeStep ps.nodes, []) := by
  have hdrop : ps.todo.dropWhile (fun e => (q.leaveLine q.purgePos e.1 e.2).isNone) = [] :=
    List.dropWhile_eq_nil_iff.2 hnone
  unfold State.purgeCursor
  rw [hs]
  dsimp only
  rw [hdrop]

/-! ## One way edited (R162) -/

/-- A way once some nodes are gone. -/
def editedWay (p : NodeSet) (y : Way) : Way :=
  if editContent p y.body.stored.content = y.body.stored.content then y
  else if editContent p y.body.stored.content = .free then freeWay
  else { y with body := coded { y.body.stored with content := editContent p y.body.stored.content } }

/-- Whether the edit frees a way. -/
def editFrees (p : NodeSet) (y : Way) : Bool :=
  editContent p y.body.stored.content == .free && y.body.stored.content != .free

/-- Whether the edit makes a way POISONED. -/
def editPoisons (p : NodeSet) (y : Way) : Bool :=
  editContent p y.body.stored.content == .poisoned && y.body.stored.content != .poisoned

/-- The capture fields of a way the edit makes POISONED. -/
def editFields (i : SetIx) (w : WayIx) (y : Way) : FaultFields :=
  ⟨y.key.stored.map (fun k => lineOf k i), y.body.stored.content.owner?.map Peer.node, some i, some w, none⟩

/-- The edit of one way, as the walk makes it. -/
def State.editWay (i : SetIx) (p : NodeSet) (s : State) (w : WayIx) : State :=
  if s.wayHeld i w then s
  else
    match s.bodyView i w with
    | none => s
    | some b => if editContent p b.content = b.content then s else s.editStored i w (s.purgingNodes ||| p)

theorem silentEdit_eq (s : State) (i : SetIx) (p : NodeSet) : s.silentEdit i p = allWays.foldl (State.editWay i p) s := rfl

/-- What the edit of some ways of a set leaves; `b` holds the ways as they were. -/
structure Edits (i : SetIx) (p : NodeSet) (b : State) (ws : List WayIx) (s t : State) : Prop where
  same : t = { s with dir := t.dir, flags := t.flags, capture := t.capture }
  canonical : dirWf t.dir = true
  ways : ∀ v, t.getWay i v = if v ∈ ws then editedWay p (b.getWay i v) else s.getWay i v
  others : ∀ u, u ≠ i → t.getSet u = s.getSet u
  frozen : (t.getSet i).frozen = (s.getSet i).frozen
  unfrozen : s.anyFrozen = false → t.anyFrozen = false
  order : (t.getSet i).order = ws.foldl (fun o w => if editFrees p (b.getWay i w) then o.erase w ++ [w] else o) (s.getSet i).order
  flags : t.flags = if ws.any (fun w => editPoisons p (b.getWay i w)) then s.flags ||| 0x0010#16 else s.flags
  capture : t.capture = ws.foldl (fun r w => if editPoisons p (b.getWay i w) then
    captured r .linePoisoned (editFields i w (b.getWay i w)) else r) s.capture

theorem editWay_of_plain (h : s.Plain i w) (hp : s.purgingNodes ||| p = p) : s.editWay i p w =
    if editContent p (s.getWay i w).body.stored.content = (s.getWay i w).body.stored.content then s
    else if editContent p (s.getWay i w).body.stored.content = .free then s.makeFree i w
    else if editContent p (s.getWay i w).body.stored.content = .poisoned then
      (s.putWay i w (editedWay p (s.getWay i w))).noted s.memTimeouts (s.flags ||| 0x0010#16)
        (captured s.capture .linePoisoned (editFields i w (s.getWay i w)))
    else s.putWay i w (editedWay p (s.getWay i w)) := by
  unfold State.editWay
  rw [h.held, if_neg Bool.false_ne_true, h.bodyView]
  dsimp only
  rw [hp]
  by_cases hsame : editContent p (s.getWay i w).body.stored.content = (s.getWay i w).body.stored.content
  · rw [if_pos hsame, if_pos hsame]
  · rw [if_neg hsame, if_neg hsame]
    unfold State.editStored
    rw [h.bodyView]
    dsimp only
    rw [if_neg hsame]
    by_cases hfree : editContent p (s.getWay i w).body.stored.content = .free
    · rw [if_pos hfree, if_pos hfree]
    · have hway : editedWay p (s.getWay i w) = { s.getWay i w with
          body := coded { (s.getWay i w).body.stored with content := editContent p (s.getWay i w).body.stored.content } } :=
        (if_neg hsame).trans (if_neg hfree)
      rw [if_neg hfree, if_neg hfree, ← hway]
      by_cases hpoison : editContent p (s.getWay i w).body.stored.content = .poisoned
      · rw [if_pos hpoison, if_pos hpoison, h.line]
        exact fault_eq ((s.putWay i w (editedWay p (s.getWay i w))).raise .linePoisoned) _ _
      · rw [if_neg hpoison, if_neg hpoison]

theorem editWay_edits (hd : dirWf s.dir = true) (h : s.Plain i w) (hp : s.purgingNodes ||| p = p) :
    Edits i p s [w] s (s.editWay i p w) := by
  have hone : ∀ v, v ∈ [w] ↔ v = w := fun v => List.mem_singleton
  have hput : ∀ v, (s.putWay i w (editedWay p (s.getWay i w))).getWay i v =
      if v ∈ [w] then editedWay p (s.getWay i v) else s.getWay i v := fun v => by
    by_cases hv : v = w
    · subst hv
      rw [if_pos ((hone v).2 rfl)]
      exact getWay_putWay_self hd ..
    · rw [if_neg fun hm => hv ((hone v).1 hm)]
      exact getWay_putWay_of_ne hd hv _
  have hset : (s.putWay i w (editedWay p (s.getWay i w))).getSet i = _ := getSet_putWay_self hd i w (editedWay p (s.getWay i w))
  have hothers : ∀ u, u ≠ i → (s.putWay i w (editedWay p (s.getWay i w))).getSet u = s.getSet u := fun u hu =>
    (getSet_putSet hd i u _).trans (if_neg hu)
  have horder : ((s.putWay i w (editedWay p (s.getWay i w))).getSet i).order = (s.getSet i).order := (congrArg SetRec.order hset :)
  have hfrozen : ((s.putWay i w (editedWay p (s.getWay i w))).getSet i).frozen = (s.getSet i).frozen := (congrArg SetRec.frozen hset :)
  rw [editWay_of_plain h hp]
  by_cases hsame : editContent p (s.getWay i w).body.stored.content = (s.getWay i w).body.stored.content
  · have hfrees : editFrees p (s.getWay i w) = false := by
      unfold editFrees
      rw [hsame]
      cases (s.getWay i w).body.stored.content <;> rfl
    have hpoisons : editPoisons p (s.getWay i w) = false := by
      unfold editPoisons
      rw [hsame]
      cases (s.getWay i w).body.stored.content <;> rfl
    rw [if_pos hsame]
    refine ⟨rfl, hd, fun v => ?_, fun _ _ => rfl, rfl, id, ?_, ?_, ?_⟩
    · by_cases hv : v = w
      · subst hv
        rw [if_pos ((hone v).2 rfl)]
        exact (if_pos hsame).symm
      · rw [if_neg fun hm => hv ((hone v).1 hm)]
    · simp [hfrees]
    · simp [hpoisons]
    · simp [hpoisons]
  · rw [if_neg hsame]
    by_cases hfree : editContent p (s.getWay i w).body.stored.content = .free
    · have hfrees : editFrees p (s.getWay i w) = true := by
        unfold editFrees
        rw [hfree] at hsame ⊢
        simp [Ne.symm hsame]
      have hpoisons : editPoisons p (s.getWay i w) = false := by
        unfold editPoisons
        rw [hfree]
        rfl
      have hway : editedWay p (s.getWay i w) = freeWay := (if_neg hsame).trans (if_pos hfree)
      rw [if_pos hfree]
      refine ⟨rfl, dirPut_wf hd, fun v => ?_, fun u hu => (getSet_makeFree hd i u w).trans (if_neg hu), ?_,
        fun hf => makeFree_anyFrozen hf i w, ?_, ?_, ?_⟩
      · rw [getWay_makeFree hd]
        by_cases hv : v = w
        · subst hv
          rw [if_pos rfl, if_pos ((hone v).2 rfl), hway]
        · rw [if_neg hv, if_neg fun hm => hv ((hone v).1 hm)]
      · rw [getSet_makeFree hd, if_pos rfl]
      · rw [getSet_makeFree hd, if_pos rfl]
        simp [hfrees, toBack]
      · simp [hpoisons]
      · simp [hpoisons]
    · have hfrees : editFrees p (s.getWay i w) = false := by
        unfold editFrees
        rw [beq_eq_false_iff_ne.2 hfree, Bool.false_and]
      rw [if_neg hfree]
      by_cases hpoison : editContent p (s.getWay i w).body.stored.content = .poisoned
      · have hpoisons : editPoisons p (s.getWay i w) = true := by
          unfold editPoisons
          rw [hpoison] at hsame ⊢
          simp [Ne.symm hsame]
        rw [if_pos hpoison]
        refine ⟨rfl, dirPut_wf hd, hput, hothers, hfrozen, fun hf => putWay_anyFrozen hf i w _, ?_, ?_, ?_⟩
        · refine Eq.trans ?_ (horder.trans ?_)
          · rfl
          · simp [hfrees]
        · simp [hpoisons]
          rfl
        · simp [hpoisons]
          rfl
      · have hpoisons : editPoisons p (s.getWay i w) = false := by
          unfold editPoisons
          rw [beq_eq_false_iff_ne.2 hpoison, Bool.false_and]
        rw [if_neg hpoison]
        refine ⟨rfl, dirPut_wf hd, hput, hothers, hfrozen, fun hf => putWay_anyFrozen hf i w _, ?_, ?_, ?_⟩
        · refine horder.trans ?_
          simp [hfrees]
        · simp [hpoisons]
        · simp [hpoisons]

end

end Sys2Proof.Machine

/-! # The silent edits of a set (O59) -/

namespace Sys2Proof.Machine

set_option Elab.async false

section
variable {s t q b r : State} {i : SetIx} {w y : WayIx} {ws : List WayIx} {n : Node} {p : NodeSet}

/-- The edits of a list of ways, one way first. -/
theorem Edits.cons (h : Edits i p s [w] s r) (hw : s.getWay i w = b.getWay i w) (hs : Edits i p b ws r t) : Edits i p b (w :: ws) s t := by
  have hpoisons : (ws.any fun v => editPoisons p (b.getWay i v)) = (ws.any fun v => editPoisons p (b.getWay i v)) := rfl
  refine ⟨?_, hs.canonical, fun v => ?_, fun u hu => (hs.others u hu).trans (h.others u hu), hs.frozen.trans h.frozen,
    fun hf => hs.unfrozen (h.unfrozen hf), ?_, ?_, ?_⟩
  · refine hs.same.trans ?_
    rw [h.same]
  · rw [hs.ways v, h.ways v]
    by_cases hv : v ∈ ws
    · rw [if_pos hv, if_pos (List.mem_cons_of_mem w hv)]
    · rw [if_neg hv]
      by_cases hvw : v = w
      · subst hvw
        rw [if_pos (List.mem_singleton_self v), if_pos List.mem_cons_self, hw]
      · rw [if_neg (fun hm => hvw (List.mem_singleton.1 hm)), if_neg (fun hm => (List.mem_cons.1 hm).elim hvw hv)]
  · rw [hs.order, h.order, List.foldl_cons, List.foldl_cons, List.foldl_nil, hw]
  · rw [hs.flags, h.flags, List.any_cons, List.any_cons, List.any_nil, hw, Bool.or_false]
    cases editPoisons p (b.getWay i w) <;> cases ws.any fun v => editPoisons p (b.getWay i v)
    · rfl
    · rfl
    · rfl
    · exact (BitVec.or_assoc _ _ _).trans (congrArg _ BitVec.or_self)
  · rw [hs.capture, h.capture, List.foldl_cons, List.foldl_cons, List.foldl_nil, hw]

theorem editWays_edits (hp : b.purgingNodes ||| p = p) (ws : List WayIx) (hws : ws.Nodup) : ∀ s : State, dirWf s.dir = true →
    s.purgingNodes = b.purgingNodes → (∀ v ∈ ws, b.Plain i v ∧ s.getWay i v = b.getWay i v) →
    Edits i p b ws s (ws.foldl (State.editWay i p) s) := by
  induction ws with
  | nil =>
    exact fun s hd _ _ => ⟨rfl, hd, fun v => (if_neg List.not_mem_nil).symm, fun _ _ => rfl, rfl, id, rfl, rfl, rfl⟩
  | cons w ws ih =>
    intro s hd hnodes hplain
    obtain ⟨hw, hws⟩ := List.nodup_cons.1 hws
    obtain ⟨hb, hsame⟩ := hplain w List.mem_cons_self
    have hone : Edits i p s [w] s (s.editWay i p w) := editWay_edits hd (hb.same hsame) (by rw [hnodes]; exact hp)
    refine hone.cons hsame (ih hws _ hone.canonical ?_ fun v hv => ?_)
    · refine Eq.trans ?_ hnodes
      rw [hone.same]
      rfl
    · obtain ⟨hv1, hv2⟩ := hplain v (List.mem_cons_of_mem w hv)
      refine ⟨hv1, (hone.ways v).trans ?_⟩
      rw [if_neg fun hm => hw (by rwa [← List.mem_singleton.1 hm]), hv2]

/-- R162 on a sound set without holders. -/
theorem silentEdit_edits (hd : dirWf s.dir = true) (hs : s.soundSet i) (hu : s.unheldSet i) (hp : s.purgingNodes ||| p = p) :
    Edits i p s allWays s (s.silentEdit i p) :=
  editWays_edits hp allWays nodup_allWays s hd rfl fun v _ => ⟨plain_of_sound hs hu v, rfl⟩

/-! ## Nodes of a walk -/

theorem or_eq_right_of_has (h : ∀ n, NodeSet.has b.purgingNodes n = true → NodeSet.has p n = true) : b.purgingNodes ||| p = p :=
  nodeSet_ext fun n => by
    have hor : NodeSet.has (b.purgingNodes ||| p) n = (NodeSet.has b.purgingNodes n || NodeSet.has p n) := BitVec.getLsbD_or ..
    rw [hor]
    cases hb : NodeSet.has b.purgingNodes n
    · rfl
    · rw [h n hb]
      rfl

theorem walks_of_has (h : NodeSet.has s.walkingNodes n = true) : ∃ j, s.getJob n = some j ∧ 0 < j.setsLeft := by
  rw [has_walkingNodes] at h
  cases hj : s.getJob n with
  | none =>
    rw [hj] at h
    exact absurd h Bool.false_ne_true
  | some j =>
    rw [hj] at h
    exact ⟨j, rfl, of_decide_eq_true h⟩

theorem nodesIn_of_mode {m : PurgeMode} (h : ∀ n, NodeSet.has p n = true → ∃ j, s.getJob n = some j ∧ j.mode = m) :
    s.nodesIn m p = p := nodeSet_ext fun n => by
  rw [has_nodesIn]
  cases hn : NodeSet.has p n
  · rfl
  · obtain ⟨j, hj, hm⟩ := h n hn
    rw [hj, Option.map_some, hm]
    simp

theorem nodesIn_of_notMode {m : PurgeMode} (h : ∀ n, NodeSet.has p n = true → ∃ j, s.getJob n = some j ∧ j.mode ≠ m) :
    s.nodesIn m p = 0#8 := nodeSet_ext fun n => by
  rw [has_nodesIn, has_zero]
  cases hn : NodeSet.has p n
  · rfl
  · obtain ⟨j, hj, hm⟩ := h n hn
    rw [hj, Option.map_some]
    simp [hm]

end

end Sys2Proof.Machine

/-! # Set steps of the purge cursor without openings (O59) -/

namespace Sys2Proof.Machine

set_option Elab.async false

section
variable {s t q b r : State} {i : SetIx} {w y : WayIx} {n : Node} {p : NodeSet} {k : Nat} {z : State} {ps : PurgeStep} {j : PurgeJob}

/-! ## Settling around a step -/

/-- A step with nothing to open ends as the part settles. -/
theorem drain_purgeEnds (hw : q.Walking) (hs : q.purgeStep = some ps)
    (hnone : ∀ e ∈ ps.todo, (q.leaveLine q.purgePos e.1 e.2).isNone = true)
    (hrest : drain k (q.endPurgeStep ps.nodes) [.settle] = some z) : drain (k + 2) q [.settle] = some z := by
  have hready : q.purgeReady = true := by
    unfold State.purgeReady
    rw [hs]
    dsimp only
    cases htodo : ps.todo with
    | nil => rfl
    | cons e es => exact Bool.or_eq_true_iff.2 (.inr (hnone e (htodo ▸ List.mem_cons_self)))
  exact drain_settleStep (settleStep_purgeReady hw hready) (drain_step (purgeCursor_ends hs hnone) hrest)

/-- What a quiet part needs to be quiet after a step of the purge cursor. -/
theorem State.Quiet.purged (h : s.Quiet) (hfrozen : q.anyFrozen = false)
    (hjobs : ∀ n j, q.getJob n = some j → j.setsLeft ≠ 0 ∨ j.mode = .messaging ∧ j.openRecalls ≠ 0)
    (hslots : q.slots = s.slots) (hmaint : q.maint = s.maint) (hstep : q.purgeStep = none)
    (hrest : q.resetN = s.resetN ∧ q.maintStep = s.maintStep ∧ q.orderHeld = s.orderHeld ∧ q.answerHeld = s.answerHeld) : q.Quiet := by
  obtain ⟨hreset, hmstep, ho, ha⟩ := hrest
  refine ⟨hreset.trans h.running, ?_, hfrozen, hstep, hmstep.trans h.noMaintStep, ho.trans h.noHeldOrder, ha.trans h.noHeldAnswer,
    ?_, List.find?_eq_none.2 fun n _ => ?_⟩
  · unfold State.slotsWith State.getSlot
    rw [hslots]
    exact h.noRebuild
  · have hend := h.noEnding
    rw [maintEnding_none_iff] at hend ⊢
    rw [hfrozen, hmaint]
    rw [h.noFrozen] at hend
    exact hend
  · unfold State.purgeDone
    cases hj : q.getJob n with
    | none => exact Bool.false_ne_true
    | some j =>
      dsimp only
      rcases hjobs n j hj with hleft | ⟨hmode, hopen⟩
      · rw [beq_eq_false_iff_ne.2 hleft, Bool.false_and]
        exact Bool.false_ne_true
      · rw [hmode]
        dsimp only
        rw [beq_eq_false_iff_ne.2 hopen, Bool.false_and, Bool.and_false]
        exact Bool.false_ne_true

/-- A silent job of a quiet part has sets left. -/
theorem State.Quiet.silentGoing (h : s.Quiet) (hj : s.getJob n = some j) (hm : j.mode = .silent) : j.setsLeft ≠ 0 := fun h0 => by
  have hnone := List.find?_eq_none.1 h.noDone n (List.mem_finRange n)
  refine hnone ?_
  unfold State.purgeDone
  rw [hj]
  dsimp only
  rw [h0, hm]
  rfl

/-! ## The ways of a step's openings -/

theorem purgeTodo_zero : purgeTodo 0#8 = [] := by
  have hnone : NodeSet.toList 0#8 = [] := List.eq_nil_iff_forall_not_mem.2 fun n hn =>
    Bool.false_ne_true ((has_zero n).symm.trans (mem_toList.1 hn))
  unfold purgeTodo
  rw [hnone]
  exact List.foldr_fixed' (fun _ => rfl) allWays

theorem purgeTodo_single (n : Node) : purgeTodo (NodeSet.single n) = allWays.map fun w => (w, n) := by
  have hfoldr : ∀ ws : List WayIx, ws.foldr (fun w acc => [n].map (fun n => (w, n)) ++ acc) [] = ws.map fun w => (w, n) := fun ws => by
    induction ws with
    | nil => rfl
    | cons w ws ih => exact congrArg ((w, n) :: ·) ih
  unfold purgeTodo
  rw [toList_single]
  exact hfoldr allWays

/-! ## SILENT jobs (R162) -/

/-- The state with a set's silent edits made and the step counted. -/
theorem silentStep_ends (hE : Edits s.purgePos p s allWays s t) (hs : s.purgeStep = none) (ps : PurgeStep) :
    ({ t with purgeStep := some ps } : State).endPurgeStep p = { s with
      dir := t.dir
      purgeJobs := (({ t with purgeStep := some ps } : State).endPurgeStep p).purgeJobs
      purgePos := nextPos s.purgePos
      flags := t.flags
      capture := t.capture } := by
  refine (endPurgeStep_spec { t with purgeStep := some ps } p).1.trans ?_
  dsimp only
  rw [← hs]
  generalize ({ t with purgeStep := some ps } : State).endPurgeStep p = e
  rw [hE.same]

theorem silentStep_spec (h : s.Quiet) (hd : dirWf s.dir = true) (hs : s.soundSet s.purgePos) (hu : s.unheldSet s.purgePos)
    (hw : s.walkingNodes ≠ 0#8)
    (hjobs : ∀ n j, s.getJob n = some j → j.mode = .silent ∧ j.setsLeft ≠ 1 ∧ s.nodeState n = .purging)
    (hpurging : ∀ n, s.nodeState n = .purging → NodeSet.has s.walkingNodes n = true) :
    ∃ m e, Edits s.purgePos s.walkingNodes s allWays s m ∧ exec .purgeSetStep s = .next (State.driveEventN e) ∧
      (∀ n, e.getJob n = (s.getJob n).map (fun j => { j with setsLeft := j.setsLeft - 1 })) ∧
      e = { s with dir := m.dir, purgeJobs := e.purgeJobs, purgePos := nextPos s.purgePos, flags := m.flags, capture := m.capture } := by
  have hmodes : ∀ n, NodeSet.has s.walkingNodes n = true → ∃ j, s.getJob n = some j ∧ j.mode = .silent := fun n hn => by
    obtain ⟨j, hj, -⟩ := walks_of_has hn
    exact ⟨j, hj, (hjobs n j hj).1⟩
  have hor : s.purgingNodes ||| s.walkingNodes = s.walkingNodes := or_eq_right_of_has fun n hn => by
    rw [has_purgingNodes] at hn
    exact hpurging n (beq_iff_eq.1 hn)
  let m : State := s.silentEdit s.purgePos s.walkingNodes
  have hE : Edits s.purgePos s.walkingNodes s allWays s m := silentEdit_edits hd hs hu hor
  have hjob : ∀ n, m.getJob n = s.getJob n := fun n => congrArg (fun v : Vector (Option PurgeJob) 8 => v[n]) (congrArg State.purgeJobs hE.same :)
  have hslots : m.slots = s.slots := (congrArg State.slots hE.same :)
  have hfrozen : m.anyFrozen = false := hE.unfrozen h.noFrozen
  have hsilent : s.nodesIn .silent s.walkingNodes = s.walkingNodes := nodesIn_of_mode hmodes
  have hmessaging : m.nodesIn .messaging s.walkingNodes = 0#8 := nodesIn_of_notMode fun n hn => by
    obtain ⟨j, hj, hmode⟩ := hmodes n hn
    exact ⟨j, (hjob n).trans hj, by rw [hmode]; exact nofun⟩
  have hbegin : s.beginPurgeStep = ({ m with purgeStep := some ⟨s.walkingNodes, []⟩ }, []) := by
    rw [beginPurgeStep_of_sound hs, hsilent]
    show (({ m with purgeStep := some ⟨s.walkingNodes, purgeTodo (m.nodesIn .messaging s.walkingNodes)⟩ }, []) : Work) = _
    rw [hmessaging, purgeTodo_zero]
  let e : State := ({ m with purgeStep := some ⟨s.walkingNodes, []⟩ } : State).endPurgeStep s.walkingNodes
  have he : e = { s with dir := m.dir, purgeJobs := e.purgeJobs, purgePos := nextPos s.purgePos, flags := m.flags, capture := m.capture } :=
    silentStep_ends hE h.noPurgeStep _
  have hleft : ∀ n j, s.getJob n = some j → 2 ≤ j.setsLeft := fun n j hj => by
    have hzero := h.silentGoing hj (hjobs n j hj).1
    have hone := (hjobs n j hj).2.1
    omega
  have hget : ∀ n, e.getJob n = (s.getJob n).map (fun j => { j with setsLeft := j.setsLeft - 1 }) := fun n => by
    refine ((endPurgeStep_spec { m with purgeStep := some ⟨s.walkingNodes, []⟩ } s.walkingNodes).2 n).trans ?_
    rw [show ({ m with purgeStep := some ⟨s.walkingNodes, []⟩ } : State).getJob n = s.getJob n from hjob n]
    cases hj : s.getJob n with
    | none => exact ite_self _
    | some j =>
      refine if_pos ?_
      rw [has_walkingNodes, hj]
      exact decide_eq_true (by have := hleft n j hj; omega)
  have hquiet : e.Quiet := by
    refine h.purged ?_ (fun n j hj => .inl ?_) ?_ ?_ ?_ ⟨?_, ?_, ?_, ?_⟩
    · unfold State.anyFrozen
      rw [show e.dir = m.dir from (congrArg State.dir he :)]
      exact hfrozen
    · rw [hget] at hj
      obtain ⟨j', hj', rfl⟩ := Option.map_eq_some_iff.1 hj
      have := hleft n j' hj'
      dsimp only
      omega
    · exact (congrArg State.slots he :)
    · exact (congrArg State.maint he :)
    · exact ((congrArg State.purgeStep he :).trans h.noPurgeStep)
    · exact (congrArg State.resetN he :)
    · exact (congrArg State.maintStep he :)
    · exact (congrArg State.orderHeld he :)
    · exact (congrArg State.answerHeld he :)
  have hwalking : State.Walking { m with purgeStep := some ⟨s.walkingNodes, []⟩ } := ⟨by
    unfold State.slotsWith State.getSlot
    dsimp only
    rw [hslots]
    exact h.noRebuild, hfrozen⟩
  refine ⟨m, e, hE, ?_, hget, he⟩
  rw [exec_purgeSetStep h.noPurgeStep hw, hbegin]
  exact event_of_drain (1 + 2) (by decide) h.running (drain_purgeEnds hwalking rfl nofun (drain_settle (Quiet_settled hquiet) 0))

end

end Sys2Proof.Machine

/-! # The end of a purge (O59) -/

namespace Sys2Proof.Machine

set_option Elab.async false

section
variable {s t q b r : State} {i : SetIx} {w y : WayIx} {n m : Node} {p : NodeSet} {k : Nat} {z : State} {ps : PurgeStep}
  {j : PurgeJob} {c : Content}

/-! ## Edits that change nothing -/

theorem editContent_none (c : Content) : editContent 0#8 c = c := by
  cases c with
  | shared m => exact if_pos (BitVec.and_zero)
  | owned o => exact if_neg (by rw [has_zero]; exact Bool.false_ne_true)
  | free => rfl
  | reserved => rfl
  | poisoned => rfl

theorem silentEdit_same (hs : s.soundSet i) (hu : s.unheldSet i)
    (h : ∀ y, editContent p (s.getWay i y).body.stored.content = (s.getWay i y).body.stored.content) : s.silentEdit i p = s :=
  List.foldl_fixed' (fun y => by
    have hplain := plain_of_sound hs hu y
    show State.editWay i p s y = s
    unfold State.editWay
    rw [hplain.held, if_neg Bool.false_ne_true, hplain.bodyView]
    exact if_pos (h y)) allWays

theorem names_of_kept (h : editContent (NodeSet.single n) c = c) : c.names n = false := by
  cases c with
  | shared m =>
    have hbit : NodeSet.has m n = false := by
      by_cases hand : m &&& NodeSet.single n = 0#8
      · have := congrArg (fun v => NodeSet.has v n) hand
        have hband : NodeSet.has (m &&& NodeSet.single n) n = (NodeSet.has m n && NodeSet.has (NodeSet.single n) n) := BitVec.getLsbD_and ..
        rw [has_single, decide_eq_true rfl, Bool.and_true] at hband
        exact hband.symm.trans (this.trans (has_zero n))
      · dsimp only [editContent] at h
        rw [if_neg hand] at h
        split at h
        · cases h
        · have hm := congrArg (fun v => NodeSet.has v n) (Content.shared.inj h)
          have hsplit : NodeSet.has (m &&& ~~~ NodeSet.single n) n = (NodeSet.has m n && !NodeSet.has (NodeSet.single n) n) := by
            unfold NodeSet.has
            rw [BitVec.getLsbD_and, BitVec.getLsbD_not, decide_eq_true n.isLt, Bool.true_and]
          rw [has_single, decide_eq_true rfl, Bool.not_true, Bool.and_false] at hsplit
          exact hm.symm.trans hsplit
    show (NodeSet.has m n || none == some n) = false
    rw [hbit]
    rfl
  | owned o =>
    have hne : o ≠ n := fun ho => by
      subst ho
      dsimp only [editContent] at h
      rw [has_single, if_pos (decide_eq_true rfl)] at h
      cases h
    show (NodeSet.has 0#8 n || some o == some n) = false
    rw [has_zero, Bool.false_or, beq_eq_false_iff_ne]
    exact fun h => hne (Option.some.inj h)
  | free => exact (congrArg (· || none == some n) (has_zero n) :)
  | reserved => exact (congrArg (· || none == some n) (has_zero n) :)
  | poisoned => exact (congrArg (· || none == some n) (has_zero n) :)

theorem leaveLine_of_plain (h : s.Plain i w) (hc : (s.getWay i w).body.stored.content.names n = false) : s.leaveLine i w n = none := by
  unfold State.leaveLine
  rw [h.content]
  dsimp only
  rw [hc, if_neg Bool.false_ne_true]

/-! ## A step of one node's job alone -/

/-- The only purge job. -/
structure State.OnlyJob (s : State) (n : Node) (j : PurgeJob) : Prop where
  job : s.getJob n = some j
  only : ∀ q, q ≠ n → s.getJob q = none

theorem State.OnlyJob.walkingNodes (h : s.OnlyJob n j) (hj : 0 < j.setsLeft) : s.walkingNodes = NodeSet.single n :=
  nodeSet_ext fun m => by
    rw [has_walkingNodes, has_single]
    by_cases hm : n = m
    · subst hm
      rw [h.job, decide_eq_true rfl]
      exact decide_eq_true hj
    · rw [h.only m (Ne.symm hm), decide_eq_false hm]

theorem State.OnlyJob.nodesIn (h : s.OnlyJob n j) (a : PurgeMode) :
    s.nodesIn a (NodeSet.single n) = if j.mode = a then NodeSet.single n else 0#8 := by
  have hnode : ∀ m, NodeSet.has (NodeSet.single n) m = true → m = n := fun m hm => by
    rw [has_single] at hm
    exact (of_decide_eq_true hm).symm
  split
  · exact nodesIn_of_mode fun m hm => ⟨j, (hnode m hm) ▸ h.job, ‹_›⟩
  · exact nodesIn_of_notMode fun m hm => ⟨j, (hnode m hm) ▸ h.job, ‹_›⟩

theorem single_ne_zero (n : Node) : NodeSet.single n ≠ 0#8 := fun h => by
  have hn := congrArg (fun v => NodeSet.has v n) h
  rw [has_single, has_zero, decide_eq_true rfl] at hn
  exact Bool.false_ne_true hn.symm

/-- The step begins where no silent edit changes a way. -/
theorem State.OnlyJob.begins (h : s.OnlyJob n j) (hj : 0 < j.setsLeft) (hq : s.Quiet) (hs : s.soundSet s.purgePos)
    (hu : s.unheldSet s.purgePos) (hkeep : j.mode = .silent → ∀ y, editContent (NodeSet.single n)
      (s.getWay s.purgePos y).body.stored.content = (s.getWay s.purgePos y).body.stored.content) :
    exec .purgeSetStep s = s.event ({ s with purgeStep := some ⟨NodeSet.single n,
      if j.mode = .messaging then allWays.map fun w => (w, n) else []⟩ }, []) := by
  have hwalk := h.walkingNodes hj
  have hedit : s.silentEdit s.purgePos (s.nodesIn .silent (NodeSet.single n)) = s := by
    refine silentEdit_same hs hu fun y => ?_
    rw [h.nodesIn]
    split
    · exact hkeep ‹_› y
    · exact editContent_none _
  rw [exec_purgeSetStep hq.noPurgeStep (by rw [hwalk]; exact single_ne_zero n), beginPurgeStep_of_sound hs, hwalk, hedit, h.nodesIn]
  cases j.mode with
  | silent => rw [if_neg nofun, if_neg nofun, purgeTodo_zero]
  | messaging => rw [if_pos rfl, if_pos rfl, purgeTodo_single]

theorem endPurgeStep_single (q : State) (n : Node) : q.endPurgeStep (NodeSet.single n) =
    { q.putJob n ((q.getJob n).map fun j => { j with setsLeft := j.setsLeft - 1 }) with
      purgePos := nextPos q.purgePos, purgeStep := none } := by
  unfold State.endPurgeStep
  rw [toList_single]
  rfl

end

end Sys2Proof.Machine

/-! # The last set of a purge (O59) -/

namespace Sys2Proof.Machine

set_option Elab.async false

section
variable {s t q b r : State} {i : SetIx} {w y : WayIx} {n m : Node} {p : NodeSet} {k : Nat} {z : State} {ps : PurgeStep}
  {j : PurgeJob} {c : Content}

theorem settleStep_doneNode (h : q.Walking) (hpurge : q.purgeReady = false) (hmaint : q.maintReady = false)
    (ho : q.placeHeldOrder = none) (ha : q.placeHeldAnswer = none) (he : q.maintEnding = none) (hd : q.doneNode = some n) :
    q.settleStep = some (q.endPurge n) := by
  unfold State.settleStep
  rw [h.readyRebuild, h.dueSets]
  dsimp only
  rw [hpurge, hmaint, ho, ha, he, hd]
  rfl

theorem uncountLeaves_of_none (h : ∀ u x, s.getSlot u = some x → x.kind ≠ .leaveRecall) : s.uncountLeaves n = s := by
  have hslots : (s.uncountLeaves n).slots = s.slots := slots_ext fun u => by
    show State.getSlot _ u = s.getSlot u
    unfold State.uncountLeaves
    rw [getSlot_modSlots]
    cases hu : s.getSlot u with
    | none => rfl
    | some x => exact congrArg some (if_neg fun hx => h u x hu hx.1)
  unfold State.uncountLeaves at hslots ⊢
  rw [modSlots_eq] at hslots ⊢
  dsimp only at hslots ⊢
  rw [hslots]

/-- The state once a node's job has gone with its last set. -/
def State.purgedLast (s : State) (n : Node) : State :=
  { s with purgeJobs := s.purgeJobs.set n.val none n.isLt, purgePos := nextPos s.purgePos }

/-- The job's last set walked. -/
def State.walkedLast (s : State) (n : Node) (j : PurgeJob) : State :=
  { s.putJob n (some { j with setsLeft := 0 }) with purgePos := nextPos s.purgePos }

theorem State.OnlyJob.doneNode (h : s.OnlyJob n j) (hq : s.Quiet) (hopen : j.mode = .messaging → j.openRecalls = 0) :
    (s.walkedLast n j).doneNode = some n := by
  have hjob : ∀ m, (s.walkedLast n j).getJob m = if m = n then some { j with setsLeft := 0 } else s.getJob m :=
    fun m => getJob_putJob s n m (some { j with setsLeft := 0 })
  have hdone : (s.walkedLast n j).purgeDone n = true := by
    unfold State.purgeDone
    rw [hjob, if_pos rfl]
    cases hm : j.mode with
    | silent => rfl
    | messaging =>
      have hfrozen : (s.walkedLast n j).anyFrozen = false := hq.noFrozen
      simp [hopen hm, hfrozen]
  unfold State.doneNode
  cases hfind : (List.finRange 8).find? (s.walkedLast n j).purgeDone with
  | none => exact absurd hdone (List.find?_eq_none.1 hfind n (List.mem_finRange n))
  | some m =>
    have hm := List.find?_some hfind
    by_cases hmn : m = n
    · rw [hmn]
    · unfold State.purgeDone at hm
      rw [hjob, if_neg hmn, h.only m hmn] at hm
      cases hm

/-- A purge whose last set names the node nowhere ends with that set. -/
theorem State.OnlyJob.ends (h : s.OnlyJob n j) (hj : j.setsLeft = 1) (hq : s.Quiet) (hs : s.soundSet s.purgePos)
    (hu : s.unheldSet s.purgePos) (hopen : j.mode = .messaging → j.openRecalls = 0)
    (hkeep : ∀ y, editContent (NodeSet.single n)
      (s.getWay s.purgePos y).body.stored.content = (s.getWay s.purgePos y).body.stored.content)
    (hend : (s.walkedLast n j).endPurge n = (t, [])) (ht : t.Quiet) : exec .purgeSetStep s = .next t.driveEventN := by
  let todo : List (WayIx × Node) := if j.mode = .messaging then allWays.map (fun w => (w, n)) else []
  let a : State := { s with purgeStep := some ⟨NodeSet.single n, todo⟩ }
  have hnone : ∀ e ∈ todo, (a.leaveLine a.purgePos e.1 e.2).isNone = true := fun e he => by
    by_cases hm : j.mode = .messaging
    · have he' : e ∈ allWays.map fun w => (w, n) := (if_pos hm : todo = _) ▸ he
      obtain ⟨y, -, rfl⟩ := List.mem_map.1 he'
      have hplain : a.Plain a.purgePos y := (plain_of_sound hs hu y).same rfl
      rw [leaveLine_of_plain hplain (names_of_kept (hkeep y))]
      rfl
    · have he' : e ∈ ([] : List (WayIx × Node)) := (if_neg hm : todo = _) ▸ he
      cases he'
  have hwalked : a.endPurgeStep (NodeSet.single n) = s.walkedLast n j := by
    rw [endPurgeStep_single, show a.getJob n = some j from h.job, Option.map_some, hj]
    show { s.putJob n (some { j with setsLeft := 0 }) with purgePos := nextPos s.purgePos, purgeStep := none } = s.walkedLast n j
    rw [← hq.noPurgeStep]
    rfl
  have hsettle : (s.walkedLast n j).settleStep = some (t, []) := by
    have hpurge : (s.walkedLast n j).purgeReady = false := by
      unfold State.purgeReady
      rw [show (s.walkedLast n j).purgeStep = none from hq.noPurgeStep]
    have hmaint : (s.walkedLast n j).maintReady = false := by
      unfold State.maintReady
      rw [show (s.walkedLast n j).maintStep = none from hq.noMaintStep]
      cases (s.walkedLast n j).maint <;> rfl
    have hwalking : (s.walkedLast n j).Walking := hq.walking
    rw [settleStep_doneNode hwalking hpurge hmaint (placeHeldOrder_of_empty hq.noHeldOrder) (placeHeldAnswer_of_empty hq.noHeldAnswer)
      ((maintEnding_none_iff (s.walkedLast n j)).2 ((maintEnding_none_iff s).1 hq.noEnding)) (h.doneNode hq hopen), hend]
  rw [h.begins (by omega) hq hs hu fun _ => hkeep]
  refine event_of_drain (1 + 1 + 2) (by decide) hq.running ?_
  refine drain_purgeEnds (q := a) (hq.walking) rfl hnone ?_
  show drain (1 + 1) (a.endPurgeStep (NodeSet.single n)) [.settle] = some t
  rw [hwalked]
  exact drain_settleStep hsettle (drain_settle (Quiet_settled ht) 0)

theorem walkedLast_uncounted (hleave : ∀ u x, s.getSlot u = some x → x.kind ≠ .leaveRecall) :
    ((s.walkedLast n j).uncountLeaves n).putJob n none = s.purgedLast n := by
  rw [uncountLeaves_of_none (s := s.walkedLast n j) hleave]
  have hset : ((s.purgeJobs.set n.val (some { j with setsLeft := 0 }) n.isLt).set n.val none n.isLt) = s.purgeJobs.set n.val none n.isLt :=
    Vector.set_set ..
  exact congrArg (fun v => ({ s with purgeJobs := v, purgePos := nextPos s.purgePos } : State)) hset

theorem answerRoom_of_length (h : s.answerHeld = []) (hroom : s.answerQ.length < 64) : s.answerRoom = true := by
  unfold State.answerRoom
  rw [h]
  exact decide_eq_true hroom

theorem membershipAnswer_of_length {a : Answer} (h : s.answerHeld = []) (hroom : s.answerQ.length < 64) :
    s.membershipAnswer n a = { s with answerQ := s.answerQ ++ [a] } := if_pos (answerRoom_of_length h hroom)

theorem endPurge_leaving (hn : s.nodeState n = .leaving) (hleave : ∀ u x, s.getSlot u = some x → x.kind ≠ .leaveRecall)
    (hawait : ∀ u x, s.getSlot u = some x → NodeSet.has x.awaited n = false) (hq : s.NoneHeld) (hroom : s.answerQ.length < 64) :
    (s.walkedLast n j).endPurge n = ({ (s.purgedLast n).modNode n (fun e => { e with state := .absent, reason := none }) with
      answerQ := s.answerQ ++ [.farewell n], flags := s.flags ||| 0x0002#16 }, []) := by
  have hawaiters : (s.purgedLast n).awaitersOf n = [] := (slotsWith_eq_nil_iff ..).2 hawait
  unfold State.endPurge
  rw [walkedLast_uncounted hleave, show ((s.walkedLast n j).getNode n).state = .leaving from hn]
  dsimp only
  rw [hawaiters]
  rw [membershipAnswer_of_length (s := (s.purgedLast n).modNode n _) hq.answer hroom] <;> rfl

theorem endPurge_restart (hn : s.nodeState n = .purging) (hr : (s.getNode n).reason = some .restart)
    (hleave : ∀ u x, s.getSlot u = some x → x.kind ≠ .leaveRecall) (hq : s.NoneHeld) (hroom : s.answerQ.length < 64) :
    (s.walkedLast n j).endPurge n = ({ (s.purgedLast n).modNode n (fun e => { e with state := .live, reason := none, credits := 0 }) with
      answerQ := s.answerQ ++ [.welcome (.node n)], flags := s.flags ||| 0x0004#16 }, []) := by
  unfold State.endPurge
  rw [walkedLast_uncounted hleave, show ((s.walkedLast n j).getNode n).state = .purging from hn,
    show ((s.walkedLast n j).getNode n).reason = some .restart from hr]
  dsimp only
  rw [membershipAnswer_of_length (s := (s.purgedLast n).modNode n _) hq.answer hroom] <;> rfl

theorem endPurge_lost (hn : s.nodeState n = .purging) (hr : (s.getNode n).reason = some .lost ∨ (s.getNode n).reason = some .evicted)
    (hleave : ∀ u x, s.getSlot u = some x → x.kind ≠ .leaveRecall) :
    (s.walkedLast n j).endPurge n = ((s.purgedLast n).modNode n (fun e => { e with state := .lost }), []) := by
  unfold State.endPurge
  rw [walkedLast_uncounted hleave, show ((s.walkedLast n j).getNode n).state = .purging from hn]
  rcases hr with hr | hr <;> rw [show ((s.walkedLast n j).getNode n).reason = _ from hr]

/-- A quiet part is quiet once its only purge job has gone. -/
theorem State.OnlyJob.gone (h : s.OnlyJob n j) (hq : s.Quiet) (hjobs : q.purgeJobs = s.purgeJobs.set n.val none n.isLt)
    (hslots : q.slots = s.slots) (hdir : q.dir = s.dir) (hmaint : q.maint = s.maint) (hstep : q.purgeStep = s.purgeStep)
    (hrest : q.resetN = s.resetN ∧ q.maintStep = s.maintStep ∧ q.orderHeld = s.orderHeld ∧ q.answerHeld = s.answerHeld) : q.Quiet := by
  refine hq.purged (by unfold State.anyFrozen; rw [hdir]; exact hq.noFrozen) (fun m b hb => ?_) hslots hmaint
    (hstep.trans hq.noPurgeStep) hrest
  have hjob : q.getJob m = if m = n then none else s.getJob m := by
    have hput := getJob_putJob s n m none
    unfold State.getJob at hput ⊢
    rw [hjobs]
    exact hput
  rw [hjob] at hb
  split at hb
  · cases hb
  · rw [h.only m ‹_›] at hb
    cases hb

end

end Sys2Proof.Machine

/-! # A LEAVE_RECALL opened by the purge cursor, and PurgeSetStepEdits (O59) -/

namespace Sys2Proof.Machine

set_option Elab.async false

section
variable {s t q b r : State} {i : SetIx} {w y : WayIx} {n : Node} {k : Nat} {z : State} {j : PurgeJob} {c : Content} {l : Line}
  {v : WinIx} {u : SlotIx} {todo : List (WayIx × Node)}

/-- A LEAVE_RECALL, as it opens (R163). -/
def leaveRecall (n : Node) : Slot := { newSlot .leaveRecall with target := some n, counted := true }

/-- The state with a step of one node's job in hand. -/
def State.leaves (s : State) (n : Node) (todo : List (WayIx × Node)) : State := { s with purgeStep := some ⟨NodeSet.single n, todo⟩ }

/-- The state with a recall of a node's job counted. -/
def State.leaveCounted (s : State) (n : Node) (j : PurgeJob) : State := s.putJob n (some { j with openRecalls := j.openRecalls + 1 })

theorem leaveLine_of_tracked (ht : s.trackedAs l w c) (hn : c.names n = true) : s.leaveLine (setOf l) w n = some l := by
  have hplain : s.Plain (setOf l) w := ⟨by rw [ht.2.1]; rfl, by rw [ht.2.1]; rfl, by rw [ht.2.1]; rfl⟩
  have hline : s.recordLine (setOf l) w = some l := by
    rw [hplain.record, ht.2.1]
    exact congrArg some (lineOf_keyOf_setOf l)
  unfold State.leaveLine
  rw [wayContent_of_tracked ht]
  dsimp only
  rw [hn, if_pos rfl, hline]

theorem purgeCursor_opening {ps : PurgeStep} (hs : q.purgeStep = some ps)
    (hdrop : ps.todo.dropWhile (fun e => (q.leaveLine q.purgePos e.1 e.2).isNone) = (w, n) :: todo)
    (hline : q.leaveLine q.purgePos w n = some l) (hroom : q.walkRoom = true) (hj : q.getJob n = some j) :
    q.purgeCursor = (((({ q with purgeStep := some { ps with todo := todo } } : State).leaveCounted n j).openRecall (leaveRecall n) l).1,
      ((({ q with purgeStep := some { ps with todo := todo } } : State).leaveCounted n j).openRecall (leaveRecall n) l).2 ++
        [.purgeCursor]) := by
  have hjob : ({ q with purgeStep := some { ps with todo := todo } } : State).getJob n = some j := hj
  unfold State.purgeCursor
  rw [hs]
  dsimp only
  rw [hdrop]
  dsimp only
  rw [hline]
  dsimp only
  rw [if_pos hroom, hjob]
  rfl

/-- The cursor passes the ways that name the node nowhere and opens a recall at the first that does. -/
theorem purgeCursor_opens {pre : List WayIx} (hs : s.purgePos = setOf l) (hj : s.getJob n = some j)
    (hpre : ∀ y ∈ pre, (s.leaveLine (setOf l) y n).isNone = true) (hline : s.leaveLine (setOf l) w n = some l)
    (hroom : 3 ≤ s.freeSlots) :
    (s.leaves n (pre.map (fun y => (y, n)) ++ (w, n) :: todo)).purgeCursor =
      ((((s.leaves n todo).leaveCounted n j).openRecall (leaveRecall n) l).1,
        (((s.leaves n todo).leaveCounted n j).openRecall (leaveRecall n) l).2 ++ [.purgeCursor]) := by
  refine purgeCursor_opening (w := w) (q := s.leaves n (pre.map (fun y => (y, n)) ++ (w, n) :: todo)) rfl ?_ ?_ (decide_eq_true hroom) hj
  · show (pre.map (fun y => (y, n)) ++ (w, n) :: todo).dropWhile (fun e => (s.leaveLine s.purgePos e.1 e.2).isNone) = _
    rw [List.dropWhile_append_of_pos, List.dropWhile_cons_of_neg]
    · rw [hs, hline]
      exact Bool.false_ne_true
    · intro e he
      obtain ⟨y, hy, rfl⟩ := List.mem_map.1 he
      rw [hs]
      exact hpre y hy
  · show s.leaveLine s.purgePos w n = some l
    rw [hs]
    exact hline

theorem names_of_named (h : c = .owned n ∨ ∃ m, c = .shared m ∧ NodeSet.has m n = true) : c.names n = true := by
  rcases h with rfl | ⟨m, rfl, hm⟩
  · exact Bool.or_eq_true_iff.2 (.inr (beq_self_eq_true (some n)))
  · exact Bool.or_eq_true_iff.2 (.inl hm)

theorem recallFrom_leaveRecall {p : State} (hp : p.nodeState n = .leaving)
    (h : c = .owned n ∨ ∃ m, c = .shared m ∧ NodeSet.has m n = true) :
    p.recallFrom (((leaveRecall n).opensOn l v).taken w c) = NodeSet.single n := by
  rcases h with rfl | ⟨m, rfl, hm⟩
  · exact if_pos ⟨hp, by show NodeSet.has (NodeSet.single n) n = true; rw [has_single, decide_eq_true rfl]⟩
  · exact if_pos ⟨hp, hm⟩

theorem leaveStep_ends {g : State} {ps : PurgeStep} (hg : g.purgeStep = none) :
    ({ g with purgeStep := some ps, purgeJobs := g.purgeJobs.set n.val (some j) n.isLt } : State).endPurgeStep (NodeSet.single n) =
      { g with
        purgeJobs := g.purgeJobs.set n.val (some { j with setsLeft := j.setsLeft - 1 }) n.isLt
        purgePos := nextPos g.purgePos } := by
  have hjob : ({ g with purgeStep := some ps, purgeJobs := g.purgeJobs.set n.val (some j) n.isLt } : State).getJob n = some j :=
    (getJob_putJob g n n (some j)).trans (if_pos rfl)
  have hset : ((g.purgeJobs.set n.val (some j) n.isLt).set n.val (some { j with setsLeft := j.setsLeft - 1 }) n.isLt) =
      g.purgeJobs.set n.val (some { j with setsLeft := j.setsLeft - 1 }) n.isLt := Vector.set_set ..
  rw [endPurgeStep_single, hjob, Option.map_some]
  unfold State.putJob
  dsimp only
  rw [hset, ← hg]

/-- A MESSAGING job's step that opens a recall of the line that names its node (R163). -/
theorem State.OnlyJob.opens (h : s.OnlyJob n j) (hm : j.mode = .messaging) (hj : 0 < j.setsLeft) (hq : s.Quiet)
    (hd : dirWf s.dir = true) (hs : s.soundSet (setOf l)) (hu : s.unheldSet (setOf l)) (hnode : s.nodeState n = .leaving)
    (hpos : setOf l = s.purgePos) (ht : s.trackedAs l w c) (hkeep : s.keepsContent c)
    (hc : c = .owned n ∨ ∃ m, c = .shared m ∧ NodeSet.has m n = true)
    (hothers : ∀ y, y ≠ w → editContent (NodeSet.single n) (s.getWay (setOf l) y).body.stored.content =
      (s.getWay (setOf l) y).body.stored.content)
    (halone : s.onLine l = []) (hwin : s.windowOf l = some v) (hdirect : (s.getWindow v).kind ≠ .direct) (hslots : 3 ≤ s.freeSlots)
    (hfree : s.lowestFree = some u) (hroom : s.orderQ.length < 64) :
    exec .purgeSetStep s = .next (State.driveEventN { s.recallOpened u (leaveRecall n) l v w c (NodeSet.single n) with
      purgeJobs := s.purgeJobs.set n.val (some { j with setsLeft := j.setsLeft - 1, openRecalls := j.openRecalls + 1 }) n.isLt
      purgePos := nextPos s.purgePos }) := by
  obtain ⟨pre, post, hsplit, hpre, hpost, -⟩ := allWays_split w
  have hc' : (∃ m, c = .shared m) ∨ ∃ o, c = .owned o := hc.symm.imp (fun ⟨m, hc, _⟩ => ⟨m, hc⟩) fun hc => ⟨n, hc⟩
  let a : State := s.leaves n (post.map fun y => (y, n))
  let r : State := (a.leaveCounted n j).recallOpened u (leaveRecall n) l v w c (NodeSet.single n)
  let f : State := { s.recallOpened u (leaveRecall n) l v w c (NodeSet.single n) with
    purgeJobs := s.purgeJobs.set n.val (some { j with setsLeft := j.setsLeft - 1, openRecalls := j.openRecalls + 1 }) n.isLt
    purgePos := nextPos s.purgePos }
  have hskip : ∀ p : State, (∀ y, y ≠ w → p.getWay (setOf l) y = s.getWay (setOf l) y) → ∀ y, y ≠ w →
      (p.leaveLine (setOf l) y n).isNone = true := fun p hp y hy => by
    rw [leaveLine_of_plain ((plain_of_sound hs hu y).same (hp y hy)) (names_of_kept (by rw [hp y hy]; exact hothers y hy))]
    rfl
  have hopened : (s.recallOpened u (leaveRecall n) l v w c (NodeSet.single n)).Quiet := by
    rw [recallOpened_eq v hc' (leaveRecall n) rfl]
    exact (hq.putWay (setOf l) w (heldWay l c u)).slotted rfl rfl
  have hquiet : f.Quiet := by
    refine hopened.purged hopened.noFrozen (fun q b hb => .inr ?_) rfl rfl hq.noPurgeStep ⟨rfl, rfl, rfl, rfl⟩
    have hjob : f.getJob q = if q = n then some { j with setsLeft := j.setsLeft - 1, openRecalls := j.openRecalls + 1 } else s.getJob q :=
      getJob_putJob s n q _
    rw [hjob] at hb
    split at hb
    · cases hb
      exact ⟨hm, Nat.succ_ne_zero _⟩
    · rw [h.only q ‹_›] at hb
      cases hb
  have hend : r.endPurgeStep (NodeSet.single n) = f := by
    have hr : r = { s.recallOpened u (leaveRecall n) l v w c (NodeSet.single n) with
        purgeStep := some ⟨NodeSet.single n, post.map fun y => (y, n)⟩
        purgeJobs := s.purgeJobs.set n.val (some { j with openRecalls := j.openRecalls + 1 }) n.isLt } := rfl
    rw [hr]
    exact leaveStep_ends hopened.noPurgeStep
  have hcursor : drain 2 r [.purgeCursor, .settle] = some f := by
    refine drain_step (s' := f) (ts' := []) ?_ (drain_settle (Quiet_settled hquiet) 0)
    refine (purgeCursor_ends (q := r) rfl fun e he => ?_).trans (congrArg (fun e => (e, [])) hend)
    obtain ⟨y, hy, rfl⟩ := List.mem_map.1 he
    show (r.leaveLine s.purgePos y n).isNone = true
    rw [← hpos]
    exact hskip r (fun y hy => getWay_putWay_of_ne hd hy _) y (hpost y hy)
  have hopen := drain_openRecall (s := a.leaveCounted n j) (x := leaveRecall n) (u := u) (us := [.purgeCursor, .settle])
    (m := NodeSet.single n) (k := 2) ⟨hq.noHeldOrder, hq.noHeldAnswer⟩ rfl rfl rfl rfl hfree halone hwin hdirect
    (frozen_of_anyFrozen hq.noFrozen (setOf l)) ht hc' hkeep.2.2
    (fun p hp => recallFrom_leaveRecall (by
      have hstate : p.nodeState n = s.nodeState n := congrArg (fun v : Vector NodeRec 8 => v[n].state) hp
      exact hstate.trans hnode) hc) (single_ne_zero n)
    (by rw [toList_single]; exact hroom) hcursor
  have hstep := purgeCursor_opens (s := s) (todo := post.map fun y => (y, n)) (pre := pre) hpos.symm h.job
    (fun y hy => hskip s (fun _ _ => rfl) y (hpre y hy)) (leaveLine_of_tracked ht (names_of_named hc)) hslots
  have htodo : allWays.map (fun y => (y, n)) = pre.map (fun y => (y, n)) ++ (w, n) :: post.map fun y => (y, n) := by
    rw [hsplit, List.map_append, List.map_cons]
  rw [h.begins hj hq (hpos ▸ hs) (hpos ▸ hu) (fun hsilent => PurgeMode.noConfusion (hm.symm.trans hsilent)), if_pos hm, htodo]
  refine event_of_drain (2 + 2 + 1 + 1) (by decide) hq.running ?_
  refine drain_settleStep (settleStep_purgeReady (s := s.leaves n _) hq.walking ?_)
    (drain_step hstep (by rw [List.append_assoc]; exact hopen))
  unfold State.purgeReady
  dsimp only [State.leaves]
  cases pre with
  | nil => exact Bool.or_eq_true_iff.2 (.inl (decide_eq_true hslots))
  | cons y ys => exact Bool.or_eq_true_iff.2 (.inl (decide_eq_true hslots))

end

end Sys2Proof.Machine

/-! # PurgeSetStepEdits (O59) -/

namespace Sys2Proof.Machine

set_option Elab.async false

/-- Settles O59: the silent edits way by way, the one opening, and the last set, each with the settling that follows it. -/
theorem purgeSetStepEdits : Obligations.PurgeSetStepEdits := by
  unfold Obligations.PurgeSetStepEdits
  intro s hq hdir hs hu
  have hd : dirWf s.dir = true := hdir.1
  refine ⟨fun hw hjobs hpurging => ?_, fun n j hj honly => ⟨?_, ?_⟩⟩
  · obtain ⟨m, e, hE, hexec, hget, he⟩ := silentStep_spec hq hd hs hu hw hjobs hpurging
    have hgetSet : ∀ i, e.driveEventN.getSet i = m.getSet i := fun i => by
      have hdir : e.driveEventN.dir = m.dir := (congrArg State.dir he :)
      unfold State.getSet
      rw [hdir]
    refine ⟨e.driveEventN, hexec, fun w => ?_, ?_, ?_, fun i hi => (hgetSet i).trans (hE.others i hi), hget, ?_⟩
    · have hway : e.driveEventN.getWay s.purgePos w = m.getWay s.purgePos w := by
        unfold State.getWay
        rw [hgetSet]
      exact hway.trans ((hE.ways w).trans (if_pos (mem_allWays w)))
    · exact (congrArg SetRec.order (hgetSet _)).trans hE.order
    · exact (congrArg SetRec.frozen (hgetSet _)).trans hE.frozen
    · have hstate : e = { s with
          dir := e.dir, purgeJobs := e.purgeJobs, purgePos := nextPos s.purgePos, flags := m.flags, capture := m.capture } := by
        rw [show e.dir = m.dir from (congrArg State.dir he :)]
        exact he
      rw [hE.flags, hE.capture] at hstate
      exact congrArg State.driveEventN hstate
  · intro l w c v u hm hleft hnode hpos ht hkeep hc hothers halone hwin hdirect hslots hfree hroom
    have ho : s.OnlyJob n j := ⟨hj, honly⟩
    exact ho.opens hm hleft hq hd (hpos ▸ hs) (hpos ▸ hu) hnode hpos ht hkeep hc (hpos ▸ hothers) halone hwin hdirect hslots hfree hroom
  · intro hone hkeep hleave hroom
    have ho : s.OnlyJob n j := ⟨hj, honly⟩
    refine ⟨fun hm hopen hnode hawait => ?_, fun hm hnode => ⟨fun hr => ?_, fun hr => ?_⟩⟩
    · exact ho.ends hone hq hs hu (fun _ => hopen) hkeep (endPurge_leaving hnode hleave hawait hq.noneHeld hroom)
        (ho.gone hq rfl rfl rfl rfl rfl ⟨rfl, rfl, rfl, rfl⟩)
    · exact ho.ends hone hq hs hu (fun h => PurgeMode.noConfusion (hm.symm.trans h)) hkeep
        (endPurge_restart hnode hr hleave hq.noneHeld hroom) (ho.gone hq rfl rfl rfl rfl rfl ⟨rfl, rfl, rfl, rfl⟩)
    · exact ho.ends hone hq hs hu (fun h => PurgeMode.noConfusion (hm.symm.trans h)) hkeep
        (endPurge_lost hnode hr hleave) (ho.gone hq rfl rfl rfl rfl rfl ⟨rfl, rfl, rfl, rfl⟩)

end Sys2Proof.Machine

/-! # A close with one transaction behind it on its line (O38) -/

namespace Sys2Proof.Machine

set_option Elab.async false

section
variable {s q : State} {t u : SlotIx} {x d : Slot} {l : Line} {v : WinIx} {w : WayIx} {k : Nat} {z : State} {us : List Task} {n : Node}

/-- A record at the head of its line's order. -/
def Slot.first (d : Slot) : Slot := { d with rank := some 0 }

/-- The rank of the one transaction behind falls to 0. -/
theorem closeRanks_behind (h : s.onlyOn l t) (hx : s.getSlot t = some x) (hl : x.line = some l) (hr : x.rank = some 0)
    (hd : d.line = some l) (hdr : d.rank = some 1) :
    (s.putSlot u (some d)).closeRanks x = s.putSlot u (some d.first) := by
  unfold State.closeRanks
  rw [hl, hr]
  dsimp only
  have hslots : ((s.putSlot u (some d)).modSlots (fun y => if y.line = some l then
      { y with rank := y.rank.map (fun q => if 0 < q then q - 1 else q) } else y)).slots = (s.putSlot u (some d.first)).slots :=
    slots_ext fun i => by
      show State.getSlot _ i = (s.putSlot u (some d.first)).getSlot i
      rw [getSlot_modSlots, getSlot_putSlot, getSlot_putSlot]
      by_cases hi : i = u
      · rw [if_pos hi, if_pos hi, Option.map_some, if_pos hd, hdr]
        rfl
      · rw [if_neg hi, if_neg hi]
        cases hy : s.getSlot i with
        | none => rfl
        | some y =>
          refine congrArg some ?_
          dsimp only
          split
          · rename_i hyl
            have hit := h i y hy hyl
            rw [hit, hx] at hy
            cases hy
            rw [hr]
            obtain ⟨⟩ := x
            dsimp only at hr
            subst hr
            rfl
          · rfl
  rw [modSlots_eq] at hslots ⊢
  dsimp only at hslots ⊢
  rw [hslots]
  rfl

theorem freeSlot_of_clear (hn : s.NoneHeld) (hx : s.getSlot t = some x) (hp : x.pending = none) (hv : x.victimLink = none) :
    s.freeSlot t x = s.putSlot t none := by
  have hdisown : s.disownRounds t = s := by
    unfold State.disownRounds
    rw [hn.order]
    exact congrArg (fun o => { s with orderHeld := o }) hn.order.symm
  unfold State.freeSlot
  dsimp only
  rw [setAside_of_clear hn hx hp, hdisown, hv]

/-- The counts a close lowers: the window's, the credit, and the job's. -/
def State.uncounted (s : State) (x : Slot) (v : WinIx) : State :=
  ((s.countClosed (some v)).returnCredit x.requester).countRecallClosed x

theorem uncounted_putSlot (s : State) (u : SlotIx) (d : Option Slot) (x : Slot) (v : WinIx) :
    (s.putSlot u d).uncounted x v = (s.uncounted x v).putSlot u d := by
  unfold State.uncounted State.countRecallClosed State.returnCredit
  cases x.requester with
  | none =>
    split
    · split <;> rfl
    · rfl
  | some n =>
    split
    · split <;> rfl
    · rfl

theorem uncounted_eq (s : State) (x : Slot) (v : WinIx) : s.uncounted x v = { s.uncounted x v with
    slots := s.slots, notices := s.notices, orderHeld := s.orderHeld, answerHeld := s.answerHeld } := by
  unfold State.uncounted State.countRecallClosed State.returnCredit
  cases x.requester with
  | none =>
    split
    · split <;> rfl
    · rfl
  | some n =>
    split
    · split <;> rfl
    · rfl

/-- The close with one transaction behind: as without it, and that one is first. -/
theorem leaveTable_behind (h : q.Closing t x l v) (hut : u ≠ t) (hd : d.line = some l)
    (hdr : d.rank = some 1) : (q.putSlot u (some d)).leaveTable t x = (q.leaveTable t x).putSlot u (some d.first) := by
  have hc := uncounted_eq q x v
  have hleave : q.leaveTable t x = (q.uncounted x v).putSlot t none := leaveTable_of_closing h
  have hstart : (((q.putSlot u (some d)).countClosed (some v)).returnCredit x.requester).countRecallClosed x =
      (q.uncounted x v).putSlot u (some d) := uncounted_putSlot q u (some d) x v
  unfold State.leaveTable at hleave ⊢
  rw [h.window] at hleave ⊢
  rw [hleave, hstart]
  generalize q.uncounted x v = c at hc
  have hslot : ∀ i, c.getSlot i = q.getSlot i := fun i => congrArg (fun p : Vector (Option Slot) 48 => p[i]) (congrArg State.slots hc :)
  have honly : c.onlyOn l t := fun i y hy hyl => h.only i y ((hslot i).symm.trans hy) hyl
  have hheld : c.NoneHeld := ⟨(congrArg State.orderHeld hc :).trans h.held.order, (congrArg State.answerHeld hc :).trans h.held.answer⟩
  have hranks := closeRanks_behind (u := u) (d := d) honly ((hslot t).trans h.slot) h.line h.rank hd hdr
  have hxslot : (c.putSlot u (some d.first)).getSlot t = some x := (getSlot_putSlot_of_ne hut.symm _).trans ((hslot t).trans h.slot)
  have hfree := freeSlot_of_clear (s := c.putSlot u (some d.first)) ⟨hheld.order, hheld.answer⟩ hxslot h.sent h.unlinked
  have hcomm : (c.putSlot u (some d.first)).putSlot t none = (c.putSlot t none).putSlot u (some d.first) := putSlot_comm hut.symm ..
  dsimp only
  rw [hranks, hfree, hcomm, h.line]
  split
  · rename_i n l' hk hn hl
    cases hl
    refine releaseClaim_of_absent (s := (c.putSlot t none).putSlot u (some d.first)) (Eq.trans ?_ (h.claim n hk hn))
    unfold State.noticeFor
    exact congrArg (List.find? _) (congrArg State.notices hc :)
  · rfl

end

end Sys2Proof.Machine

/-! # The transaction behind activates: a DROP on an untracked line (O38) -/

namespace Sys2Proof.Machine

set_option Elab.async false

section
variable {s q r : State} {t u : SlotIx} {x d : Slot} {l : Line} {v : WinIx} {w : WayIx} {k : Nat} {z : State} {us : List Task} {n : Node}

theorem head_of_all {u : SlotIx} {us : List SlotIx} (h : ∀ i ∈ us, i = u) (hu : u ∈ us) : us.head? = some u := by
  cases us with
  | nil => cases hu
  | cons i is => exact congrArg some (h i List.mem_cons_self)

/-- The parked head of a line, alone on it, activates. -/
theorem advance_first (h : q.onlyOn l u) (hu : q.getSlot u = some d) (hl : d.line = some l) (hr : d.rank = some 0)
    (hp : d.phase = .parked) (hf : q.frozen (setOf l) = false) : q.advance l = (q, [.activate u]) := by
  have hhead : (q.slotsWith (fun x => x.line == some l && x.rank == some 0 && x.phase == .parked)).head? = some u := by
    refine head_of_all (fun i hi => ?_) (mem_slotsWith.2 ⟨d, hu, by rw [hl, hr, hp]; simp⟩)
    obtain ⟨y, hy, hy'⟩ := mem_slotsWith.1 hi
    simp only [Bool.and_eq_true, beq_iff_eq] at hy'
    exact h i y hy hy'.1.1
  unfold State.advance
  rw [hhead]
  dsimp only
  rw [hf]
  rfl

theorem finishClose_behind (h : q.Closing t x l v) (hut : u ≠ t) (hd : d.line = some l) (hdr : d.rank = some 1) :
    (q.putSlot u (some d)).finishClose t = ((q.leaveTable t x).putSlot u (some d.first), [.advance l]) := by
  have hslot : (q.putSlot u (some d)).getSlot t = some x := (getSlot_putSlot_of_ne hut.symm _).trans h.slot
  unfold State.finishClose
  rw [hslot]
  dsimp only
  rw [h.unlinked, h.line, leaveTable_behind h hut hd hdr]
  cases x.kind <;> rfl

/-- A line left with the one transaction behind. -/
theorem onlyOn_left {c : State} (h : q.onlyOn l t) (hslots : ∀ i, c.getSlot i = (q.putSlot t none).getSlot i) (z : Option Slot) :
    (c.putSlot u z).onlyOn l u := fun i y hy hyl => by
  by_contra hi
  rw [getSlot_putSlot_of_ne hi, hslots] at hy
  have hit := onlyOn_putSlot h none i y hy hyl
  rw [hit, getSlot_putSlot_self] at hy
  cases hy

/-- The rest of a close that lets the transaction behind activate. -/
theorem drain_finish_behind {c : State} (h : q.Closing t x l v) (hut : u ≠ t) (hd : d.line = some l) (hdr : d.rank = some 1)
    (hp : d.phase = .parked) (hc : q.leaveTable t x = c) (hslots : ∀ i, c.getSlot i = (q.putSlot t none).getSlot i)
    (hf : c.frozen (setOf l) = false) (hrest : drain k (c.putSlot u (some d.first)) (.activate u :: us) = some z) :
    drain (k + 2) (q.putSlot u (some d)) (.finishClose t :: us) = some z := by
  refine drain_step (s' := c.putSlot u (some d.first)) (ts' := [.advance l]) ?_ ?_
  · exact (finishClose_behind h hut hd hdr).trans (congrArg (fun p : State => (p.putSlot u (some d.first), [Task.advance l])) hc)
  · exact drain_step (s' := c.putSlot u (some d.first)) (ts' := [.activate u])
      (advance_first (onlyOn_left h.only hslots _) (getSlot_putSlot_self ..) hd rfl hp hf) hrest

/-- A DROP answered stale, and gone. -/
def State.dropped (s : State) (u : SlotIx) (n : Node) (l : Line) (v : WinIx) : State :=
  ({ s.countStale n with answerQ := s.answerQ ++ [.dropped n l true] } : State).closed u (some n) v

/-- A DROP at the head of an untracked line, alone on it: answered DROPPED stale (R66). -/
theorem drain_staleDrop (hq : r.Quiet) (hslot : r.getSlot u = some (requestSlot .drop n l v 0)) (honly : r.onlyOn l u)
    (hun : r.untracked l) (hkind : (r.getWindow v).kind ≠ .direct) (hlive : (r.getWindow v).state = .live)
    (hroom : r.answerQ.length < 64) : drain 6 r [.activate u, .settle] = some (r.dropped u n l v) := by
  let b : Slot := (requestSlot .drop n l v 0).begun
  let p : State := r.putSlot u (some b)
  let g : State := { p.countStale n with answerQ := r.answerQ ++ [.dropped n l true] }
  have hbegun : p.getSlot u = some b := getSlot_putSlot_self ..
  have hdirect : p.isDirect b = false := beq_eq_false_iff_ne.2 hkind
  have hretiring : p.windowRetiring b = false := by
    show ((r.getWindow v).state == .retiring) = false
    rw [hlive]
    rfl
  have hdecide : p.goOn u = (g, [.close u]) := by
    rw [goOn_of_none hbegun rfl, decision_of_request hbegun rfl (requestSlot_recall .drop n l v 0) rfl hretiring]
    unfold State.decideNode
    rw [hdirect, if_neg Bool.false_ne_true]
    exact sendAnswer_closing (s := p.countStale n) (x := b) ⟨hq.noHeldOrder, hq.noHeldAnswer⟩ hbegun rfl hroom rfl
  have hclosing : g.Closing u b l v := ⟨⟨hq.noHeldOrder, hq.noHeldAnswer⟩, hbegun, rfl, onlyOn_putSlot honly _, rfl, rfl, rfl, rfl, nofun⟩
  have hquiet : (g.withDir g.dir).Quiet := (hq.changed hslot (y := b) rfl).same
  have hclose := drain_sole hclosing hquiet hlive rfl (writeBack_unheld hclosing rfl)
  refine drain_step (t := .activate u) (activate_of_untracked hslot rfl hdirect hun) ?_
  refine drain_step (t := .goOn u) (s' := g) (ts' := [.close u]) hdecide (hclose.trans ?_)
  have hput := closed_putSlot ({ r.countStale n with answerQ := r.answerQ ++ [.dropped n l true] } : State) u (some b) (some n) v
  exact congrArg some hput

end

end Sys2Proof.Machine

/-! # A DROP that meets an observing wait: what its admission and its close come to (O38) -/

namespace Sys2Proof.Machine

set_option Elab.async false

section
variable {s b c q : State} {t u e : SlotIx} {x y d : Slot} {l m : Line} {v a : WinIx} {w : WayIx} {k : Nat} {z : State}
  {n o : Node} {rest : List ReqMsg}

/-! ## The admission's counts and the close's -/

/-- One transaction fewer counted by a window. -/
def Window.fewer (r : Window) : Window := { r with openCount := r.openCount - 1 }

/-- One transaction more counted by a window. -/
def Window.more (r : Window) : Window := { r with openCount := r.openCount + 1 }

/-- One credit fewer in use. -/
def NodeRec.fewer (r : NodeRec) : NodeRec := { r with credits := r.credits - 1 }

/-- One credit more in use. -/
def NodeRec.more (r : NodeRec) : NodeRec := { r with credits := r.credits + 1 }

theorem nodes_ext (h : ∀ i, b.getNode i = c.getNode i) : b.nodes = c.nodes := Vector.ext fun i hi => h ⟨i, hi⟩

theorem windows_ext (h : ∀ i, b.getWindow i = c.getWindow i) : b.windows = c.windows := Vector.ext fun i hi => h ⟨i, hi⟩

/-- A count raised and lowered again around another change of the windows. -/
theorem windows_back {g : Window → Window} (hg : (g (s.getWindow v).more).fewer = g (s.getWindow v)) :
    (((s.modWindow v Window.more).modWindow a g).modWindow v Window.fewer).windows = (s.modWindow a g).windows := windows_ext fun i => by
  simp only [getWindow_modWindow]
  by_cases hi : i = v
  · subst hi
    by_cases ha : i = a
    · subst ha
      simp only [if_true]
      exact hg
    · simp only [if_true, if_neg ha]
      rfl
  · by_cases ha : i = a
    · subst ha
      simp only [if_neg hi, if_true]
    · simp only [if_neg hi, if_neg ha]

/-- A credit taken and returned around the return of another. -/
theorem nodes_back (s : State) (n o : Node) : (((s.modNode n NodeRec.more).modNode o NodeRec.fewer).modNode n NodeRec.fewer).nodes =
    (s.modNode o NodeRec.fewer).nodes := nodes_ext fun i => by
  simp only [getNode_modNode]
  by_cases hi : i = n
  · subst hi
    by_cases ho : i = o
    · subst ho
      simp only [if_true]
      rfl
    · simp only [if_true, if_neg ho]
      rfl
  · by_cases ho : i = o
    · subst ho
      simp only [if_neg hi, if_true]
    · simp only [if_neg hi, if_neg ho]

theorem nodes_returned (s : State) (n : Node) : ((s.modNode n NodeRec.more).modNode n NodeRec.fewer).nodes = s.nodes :=
  (congrArg State.nodes (modNode_modNode s n NodeRec.more NodeRec.fewer)).trans (congrArg State.nodes (modNode_self (n := n) rfl))

theorem modNode_nodes_congr (h : b.nodes = c.nodes) (n : Node) (f : NodeRec → NodeRec) : (b.modNode n f).nodes = (c.modNode n f).nodes := by
  show b.nodes.set n.val (f b.nodes[n]) n.isLt = c.nodes.set n.val (f c.nodes[n]) n.isLt
  rw [h]

/-- A DROP answered stale leaves the part as if it had not been admitted, but for its count and its answer. -/
theorem dropped_eq (hc : c = { b with nodes := c.nodes, windows := c.windows, reqIntake := rest }) (hu : b.getSlot u = none)
    (hn : (c.modNode n NodeRec.fewer).nodes = b.nodes) (hw : (c.modWindow v Window.fewer).windows = b.windows) :
    c.dropped u n l v = { b.modNode n (fun e => { e with stale := satInc e.stale }) with
      reqIntake := rest, answerQ := b.answerQ ++ [.dropped n l true] } := by
  have hnodes : ((c.countStale n).modNode n NodeRec.fewer).nodes = (b.modNode n (fun e => { e with stale := satInc e.stale })).nodes := by
    have hcomm : (c.countStale n).modNode n NodeRec.fewer =
        (c.modNode n NodeRec.fewer).modNode n (fun e => { e with stale := satInc e.stale }) := by
      unfold State.countStale
      rw [modNode_modNode, modNode_modNode]
      rfl
    rw [hcomm]
    exact modNode_nodes_congr hn n _
  have hslots : (c.putSlot u none).slots = b.slots := slots_ext fun i => by
    show (c.putSlot u none).getSlot i = b.getSlot i
    rw [getSlot_putSlot]
    split
    · rename_i hi
      rw [hi, hu]
    · exact congrArg (fun p : Vector (Option Slot) 48 => p[i]) (congrArg State.slots hc :)
  have hstate : c.dropped u n l v = { c with
      slots := (c.putSlot u none).slots
      nodes := ((c.countStale n).modNode n NodeRec.fewer).nodes
      windows := (c.modWindow v Window.fewer).windows
      answerQ := c.answerQ ++ [.dropped n l true] } := rfl
  rw [hstate, hnodes, hslots, hw]
  generalize hN : (b.modNode n (fun e => { e with stale := satInc e.stale })).nodes = N
  rw [hc, ← hN]
  rfl

end

end Sys2Proof.Machine

/-! # Requests admitted behind another transaction of their line (O38) -/

namespace Sys2Proof.Machine

set_option Elab.async false

section
variable {s q : State} {t u : SlotIx} {x y d : Slot} {l m : Line} {v a : WinIx} {w : WayIx} {j : Nat} {z : State} {k : ReqKind}
  {n o : Node} {rest : List ReqMsg}

/-- The state with a request parked at the tail of its line's order. -/
def State.parked (s : State) (k : ReqKind) (n : Node) (l : Line) (v : WinIx) (rest : List ReqMsg) (u : SlotIx) : State :=
  (s.admitted n v rest).putSlot u (some (requestSlot k n l v (s.onLine l).length))

theorem entered_notices (s : State) (k : ReqKind) (n : Node) (l : Line) (v : WinIx) (rest : List ReqMsg) :
    s.entered k n l v rest = { s.admitted n v rest with
      notices := s.notices.map (fun m => if k = .writeback ∧ m.line = l ∧ m.node = n then { m with claimed := true } else m) } := by
  by_cases hk : k = .writeback
  · have hmap : (s.notices.map fun m => if m.isFor l n then { m with claimed := true } else m) =
        s.notices.map (fun m => if k = .writeback ∧ m.line = l ∧ m.node = n then { m with claimed := true } else m) :=
      List.map_congr_left fun m _ => if_congr (by unfold Notice.isFor; simp [hk]) rfl rfl
    rw [← hmap]
    exact if_pos hk
  · have hmap : s.notices.map (fun m => if k = .writeback ∧ m.line = l ∧ m.node = n then { m with claimed := true } else m) =
        s.notices := (List.map_congr_left fun m _ => if_neg fun h => hk h.1).trans (List.map_id _)
    rw [hmap]
    exact if_neg hk

theorem startIfHead_behind (hx : q.getSlot u = some x) (hl : x.line = some l) (hr : x.rank ≠ some 0) : q.startIfHead u = [] := by
  unfold State.startIfHead
  rw [hx]
  dsimp only
  rw [hl]
  exact if_neg fun h => hr h.1

/-- The tasks of an admission behind another transaction. -/
theorem takeRequest_behind (h : s.Arrives k n l v rest) (hline : s.onLine l ≠ []) (hfree : s.lowestFree = some u) : s.takeRequest k =
    ((s.entered k n l v rest).putSlot u (some (requestSlot k n l v (s.onLine l).length)),
      if k = .drop then (s.observer l n).map Task.meetObserving else []) := by
  have hlength : (s.onLine l).length ≠ 0 := fun h => hline (List.length_eq_zero_iff.1 h)
  let p : State := (s.entered k n l v rest).putSlot u (some (requestSlot k n l v (s.onLine l).length))
  have hslot : p.getSlot u = some (requestSlot k n l v (s.onLine l).length) := getSlot_putSlot_self ..
  have hobserver : p.observer l n = s.observer l n := slotsWith_congr fun i => by
    rw [getSlot_putSlot]
    by_cases hi : i = u
    · rw [if_pos hi, hi, lowestFree_getSlot hfree]
      exact Bool.and_false _
    · rw [if_neg hi]
      unfold State.getSlot
      rw [entered_slots]
  refine (takeRequest_of_arrives h hfree).trans ?_
  show (p, p.startIfHead u ++ (if k = .drop then (p.observer l n).map Task.meetObserving else [])) = _
  rw [startIfHead_behind hslot rfl fun hr => hlength (Option.some.inj hr), hobserver, List.nil_append]

/-- A request that meets no observing wait parks. -/
theorem exec_parks (h : s.Arrives k n l v rest) (hline : s.onLine l ≠ []) (hfree : s.lowestFree = some u)
    (hno : k = .drop → s.observer l n = []) : exec k.command s = .next (State.driveEventN { s.parked k n l v rest u with
      notices := s.notices.map (fun m => if k = .writeback ∧ m.line = l ∧ m.node = n then { m with claimed := true } else m) }) := by
  have hnone : (if k = .drop then (s.observer l n).map Task.meetObserving else []) = [] := by
    split
    · rw [hno ‹_›, List.map_nil]
    · rfl
  rw [exec_command, takeRequest_behind h hline hfree, hnone, entered_notices]
  exact event_quiet h.quiet.running (((h.quiet.admitted n v rest).putPlain u (x := requestSlot k n l v (s.onLine l).length)
    (by cases k <;> rfl)).same)

/-- A DROP that meets an observing wait. -/
theorem exec_drop_meets (h : s.Arrives .drop n l v rest) (hline : s.onLine l ≠ []) (hfree : s.lowestFree = some u)
    (ho : s.observer l n = [t]) (hj : j + 1 ≤ Config.cascadeBound)
    (hrest : drain j ((s.parked .drop n l v rest u).meetObserving t).1
      (((s.parked .drop n l v rest u).meetObserving t).2 ++ [.settle]) = some z) : exec .drop s = .next z.driveEventN := by
  rw [show exec .drop s = s.event (s.takeRequest .drop) from exec_command .drop s, takeRequest_behind h hline hfree, if_pos rfl, ho]
  exact event_of_drain (j + 1) hj h.quiet.running (drain_step (t := .meetObserving t) (Prod.mk.eta).symm hrest)

theorem observer_mem (ho : s.observer l n = [t]) (hx : s.getSlot t = some x) : x.line = some l ∧ x.memWait = .observing n := by
  have hmem : t ∈ s.observer l n := by rw [ho]; exact List.mem_singleton_self t
  obtain ⟨y, hy, hy'⟩ := mem_slotsWith.1 hmem
  rw [hx] at hy
  cases hy
  simpa using hy'

end

end Sys2Proof.Machine

/-! # The close that lets a DROP behind it activate (O38) -/

namespace Sys2Proof.Machine

set_option Elab.async false

section
variable {s q r c : State} {t u e : SlotIx} {x y d : Slot} {l b : Line} {v a : WinIx} {w : WayIx} {k : Nat} {z : State}
  {n o : Node} {rest : List ReqMsg} {us : List Task} {ct : Content}

/-! ## An untracked line -/

theorem getWay_putSet_self (hd : dirWf s.dir = true) (i : SetIx) (g : SetRec) (y : WayIx) :
    (s.putSet i g).getWay i y = g.ways[y] := by
  unfold State.getWay
  rw [getSet_putSet_self hd]

theorem untracked_putWays (hd : dirWf s.dir = true) (hs : s.soundSet (setOf l)) {f : Way} (hf : f.key.check = .good ∧ f.body.check = .good)
    (hkey : f.body.stored.content ≠ .free → f.key.stored ≠ some (keyOf l))
    (hothers : ∀ y, y ≠ w → (s.getWay (setOf l) y).body.stored.content ≠ .free → (s.getWay (setOf l) y).key.stored ≠ some (keyOf l))
    {g : SetRec} (hg : g.ways = (s.getSet (setOf l)).ways.set w.val f w.isLt) : (s.putSet (setOf l) g).untracked l := by
  have hway : ∀ y, (s.putSet (setOf l) g).getWay (setOf l) y = if y = w then f else s.getWay (setOf l) y := fun y => by
    rw [getWay_putSet_self hd, hg]
    by_cases hy : y = w
    · subst hy
      rw [if_pos rfl]
      exact Vector.getElem_set_self ..
    · rw [if_neg hy]
      exact Vector.getElem_set_ne _ _ fun h => hy (Fin.ext h.symm)
  refine ⟨fun y => ?_, fun y hy => ?_⟩
  · rw [hway]
    split
    · exact hf
    · exact hs y
  · rw [hway] at hy ⊢
    split at hy
    · rw [if_pos ‹_›]
      exact hkey hy
    · rw [if_neg ‹_›]
      exact hothers y ‹_› hy

/-! ## The windows of a part that admitted a request -/

theorem admitted_getWindow (s : State) (n : Node) (v : WinIx) (rest : List ReqMsg) (i : WinIx) :
    (s.admitted n v rest).getWindow i = if i = v then (s.getWindow v).more else s.getWindow i :=
  getWindow_modWindow (({ s with reqIntake := rest } : State).modNode n NodeRec.more) v i Window.more

theorem admitted_windowState (s : State) (n : Node) (v : WinIx) (rest : List ReqMsg) (i : WinIx) :
    ((s.admitted n v rest).getWindow i).state = (s.getWindow i).state ∧ ((s.admitted n v rest).getWindow i).kind = (s.getWindow i).kind := by
  rw [admitted_getWindow]
  by_cases hi : i = v
  · subst hi
    rw [if_pos rfl]
    exact ⟨rfl, rfl⟩
  · rw [if_neg hi]
    exact ⟨rfl, rfl⟩

/-- The window of the request behind, after the close before it. -/
theorem window_closed {g : Window → Window} (hc : c.windows = ((s.admitted n v rest).modWindow a g).windows)
    (hg : ∀ r : Window, (g r).kind = r.kind ∧ (r.state = .live → (g r).state = .live)) (hlive : (s.getWindow v).state = .live) :
    (c.getWindow v).kind = (s.getWindow v).kind ∧ (c.getWindow v).state = .live := by
  have hwin : c.getWindow v = ((s.admitted n v rest).modWindow a g).getWindow v := by
    unfold State.getWindow
    rw [hc]
  obtain ⟨hs, hk⟩ := admitted_windowState s n v rest v
  rw [hwin, getWindow_modWindow]
  by_cases hv : v = a
  · subst hv
    rw [if_pos rfl]
    exact ⟨(hg _).1.trans hk, (hg _).2 (hs.trans hlive)⟩
  · rw [if_neg hv]
    exact ⟨hk, hs.trans hlive⟩

/-! ## The tail of the close -/

/-- The rest of a close behind which a DROP waits on a line that is untracked then. -/
theorem drain_behind_drop (h : q.Closing t x l a) (hut : u ≠ t) (hc : q.leaveTable t x = c) (hquiet : c.Quiet)
    (hslots : ∀ i, c.getSlot i = (q.putSlot t none).getSlot i) (hun : c.untracked l) (hkind : (c.getWindow v).kind ≠ .direct)
    (hlive : (c.getWindow v).state = .live) (hroom : c.answerQ.length < 64) :
    drain 8 (q.putSlot u (some (requestSlot .drop n l v 1))) [.finishClose t, .settle] = some (c.dropped u n l v) := by
  have hdrop := drain_staleDrop (r := c.putSlot u (some (requestSlot .drop n l v 0))) (n := n)
    (hquiet.putPlain u rfl) (getSlot_putSlot_self ..) (onlyOn_left h.only hslots _) hun hkind hlive hroom
  have hput : (c.putSlot u (some (requestSlot .drop n l v 0))).dropped u n l v = c.dropped u n l v :=
    closed_putSlot ({ c.countStale n with answerQ := c.answerQ ++ [.dropped n l true] } : State) u _ (some n) v
  rw [hput] at hdrop
  exact drain_finish_behind (d := requestSlot .drop n l v 1) h hut rfl rfl rfl hc hslots
    (frozen_of_anyFrozen hquiet.noFrozen (setOf l)) hdrop

/-! ## A recall's way freed, whatever else is on its line -/

theorem freeHeld_of_line (hx : s.getSlot t = some x) (hl : x.line = some l) (hw : x.working = some ⟨w, ct⟩)
    (hb : (s.getWay (setOf l) w).body.check = .good) :
    s.freeHeld t = (s.makeFree (setOf l) w).putSlot t (some { x with working := none }) := by
  have hset : x.setIx = some (setOf l) := by unfold Slot.setIx; rw [hl]
  have hview : (s.bodyView (setOf l) w).isSome = true := by
    unfold State.bodyView
    rw [view_of_good hb]
    rfl
  exact freeHeld_of_held hx hw hset hview

theorem recallFreed_of_unlinked (hx : s.getSlot t = some x) (hl : x.line = some l) (hw : x.working = some ⟨w, ct⟩)
    (hb : (s.getWay (setOf l) w).body.check = .good) (hv : x.victimLink = none) :
    s.recallFreed t = ((s.makeFree (setOf l) w).putSlot t (some x.released), [.finishClose t]) := by
  have hrecord : ({ x with working := none } : Slot) = x.released := by
    unfold Slot.released
    rw [← hv]
  have hset : x.setIx = some (setOf l) := by unfold Slot.setIx; rw [hl]
  unfold State.recallFreed
  rw [hx]
  dsimp only
  rw [hw, hset, hv]
  dsimp only
  rw [freeHeld_of_line hx hl hw hb, hrecord]

theorem recallFreed_of_waiter {i : Node} (hx : s.getSlot t = some x) (hl : x.line = some l) (hw : x.working = some ⟨w, ct⟩)
    (hb : (s.getWay (setOf l) w).body.check = .good) (hv : x.victimLink = some e) (hk : x.kind = .victimRecall)
    (hy : s.waits t e y l b i) : s.recallFreed t =
      ((s.freeHeld t).handOver t e (setOf l) w b, [.handedOver e, .finishClose t]) := by
  have hset : x.setIx = some (setOf l) := by unfold Slot.setIx; rw [hl]
  have hslot : (s.freeHeld t).getSlot e = some y := by
    rw [freeHeld_of_line hx hl hw hb]
    exact (getSlot_putSlot_of_ne (s := s.makeFree (setOf l) w) hy.other _).trans hy.slot
  unfold State.recallFreed
  rw [hx]
  dsimp only
  rw [hw, hset, hv]
  dsimp only
  rw [hslot]
  dsimp only
  rw [hy.line]
  dsimp only
  exact if_pos (And.intro hk hy.phase)

end

end Sys2Proof.Machine

/-! # An observing wait met by a DROP that activates after it (O38) -/

namespace Sys2Proof.Machine

set_option Elab.async false

section
variable {s q r c : State} {t u e : SlotIx} {x y d : Slot} {l b : Line} {v a : WinIx} {w : WayIx} {k : Nat} {z : State}
  {n o i : Node} {rest : List ReqMsg} {us : List Task} {ct : Content}

/-- A DROP just admitted behind the one transaction of its line, whose observing wait it meets; nothing else is of the line once
that transaction's way is free. -/
structure State.MeetsAlone (s : State) (n : Node) (l : Line) (v : WinIx) (rest : List ReqMsg) (u t : SlotIx) (x : Slot) (w : WayIx) :
    Prop where
  arrives : s.Arrives .drop n l v rest
  free : s.lowestFree = some u
  watches : s.observer l n = [t]
  slot : s.getSlot t = some x
  sent : x.pending = none
  plain : x.rebuild = none
  working : x.working = some ⟨w, .owned n⟩
  readable : (s.getWay (setOf l) w).body.check = .good
  alone : s.onLine l = [t]
  rank : x.rank = some 0
  kind : (s.getWindow v).kind ≠ .direct
  sound : s.soundSet (setOf l)
  others : ∀ y, y ≠ w → (s.getWay (setOf l) y).body.stored.content ≠ .free → (s.getWay (setOf l) y).key.stored ≠ some (keyOf l)

theorem State.MeetsAlone.line (h : s.MeetsAlone n l v rest u t x w) : x.line = some l := (observer_mem h.watches h.slot).1

theorem State.MeetsAlone.other (h : s.MeetsAlone n l v rest u t x w) : u ≠ t := fun hut => by
  have hnone := lowestFree_getSlot h.free
  rw [hut, h.slot] at hnone
  cases hnone

/-- The state with the DROP parked behind. -/
theorem State.MeetsAlone.parked (h : s.MeetsAlone n l v rest u t x w) : s.parked .drop n l v rest u =
    (s.admitted n v rest).putSlot u (some (requestSlot .drop n l v 1)) := by
  unfold State.parked
  rw [h.alone]
  rfl

theorem State.MeetsAlone.exec (h : s.MeetsAlone n l v rest u t x w) (hk : k + 1 ≤ Config.cascadeBound)
    (hrest : drain k (((s.admitted n v rest).putSlot u (some (requestSlot .drop n l v 1))).meetObserving t).1
      ((((s.admitted n v rest).putSlot u (some (requestSlot .drop n l v 1))).meetObserving t).2 ++ [.settle]) = some z) :
    Machine.exec .drop s = .next z.driveEventN :=
  exec_drop_meets h.arrives (by rw [h.alone]; exact List.cons_ne_nil t []) h.free h.watches hk (by rw [h.parked]; exact hrest)

theorem State.MeetsAlone.parkedSlot (h : s.MeetsAlone n l v rest u t x w) :
    ((s.admitted n v rest).putSlot u (some (requestSlot .drop n l v 1))).getSlot t = some x :=
  (getSlot_putSlot_of_ne h.other.symm _).trans h.slot

/-- A DROP answered stale: what it adds. -/
def State.answeredStale (b : State) (n : Node) (l : Line) (rest : List ReqMsg) : State :=
  { b.modNode n (fun e => { e with stale := satInc e.stale }) with
    reqIntake := rest, answerQ := b.answerQ ++ [.dropped n l true] }

/-! ## The request refused -/

/-- A read request refused as its wait is met, and closed. -/
theorem State.MeetsAlone.refuses (h : s.MeetsAlone n l v rest u t x w) (hs : s.Sole t x l a) (hk : x.kind.recall = false)
    (hwb : x.kind ≠ .writeback) (hq : x.requester = some o) (hmem : s.mem ≠ .live) (ho : s.nodeState o ≠ .purging)
    (hroom : s.answerQ.length < 63) :
    Machine.exec .drop s = .next (State.driveEventN (State.answeredStale
      { (s.closed t (some o) a).putSet (setOf l) ((s.getSet (setOf l)).freed w) with
        answerQ := s.answerQ ++ [.refuse o l (.request x.kind.toReqKind) .memoryFault] } n l rest)) := by
  let A : State := s.admitted n v rest
  let b : State := { (s.closed t (some o) a).putSet (setOf l) ((s.getSet (setOf l)).freed w) with
    answerQ := s.answerQ ++ [.refuse o l (.request x.kind.toReqKind) .memoryFault] }
  let c : State := { (A.closed t (some o) a).putSet (setOf l) ((s.getSet (setOf l)).freed w) with
    answerQ := s.answerQ ++ [.refuse o l (.request x.kind.toReqKind) .memoryFault] }
  let y : Slot := { x.met with working := none }
  let q : State := { (A.makeFree (setOf l) w).putSlot t (some y) with
    answerQ := s.answerQ ++ [.refuse o l (.request x.kind.toReqKind) .memoryFault] }
  have hquiet : A.Quiet := h.arrives.quiet.admitted n v rest
  have hmet := meetObserving_refused (s := A.putSlot u (some (requestSlot .drop n l v 1))) (t := t) (w := w)
    ⟨h.arrives.quiet.noHeldOrder, h.arrives.quiet.noHeldAnswer⟩ h.parkedSlot h.sent hk hq h.line h.working h.readable hmem
    (by rw [show (A.putSlot u (some (requestSlot .drop n l v 1))).nodeState o = s.nodeState o from admitted_nodeState s n o v rest]; exact ho)
    (show s.answerQ.length < 64 by omega)
  have hstate : ({ ((A.putSlot u (some (requestSlot .drop n l v 1))).makeFree (setOf l) w).putSlot t (some y) with
      answerQ := s.answerQ ++ [.refuse o l (.request x.kind.toReqKind) .memoryFault] } : State) =
      q.putSlot u (some (requestSlot .drop n l v 1)) :=
    congrArg (fun p : State => ({ p with answerQ := s.answerQ ++ [.refuse o l (.request x.kind.toReqKind) .memoryFault] } : State))
      (putSlot_comm (s := A.makeFree (setOf l) w) h.other.symm _ _)
  have hclosing : q.Closing t y l a := hs.closing (y := y) ⟨h.arrives.quiet.noHeldOrder, h.arrives.quiet.noHeldAnswer⟩ rfl rfl rfl rfl rfl
    h.sent fun _ hw => absurd hw hwb
  have hlive : (q.getWindow a).state = .live := (admitted_windowState s n v rest a).1.trans hs.windowLive
  have hleave : q.leaveTable t y = c := by
    rw [leaveTable_closed hclosing hlive hs.uncounted, show y.requester = some o from hq]
    exact closed_putSlot ({ A.makeFree (setOf l) w with
      answerQ := s.answerQ ++ [.refuse o l (.request x.kind.toReqKind) .memoryFault] } : State) t (some y) (some o) a
  have hcquiet : c.Quiet := ((hquiet.closed t (some o) a).putSet (setOf l) (r := (s.getSet (setOf l)).freed w)
    (h.arrives.quiet.frozenSet (setOf l))).same
  have huntracked : c.untracked l := untracked_putWays (s := s) h.arrives.canonical h.sound ⟨rfl, rfl⟩ (fun hf => absurd rfl hf) h.others rfl
  obtain ⟨hwkind, hwlive⟩ := window_closed (s := s) (c := c) (v := v) (n := n) (rest := rest) (a := a) (g := Window.fewer) rfl
    (fun _ => ⟨rfl, id⟩) h.arrives.windowLive
  have hdrain := drain_behind_drop (n := n) (v := v) hclosing h.other hleave hcquiet
    (fun j => (congrArg (fun p : State => p.getSlot j) (putSlot_putSlot A t (some y) none)).symm) huntracked
    (by rw [hwkind]; exact h.kind) hwlive (by show (s.answerQ ++ [_]).length < 64; rw [List.length_append, List.length_singleton]; omega)
  have hdropped : c.dropped u n l v = State.answeredStale b n l rest :=
    dropped_eq (b := b) (c := c) rfl ((getSlot_putSlot_of_ne (s := s) h.other _).trans (lowestFree_getSlot h.free))
      (nodes_back s n o) (windows_back (s := s) (g := Window.fewer) rfl)
  rw [hdropped] at hdrain
  have hwork : (A.putSlot u (some (requestSlot .drop n l v 1))).meetObserving t =
      (q.putSlot u (some (requestSlot .drop n l v 1)), [.close t]) := hmet.trans (congrArg (fun p => (p, [Task.close t])) hstate)
  refine h.exec (k := 9) (by decide) ?_
  rw [hwork]
  refine drain_step (t := .close t) (ts' := [.finishClose t]) ?_ hdrain
  exact congrArg (fun p => (p, [Task.finishClose t])) (writeBack_of_none
    ((getSlot_putSlot_of_ne h.other.symm _).trans (getSlot_putSlot_self ..)) rfl)

end

end Sys2Proof.Machine

/-! # A recall whose observing wait a DROP meets (O38) -/

namespace Sys2Proof.Machine

set_option Elab.async false

section
variable {s q p c : State} {t u e : SlotIx} {x y z : Slot} {l b : Line} {v a : WinIx} {w : WayIx} {i : SetIx}
  {n o : Node} {rest : List ReqMsg} {ct : Content}

/-! ## The close of a recall in a part that admitted a request -/

/-- What the close of a recall leaves of its window (R105, R107). -/
def Window.recallFewer (r : Window) : Window :=
  if r.state = .retiring ∧ r.progress = some .draining ∧ r.openCount ≤ 1 then
    { r with state := .closed, progress := none, openCount := 0 }
  else { r with openCount := r.openCount - 1 }

theorem recallFewer_of_live {r : Window} (h : r.state = .live) : r.recallFewer = r.fewer :=
  if_neg fun hr => by
    have hretiring := hr.1
    rw [h] at hretiring
    cases hretiring

theorem recallFewer_kept (r : Window) : r.recallFewer.kind = r.kind ∧ (r.state = .live → r.recallFewer.state = .live) := by
  refine ⟨?_, fun h => ?_⟩
  · unfold Window.recallFewer
    split <;> rfl
  · rw [recallFewer_of_live h]
    exact h

theorem recallClosed_windows (s : State) (t : SlotIx) (x : Slot) (v : WinIx) :
    (s.recallClosed t x v).windows = (s.modWindow v Window.recallFewer).windows := by
  unfold State.recallClosed
  dsimp only
  split
  · split <;> rfl
  · rfl

theorem recallClosed_dir (s : State) (t : SlotIx) (x : Slot) (v : WinIx) : (s.recallClosed t x v).dir = s.dir :=
  (congrArg State.dir (recallClosed_eq s t x v) :)

theorem recallClosed_slots (s : State) (t : SlotIx) (x : Slot) (v : WinIx) : (s.recallClosed t x v).slots = (s.putSlot t none).slots :=
  (congrArg State.slots (recallClosed_eq s t x v) :)

theorem recallClosed_orderQ (s : State) (t : SlotIx) (x : Slot) (v : WinIx) : (s.recallClosed t x v).orderQ = s.orderQ :=
  (congrArg State.orderQ (recallClosed_eq s t x v) :)

theorem recallClosed_answerQ (s : State) (t : SlotIx) (x : Slot) (v : WinIx) : (s.recallClosed t x v).answerQ = s.answerQ :=
  (congrArg State.answerQ (recallClosed_eq s t x v) :)

theorem recallClosed_admitted (s : State) (n : Node) (v : WinIx) (rest : List ReqMsg) (t : SlotIx) (x : Slot) (a : WinIx) :
    (s.admitted n v rest).recallClosed t x a = { s.recallClosed t x a with
      nodes := (s.admitted n v rest).nodes
      windows := ((s.admitted n v rest).recallClosed t x a).windows
      reqIntake := rest } := by
  unfold State.recallClosed
  dsimp only
  split
  · split <;> rfl
  · rfl

/-- The window's count of a request answered while the recall before it closed. -/
theorem recallWindows_back (hlive : (s.getWindow v).state = .live) :
    (((s.admitted n v rest).recallClosed t x a).modWindow v Window.fewer).windows = (s.recallClosed t x a).windows := by
  have hback := windows_back (s := s) (v := v) (a := a) (g := Window.recallFewer) (by
    rw [recallFewer_of_live (r := (s.getWindow v).more) hlive, recallFewer_of_live hlive]
    rfl)
  rw [recallClosed_windows, ← hback]
  show (((s.admitted n v rest).recallClosed t x a).windows).set v.val _ v.isLt = _
  unfold State.getWindow
  rw [recallClosed_windows]
  rfl

/-- A recall in a part that admitted a request: its job goes on as before. -/
theorem jobsGoOn_admitted (h : s.jobsGoOn x) : (s.admitted n v rest).jobsGoOn x := h

theorem untracked_same (hd : c.dir = q.dir) (h : q.untracked l) : c.untracked l := by
  unfold State.untracked State.soundSet State.getWay State.getSet at h ⊢
  rw [hd]
  exact h

/-- A recall closed and the DROP behind it answered: as if the DROP had not been admitted. -/
theorem dropped_recallClosed {B C : State} (hb : B = { s.recallClosed t x a with dir := B.dir, slots := B.slots, orderQ := B.orderQ })
    (hc : C = { (s.admitted n v rest).recallClosed t x a with dir := C.dir, slots := C.slots, orderQ := C.orderQ })
    (hdir : C.dir = B.dir) (hslots : C.slots = B.slots) (horder : C.orderQ = B.orderQ) (hu : B.getSlot u = none)
    (hlive : (s.getWindow v).state = .live) : C.dropped u n l v = State.answeredStale B n l rest := by
  have hadmitted := recallClosed_admitted s n v rest t x a
  have hback := recallWindows_back (s := s) (t := t) (x := x) (a := a) (n := n) (rest := rest) hlive
  have hsame := recallClosed_eq s t x a
  rw [hdir, hslots, horder] at hc
  generalize B.dir = D at hb hc
  generalize B.slots = S at hb hc
  generalize B.orderQ = O at hb hc
  generalize (s.admitted n v rest).recallClosed t x a = X at hadmitted hback hc
  have hnodes : C.nodes = (s.modNode n NodeRec.more).nodes := by
    rw [hc]
    exact (congrArg State.nodes hadmitted :)
  refine dropped_eq ?_ hu ?_ ?_
  · rw [hc, hb]
    exact congrArg (fun p : State => ({ p with dir := D, slots := S, orderQ := O, nodes := X.nodes } : State)) hadmitted
  · rw [modNode_nodes_congr hnodes, nodes_returned, hb]
    exact (congrArg State.nodes hsame :).symm
  · rw [hc, hb]
    exact hback

/-! ## The recall ends -/

theorem State.MeetsAlone.meets (h : s.MeetsAlone n l v rest u t x w) (hk : x.kind.recall = true) :
    ((s.admitted n v rest).putSlot u (some (requestSlot .drop n l v 1))).meetObserving t =
      (((s.admitted n v rest).putSlot u (some (requestSlot .drop n l v 1))).putSlot t (some x.met)).recallFreed t :=
  meetObserving_recall ⟨h.arrives.quiet.noHeldOrder, h.arrives.quiet.noHeldAnswer⟩ h.parkedSlot h.sent hk

/-- A recall without a waiter ends with its way freed, and the DROP is answered. -/
theorem State.MeetsAlone.frees (h : s.MeetsAlone n l v rest u t x w) (hk : x.kind.recall = true) (hq : x.requester = none)
    (hwin : x.window = some a) (hgo : s.jobsGoOn x) (hroom : s.answerQ.length < 64) (hv : x.victimLink = none) :
    Machine.exec .drop s = .next (State.driveEventN (State.answeredStale
      ((s.recallClosed t x a).putSet (setOf l) ((s.getSet (setOf l)).freed w)) n l rest)) := by
  let A : State := s.admitted n v rest
  let R : SetRec := (s.getSet (setOf l)).freed w
  let b : State := (s.recallClosed t x a).putSet (setOf l) R
  let c : State := (A.recallClosed t x a).putSet (setOf l) R
  let q : State := (A.makeFree (setOf l) w).putSlot t (some x.met.released)
  have hquiet : A.Quiet := h.arrives.quiet.admitted n v rest
  have honly : A.onlyOn l t := onlyOn_of_alone h.alone
  have hfreed := recallFreed_of_unlinked (s := (A.putSlot u (some (requestSlot .drop n l v 1))).putSlot t (some x.met)) (x := x.met)
    (w := w) (getSlot_putSlot_self ..) h.line h.working h.readable hv
  have hstate : (((A.putSlot u (some (requestSlot .drop n l v 1))).putSlot t (some x.met)).makeFree (setOf l) w).putSlot t
      (some x.met.released) = q.putSlot u (some (requestSlot .drop n l v 1)) :=
    (putSlot_putSlot ((A.makeFree (setOf l) w).putSlot u (some (requestSlot .drop n l v 1))) t _ _).trans
      (putSlot_comm (s := A.makeFree (setOf l) w) h.other.symm _ _)
  have hclosing : q.Closing t x.met.released l a := ⟨⟨h.arrives.quiet.noHeldOrder, h.arrives.quiet.noHeldAnswer⟩,
    getSlot_putSlot_self .., h.line, onlyOn_putSlot (s := A.makeFree (setOf l) w) honly _, h.rank, hwin, rfl, h.sent,
    fun _ _ hr => nomatch hq.symm.trans hr⟩
  have hleave : q.leaveTable t x.met.released = c := (leaveTable_recallClosed hclosing hq).trans
    ((recallClosed_putSlot (A.makeFree (setOf l) w) t (some x.met.released) x.met.released a).trans
      (recallClosed_putSet A (setOf l) R t x a))
  have hcquiet : c.Quiet := (hquiet.recallClosed t a (jobsGoOn_admitted hgo)).putSet (setOf l) (r := R)
    (h.arrives.quiet.frozenSet (setOf l))
  have hcdir : c.dir = (s.putSet (setOf l) R).dir := by
    show dirPut (setOf l) R (A.recallClosed t x a).dir = dirPut (setOf l) R s.dir
    rw [recallClosed_dir]
    rfl
  have hbdir : b.dir = (s.putSet (setOf l) R).dir := by
    show dirPut (setOf l) R (s.recallClosed t x a).dir = dirPut (setOf l) R s.dir
    rw [recallClosed_dir]
  have huntracked : c.untracked l := untracked_same hcdir
    (untracked_putWays (f := freeWay) h.arrives.canonical h.sound ⟨rfl, rfl⟩ (fun hf => absurd rfl hf) h.others rfl)
  obtain ⟨hwkind, hwlive⟩ := window_closed (s := s) (c := c) (v := v) (n := n) (rest := rest) (a := a) (g := Window.recallFewer)
    (recallClosed_windows A t x a) recallFewer_kept h.arrives.windowLive
  have hdrain := drain_behind_drop (n := n) (v := v) hclosing h.other hleave hcquiet
    (fun j => (recallClosed_getSlot A t x a j).trans (congrArg (fun p : State => p.getSlot j) (putSlot_putSlot A t (some x.met.released) none)).symm)
    huntracked (by rw [hwkind]; exact h.kind) hwlive
    (by rw [show c.answerQ = s.answerQ from recallClosed_answerQ A t x a]; exact hroom)
  have hbslots : b.getSlot u = none := (recallClosed_getSlot s t x a u).trans
    ((getSlot_putSlot_of_ne h.other _).trans (lowestFree_getSlot h.free))
  have hdropped : c.dropped u n l v = State.answeredStale b n l rest :=
    dropped_recallClosed rfl rfl (hcdir.trans hbdir.symm) ((recallClosed_slots A t x a).trans (recallClosed_slots s t x a).symm)
      ((recallClosed_orderQ A t x a).trans (recallClosed_orderQ s t x a).symm) hbslots h.arrives.windowLive
  rw [hdropped] at hdrain
  refine h.exec (k := 8) (by decide) ?_
  rw [h.meets hk, hfreed, hstate]
  exact hdrain

end

end Sys2Proof.Machine

/-! # AdmittedRequestParks (O38) -/

namespace Sys2Proof.Machine

set_option Elab.async false

section
variable {s q p c : State} {t u e : SlotIx} {x y z : Slot} {l b : Line} {v a : WinIx} {w : WayIx} {i : SetIx}
  {n o : Node} {rest : List ReqMsg} {ct : Content}

/-! ## A recall whose waiter still waits -/

theorem handOver_of_slots (hne : e ≠ t) (he : q.getSlot e = some y) (ht : q.getSlot t = some z) : q.handOver t e i w b =
    ((q.putWay i w (reservedWay b e)).putSlot e (some (y.handed w))).putSlot t (some { z with victimLink := none }) := by
  have hreserve : q.reserve i w e b = (q.putWay i w (reservedWay b e)).putSlot e (some { y with working := some ⟨w, .reserved⟩ }) :=
    modSlot_of_slot (s := q.putWay i w (reservedWay b e)) he _
  have ht' : ((q.putWay i w (reservedWay b e)).putSlot e (some (y.handed w))).getSlot t = some z :=
    (getSlot_putSlot_of_ne (s := q.putWay i w (reservedWay b e)) hne.symm _).trans ht
  unfold State.handOver
  rw [hreserve, modSlot_putSlot_self]
  exact modSlot_of_slot ht' _

/-- The slots once a waiter has its way, written in any order. -/
theorem slots_given {d h g z z' z'' : Option Slot} (hut : u ≠ t) (hue : u ≠ e) (het : e ≠ t) :
    ((((((s.putSlot u d).putSlot t z'').putSlot t z').putSlot e h).putSlot t z).putSlot e g).slots =
      (((s.putSlot e g).putSlot t z).putSlot u d).slots := by
  rw [putSlot_putSlot (s.putSlot u d) t z'' z', putSlot_comm (s := (s.putSlot u d).putSlot t z') het.symm h z, putSlot_putSlot,
    putSlot_putSlot, putSlot_comm (s := (s.putSlot u d)) het z g, putSlot_comm hue.symm d g, putSlot_comm (s := s.putSlot e g) hut.symm d z]

/-- The waiter is handed the way and its FETCH is sent. -/
theorem drain_handedOver {k : Nat} {f : State} {us : List Task} (hx : q.getSlot e = some (y.handed w)) (hn : q.NoneHeld)
    (hy : s.waits t e y l b o) (hwin : ∀ j, (q.getWindow j).state = (s.getWindow j).state) (hlimits : q.limits = s.limits)
    (hmem : q.mem = .live) (hroom : q.orderQ.length < 64)
    (hrest : drain k { q.putSlot e (some (y.given s w)) with orderQ := q.orderQ ++ [.fetch b o false] } us = some f) :
    drain (k + 1) q (.handedOver e :: us) = some f := by
  have hround := startRound_of_room hn hx hy.sent hy.plain (os := [.fetch b o false]) hroom 0#8 .fetchSent .nothing
  have hretiring : q.windowRetiring (y.handed w) = false := windowRetiring_of_open fun j hj => by
    rw [hwin]
    exact hy.windowOpen j hj
  have hgiven : y.given q w = y.given s w := by
    unfold Slot.given
    rw [hlimits]
  refine drain_step (t := .handedOver e) (ts' := []) ?_ hrest
  refine (handedOver_of_waiter hx hy.requester hy.line hretiring (beq_iff_eq.2 hmem)).trans ?_
  rw [← hgiven]
  exact congrArg (fun q => (q, ([] : List Task))) hround

theorem State.MeetsAlone.gives (h : s.MeetsAlone n l v rest u t x w) (hk : x.kind = .victimRecall) (hq : x.requester = none)
    (hwin : x.window = some a) (hgo : s.jobsGoOn x) (hroom : s.answerQ.length < 64) (hv : x.victimLink = some e)
    (hy : s.waits t e y l b o) (hmem : s.mem = .live) (horder : s.orderQ.length < 64) :
    Machine.exec .drop s = .next (State.driveEventN (State.answeredStale ((s.recallClosed t x a).givenWay e y l b o w) n l rest)) := by
  let A : State := s.admitted n v rest
  let d : Slot := requestSlot .drop n l v 1
  let R : SetRec := (s.getSet (setOf l)).givenTo w b e
  let B : State := { ((s.recallClosed t x a).putSet (setOf l) R).putSlot e (some (y.given s w)) with
    orderQ := s.orderQ ++ [.fetch b o false] }
  let c : State := { ((A.recallClosed t x a).putSet (setOf l) R).putSlot e (some (y.given s w)) with
    orderQ := s.orderQ ++ [.fetch b o false] }
  let q : State := { ((A.putSet (setOf l) R).putSlot e (some (y.given s w))).putSlot t (some x.met.released) with
    orderQ := s.orderQ ++ [.fetch b o false] }
  let S : State := (A.putSlot u (some d)).putSlot t (some x.met)
  have hrecall : x.kind.recall = true := by rw [hk]; rfl
  have hue : u ≠ e := fun hue => by
    have hnone := lowestFree_getSlot h.free
    rw [hue, hy.slot] at hnone
    cases hnone
  have hbl : b ≠ l := fun hbl => hy.other (onlyOn_of_alone h.alone e y hy.slot (hbl ▸ hy.line))
  have hquiet : A.Quiet := h.arrives.quiet.admitted n v rest
  have honly : A.onlyOn l t := onlyOn_of_alone h.alone
  have hSslot : S.getSlot t = some x.met := getSlot_putSlot_self ..
  have hSwait : S.waits t e y l b o := ⟨hy.other,
    (getSlot_putSlot_of_ne hy.other _).trans ((getSlot_putSlot_of_ne hue.symm _).trans hy.slot), hy.phase, hy.line, hy.sameSet,
    hy.requester, fun j hj => by
      rw [show (S.getWindow j).state = (s.getWindow j).state from (admitted_windowState s n v rest j).1]
      exact hy.windowOpen j hj, hy.sent, hy.plain⟩
  have hfreed := recallFreed_of_waiter (s := S) (x := x.met) hSslot h.line h.working h.readable hv hk hSwait
  let F : State := (S.makeFree (setOf l) w).putSlot t (some { x.met with working := none })
  have hfree : S.freeHeld t = F := freeHeld_of_line hSslot h.line h.working h.readable
  let G : State := ((F.putWay (setOf l) w (reservedWay b e)).putSlot e (some (y.handed w))).putSlot t (some x.met.released)
  have hover : F.handOver t e (setOf l) w b = G := handOver_of_slots hy.other
    ((getSlot_putSlot_of_ne (s := S.makeFree (setOf l) w) hy.other _).trans hSwait.slot) (getSlot_putSlot_self ..)
  have hG : G = { A.putSet (setOf l) R with slots := G.slots } :=
    (congrArg (fun p : State => ({ p with slots := G.slots } : State)) (makeFree_given (s := A) h.arrives.canonical (setOf l) w b e) :)
  have hslots : (G.putSlot e (some (y.given s w))).slots = (q.putSlot u (some d)).slots :=
    slots_given (s := A) (z'' := some x.met) (z' := some { x.met with working := none }) h.other hue hy.other
  have hstate : ({ G.putSlot e (some (y.given s w)) with orderQ := G.orderQ ++ [.fetch b o false] } : State) = q.putSlot u (some d) := by
    show ({ G with slots := (G.putSlot e (some (y.given s w))).slots, orderQ := s.orderQ ++ [.fetch b o false] } : State) = _
    rw [hslots, hG]
    rfl
  have hclosing : q.Closing t x.met.released l a := ⟨⟨h.arrives.quiet.noHeldOrder, h.arrives.quiet.noHeldAnswer⟩,
    getSlot_putSlot_self .., h.line, onlyOn_putSlot (s := (A.putSet (setOf l) R).putSlot e (some (y.given s w)))
      (onlyOn_putSlot_other (s := A.putSet (setOf l) R) honly hy.slot rfl) _, h.rank, hwin, rfl, h.sent,
    fun _ _ hr => nomatch hq.symm.trans hr⟩
  have hleave : q.leaveTable t x.met.released = c := (leaveTable_recallClosed hclosing hq).trans
    ((recallClosed_putSlot { (A.putSet (setOf l) R).putSlot e (some (y.given s w)) with orderQ := s.orderQ ++ [.fetch b o false] } t
      (some x.met.released) x.met.released a).trans (recallClosed_given hy.other R (y.given s w) (setOf l) _))
  have hcquiet : c.Quiet := (((hquiet.recallClosed t a (jobsGoOn_admitted hgo)).putSet (setOf l) (r := R)
    (h.arrives.quiet.frozenSet (setOf l))).slotted (u := e) (y := y.given s w) rfl hy.plain)
  have hcdir : c.dir = (s.putSet (setOf l) R).dir := by
    show dirPut (setOf l) R (A.recallClosed t x a).dir = dirPut (setOf l) R s.dir
    rw [recallClosed_dir]
    rfl
  have hBdir : B.dir = (s.putSet (setOf l) R).dir := by
    show dirPut (setOf l) R (s.recallClosed t x a).dir = dirPut (setOf l) R s.dir
    rw [recallClosed_dir]
  have hkey : (reservedWay b e).body.stored.content ≠ .free → (reservedWay b e).key.stored ≠ some (keyOf l) := fun _ hkey => hbl (by
    have hk' : keyOf b = keyOf l := Option.some.inj hkey
    rw [← lineOf_keyOf_setOf b, ← lineOf_keyOf_setOf l, hk', hy.sameSet])
  have huntracked : c.untracked l := untracked_same hcdir
    (untracked_putWays (f := reservedWay b e) h.arrives.canonical h.sound ⟨rfl, rfl⟩ hkey h.others rfl)
  obtain ⟨hwkind, hwlive⟩ := window_closed (s := s) (c := c) (v := v) (n := n) (rest := rest) (a := a) (g := Window.recallFewer)
    (recallClosed_windows A t x a) recallFewer_kept h.arrives.windowLive
  have hgot : ∀ j, c.getSlot j = (q.putSlot t none).getSlot j := fun j => by
    have hput : c.slots = (((A.putSlot t none).putSlot e (some (y.given s w)))).slots := by
      show (A.recallClosed t x a).slots.set e.val _ e.isLt = _
      rw [recallClosed_slots]
      rfl
    have hq' : (q.putSlot t none).slots = ((A.putSlot t none).putSlot e (some (y.given s w))).slots := by
      rw [← putSlot_comm (s := A) hy.other.symm (some (y.given s w)) none]
      exact (congrArg State.slots (putSlot_putSlot (A.putSlot e (some (y.given s w))) t (some x.met.released) none) :)
    unfold State.getSlot
    rw [hput, hq']
  have hdrain := drain_behind_drop (n := n) (v := v) hclosing h.other hleave hcquiet hgot
    huntracked (by rw [hwkind]; exact h.kind) hwlive
    (by rw [show c.answerQ = s.answerQ from recallClosed_answerQ A t x a]; exact hroom)
  have hBslots : B.getSlot u = none := (getSlot_putSlot_of_ne hue _).trans ((recallClosed_getSlot s t x a u).trans
    ((getSlot_putSlot_of_ne h.other _).trans (lowestFree_getSlot h.free)))
  have hBc : c.slots = B.slots := by
    show (A.recallClosed t x a).slots.set e.val _ e.isLt = (s.recallClosed t x a).slots.set e.val _ e.isLt
    rw [recallClosed_slots, recallClosed_slots]
    rfl
  have hdropped : c.dropped u n l v = State.answeredStale B n l rest :=
    dropped_recallClosed rfl rfl (hcdir.trans hBdir.symm) hBc rfl hBslots h.arrives.windowLive
  rw [hdropped] at hdrain
  rw [givenWay_recallClosed]
  refine h.exec (k := 9) (by decide) ?_
  rw [h.meets hrecall, hfreed, hfree, hover]
  refine drain_handedOver (s := s) (y := y) (w := w) (b := b) (l := l) (t := t) (o := o) ?_ ⟨h.arrives.quiet.noHeldOrder, h.arrives.quiet.noHeldAnswer⟩ hy
    (fun j => (admitted_windowState s n v rest j).1) rfl hmem horder ?_
  · exact (getSlot_putSlot_of_ne hy.other _).trans (getSlot_putSlot_self ..)
  · rw [hstate]
    exact hdrain

/-! ## A read request that goes to memory -/

/-- A read request whose wait is met reserves its way again; the DROP stays parked behind it. -/
theorem exec_drop_fetches (h : s.Arrives .drop n l v rest) (hline : s.onLine l ≠ []) (hfree : s.lowestFree = some u)
    (hwatch : s.observer l n = [t]) (hx : s.getSlot t = some x) (hp : x.pending = none) (hr : x.rebuild = none)
    (hw : x.working = some ⟨w, ct⟩) (hb : (s.getWay (setOf l) w).body.check = .good) (hk : x.kind.recall = false)
    (hq : x.requester = some o) (hmem : s.mem = .live) (hroom : s.orderQ.length < 64) : exec .drop s = .next (State.driveEventN
      { ((s.parked .drop n l v rest u).putSlot t (some (x.refetches s w))).putSet (setOf l) ((s.getSet (setOf l)).givenTo w l t) with
        orderQ := s.orderQ ++ [.fetch l o false] }) := by
  let P : State := s.parked .drop n l v rest u
  have hut : t ≠ u := fun hut => by
    have hnone := lowestFree_getSlot hfree
    rw [← hut, hx] at hnone
    cases hnone
  have hslot : P.getSlot t = some x := (getSlot_putSlot_of_ne hut _).trans hx
  have hfetch := meetObserving_fetches (s := P) ⟨h.quiet.noHeldOrder, h.quiet.noHeldAnswer⟩ h.canonical hslot hp hr hk hq
    (observer_mem hwatch hx).1 hw hb hmem hroom
  have hquiet : P.Quiet := (h.quiet.admitted n v rest).putPlain u rfl
  refine exec_drop_meets h hline hfree hwatch (j := 1) (by decide) ?_
  rw [show (s.parked .drop n l v rest u).meetObserving t = _ from hfetch]
  refine drain_settle (Quiet_settled ?_) 0
  exact State.Quiet.slotted (hquiet.putSet (setOf l) (r := (s.getSet (setOf l)).givenTo w l t) (h.quiet.frozenSet (setOf l)))
    (u := t) (y := x.refetches s w) rfl hr

end

/-- Settles O38: the request parks; a DROP meets the wait on its release, which sends a FETCH, or refuses the request or closes the
recall and then lets the DROP activate. -/
theorem admittedRequestParks : Obligations.AdmittedRequestParks := by
  unfold Obligations.AdmittedRequestParks
  intro s k n l v rest u h hline hfree
  refine ⟨fun hno => exec_parks h hline hfree hno, fun t x w hk hwatch hx hp hr hw hb => ?_⟩
  subst hk
  intro freed reads gone stale
  have hmeets : gone → s.MeetsAlone n l v rest u t x w := fun ⟨halone, hrank, _, hkind, hsound, hothers⟩ =>
    ⟨h, hfree, hwatch, hx, hp, hr, hw, hb, halone, hrank, hkind, hsound, hothers⟩
  refine ⟨fun o hread hq hmem hroom => ?_, fun o a hread hgone hs hq hmem ho hroom => ?_,
    fun a hgone hk hq hwin hgo hroom => ⟨fun hv => ?_, fun e y b o hk hv hy hmem horder => ?_⟩⟩
  · refine (exec_drop_fetches h hline hfree hwatch hx hp hr hw hb (recall_of_read hread) hq hmem hroom).trans ?_
    rw [← freed_given]
    rfl
  · exact (hmeets hgone).refuses hs (recall_of_read hread) (kind_ne_writeback hread) hq hmem ho hroom
  · exact (hmeets hgone).frees hk hq hwin hgo hroom hv
  · exact (hmeets hgone).gives hk hq hwin hgo hroom hv hy hmem horder


end Sys2Proof.Machine
